-- ==== Sys2Proof/Word.lean ====
section
/-! DEFINITION. The word types of the block: bytes of the heap, 64-bit registers, 32-bit command words. -/

namespace Sys2Proof

/-- One byte of the heap (20_memory.md R60). -/
abbrev Byte := BitVec 8

/-- A general or system register of 64 bits (10_state.md R20, R23). -/
abbrev Word := BitVec 64

/-- A command word of 32 bits, bit 31 the most significant (00_scope.md R8, 30_encoding.md R90). -/
abbrev CmdWord := BitVec 32

end Sys2Proof
end

