-- ==== Sys2Proof/Config.lean ====
section
/-! DEFINITION. What an instance of the block fixes and the spec leaves open: HEAP_MAX_BYTES.

The other parameters of 00_scope.md R6 are fixed by the spec and stand as the literals of its
pseudocode where they are used: ALIGN 16, MIN_CHUNK 16, TAG_BYTES 8, LINK_BYTES 8, HEAP_BASE 8,
BIN_STEP 64, BIN_CEIL 1024, NBINS 16, LIMBS 8, LIMB_BITS 16, XLEN 64, NREGS 16. -/

namespace Sys2Proof

/-- DESIGN CHOICE (safe, log 1). The open choice behind HEAP_MAX_BYTES, with no body: nothing can be proved of it but its
width, which keeps the parameter below 2^62 (00_scope.md R6, 93_implementation_defined.md P1). -/
opaque Config.heapMaxChoice : BitVec 62

/-- HEAP_MAX_BYTES, with the spec's constraint `24 <= HEAP_MAX_BYTES < 2^62` and no other
(00_scope.md R6). Every value the constraint allows is the value for some choice. -/
def Config.heapMaxBytes : Nat := max 24 Config.heapMaxChoice.toNat

end Sys2Proof
end

