-- ==== Sys2Proof/Syntax.lean ====
section
/-! DEFINITION. The command set as syntax: one constructor of `Instr` for each row of the opcode map (30_encoding.md R96),
register numbers, engine modes and widths, system register names. -/

namespace Sys2Proof

/-- A general register number, x0 to x15 (10_state.md R20). -/
abbrev Reg := Fin 16

/-- The engine mode of a command word, bit 26 (30_encoding.md R91, R93). -/
inductive Mode where
  | native
  | arithmetic
deriving DecidableEq, Repr

/-- The engine width of a command word, bits 25:24 (30_encoding.md R91). -/
inductive Width where
  | w8
  | w16
  | w32
  | w64
deriving DecidableEq, Repr

/-- The system registers (10_state.md R23); `bin k` is number 16 + k. -/
inductive SysReg where
  | status
  | faultCmd
  | faultInfo
  | cmdseq
  | flags
  | carryLo
  | carryHi
  | heapCap
  | bump
  | large
  | heapMax
  | bin (k : Fin 16)
deriving DecidableEq, Repr

/-- The 61 commands of 30_encoding.md R96. The fields stand in the order mode, width, rd, rs1, rs2, rs3, immediate, each only
where the command's row uses it. The immediate is the 20-bit field `imm20` (R92): LDIS uses its low 16 bits and needs the high four
to be 0 (R95), which `Instr.wellFormed` checks; RDSR's is the system register number, any number being a command (R97). -/
inductive Instr where
  -- System and register commands (40_system.md)
  /-- NOP, opcode 0x01: R120. -/
  | nop
  /-- LDI, opcode 0x02: R121. -/
  | ldi (rd : Reg) (imm : BitVec 20)
  /-- LDIS, opcode 0x03: R122. -/
  | ldis (rd : Reg) (imm : BitVec 20)
  /-- MOV, opcode 0x04: R123. -/
  | mov (rd rs1 : Reg)
  /-- RDSR, opcode 0x05: R124. -/
  | rdsr (rd : Reg) (imm : BitVec 20)
  -- Heap commands (41_heap.md)
  /-- HINIT, opcode 0x10: R131. -/
  | hinit (rs1 : Reg)
  /-- HENSURE, opcode 0x11: R132. -/
  | hensure (rs1 : Reg)
  /-- LD8, opcode 0x12: R133. -/
  | ld8 (rd rs1 : Reg)
  /-- LD16, opcode 0x13: R134. -/
  | ld16 (rd rs1 : Reg)
  /-- LD32, opcode 0x14: R135. -/
  | ld32 (rd rs1 : Reg)
  /-- LD64, opcode 0x15: R136. -/
  | ld64 (rd rs1 : Reg)
  /-- ST8, opcode 0x16: R137. -/
  | st8 (rs1 rs2 : Reg)
  /-- ST16, opcode 0x17: R138. -/
  | st16 (rs1 rs2 : Reg)
  /-- ST32, opcode 0x18: R139. -/
  | st32 (rs1 rs2 : Reg)
  /-- ST64, opcode 0x19: R140. -/
  | st64 (rs1 rs2 : Reg)
  /-- MEMCPY, opcode 0x1A: R141. -/
  | memcpy (rs1 rs2 rs3 : Reg)
  /-- MEMMOVE, opcode 0x1B: R142. -/
  | memmove (rs1 rs2 rs3 : Reg)
  /-- MEMSET, opcode 0x1C: R143. -/
  | memset (rs1 rs2 rs3 : Reg)
  -- Allocator commands (42_allocator.md)
  /-- MALLOC, opcode 0x20: R175. -/
  | malloc (rd rs1 : Reg)
  /-- CALLOC, opcode 0x21: R176. -/
  | calloc (rd rs1 rs2 : Reg)
  /-- FREE, opcode 0x22: R177. -/
  | free (rs1 : Reg)
  /-- REALLOC, opcode 0x23: R178. -/
  | realloc (rd rs1 rs2 : Reg)
  -- Engine commands (43_engine.md)
  /-- SHL, opcode 0x30: R210. -/
  | shl (m : Mode) (w : Width) (rd rs1 rs2 : Reg)
  /-- SHR, opcode 0x31: R211. -/
  | shr (m : Mode) (w : Width) (rd rs1 rs2 : Reg)
  /-- USHR, opcode 0x32: R212. -/
  | ushr (m : Mode) (w : Width) (rd rs1 rs2 : Reg)
  /-- BSHL, opcode 0x33: R213. -/
  | bshl (m : Mode) (w : Width) (rd rs1 rs2 : Reg)
  /-- BSHR, opcode 0x34: R214. -/
  | bshr (m : Mode) (w : Width) (rd rs1 rs2 : Reg)
  /-- BUSHR, opcode 0x35: R215. -/
  | bushr (m : Mode) (w : Width) (rd rs1 rs2 : Reg)
  /-- AND, opcode 0x36: R216. -/
  | and (m : Mode) (w : Width) (rd rs1 rs2 : Reg)
  /-- OR, opcode 0x37: R217. -/
  | or (m : Mode) (w : Width) (rd rs1 rs2 : Reg)
  /-- XOR, opcode 0x38: R218. -/
  | xor (m : Mode) (w : Width) (rd rs1 rs2 : Reg)
  /-- NOT, opcode 0x39: R219. -/
  | not (m : Mode) (w : Width) (rd rs1 : Reg)
  /-- BTEST, opcode 0x3A: R220. -/
  | btest (m : Mode) (w : Width) (rd rs1 rs2 : Reg)
  /-- BSET, opcode 0x3B: R221. -/
  | bset (m : Mode) (w : Width) (rd rs1 rs2 : Reg)
  /-- BCLR, opcode 0x3C: R222. -/
  | bclr (m : Mode) (w : Width) (rd rs1 rs2 : Reg)
  /-- BTGL, opcode 0x3D: R223. -/
  | btgl (m : Mode) (w : Width) (rd rs1 rs2 : Reg)
  /-- POPCNT, opcode 0x3E: R224. -/
  | popcnt (m : Mode) (w : Width) (rd rs1 : Reg)
  /-- MASK, opcode 0x3F: R225. -/
  | mask (m : Mode) (w : Width) (rd rs1 : Reg)
  /-- SEXT, opcode 0x40: R226. -/
  | sext (m : Mode) (w : Width) (rd rs1 rs2 : Reg)
  /-- ZEXT, opcode 0x41: R227. -/
  | zext (m : Mode) (w : Width) (rd rs1 rs2 : Reg)
  /-- BDEC, opcode 0x42: R228. -/
  | bdec (m : Mode) (w : Width) (rs1 rs2 : Reg)
  /-- BCOMP, opcode 0x43: R229. -/
  | bcomp (m : Mode) (w : Width) (rd rs1 : Reg)
  -- Limb commands (44_limb.md)
  /-- ADDH, opcode 0x50: R255. -/
  | addh (m : Mode) (rd rs1 rs2 rs3 : Reg)
  /-- SUBH, opcode 0x51: R256. -/
  | subh (m : Mode) (rd rs1 rs2 rs3 : Reg)
  /-- CMPH, opcode 0x52: R257. -/
  | cmph (rd rs1 rs2 : Reg)
  /-- SHLH, opcode 0x53: R258. -/
  | shlh (m : Mode) (rs1 rs2 rs3 : Reg)
  /-- SHRH, opcode 0x54: R259. -/
  | shrh (m : Mode) (rs1 rs2 rs3 : Reg)
  /-- ZEROH, opcode 0x55: R260. -/
  | zeroh (rs1 : Reg)
  /-- WRU64H, opcode 0x56: R261. -/
  | wru64h (rs1 rs2 : Reg)
  /-- HEXH, opcode 0x57: R262. -/
  | hexh (rs1 rs2 : Reg)
  -- 128-bit typed commands (45_int128.md)
  /-- UADD, opcode 0x60: R282. -/
  | uadd (m : Mode) (rs1 rs2 rs3 : Reg)
  /-- USUB, opcode 0x61: R283. -/
  | usub (m : Mode) (rs1 rs2 rs3 : Reg)
  /-- USHL, opcode 0x62: R284. -/
  | ushl (m : Mode) (rs1 rs2 rs3 : Reg)
  /-- USRL, opcode 0x63: R285. -/
  | usrl (m : Mode) (rs1 rs2 rs3 : Reg)
  /-- WRS64H, opcode 0x68: R286. -/
  | wrs64h (rs1 rs2 : Reg)
  /-- SNEG, opcode 0x69: R287. -/
  | sneg (m : Mode) (rs1 rs2 : Reg)
  /-- SADD, opcode 0x6A: R288. -/
  | sadd (m : Mode) (rs1 rs2 rs3 : Reg)
  /-- SSUB, opcode 0x6B: R289. -/
  | ssub (m : Mode) (rs1 rs2 rs3 : Reg)
  /-- SSHL, opcode 0x6C: R290. -/
  | sshl (m : Mode) (rs1 rs2 rs3 : Reg)
  /-- SSAR, opcode 0x6D: R291. -/
  | ssar (m : Mode) (rs1 rs2 rs3 : Reg)
  /-- SCMP, opcode 0x6E: R292. -/
  | scmp (rd rs1 rs2 : Reg)
deriving DecidableEq, Repr

end Sys2Proof
end

