-- ==== Sys2Proof/Machine/State.lean ====
section
/-! DEFINITION. The state of one block (10_state.md), the moves of its host (60_exceptions.md R330), the spec's fault conditions
(R310), how a step of the model can stop, and the state after reset (R50). State is plain data. -/

namespace Sys2Proof.Machine

/-- The eight fault conditions of the block (60_exceptions.md R310). Every one of them is TAKEN: the fault is latched in the state
(R320) and the step answers a next state. -/
inductive FaultKind where
  /-- Code 1: the heap cannot be made large enough (R311). -/
  | outOfMemory
  /-- Code 2: a malformed size, count, shift amount, bit index, width or address argument (R312). -/
  | invalidArgument
  /-- Code 3: a 128-bit typed add, subtract, negate or left shift does not fit the type (R313). -/
  | arithmeticOverflow
  /-- Code 4: an unsigned 128-bit subtraction would go below 0 (R314). -/
  | arithmeticUnderflow
  /-- Code 5: a boundary tag or free-list link fails a consistency check (R315). -/
  | corruptionDetected
  /-- Code 6: a heap access outside 0 to CAP - 1 (R316). -/
  | addressOutOfRange
  /-- Code 7: a heap command before HINIT, or a second HINIT (R317). -/
  | heapState
  /-- Code 8: the word is no command, or RDSR of an undefined number (R318). -/
  | illegalCommand
deriving DecidableEq, Repr

/-- What a command's pseudocode raises: `raise F(info)` (00_scope.md R9). -/
structure Raise where
  kind : FaultKind
  info : Nat
deriving DecidableEq, Repr

/-- One move of the host (60_exceptions.md R330). -/
inductive HostMove where
  /-- Reset (70_reset_and_hazards.md R350). -/
  | reset
  /-- Present a command word. -/
  | issue (w : CmdWord)
  /-- Read x[i]. -/
  | readReg (r : Reg)
  /-- Write x[i] <- v. -/
  | writeReg (r : Reg) (v : Nat)
  /-- Read a defined system register. -/
  | readSysReg (r : SysReg)
  /-- Clear the latched fault (R325). -/
  | faultClear
deriving DecidableEq, Repr

/-- One entry of the observable trace: a move and the value it returned to the host, if it returns one (R330). -/
structure Observation where
  move : HostMove
  returned : Option Word
deriving DecidableEq, Repr

/-- The heap's bytes: (address, byte) pairs. An address the list does not hold reads 0, the value every byte of MEM has when it
comes into existence (41_heap.md R130, R131). The canonical form is `Memory.wf`. -/
abbrev Memory := List Host.Cell

/-- The complete state of one block (10_state.md), with the specification-only set LIVE (R45), and two fields of the model's own:
the host's coming moves and the trace of what it observed (60_exceptions.md R330, R331). -/
structure State where
  /-- General registers x[0] to x[15] (R20). -/
  x : Vector Word 16
  /-- CMDSEQ, the number of completed commands (R27). -/
  cmdseq : Word
  /-- STATUS.F: a fault is latched (R24). -/
  fault : Bool
  /-- STATUS.CODE: the code of the latched fault (R24). -/
  code : BitVec 8
  /-- FAULTCMD (R25). -/
  faultCmd : CmdWord
  /-- FAULTINFO (R26). -/
  faultInfo : Word
  /-- FLAGS.V (R28). -/
  flagV : Bool
  /-- CARRYLO (R29). -/
  carryLo : Word
  /-- CARRYHI (R29). -/
  carryHi : Word
  /-- INIT, also STATUS.INIT: the heap exists (R24, R40). -/
  init : Bool
  /-- CAP, read as HEAPCAP: the size of the heap in bytes (R30, R40). -/
  cap : Nat
  /-- MEM[0 .. CAP-1] (R40). -/
  mem : Memory
  /-- BIN[0] to BIN[15]: the heads of the size-class lists (R33). -/
  bin : Vector Word 16
  /-- LARGE: the head of the large list (R32). -/
  large : Word
  /-- BUMP: where the next bump-allocated chunk's header goes (R31). -/
  bump : Word
  /-- HEAPMAX: the parameter HEAP_MAX_BYTES of this block. No step changes it (R34). -/
  heapMax : Nat
  /-- LIVE: the allocated payload addresses, strictly rising; specification-only (R45). -/
  live : List Nat
  /-- The model's own: the moves the host has still to make, the next one first. -/
  host : List HostMove
  /-- The model's own: the observable trace so far, the newest entry first. -/
  trace : List Observation
deriving DecidableEq, Repr

/-- How a step of the model could end in a stop that is the machine's. There is none: every fault of the spec is a next state with
the fault latched (60_exceptions.md R320), and no condition makes the block unrecoverable (R333). Nobody raises one. -/
inductive Fault where
deriving DecidableEq, Repr

/-- Why a step of the model has no meaning to give. -/
inductive Refusal where
  /-- A command that has no meaning in the model yet. Raised by an arm of `exec` only; no arm raises it now. Safe: nothing is claimed
  of such a step. -/
  | notModelled (mnemonic : String)
  /-- The host made the fault-clear move while STATUS.F = 0. Raised by the host port only (no command raises it): R325 calls the
  move legal only when STATUS.F = 1 and gives it no effect otherwise. Safe: nothing is claimed of such a step (log 4). -/
  | faultClearNotLegal
deriving DecidableEq, Repr

/-- The block right after reset (10_state.md R50, 70_reset_and_hazards.md R350): no fault, no heap, every register 0, and HEAPMAX
the parameter of the instance. No host move is pending and nothing has been observed. -/
def State.reset : State where
  x := Vector.replicate 16 0
  cmdseq := 0
  fault := false
  code := 0
  faultCmd := 0
  faultInfo := 0
  flagV := false
  carryLo := 0
  carryHi := 0
  init := false
  cap := 0
  mem := []
  bin := Vector.replicate 16 0
  large := 0
  bump := 0
  heapMax := Config.heapMaxBytes
  live := []
  host := []
  trace := []

end Sys2Proof.Machine
end

