-- ==== Sys2Proof/Machine/Flags.lean ====
section
/-! DEFINITION. The flag computations: FLAGS.V and CARRYHI:CARRYLO, written by the six engine shifts and by ADDH, SUBH, SHLH and
SHRH and by nothing else (10_state.md R28, R29). -/

namespace Sys2Proof.Machine

/-- An engine shift's carry: CARRYLO <- carry, CARRYHI <- 0, V <- (carry != 0) (43_engine.md R201). -/
def State.setShiftCarry (s : State) (carry : Nat) : State :=
  { s with carryLo := BitVec.ofNat 64 carry, carryHi := 0, flagV := decide (carry ≠ 0) }

/-- ADDH's carry or SUBH's borrow: CARRYLO <- c, CARRYHI <- 0, V <- (c = 1) (44_limb.md R255, R256). -/
def State.setLimbCarry (s : State) (c : Nat) : State :=
  { s with carryLo := BitVec.ofNat 64 c, carryHi := 0, flagV := decide (c = 1) }

/-- The 128-bit spill of SHLH or SHRH: CARRYLO <- sp mod 2^64, CARRYHI <- sp div 2^64, V <- (sp != 0) (44_limb.md R258, R259). -/
def State.setSpill (s : State) (sp : Nat) : State :=
  { s with carryLo := BitVec.ofNat 64 (sp % 2 ^ 64), carryHi := BitVec.ofNat 64 (sp / 2 ^ 64), flagV := decide (sp ≠ 0) }

end Sys2Proof.Machine
end

