-- ==== Sys2Proof/WellFormed.lean ====
section
/-! DEFINITION. What a command must satisfy beyond its types to have a word: the one bound on an operand that the encoding
states and the type of the operand does not. -/

namespace Sys2Proof

/-- LDIS takes a 16-bit immediate: `imm20[19:16]` (word bits 31:28) must be 0 (30_encoding.md R95 (b)). Every other field of
every command takes all the values of its type: register numbers 0 to 15, two modes, four widths, every 20-bit immediate of LDI,
and every 20-bit number of RDSR (an undefined number decodes as RDSR and faults in its own rule, R97). -/
def Instr.wellFormed : Instr → Bool
  | .ldis _ imm => imm.toNat < 65536
  | _ => true

end Sys2Proof
end

