-- ==== Sys2Proof/Decode.lean ====
section
/-! DEFINITION. From command words to commands and back: byte order, bit fields, the decoder (30_encoding.md R90 to R99), the
encoder, and the word a row of the opcode table stands for. -/

namespace Sys2Proof

/-! ### Byte order (20_memory.md R64: least significant byte at the lowest address) -/

/-- The natural held little-endian in a list of bytes, lowest address first (20_memory.md R62). -/
def leNat : List Byte → Nat
  | [] => 0
  | b :: bs => b.toNat + 256 * leNat bs

/-- The `n` bytes of `v mod 2^(8n)`, lowest address first (20_memory.md R63). -/
def leBytes : Nat → Nat → List Byte
  | 0, _ => []
  | n + 1, v => BitVec.ofNat 8 v :: leBytes n (v / 256)

/-! ### Fields of a command word (R91, R92) -/

/-- The `width` bits of a command word from bit `lo` up, as a natural (00_scope.md R8). -/
def field (w : CmdWord) (lo width : Nat) : Nat := w.toNat / 2 ^ lo % 2 ^ width

/-- The fields of format R (R91), by name. -/
inductive RField where
  | rd
  | rs1
  | rs2
  | rs3
  | wsel
  | mode
  /-- Bits 31:27, which must be 0 in every format R word. -/
  | zero
deriving DecidableEq, Repr

/-- The value of a format R field (R91). -/
def RField.get (w : CmdWord) : RField → Nat
  | .rd => field w 8 4
  | .rs1 => field w 12 4
  | .rs2 => field w 16 4
  | .rs3 => field w 20 4
  | .wsel => field w 24 2
  | .mode => field w 26 1
  | .zero => field w 27 5

/-- Bits 7:0 of every word (R90). -/
def opcodeOf (w : CmdWord) : Nat := field w 0 8

/-- A register number field as a register (R91). -/
def regOf (w : CmdWord) (f : RField) : Reg := Fin.ofNat 16 (f.get w)

/-- The mode field: 0 is NATIVE, 1 is ARITHMETIC (R91). -/
def modeOf (w : CmdWord) : Mode := if RField.mode.get w = 0 then .native else .arithmetic

/-- The width select field: 0 to 3 select 8, 16, 32 and 64 (R91). -/
def widthOf (w : CmdWord) : Width :=
  if RField.wsel.get w = 0 then .w8
  else if RField.wsel.get w = 1 then .w16
  else if RField.wsel.get w = 2 then .w32
  else .w64

/-- The 20-bit immediate of format I, bits 31:12 (R92). -/
def immOf (w : CmdWord) : BitVec 20 := BitVec.ofNat 20 (field w 12 20)

/-! ### The decoder -/

/-- Why a word, or a byte stream, holds no command (R94, R97). In the block all but the first are IllegalCommand. -/
inductive DecodeError where
  /-- Fewer than the four bytes of a command remain in the stream (R99). -/
  | truncated
  /-- The opcode byte is not in the opcode map (R97). -/
  | unknownOpcode (opcode : Nat)
  /-- A field the command does not use, or bits 31:27 of format R, or bits 31:28 of LDIS, is not 0 (R94, R95). -/
  | unusedFieldNotZero (opcode : Nat)
deriving DecidableEq, Repr

/-- One row of the opcode map: the command, if every field the row does not use is 0 (R94). Bits 31:27 are tested for every
format R row. -/
def rowR (w : CmdWord) (unused : List RField) (i : Instr) : Except DecodeError Instr :=
  if (RField.zero :: unused).all (fun f => f.get w == 0) then .ok i else .error (.unusedFieldNotZero (opcodeOf w))

/-- The command a 32-bit word stands for, or why it stands for none: the opcode alone selects the row (R90), the fields the row
does not use must be 0 (R94, R96). -/
def decode (w : CmdWord) : Except DecodeError Instr :=
  match opcodeOf w with
  -- System and register commands (40_system.md)
  | 0x01 => rowR w [.rd, .rs1, .rs2, .rs3, .wsel, .mode] .nop
  | 0x02 => .ok (.ldi (regOf w .rd) (immOf w))
  | 0x03 => if field w 28 4 = 0 then .ok (.ldis (regOf w .rd) (immOf w)) else .error (.unusedFieldNotZero (opcodeOf w))
  | 0x04 => rowR w [.rs2, .rs3, .wsel, .mode] (.mov (regOf w .rd) (regOf w .rs1))
  | 0x05 => .ok (.rdsr (regOf w .rd) (immOf w))
  -- Heap commands (41_heap.md)
  | 0x10 => rowR w [.rd, .rs2, .rs3, .wsel, .mode] (.hinit (regOf w .rs1))
  | 0x11 => rowR w [.rd, .rs2, .rs3, .wsel, .mode] (.hensure (regOf w .rs1))
  | 0x12 => rowR w [.rs2, .rs3, .wsel, .mode] (.ld8 (regOf w .rd) (regOf w .rs1))
  | 0x13 => rowR w [.rs2, .rs3, .wsel, .mode] (.ld16 (regOf w .rd) (regOf w .rs1))
  | 0x14 => rowR w [.rs2, .rs3, .wsel, .mode] (.ld32 (regOf w .rd) (regOf w .rs1))
  | 0x15 => rowR w [.rs2, .rs3, .wsel, .mode] (.ld64 (regOf w .rd) (regOf w .rs1))
  | 0x16 => rowR w [.rd, .rs3, .wsel, .mode] (.st8 (regOf w .rs1) (regOf w .rs2))
  | 0x17 => rowR w [.rd, .rs3, .wsel, .mode] (.st16 (regOf w .rs1) (regOf w .rs2))
  | 0x18 => rowR w [.rd, .rs3, .wsel, .mode] (.st32 (regOf w .rs1) (regOf w .rs2))
  | 0x19 => rowR w [.rd, .rs3, .wsel, .mode] (.st64 (regOf w .rs1) (regOf w .rs2))
  | 0x1A => rowR w [.rd, .wsel, .mode] (.memcpy (regOf w .rs1) (regOf w .rs2) (regOf w .rs3))
  | 0x1B => rowR w [.rd, .wsel, .mode] (.memmove (regOf w .rs1) (regOf w .rs2) (regOf w .rs3))
  | 0x1C => rowR w [.rd, .wsel, .mode] (.memset (regOf w .rs1) (regOf w .rs2) (regOf w .rs3))
  -- Allocator commands (42_allocator.md)
  | 0x20 => rowR w [.rs2, .rs3, .wsel, .mode] (.malloc (regOf w .rd) (regOf w .rs1))
  | 0x21 => rowR w [.rs3, .wsel, .mode] (.calloc (regOf w .rd) (regOf w .rs1) (regOf w .rs2))
  | 0x22 => rowR w [.rd, .rs2, .rs3, .wsel, .mode] (.free (regOf w .rs1))
  | 0x23 => rowR w [.rs3, .wsel, .mode] (.realloc (regOf w .rd) (regOf w .rs1) (regOf w .rs2))
  -- Engine commands (43_engine.md)
  | 0x30 => rowR w [.rs3] (.shl (modeOf w) (widthOf w) (regOf w .rd) (regOf w .rs1) (regOf w .rs2))
  | 0x31 => rowR w [.rs3] (.shr (modeOf w) (widthOf w) (regOf w .rd) (regOf w .rs1) (regOf w .rs2))
  | 0x32 => rowR w [.rs3] (.ushr (modeOf w) (widthOf w) (regOf w .rd) (regOf w .rs1) (regOf w .rs2))
  | 0x33 => rowR w [.rs3] (.bshl (modeOf w) (widthOf w) (regOf w .rd) (regOf w .rs1) (regOf w .rs2))
  | 0x34 => rowR w [.rs3] (.bshr (modeOf w) (widthOf w) (regOf w .rd) (regOf w .rs1) (regOf w .rs2))
  | 0x35 => rowR w [.rs3] (.bushr (modeOf w) (widthOf w) (regOf w .rd) (regOf w .rs1) (regOf w .rs2))
  | 0x36 => rowR w [.rs3] (.and (modeOf w) (widthOf w) (regOf w .rd) (regOf w .rs1) (regOf w .rs2))
  | 0x37 => rowR w [.rs3] (.or (modeOf w) (widthOf w) (regOf w .rd) (regOf w .rs1) (regOf w .rs2))
  | 0x38 => rowR w [.rs3] (.xor (modeOf w) (widthOf w) (regOf w .rd) (regOf w .rs1) (regOf w .rs2))
  | 0x39 => rowR w [.rs2, .rs3] (.not (modeOf w) (widthOf w) (regOf w .rd) (regOf w .rs1))
  | 0x3A => rowR w [.rs3] (.btest (modeOf w) (widthOf w) (regOf w .rd) (regOf w .rs1) (regOf w .rs2))
  | 0x3B => rowR w [.rs3] (.bset (modeOf w) (widthOf w) (regOf w .rd) (regOf w .rs1) (regOf w .rs2))
  | 0x3C => rowR w [.rs3] (.bclr (modeOf w) (widthOf w) (regOf w .rd) (regOf w .rs1) (regOf w .rs2))
  | 0x3D => rowR w [.rs3] (.btgl (modeOf w) (widthOf w) (regOf w .rd) (regOf w .rs1) (regOf w .rs2))
  | 0x3E => rowR w [.rs2, .rs3] (.popcnt (modeOf w) (widthOf w) (regOf w .rd) (regOf w .rs1))
  | 0x3F => rowR w [.rs2, .rs3] (.mask (modeOf w) (widthOf w) (regOf w .rd) (regOf w .rs1))
  | 0x40 => rowR w [.rs3] (.sext (modeOf w) (widthOf w) (regOf w .rd) (regOf w .rs1) (regOf w .rs2))
  | 0x41 => rowR w [.rs3] (.zext (modeOf w) (widthOf w) (regOf w .rd) (regOf w .rs1) (regOf w .rs2))
  | 0x42 => rowR w [.rd, .rs3] (.bdec (modeOf w) (widthOf w) (regOf w .rs1) (regOf w .rs2))
  | 0x43 => rowR w [.rs2, .rs3] (.bcomp (modeOf w) (widthOf w) (regOf w .rd) (regOf w .rs1))
  -- Limb commands (44_limb.md)
  | 0x50 => rowR w [.wsel] (.addh (modeOf w) (regOf w .rd) (regOf w .rs1) (regOf w .rs2) (regOf w .rs3))
  | 0x51 => rowR w [.wsel] (.subh (modeOf w) (regOf w .rd) (regOf w .rs1) (regOf w .rs2) (regOf w .rs3))
  | 0x52 => rowR w [.rs3, .wsel, .mode] (.cmph (regOf w .rd) (regOf w .rs1) (regOf w .rs2))
  | 0x53 => rowR w [.rd, .wsel] (.shlh (modeOf w) (regOf w .rs1) (regOf w .rs2) (regOf w .rs3))
  | 0x54 => rowR w [.rd, .wsel] (.shrh (modeOf w) (regOf w .rs1) (regOf w .rs2) (regOf w .rs3))
  | 0x55 => rowR w [.rd, .rs2, .rs3, .wsel, .mode] (.zeroh (regOf w .rs1))
  | 0x56 => rowR w [.rd, .rs3, .wsel, .mode] (.wru64h (regOf w .rs1) (regOf w .rs2))
  | 0x57 => rowR w [.rd, .rs3, .wsel, .mode] (.hexh (regOf w .rs1) (regOf w .rs2))
  -- 128-bit typed commands (45_int128.md)
  | 0x60 => rowR w [.rd, .wsel] (.uadd (modeOf w) (regOf w .rs1) (regOf w .rs2) (regOf w .rs3))
  | 0x61 => rowR w [.rd, .wsel] (.usub (modeOf w) (regOf w .rs1) (regOf w .rs2) (regOf w .rs3))
  | 0x62 => rowR w [.rd, .wsel] (.ushl (modeOf w) (regOf w .rs1) (regOf w .rs2) (regOf w .rs3))
  | 0x63 => rowR w [.rd, .wsel] (.usrl (modeOf w) (regOf w .rs1) (regOf w .rs2) (regOf w .rs3))
  | 0x68 => rowR w [.rd, .rs3, .wsel, .mode] (.wrs64h (regOf w .rs1) (regOf w .rs2))
  | 0x69 => rowR w [.rd, .rs3, .wsel] (.sneg (modeOf w) (regOf w .rs1) (regOf w .rs2))
  | 0x6A => rowR w [.rd, .wsel] (.sadd (modeOf w) (regOf w .rs1) (regOf w .rs2) (regOf w .rs3))
  | 0x6B => rowR w [.rd, .wsel] (.ssub (modeOf w) (regOf w .rs1) (regOf w .rs2) (regOf w .rs3))
  | 0x6C => rowR w [.rd, .wsel] (.sshl (modeOf w) (regOf w .rs1) (regOf w .rs2) (regOf w .rs3))
  | 0x6D => rowR w [.rd, .wsel] (.ssar (modeOf w) (regOf w .rs1) (regOf w .rs2) (regOf w .rs3))
  | 0x6E => rowR w [.rs3, .wsel, .mode] (.scmp (regOf w .rd) (regOf w .rs1) (regOf w .rs2))
  | op => .error (.unknownOpcode op)

/-- The command at the head of a byte stream and the bytes after it. A command word stored in a byte stream is little-endian
(20_memory.md R66) and always four bytes (R99). -/
def decodeBytes : List Byte → Except DecodeError (Instr × List Byte)
  | b0 :: b1 :: b2 :: b3 :: rest =>
    match decode (BitVec.ofNat 32 (leNat [b0, b1, b2, b3])) with
    | .ok i => .ok (i, rest)
    | .error e => .error e
  | _ => .error .truncated

/-! ### The encoder -/

/-- The width in bits an engine width stands for (R91, 43_engine.md R200). -/
def Width.bits : Width → Nat
  | .w8 => 8
  | .w16 => 16
  | .w32 => 32
  | .w64 => 64

/-- The `wsel` field of a width (R91). -/
def Width.select : Width → Nat
  | .w8 => 0
  | .w16 => 1
  | .w32 => 2
  | .w64 => 3

/-- The `mode` field of a mode (R91). -/
def Mode.select : Mode → Nat
  | .native => 0
  | .arithmetic => 1

/-- A format R word (R91): its fields stand side by side, so the `|` of the rule is a sum. -/
def wordR (opcode : Nat) (rd rs1 rs2 rs3 : Reg := 0) (wsel mode : Nat := 0) : CmdWord :=
  BitVec.ofNat 32 (opcode + rd.val * 2 ^ 8 + rs1.val * 2 ^ 12 + rs2.val * 2 ^ 16 + rs3.val * 2 ^ 20 + wsel * 2 ^ 24 + mode * 2 ^ 26)

/-- A format I word (R92). -/
def wordI (opcode : Nat) (rd : Reg) (imm : BitVec 20) : CmdWord :=
  BitVec.ofNat 32 (opcode + rd.val * 2 ^ 8 + imm.toNat * 2 ^ 12)

/-- The word of a command (R91, R92, R96). For a well-formed command it is the only word that decodes to it. -/
def encode : Instr → CmdWord
  -- System and register commands (40_system.md)
  | .nop => wordR 0x01
  | .ldi rd imm => wordI 0x02 rd imm
  | .ldis rd imm => wordI 0x03 rd imm
  | .mov rd rs1 => wordR 0x04 (rd := rd) (rs1 := rs1)
  | .rdsr rd imm => wordI 0x05 rd imm
  -- Heap commands (41_heap.md)
  | .hinit rs1 => wordR 0x10 (rs1 := rs1)
  | .hensure rs1 => wordR 0x11 (rs1 := rs1)
  | .ld8 rd rs1 => wordR 0x12 (rd := rd) (rs1 := rs1)
  | .ld16 rd rs1 => wordR 0x13 (rd := rd) (rs1 := rs1)
  | .ld32 rd rs1 => wordR 0x14 (rd := rd) (rs1 := rs1)
  | .ld64 rd rs1 => wordR 0x15 (rd := rd) (rs1 := rs1)
  | .st8 rs1 rs2 => wordR 0x16 (rs1 := rs1) (rs2 := rs2)
  | .st16 rs1 rs2 => wordR 0x17 (rs1 := rs1) (rs2 := rs2)
  | .st32 rs1 rs2 => wordR 0x18 (rs1 := rs1) (rs2 := rs2)
  | .st64 rs1 rs2 => wordR 0x19 (rs1 := rs1) (rs2 := rs2)
  | .memcpy rs1 rs2 rs3 => wordR 0x1A (rs1 := rs1) (rs2 := rs2) (rs3 := rs3)
  | .memmove rs1 rs2 rs3 => wordR 0x1B (rs1 := rs1) (rs2 := rs2) (rs3 := rs3)
  | .memset rs1 rs2 rs3 => wordR 0x1C (rs1 := rs1) (rs2 := rs2) (rs3 := rs3)
  -- Allocator commands (42_allocator.md)
  | .malloc rd rs1 => wordR 0x20 (rd := rd) (rs1 := rs1)
  | .calloc rd rs1 rs2 => wordR 0x21 (rd := rd) (rs1 := rs1) (rs2 := rs2)
  | .free rs1 => wordR 0x22 (rs1 := rs1)
  | .realloc rd rs1 rs2 => wordR 0x23 (rd := rd) (rs1 := rs1) (rs2 := rs2)
  -- Engine commands (43_engine.md)
  | .shl m w rd rs1 rs2 => wordR 0x30 (rd := rd) (rs1 := rs1) (rs2 := rs2) (wsel := w.select) (mode := m.select)
  | .shr m w rd rs1 rs2 => wordR 0x31 (rd := rd) (rs1 := rs1) (rs2 := rs2) (wsel := w.select) (mode := m.select)
  | .ushr m w rd rs1 rs2 => wordR 0x32 (rd := rd) (rs1 := rs1) (rs2 := rs2) (wsel := w.select) (mode := m.select)
  | .bshl m w rd rs1 rs2 => wordR 0x33 (rd := rd) (rs1 := rs1) (rs2 := rs2) (wsel := w.select) (mode := m.select)
  | .bshr m w rd rs1 rs2 => wordR 0x34 (rd := rd) (rs1 := rs1) (rs2 := rs2) (wsel := w.select) (mode := m.select)
  | .bushr m w rd rs1 rs2 => wordR 0x35 (rd := rd) (rs1 := rs1) (rs2 := rs2) (wsel := w.select) (mode := m.select)
  | .and m w rd rs1 rs2 => wordR 0x36 (rd := rd) (rs1 := rs1) (rs2 := rs2) (wsel := w.select) (mode := m.select)
  | .or m w rd rs1 rs2 => wordR 0x37 (rd := rd) (rs1 := rs1) (rs2 := rs2) (wsel := w.select) (mode := m.select)
  | .xor m w rd rs1 rs2 => wordR 0x38 (rd := rd) (rs1 := rs1) (rs2 := rs2) (wsel := w.select) (mode := m.select)
  | .not m w rd rs1 => wordR 0x39 (rd := rd) (rs1 := rs1) (wsel := w.select) (mode := m.select)
  | .btest m w rd rs1 rs2 => wordR 0x3A (rd := rd) (rs1 := rs1) (rs2 := rs2) (wsel := w.select) (mode := m.select)
  | .bset m w rd rs1 rs2 => wordR 0x3B (rd := rd) (rs1 := rs1) (rs2 := rs2) (wsel := w.select) (mode := m.select)
  | .bclr m w rd rs1 rs2 => wordR 0x3C (rd := rd) (rs1 := rs1) (rs2 := rs2) (wsel := w.select) (mode := m.select)
  | .btgl m w rd rs1 rs2 => wordR 0x3D (rd := rd) (rs1 := rs1) (rs2 := rs2) (wsel := w.select) (mode := m.select)
  | .popcnt m w rd rs1 => wordR 0x3E (rd := rd) (rs1 := rs1) (wsel := w.select) (mode := m.select)
  | .mask m w rd rs1 => wordR 0x3F (rd := rd) (rs1 := rs1) (wsel := w.select) (mode := m.select)
  | .sext m w rd rs1 rs2 => wordR 0x40 (rd := rd) (rs1 := rs1) (rs2 := rs2) (wsel := w.select) (mode := m.select)
  | .zext m w rd rs1 rs2 => wordR 0x41 (rd := rd) (rs1 := rs1) (rs2 := rs2) (wsel := w.select) (mode := m.select)
  | .bdec m w rs1 rs2 => wordR 0x42 (rs1 := rs1) (rs2 := rs2) (wsel := w.select) (mode := m.select)
  | .bcomp m w rd rs1 => wordR 0x43 (rd := rd) (rs1 := rs1) (wsel := w.select) (mode := m.select)
  -- Limb commands (44_limb.md)
  | .addh m rd rs1 rs2 rs3 => wordR 0x50 (rd := rd) (rs1 := rs1) (rs2 := rs2) (rs3 := rs3) (mode := m.select)
  | .subh m rd rs1 rs2 rs3 => wordR 0x51 (rd := rd) (rs1 := rs1) (rs2 := rs2) (rs3 := rs3) (mode := m.select)
  | .cmph rd rs1 rs2 => wordR 0x52 (rd := rd) (rs1 := rs1) (rs2 := rs2)
  | .shlh m rs1 rs2 rs3 => wordR 0x53 (rs1 := rs1) (rs2 := rs2) (rs3 := rs3) (mode := m.select)
  | .shrh m rs1 rs2 rs3 => wordR 0x54 (rs1 := rs1) (rs2 := rs2) (rs3 := rs3) (mode := m.select)
  | .zeroh rs1 => wordR 0x55 (rs1 := rs1)
  | .wru64h rs1 rs2 => wordR 0x56 (rs1 := rs1) (rs2 := rs2)
  | .hexh rs1 rs2 => wordR 0x57 (rs1 := rs1) (rs2 := rs2)
  -- 128-bit typed commands (45_int128.md)
  | .uadd m rs1 rs2 rs3 => wordR 0x60 (rs1 := rs1) (rs2 := rs2) (rs3 := rs3) (mode := m.select)
  | .usub m rs1 rs2 rs3 => wordR 0x61 (rs1 := rs1) (rs2 := rs2) (rs3 := rs3) (mode := m.select)
  | .ushl m rs1 rs2 rs3 => wordR 0x62 (rs1 := rs1) (rs2 := rs2) (rs3 := rs3) (mode := m.select)
  | .usrl m rs1 rs2 rs3 => wordR 0x63 (rs1 := rs1) (rs2 := rs2) (rs3 := rs3) (mode := m.select)
  | .wrs64h rs1 rs2 => wordR 0x68 (rs1 := rs1) (rs2 := rs2)
  | .sneg m rs1 rs2 => wordR 0x69 (rs1 := rs1) (rs2 := rs2) (mode := m.select)
  | .sadd m rs1 rs2 rs3 => wordR 0x6A (rs1 := rs1) (rs2 := rs2) (rs3 := rs3) (mode := m.select)
  | .ssub m rs1 rs2 rs3 => wordR 0x6B (rs1 := rs1) (rs2 := rs2) (rs3 := rs3) (mode := m.select)
  | .sshl m rs1 rs2 rs3 => wordR 0x6C (rs1 := rs1) (rs2 := rs2) (rs3 := rs3) (mode := m.select)
  | .ssar m rs1 rs2 rs3 => wordR 0x6D (rs1 := rs1) (rs2 := rs2) (rs3 := rs3) (mode := m.select)
  | .scmp rd rs1 rs2 => wordR 0x6E (rd := rd) (rs1 := rs1) (rs2 := rs2)

/-! ### The word of a row of the opcode table -/

/-- The command the decoder reads from an instruction whose bits are `w`, as the opcode table numbers them: `nbits` bits are
given and the bits above them, up to the 32 of a command (R99), are 0. The word is laid out as four little-endian bytes (R66) and
given to the byte decoder. -/
def decodeTableWord (nbits w : Nat) : Option Instr :=
  match decodeBytes (leBytes 4 (w % 2 ^ nbits)) with
  | .ok (i, _) => some i
  | .error _ => none

end Sys2Proof
end

