-- ==== Sys2Proof/Machine/Operands.lean ====
section
/-! DEFINITION. Operand forms: registers as naturals and as signed integers, engine operands, immediates, 128-bit values and their
limbs, system registers (00_scope.md R9, 10_state.md R20 to R34 and R46, 30_encoding.md R95, 43_engine.md R200). -/

namespace Sys2Proof.Machine

/-! ### Readings of a number (00_scope.md R9) -/

/-- `sgn_64` of a natural (R9). -/
def sgn64 (v : Nat) : Int := (BitVec.ofNat 64 v).toInt

/-- `sgn_128` of a natural below 2^128 (45_int128.md R281). -/
def sgn128 (v : Nat) : Int := if v < 2 ^ 127 then (v : Int) else (v : Int) - 2 ^ 128

/-- `neg(X)`: bit 127 is set (45_int128.md R281). -/
def neg128 (v : Nat) : Bool := 2 ^ 127 ≤ v

/-- An integer result as a register or a region of `n` bits stores it: `v mod 2^n`. -/
def wrapInt (n : Nat) (v : Int) : Nat := (v % 2 ^ n).toNat

/-! ### Registers -/

/-- x[i] as a natural below 2^64 (R9). -/
def State.reg (s : State) (r : Reg) : Nat := s.x[r].toNat

/-- x[i] as `sgn_64` reads it (R9). -/
def State.regInt (s : State) (r : Reg) : Int := s.x[r].toInt

/-- x[i] <- v writes `v mod 2^64` (R9). No register is hardwired (10_state.md R20). -/
def State.setReg (s : State) (r : Reg) (v : Nat) : State := { s with x := s.x.set r.val (BitVec.ofNat 64 v) }

/-- A value operand of an engine command: the register reduced mod 2^W (43_engine.md R200). -/
def State.engineValue (s : State) (w : Width) (r : Reg) : Nat := s.reg r % 2 ^ w.bits

/-! ### Immediates (30_encoding.md R95) -/

/-- LDI's immediate, `sext_20(imm20)`, as the 64-bit value it is. -/
def ldiValue (imm : BitVec 20) : Nat := (imm.signExtend 64).toNat

/-- LDIS's immediate, `imm20[15:0]`. -/
def ldisValue (imm : BitVec 20) : Nat := imm.toNat % 65536

/-- The system register a number names: 0 to 10 and 16 to 31 are defined (10_state.md R23). -/
def sysRegOf : Nat → Option SysReg
  | 0 => some .status
  | 1 => some .faultCmd
  | 2 => some .faultInfo
  | 3 => some .cmdseq
  | 4 => some .flags
  | 5 => some .carryLo
  | 6 => some .carryHi
  | 7 => some .heapCap
  | 8 => some .bump
  | 9 => some .large
  | 10 => some .heapMax
  | n => if 16 ≤ n ∧ n ≤ 31 then some (.bin (Fin.ofNat 16 (n - 16))) else none

/-! ### System registers (10_state.md R23) -/

/-- STATUS as its fields stand: F in bit 0, INIT in bit 1, CODE in bits 15 to 8, the other bits 0 (R24). -/
def State.status (s : State) : Word :=
  BitVec.ofNat 64 (s.fault.toNat + 2 * s.init.toNat + 256 * s.code.toNat)

/-- The 64-bit value of a system register, narrower ones zero-extended (R23). -/
def State.sysReg (s : State) : SysReg → Word
  | .status => s.status
  | .faultCmd => s.faultCmd.setWidth 64
  | .faultInfo => s.faultInfo
  | .cmdseq => s.cmdseq
  | .flags => BitVec.ofNat 64 s.flagV.toNat
  | .carryLo => s.carryLo
  | .carryHi => s.carryHi
  | .heapCap => BitVec.ofNat 64 s.cap
  | .bump => s.bump
  | .large => s.large
  | .heapMax => BitVec.ofNat 64 s.heapMax
  | .bin k => s.bin[k]

/-! ### Limbs of a 128-bit value (10_state.md R46) -/

/-- Limb `i` of a 128-bit value: 16 bits, limb 0 the least significant. -/
def limb (v i : Nat) : Nat := v / 2 ^ (16 * i) % 65536

end Sys2Proof.Machine
end

