-- ==== Sys2Proof/Machine/Ops.lean ====
section
/-! DEFINITION. The named operations every command is built from: the heap's bytes, MemRead and MemWrite (20_memory.md R62, R63),
growth (41_heap.md R130), taking a fault and returning from one (60_exceptions.md R320, R325), and running a command as one
transaction (00_scope.md R10, 10_state.md R27). -/

namespace Sys2Proof.Machine

/-! ### The bytes of the heap -/

/-- The canonical form of the memory: addresses strictly rising, and no entry that equals what an unlisted address reads as. -/
abbrev Memory.wf (m : Memory) : Prop := m.Pairwise (fun c d => c.1 < d.1) ∧ ∀ c ∈ m, c.2 ≠ 0

/-- MEM[a]. What the list does not hold reads 0: every byte of MEM is 0 when it comes into existence (41_heap.md R130, R131). -/
def Memory.read : Memory → Nat → Byte
  | [], _ => 0
  | (k, b) :: m, a => if k = a then b else Memory.read m a

/-- The `n` bytes from address `a` up. -/
def Memory.load (m : Memory) (a n : Nat) : List Byte := (List.range n).map fun k => m.read (a + k)

/-- The cells that hold a list of bytes from address `a` up, in canonical form. -/
def cellsAt : Nat → List Byte → Memory
  | _, [] => []
  | a, b :: bs => if b = 0 then cellsAt (a + 1) bs else (a, b) :: cellsAt (a + 1) bs

/-- The memory with a list of bytes stored from address `a` up. -/
def Memory.store (m : Memory) (a : Nat) (bs : List Byte) : Memory :=
  m.filter (fun c => c.1 < a) ++ cellsAt a bs ++ m.filter (fun c => a + bs.length ≤ c.1)

/-- The memory with the bytes `lo` to `hi - 1` set to 0. -/
def Memory.clear (m : Memory) (lo hi : Nat) : Memory := m.filter fun c => c.1 < lo || hi ≤ c.1

/-- MEM[d] <- MEM[a]. -/
def Memory.copyByte (m : Memory) (d a : Nat) : Memory := m.store d [m.read a]

/-- `for k = 0 .. n-1: MEM[d + k] <- MEM[a + k]`, one byte after the other, lowest first. -/
def Memory.copyUp (m : Memory) (d a : Nat) : Nat → Memory
  | 0 => m
  | n + 1 => (m.copyUp d a n).copyByte (d + n) (a + n)

/-! ### Checks and accesses -/

/-- `require c else raise F(info)` (00_scope.md R9). -/
def require (c : Prop) [Decidable c] (kind : FaultKind) (info : Nat) : Except Raise Unit :=
  if c then .ok () else .error ⟨kind, info⟩

/-- MemRead(addr, n): the little-endian natural in bytes addr to addr+n-1 (20_memory.md R62). It changes nothing. -/
def memRead (s : State) (addr n : Nat) : Except Raise Nat := do
  require (s.init = true) .heapState addr
  require (0 ≤ sgn64 addr ∧ sgn64 addr + n ≤ s.cap) .addressOutOfRange addr
  pure (leNat (s.mem.load (sgn64 addr).toNat n))

/-- MemWrite(addr, n, v): `v mod 2^(8n)` little-endian into bytes addr to addr+n-1 (20_memory.md R63). It never grows the heap. -/
def memWrite (s : State) (addr n v : Nat) : Except Raise State := do
  require (s.init = true) .heapState addr
  require (0 ≤ sgn64 addr ∧ sgn64 addr + n ≤ s.cap) .addressOutOfRange addr
  pure { s with mem := s.mem.store (sgn64 addr).toNat (leBytes n v) }

/-- GrowTo(m), called with m > CAP: the capacity becomes at least m, every new byte is 0, every old byte stays; beyond
HEAP_MAX_BYTES it raises OutOfMemory (41_heap.md R130). -/
def growTo (s : State) (m : Nat) : Except Raise State := do
  require (m ≤ s.heapMax) .outOfMemory m
  let newCap := min s.heapMax (max m (2 * s.cap))
  pure { s with mem := s.mem.clear s.cap newCap, cap := newCap }

/-- `if m > CAP: GrowTo(m)` (41_heap.md R132, 42_allocator.md R172). -/
def ensureCapacity (s : State) (m : Nat) : Except Raise State := if s.cap < m then growTo s m else .ok s

/-! ### LIVE (10_state.md R45) -/

/-- An address put into a strictly rising list of addresses. -/
def insertAddr (p : Nat) : List Nat → List Nat
  | [] => [p]
  | q :: l => if p < q then p :: q :: l else if p = q then q :: l else q :: insertAddr p l

/-- LIVE <- LIVE + {p}. -/
def State.addLive (s : State) (p : Nat) : State := { s with live := insertAddr p s.live }

/-- LIVE <- LIVE - {p}. -/
def State.removeLive (s : State) (p : Nat) : State := { s with live := s.live.filter fun q => q ≠ p }

/-! ### Faults: entry and return -/

/-- The code a fault writes to STATUS.CODE (60_exceptions.md R310). -/
def FaultKind.number : FaultKind → BitVec 8
  | .outOfMemory => 1
  | .invalidArgument => 2
  | .arithmeticOverflow => 3
  | .arithmeticUnderflow => 4
  | .corruptionDetected => 5
  | .addressOutOfRange => 6
  | .heapState => 7
  | .illegalCommand => 8

/-- Fault entry: F, CODE, FAULTCMD and FAULTINFO are written and nothing else changes; CMDSEQ still indexes the faulting command
(60_exceptions.md R320). -/
def State.enterFault (s : State) (word : CmdWord) (r : Raise) : State :=
  { s with fault := true, code := r.kind.number, faultCmd := word, faultInfo := BitVec.ofNat 64 r.info }

/-- Return from a fault: the effect of the host's fault-clear (60_exceptions.md R325). -/
def State.clearFault (s : State) : State := { s with fault := false, code := 0, faultCmd := 0, faultInfo := 0 }

/-! ### Running a command -/

/-- What a command that completes does last: CMDSEQ <- (CMDSEQ + 1) mod 2^64 (10_state.md R27). -/
def State.complete (s : State) : State := { s with cmdseq := s.cmdseq + 1 }

/-- A command word presented to the block, with what its pseudocode does on a copy of the state. While a fault is latched the word
is dropped (60_exceptions.md R321). Otherwise, if the pseudocode ends without a raise, the copy becomes the state and CMDSEQ advances;
if it raises, the copy is dropped and the fault is entered (00_scope.md R10). -/
def execute (word : CmdWord) (body : Except Raise State) (s : State) : Host.Outcome State Fault Refusal :=
  if s.fault then .next s
  else
    match body with
    | .ok t => .next t.complete
    | .error r => .next (s.enterFault word r)

/-- A command, run from its pseudocode: FAULTCMD is the command's own word, the only word that decodes to it (log 9). -/
def command (i : Instr) (s : State) (body : Except Raise State) : Host.Outcome State Fault Refusal :=
  execute (encode i) body s

/-- A word that is no command raises IllegalCommand with the word as info (30_encoding.md R97, 60_exceptions.md R318). -/
def illegalWord (word : CmdWord) (s : State) : Host.Outcome State Fault Refusal :=
  execute word (.error ⟨.illegalCommand, word.toNat⟩) s

end Sys2Proof.Machine
end

