-- ==== Sys2Proof/Machine/Chunks.lean ====
section
/-! DEFINITION. The shared parts of the allocator commands: chunk layout and tags, the free lists, their walks, placement, bump
allocation, search, freeing and coalescing (42_allocator.md R160 to R168, R172 to R174). -/

namespace Sys2Proof.Machine

/-! ### Layout (R160 to R162) -/

/-- The tag of a chunk of `size` payload bytes; `inUse` is 1 or 0 (R160). -/
def tag (size inUse : Nat) : Nat := 2 * size + inUse

/-- `roundup16(n)` (00_scope.md R9). -/
def roundUp16 (n : Nat) : Nat := (n + 15) / 16 * 16

/-- The payload size a request for `n` bytes needs (R161). -/
def requestSize (n : Nat) : Nat := max 16 (roundUp16 n)

/-- The free lists: one for each size class, and the large list (10_state.md R32, R33). -/
inductive FreeList where
  | bin (k : Fin 16)
  | large
deriving DecidableEq, Repr

/-- `ListFor(s)`, the list a free chunk of `size` payload bytes belongs to (R162). -/
def listFor (size : Nat) : FreeList := if size ≤ 1024 then .bin (Fin.ofNat 16 ((size - 1) / 64)) else .large

/-- `head(L)` as a natural (R162). -/
def State.head (s : State) : FreeList → Nat
  | .bin k => s.bin[k].toNat
  | .large => s.large.toNat

/-- `head(L) <- p`. -/
def State.setHead (s : State) (l : FreeList) (p : Nat) : State :=
  match l with
  | .bin k => { s with bin := s.bin.set k.val (BitVec.ofNat 64 p) }
  | .large => { s with large := BitVec.ofNat 64 p }

/-- BUMP as a natural (10_state.md R31). -/
def State.bumpNat (s : State) : Nat := s.bump.toNat

/-- Both tags of the chunk with payload address `p` and `size` payload bytes, written header first. -/
def writeTags (s : State) (p size inUse : Nat) : Except Raise State := do
  let s ← memWrite s (p - 8) 8 (tag size inUse)
  memWrite s (p + size) 8 (tag size inUse)

/-! ### Checks (R163, R164) -/

/-- `CheckArg(a)`: an address that cannot be a payload address raises InvalidArgument (R163, log 10). -/
def checkArg (s : State) (a : Nat) : Except Raise Unit :=
  require (16 ≤ sgn64 a ∧ a % 16 = 0 ∧ a + 24 ≤ s.bumpNat) .invalidArgument a

/-- `ReadChunk(p)`: the size and the in-use bit of the chunk with payload address `p`, its tags validated (R164). -/
def readChunk (s : State) (p : Nat) : Except Raise (Nat × Nat) := do
  require (p % 16 = 0 ∧ 16 ≤ sgn64 p ∧ p + 24 ≤ s.bumpNat) .corruptionDetected p
  let header ← memRead s (p - 8) 8
  let size := header / 2
  require (16 ≤ size ∧ size % 16 = 0 ∧ p + size + 8 ≤ s.bumpNat) .corruptionDetected p
  let footer ← memRead s (p + size) 8
  require (footer = header) .corruptionDetected p
  pure (size, header % 2)

/-! ### List procedures (R165 to R167) -/

/-- The bound on a list walk, BUMP div 32 (R165). -/
def State.walkLimit (s : State) : Nat := s.bumpNat / 32

/-- What a first-fit search found: the chunk before it in the list (0 for none), its payload address and its size (R165). -/
structure Fit where
  prev : Nat
  addr : Nat
  size : Nat
deriving DecidableEq, Repr

/-- The walk of `FindFit` from member `p`, reached from `prev`, with the given number of steps left (R165). -/
def findFitFrom (s : State) (r : Nat) : Nat → Nat → Nat → Except Raise (Option Fit)
  | 0, _, p => if p = 0 then .ok none else .error ⟨.corruptionDetected, p⟩
  | steps + 1, prev, p =>
    if p = 0 then .ok none
    else do
      let (size, u) ← readChunk s p
      require (u = 0) .corruptionDetected p
      if r ≤ size then pure (some ⟨prev, p, size⟩)
      else do
        let next ← memRead s p 8
        findFitFrom s r steps p next

/-- `FindFit(L, r)`: first-fit search of list `l` for a chunk of at least `r` payload bytes (R165). -/
def findFit (s : State) (l : FreeList) (r : Nat) : Except Raise (Option Fit) :=
  findFitFrom s r s.walkLimit 0 (s.head l)

/-- Takes member `p`, reached from `prev`, out of list `l` (`Take` of R165, the end of R166). -/
def take (s : State) (l : FreeList) (prev p : Nat) : Except Raise State := do
  let next ← memRead s p 8
  if prev = 0 then pure (s.setHead l next) else memWrite s prev 8 next

/-- The walk of `Unlink` from member `p`, reached from `prev`: the predecessor of `t` in the list, 0 for none (R166). -/
def findPrevFrom (s : State) (t : Nat) : Nat → Nat → Nat → Except Raise Nat
  | 0, prev, p => if p = t then .ok prev else .error ⟨.corruptionDetected, t⟩
  | steps + 1, prev, p =>
    if p = 0 ∨ p = t then do
      require (p = t) .corruptionDetected t
      pure prev
    else do
      let (_, u) ← readChunk s p
      require (u = 0) .corruptionDetected p
      let next ← memRead s p 8
      findPrevFrom s t steps p next

/-- `Unlink(L, t)`: takes the chunk with payload address `t` out of list `l`; a chunk not in it is corruption (R166). -/
def unlink (s : State) (l : FreeList) (t : Nat) : Except Raise State := do
  let prev ← findPrevFrom s t s.walkLimit 0 (s.head l)
  take s l prev t

/-- `Insert(p, s)`: puts the free chunk at the head of the list of its size (R167). -/
def insertChunk (s : State) (p size : Nat) : Except Raise State := do
  let s' ← memWrite s p 8 (s.head (listFor size))
  pure (s'.setHead (listFor size) p)

/-! ### Placement, bump allocation, the search (R168, R172, R174) -/

/-- `Place(p, s, r)`: makes the free chunk, already off its list, an allocation of `r` bytes; a surplus above 16 is split off as a
new free chunk (R168). -/
def place (s : State) (p size r : Nat) : Except Raise State :=
  if 16 < size - r then do
    let s ← writeTags s p r 1
    let s ← writeTags s (p + r + 16) (size - r - 16) 0
    insertChunk s (p + r + 16) (size - r - 16)
  else writeTags s p size 1

/-- A found chunk taken off its list and placed: the payload address and the state (R174). -/
def claim (s : State) (l : FreeList) (f : Fit) (r : Nat) : Except Raise (Nat × State) := do
  let s ← take s l f.prev f.addr
  let s ← place s f.addr f.size r
  pure (f.addr, s)

/-- `BumpAlloc(r)`: a new chunk at the end of the heap, which grows if it must (R172). -/
def bumpAlloc (s : State) (r : Nat) : Except Raise (Nat × State) := do
  let h := s.bumpNat
  let need := h + 16 + r
  let s ← ensureCapacity s need
  let s ← writeTags s (h + 8) r 1
  pure (h + 8, { s with bump := BitVec.ofNat 64 need })

/-- The search from the large list on (R174, steps 2 and 3). -/
def allocLarge (s : State) (r : Nat) : Except Raise (Nat × State) := do
  match ← findFit s .large r with
  | some f => claim s .large f r
  | none => bumpAlloc s r

/-- `Alloc(n)`: the matching bin first-fit, then the large list first-fit, then the bump pointer (R174). -/
def alloc (s : State) (n : Nat) : Except Raise (Nat × State) :=
  let r := requestSize n
  if r ≤ 1024 then do
    match ← findFit s (listFor r) r with
    | some f => claim s (listFor r) f r
    | none => allocLarge s r
  else allocLarge s r

/-! ### Freeing and coalescing (R173) -/

/-- The preceding chunk's part of `FreeChunk(p, s)`: the start and size of the merged chunk and the state, the preceding chunk
unlinked if it is there and free (R173). -/
def mergePreceding (s : State) (p size : Nat) : Except Raise (Nat × Nat × State) :=
  if 8 < p - 8 then do
    let pf ← memRead s (p - 16) 8
    if pf % 2 = 0 then do
      let ps := pf / 2
      let q := p - 16 - ps
      require (16 ≤ ps ∧ ps % 16 = 0 ∧ 16 ≤ q) .corruptionDetected (p - 16)
      let (s2, u2) ← readChunk s q
      require (s2 = ps ∧ u2 = 0) .corruptionDetected q
      let s ← unlink s (listFor ps) q
      pure (q, size + ps + 16, s)
    else pure (p, size, s)
  else pure (p, size, s)

/-- The following chunk's part of `FreeChunk`: `n` is the payload address after the freed chunk, `size` the size so far (R173). -/
def mergeFollowing (s : State) (n size : Nat) : Except Raise (Nat × State) :=
  if n - 8 < s.bumpNat then do
    let (ns, nu) ← readChunk s n
    if nu = 0 then do
      let s ← unlink s (listFor ns) n
      pure (size + ns + 16, s)
    else pure (size, s)
  else pure (size, s)

/-- `FreeChunk(p, s)`: frees the chunk whose tags have been validated and say in use, merging it with a free neighbour on either
side; the preceding one is examined first (R173). -/
def freeChunk (s : State) (p size : Nat) : Except Raise State := do
  let (start, merged, s) ← mergePreceding s p size
  let (merged, s) ← mergeFollowing s (p + size + 16) merged
  let s ← writeTags s start merged 0
  insertChunk s start merged

end Sys2Proof.Machine
end

