-- ==== Sys2Proof/Machine/Allocator.lean ====
section
/-! DEFINITION. The allocator commands MALLOC, CALLOC, FREE, REALLOC (42_allocator.md). LIVE is kept and never tested (log 6). -/

namespace Sys2Proof.Machine

/-- MALLOC: x[rd] <- the payload address of a new allocation of x[rs1] bytes (R175). -/
def execMalloc (rd rs1 : Reg) (s : State) : Host.Outcome State Fault Refusal :=
  command (.malloc rd rs1) s do
    require (s.init = true) .heapState (s.reg rs1)
    require (0 ≤ s.regInt rs1) .invalidArgument (s.reg rs1)
    let (p, s) ← alloc s (s.regInt rs1).toNat
    pure ((s.addLive p).setReg rd p)

/-- CALLOC: MALLOC of the exact product x[rs1] * x[rs2], the product's bytes set to 0; a product above 2^63 - 1 raises
InvalidArgument (R176). -/
def execCalloc (rd rs1 rs2 : Reg) (s : State) : Host.Outcome State Fault Refusal :=
  command (.calloc rd rs1 rs2) s do
    require (s.init = true) .heapState (s.reg rs1)
    require (0 ≤ s.regInt rs1) .invalidArgument (s.reg rs1)
    require (0 ≤ s.regInt rs2) .invalidArgument (s.reg rs2)
    let t := (s.regInt rs1).toNat * (s.regInt rs2).toNat
    require (t ≤ 2 ^ 63 - 1) .invalidArgument (t % 2 ^ 64)
    let (p, s) ← alloc s t
    pure ((({ s with mem := s.mem.clear p (p + t) } : State).addLive p).setReg rd p)

/-- FREE: frees the allocation at x[rs1]; the null address does nothing (R177). -/
def execFree (rs1 : Reg) (s : State) : Host.Outcome State Fault Refusal :=
  command (.free rs1) s do
    let a := s.reg rs1
    require (s.init = true) .heapState a
    if a = 0 then pure s
    else do
      checkArg s a
      let (size, u) ← readChunk s a
      require (u = 1) .corruptionDetected a
      let s ← freeChunk s a size
      pure (s.removeLive a)

/-- REALLOC's shrinking case: the tail of a chunk with a surplus above 16 is split off and freed (R178). -/
def shrinkChunk (s : State) (a size r : Nat) : Except Raise State :=
  if 16 < size - r then do
    let s ← writeTags s a r 1
    let s ← writeTags s (a + r + 16) (size - r - 16) 1
    freeChunk s (a + r + 16) (size - r - 16)
  else pure s

/-- REALLOC's growing case: a new chunk, the old payload copied, the old chunk freed (R178). -/
def moveChunk (s : State) (a size n : Nat) : Except Raise (Nat × State) := do
  let (p, s) ← alloc s n
  let s ← freeChunk { s with mem := s.mem.copyUp p a size } a size
  pure (p, (s.removeLive a).addLive p)

/-- REALLOC: x[rd] <- the address of the allocation x[rs1] resized to x[rs2] bytes; the null address allocates (R178). -/
def execRealloc (rd rs1 rs2 : Reg) (s : State) : Host.Outcome State Fault Refusal :=
  command (.realloc rd rs1 rs2) s do
    let a := s.reg rs1
    require (s.init = true) .heapState a
    require (0 ≤ s.regInt rs2) .invalidArgument (s.reg rs2)
    let n := (s.regInt rs2).toNat
    if a = 0 then do
      let (p, s) ← alloc s n
      pure ((s.addLive p).setReg rd p)
    else do
      checkArg s a
      let (size, u) ← readChunk s a
      require (u = 1) .corruptionDetected a
      if requestSize n ≤ size then do
        let s ← shrinkChunk s a size (requestSize n)
        pure (s.setReg rd a)
      else do
        let (p, s) ← moveChunk s a size n
        pure (s.setReg rd p)

end Sys2Proof.Machine
end

