-- ==== Sys2Proof/Machine/Datapath.lean ====
section
/-! DEFINITION. The two datapaths of the arithmetic engine and of the limb unit.

ARITHMETIC mode: the functions of 43_engine.md R204 and the limb loops of 44_limb.md R251 and R252, written with addition,
subtraction, multiplication, and division and modulo by powers of two only. NATIVE mode: the host's shift and bitwise operators, and
for the limb unit the closed forms of R251 and R252 (log 8). The spec says the two give the same results (43_engine.md R203); the model
has both, so that it is a statement and not a convention. Every value argument is below 2^W, every count in the range of R202. -/

namespace Sys2Proof.Machine

/-- `sum for i = 0 .. n-1 of f i`. -/
def sumTo : Nat → (Nat → Nat) → Nat
  | 0, _ => 0
  | n + 1, f => sumTo n f + f n

/-! ### ARITHMETIC mode (R204) -/

/-- `bit(v, i) = (v div 2^i) mod 2`. -/
def Arith.bit (v i : Nat) : Nat := v / 2 ^ i % 2

/-- `Shl`: value and carry. -/
def Arith.shl (w v n : Nat) : Nat × Nat := (v * 2 ^ n % 2 ^ w, v * 2 ^ n / 2 ^ w)

/-- `Ushr`: value and carry. -/
def Arith.ushr (_w v n : Nat) : Nat × Nat := (v / 2 ^ n, v % 2 ^ n)

/-- `Sar`, the sign-propagating right shift: value and carry. -/
def Arith.sar (w v n : Nat) : Nat × Nat :=
  (if v < 2 ^ (w - 1) then v / 2 ^ n else v / 2 ^ n + (2 ^ w - 2 ^ (w - n)), v % 2 ^ n)

/-- `And`. -/
def Arith.and (w a b : Nat) : Nat := sumTo w fun i => Arith.bit a i * Arith.bit b i * 2 ^ i

/-- `Or`. -/
def Arith.or (w a b : Nat) : Nat :=
  sumTo w fun i => (Arith.bit a i + Arith.bit b i - Arith.bit a i * Arith.bit b i) * 2 ^ i

/-- `Xor`. -/
def Arith.xor (w a b : Nat) : Nat :=
  sumTo w fun i => (Arith.bit a i + Arith.bit b i - 2 * Arith.bit a i * Arith.bit b i) * 2 ^ i

/-- `Not`. -/
def Arith.not (w a : Nat) : Nat := 2 ^ w - 1 - a

/-- `Test`. -/
def Arith.test (_w v i : Nat) : Nat := Arith.bit v i

/-- `Set`. -/
def Arith.set (_w v i : Nat) : Nat := v + (1 - Arith.bit v i) * 2 ^ i

/-- `Clr`. -/
def Arith.clr (_w v i : Nat) : Nat := v - Arith.bit v i * 2 ^ i

/-- `Tgl`: `v + (1 - 2 * bit(v, i)) * 2^i`, a sum of integers. -/
def Arith.tgl (_w v i : Nat) : Nat := ((v : Int) + (1 - 2 * (Arith.bit v i : Int)) * 2 ^ i).toNat

/-- `Pop`. -/
def Arith.pop (w v : Nat) : Nat := sumTo w fun i => Arith.bit v i

/-- `Mask`. -/
def Arith.mask (_w k : Nat) : Nat := 2 ^ k - 1

/-- `Zext`. -/
def Arith.zext (_w v f : Nat) : Nat := v % 2 ^ f

/-- `Sext`. -/
def Arith.sext (w v f : Nat) : Nat := v % 2 ^ f + Arith.bit v (f - 1) * (2 ^ w - 2 ^ f)

/-- `Bytes`: byte 0 the least significant. -/
def Arith.bytes (w v : Nat) : List Nat := (List.range (w / 8)).map fun k => v / 256 ^ k % 256

/-- `Compose` of a list of bytes, byte 0 the least significant. -/
def Arith.compose (bytes : List Nat) : Nat := sumTo bytes.length fun k => bytes.getD k 0 * 256 ^ k

/-- `Add128`, the limb loop: sum and final carry (44_limb.md R251). -/
def Arith.add128 (a b : Nat) : Nat × Nat :=
  (List.range 8).foldl
    (fun acc i =>
      let t := limb a i + limb b i + acc.2
      (acc.1 + t % 65536 * 2 ^ (16 * i), t / 65536))
    (0, 0)

/-- `Sub128`, the limb loop: difference and final borrow (44_limb.md R251). -/
def Arith.sub128 (a b : Nat) : Nat × Nat :=
  (List.range 8).foldl
    (fun acc i =>
      let t : Int := (limb a i : Int) - limb b i - acc.2
      if t < 0 then (acc.1 + (t + 65536).toNat * 2 ^ (16 * i), 1) else (acc.1 + t.toNat * 2 ^ (16 * i), 0))
    (0, 0)

/-- `ShiftLeft128`, the word shift and the bit shift: result and spill (44_limb.md R252). -/
def Arith.shiftLeft128 (a n : Nat) : Nat × Nat :=
  let ws := n / 16
  let bs := n % 16
  let moved := fun i => if ws ≤ i then limb a (i - ws) else 0
  let out := sumTo ws fun j => limb a (8 - ws + j) * 2 ^ (16 * j)
  let res := (List.range 8).foldl
    (fun acc i =>
      let u := moved i * 2 ^ bs + acc.2
      (acc.1 + u % 65536 * 2 ^ (16 * i), u / 65536))
    (0, 0)
  (res.1, out * 2 ^ bs + res.2)

/-- `ShiftRight128`, the word shift and the bit shift: result and spill (44_limb.md R252). -/
def Arith.shiftRight128 (a n : Nat) : Nat × Nat :=
  let ws := n / 16
  let bs := n % 16
  let moved := fun i => if i + ws ≤ 7 then limb a (i + ws) else 0
  let out := sumTo ws fun i => limb a i * 2 ^ (16 * i)
  let res := [7, 6, 5, 4, 3, 2, 1, 0].foldl
    (fun acc i =>
      let u := acc.2 * 65536 + moved i
      (acc.1 + u / 2 ^ bs * 2 ^ (16 * i), u % 2 ^ bs))
    (0, 0)
  (res.1, res.2 * 2 ^ (16 * ws) + out)

/-! ### NATIVE mode: the host's operators -/

/-- Left shift: value and carry. -/
def Native.shl (w v n : Nat) : Nat × Nat := (v <<< n % 2 ^ w, v <<< n >>> w)

/-- Unsigned right shift: value and carry. -/
def Native.ushr (_w v n : Nat) : Nat × Nat := (v >>> n, v &&& (1 <<< n - 1))

/-- Signed right shift: value and carry. -/
def Native.sar (w v n : Nat) : Nat × Nat := (((BitVec.ofNat w v).sshiftRight n).toNat, v &&& (1 <<< n - 1))

/-- Bitwise and. -/
def Native.and (_w a b : Nat) : Nat := a &&& b

/-- Bitwise or. -/
def Native.or (_w a b : Nat) : Nat := a ||| b

/-- Bitwise exclusive or. -/
def Native.xor (_w a b : Nat) : Nat := a ^^^ b

/-- Bitwise not at width `w`. -/
def Native.not (w a : Nat) : Nat := (~~~BitVec.ofNat w a).toNat

/-- Bit test: 0 or 1. -/
def Native.test (_w v i : Nat) : Nat := v >>> i &&& 1

/-- Bit set. -/
def Native.set (_w v i : Nat) : Nat := v ||| 1 <<< i

/-- Bit clear. -/
def Native.clr (_w v i : Nat) : Nat := v ^^^ (v &&& 1 <<< i)

/-- Bit toggle. -/
def Native.tgl (_w v i : Nat) : Nat := v ^^^ 1 <<< i

/-- Population count. -/
def Native.pop (w v : Nat) : Nat := (List.range w).countP fun i => v.testBit i

/-- A mask of `k` ones. -/
def Native.mask (_w k : Nat) : Nat := 1 <<< k - 1

/-- Zero-extension from width `f`. -/
def Native.zext (_w v f : Nat) : Nat := v &&& (1 <<< f - 1)

/-- Sign-extension from width `f` to width `w`. -/
def Native.sext (w v f : Nat) : Nat := ((BitVec.ofNat f v).signExtend w).toNat

/-- The bytes of a value, least significant first. -/
def Native.bytes (w v : Nat) : List Nat := (List.range (w / 8)).map fun k => v >>> (8 * k) &&& 255

/-- The value of a list of bytes, least significant first. -/
def Native.compose (bytes : List Nat) : Nat := bytes.foldr (fun b acc => acc <<< 8 ||| b) 0

/-- The closed form of `Add128` (R251). -/
def Native.add128 (a b : Nat) : Nat × Nat := ((a + b) % 2 ^ 128, (a + b) / 2 ^ 128)

/-- The closed form of `Sub128` (R251). -/
def Native.sub128 (a b : Nat) : Nat × Nat := ((a + 2 ^ 128 - b) % 2 ^ 128, if a < b then 1 else 0)

/-- The closed form of `ShiftLeft128` (R252). -/
def Native.shiftLeft128 (a n : Nat) : Nat × Nat := (a <<< n % 2 ^ 128, a <<< n >>> 128)

/-- The closed form of `ShiftRight128` (R252). -/
def Native.shiftRight128 (a n : Nat) : Nat × Nat := (a >>> n, a % 2 ^ n)

/-! ### The datapath a command's mode bit selects (30_encoding.md R93, 44_limb.md R254) -/

/-- One of two results, by the mode. -/
def Mode.pick {α : Type} (m : Mode) (native arithmetic : α) : α :=
  match m with
  | .native => native
  | .arithmetic => arithmetic

/-- Left shift. -/
def Engine.shl (m : Mode) (w v n : Nat) : Nat × Nat := Mode.pick m (Native.shl w v n) (Arith.shl w v n)
/-- Unsigned right shift. -/
def Engine.ushr (m : Mode) (w v n : Nat) : Nat × Nat := Mode.pick m (Native.ushr w v n) (Arith.ushr w v n)
/-- Signed right shift. -/
def Engine.sar (m : Mode) (w v n : Nat) : Nat × Nat := Mode.pick m (Native.sar w v n) (Arith.sar w v n)
/-- And. -/
def Engine.and (m : Mode) (w a b : Nat) : Nat := Mode.pick m (Native.and w a b) (Arith.and w a b)
/-- Or. -/
def Engine.or (m : Mode) (w a b : Nat) : Nat := Mode.pick m (Native.or w a b) (Arith.or w a b)
/-- Exclusive or. -/
def Engine.xor (m : Mode) (w a b : Nat) : Nat := Mode.pick m (Native.xor w a b) (Arith.xor w a b)
/-- Not. -/
def Engine.not (m : Mode) (w a : Nat) : Nat := Mode.pick m (Native.not w a) (Arith.not w a)
/-- Bit test. -/
def Engine.test (m : Mode) (w v i : Nat) : Nat := Mode.pick m (Native.test w v i) (Arith.test w v i)
/-- Bit set. -/
def Engine.set (m : Mode) (w v i : Nat) : Nat := Mode.pick m (Native.set w v i) (Arith.set w v i)
/-- Bit clear. -/
def Engine.clr (m : Mode) (w v i : Nat) : Nat := Mode.pick m (Native.clr w v i) (Arith.clr w v i)
/-- Bit toggle. -/
def Engine.tgl (m : Mode) (w v i : Nat) : Nat := Mode.pick m (Native.tgl w v i) (Arith.tgl w v i)
/-- Population count. -/
def Engine.pop (m : Mode) (w v : Nat) : Nat := Mode.pick m (Native.pop w v) (Arith.pop w v)
/-- Mask. -/
def Engine.mask (m : Mode) (w k : Nat) : Nat := Mode.pick m (Native.mask w k) (Arith.mask w k)
/-- Zero-extension. -/
def Engine.zext (m : Mode) (w v f : Nat) : Nat := Mode.pick m (Native.zext w v f) (Arith.zext w v f)
/-- Sign-extension. -/
def Engine.sext (m : Mode) (w v f : Nat) : Nat := Mode.pick m (Native.sext w v f) (Arith.sext w v f)
/-- Byte decomposition. -/
def Engine.bytes (m : Mode) (w v : Nat) : List Nat := Mode.pick m (Native.bytes w v) (Arith.bytes w v)
/-- Byte composition. -/
def Engine.compose (m : Mode) (bytes : List Nat) : Nat := Mode.pick m (Native.compose bytes) (Arith.compose bytes)
/-- 128-bit addition. -/
def Engine.add128 (m : Mode) (a b : Nat) : Nat × Nat := Mode.pick m (Native.add128 a b) (Arith.add128 a b)
/-- 128-bit subtraction. -/
def Engine.sub128 (m : Mode) (a b : Nat) : Nat × Nat := Mode.pick m (Native.sub128 a b) (Arith.sub128 a b)
/-- 128-bit left shift. -/
def Engine.shiftLeft128 (m : Mode) (a n : Nat) : Nat × Nat := Mode.pick m (Native.shiftLeft128 a n) (Arith.shiftLeft128 a n)
/-- 128-bit right shift. -/
def Engine.shiftRight128 (m : Mode) (a n : Nat) : Nat × Nat := Mode.pick m (Native.shiftRight128 a n) (Arith.shiftRight128 a n)

end Sys2Proof.Machine
end

