-- ==== Sys2Proof/Machine/Engine.lean ====
section
/-! DEFINITION. The engine commands SHL to BCOMP (43_engine.md). Values are the operand registers reduced mod 2^W, counts are the
whole register read as sgn_64 (R200); the ranges of counts are R202's. -/

namespace Sys2Proof.Machine

/-! ### Shared shapes -/

/-- A shift: a value in rs1, a count in rs2 in 0 to W, `byteAligned` for a multiple of 8 too; CARRYHI:CARRYLO and V take the
carry, x[rd] the value (R201, R202). `op` is the datapath's shift of a value by a count. -/
def shiftBy (op : Nat → Nat → Nat × Nat) (byteAligned : Bool) (w : Width) (rd rs1 rs2 : Reg) (s : State) : Except Raise State := do
  let n := s.regInt rs2
  require (0 ≤ n ∧ n ≤ w.bits ∧ (byteAligned = true → n % 8 = 0)) .invalidArgument (s.reg rs2)
  let r := op (s.engineValue w rs1) n.toNat
  pure ((s.setShiftCarry r.2).setReg rd r.1)

/-- A bitwise operation on two values (R216 to R218). -/
def logic (op : Nat → Nat → Nat) (w : Width) (rd rs1 rs2 : Reg) (s : State) : State :=
  s.setReg rd (op (s.engineValue w rs1) (s.engineValue w rs2))

/-- A single-bit operation: a value in rs1, an index in rs2 in 0 to W - 1 (R202, R220 to R223). -/
def bitAt (op : Nat → Nat → Nat) (w : Width) (rd rs1 rs2 : Reg) (s : State) : Except Raise State := do
  let i := s.regInt rs2
  require (0 ≤ i ∧ i ≤ (w.bits : Int) - 1) .invalidArgument (s.reg rs2)
  pure (s.setReg rd (op (s.engineValue w rs1) i.toNat))

/-- An extension: a value in rs1, a from-width in rs2 in 1 to W (R202, R226, R227). -/
def extendFrom (op : Nat → Nat → Nat) (w : Width) (rd rs1 rs2 : Reg) (s : State) : Except Raise State := do
  let f := s.regInt rs2
  require (1 ≤ f ∧ f ≤ w.bits) .invalidArgument (s.reg rs2)
  pure (s.setReg rd (op (s.engineValue w rs1) f.toNat))

/-! ### Shifts -/

/-- SHL (R210). -/
def execShl (m : Mode) (w : Width) (rd rs1 rs2 : Reg) (s : State) : Host.Outcome State Fault Refusal :=
  command (.shl m w rd rs1 rs2) s (shiftBy (Engine.shl m w.bits) false w rd rs1 rs2 s)

/-- SHR, the sign-propagating right shift (R211). -/
def execShr (m : Mode) (w : Width) (rd rs1 rs2 : Reg) (s : State) : Host.Outcome State Fault Refusal :=
  command (.shr m w rd rs1 rs2) s (shiftBy (Engine.sar m w.bits) false w rd rs1 rs2 s)

/-- USHR (R212). -/
def execUshr (m : Mode) (w : Width) (rd rs1 rs2 : Reg) (s : State) : Host.Outcome State Fault Refusal :=
  command (.ushr m w rd rs1 rs2) s (shiftBy (Engine.ushr m w.bits) false w rd rs1 rs2 s)

/-- BSHL, byte-aligned (R213). -/
def execBshl (m : Mode) (w : Width) (rd rs1 rs2 : Reg) (s : State) : Host.Outcome State Fault Refusal :=
  command (.bshl m w rd rs1 rs2) s (shiftBy (Engine.shl m w.bits) true w rd rs1 rs2 s)

/-- BSHR, byte-aligned (R214). -/
def execBshr (m : Mode) (w : Width) (rd rs1 rs2 : Reg) (s : State) : Host.Outcome State Fault Refusal :=
  command (.bshr m w rd rs1 rs2) s (shiftBy (Engine.sar m w.bits) true w rd rs1 rs2 s)

/-- BUSHR, byte-aligned (R215). -/
def execBushr (m : Mode) (w : Width) (rd rs1 rs2 : Reg) (s : State) : Host.Outcome State Fault Refusal :=
  command (.bushr m w rd rs1 rs2) s (shiftBy (Engine.ushr m w.bits) true w rd rs1 rs2 s)

/-! ### Bitwise logic -/

/-- AND (R216). -/
def execAnd (m : Mode) (w : Width) (rd rs1 rs2 : Reg) (s : State) : Host.Outcome State Fault Refusal :=
  command (.and m w rd rs1 rs2) s (.ok (logic (Engine.and m w.bits) w rd rs1 rs2 s))

/-- OR (R217). -/
def execOr (m : Mode) (w : Width) (rd rs1 rs2 : Reg) (s : State) : Host.Outcome State Fault Refusal :=
  command (.or m w rd rs1 rs2) s (.ok (logic (Engine.or m w.bits) w rd rs1 rs2 s))

/-- XOR (R218). -/
def execXor (m : Mode) (w : Width) (rd rs1 rs2 : Reg) (s : State) : Host.Outcome State Fault Refusal :=
  command (.xor m w rd rs1 rs2) s (.ok (logic (Engine.xor m w.bits) w rd rs1 rs2 s))

/-- NOT (R219). -/
def execNot (m : Mode) (w : Width) (rd rs1 : Reg) (s : State) : Host.Outcome State Fault Refusal :=
  command (.not m w rd rs1) s (.ok (s.setReg rd (Engine.not m w.bits (s.engineValue w rs1))))

/-! ### Single-bit operations -/

/-- BTEST (R220). -/
def execBtest (m : Mode) (w : Width) (rd rs1 rs2 : Reg) (s : State) : Host.Outcome State Fault Refusal :=
  command (.btest m w rd rs1 rs2) s (bitAt (Engine.test m w.bits) w rd rs1 rs2 s)

/-- BSET (R221). -/
def execBset (m : Mode) (w : Width) (rd rs1 rs2 : Reg) (s : State) : Host.Outcome State Fault Refusal :=
  command (.bset m w rd rs1 rs2) s (bitAt (Engine.set m w.bits) w rd rs1 rs2 s)

/-- BCLR (R222). -/
def execBclr (m : Mode) (w : Width) (rd rs1 rs2 : Reg) (s : State) : Host.Outcome State Fault Refusal :=
  command (.bclr m w rd rs1 rs2) s (bitAt (Engine.clr m w.bits) w rd rs1 rs2 s)

/-- BTGL (R223). -/
def execBtgl (m : Mode) (w : Width) (rd rs1 rs2 : Reg) (s : State) : Host.Outcome State Fault Refusal :=
  command (.btgl m w rd rs1 rs2) s (bitAt (Engine.tgl m w.bits) w rd rs1 rs2 s)

/-! ### Count, mask, extend -/

/-- POPCNT (R224). -/
def execPopcnt (m : Mode) (w : Width) (rd rs1 : Reg) (s : State) : Host.Outcome State Fault Refusal :=
  command (.popcnt m w rd rs1) s (.ok (s.setReg rd (Engine.pop m w.bits (s.engineValue w rs1))))

/-- MASK: a width in rs1 in 0 to W (R225). -/
def execMask (m : Mode) (w : Width) (rd rs1 : Reg) (s : State) : Host.Outcome State Fault Refusal :=
  command (.mask m w rd rs1) s do
    let k := s.regInt rs1
    require (0 ≤ k ∧ k ≤ w.bits) .invalidArgument (s.reg rs1)
    pure (s.setReg rd (Engine.mask m w.bits k.toNat))

/-- SEXT (R226). -/
def execSext (m : Mode) (w : Width) (rd rs1 rs2 : Reg) (s : State) : Host.Outcome State Fault Refusal :=
  command (.sext m w rd rs1 rs2) s (extendFrom (Engine.sext m w.bits) w rd rs1 rs2 s)

/-- ZEXT (R227). -/
def execZext (m : Mode) (w : Width) (rd rs1 rs2 : Reg) (s : State) : Host.Outcome State Fault Refusal :=
  command (.zext m w rd rs1 rs2) s (extendFrom (Engine.zext m w.bits) w rd rs1 rs2 s)

/-! ### Byte decompose and compose -/

/-- BDEC: the W/8 bytes of the value in rs2, byte k to address x[rs1] + k (R228). -/
def execBdec (m : Mode) (w : Width) (rs1 rs2 : Reg) (s : State) : Host.Outcome State Fault Refusal :=
  command (.bdec m w rs1 rs2) s <|
    memWrite s (s.reg rs1) (w.bits / 8) (leNat ((Engine.bytes m w.bits (s.engineValue w rs2)).map (BitVec.ofNat 8)))

/-- BCOMP: the value composed of the W/8 bytes from x[rs1] up (R229). -/
def execBcomp (m : Mode) (w : Width) (rd rs1 : Reg) (s : State) : Host.Outcome State Fault Refusal :=
  command (.bcomp m w rd rs1) s do
    let v ← memRead s (s.reg rs1) (w.bits / 8)
    pure (s.setReg rd (Engine.compose m ((leBytes (w.bits / 8) v).map BitVec.toNat)))

end Sys2Proof.Machine
end

