-- ==== Sys2Proof/Machine/Heap.lean ====
section
/-! DEFINITION. The heap commands HINIT, HENSURE, LD8 to LD64, ST8 to ST64, MEMCPY, MEMMOVE, MEMSET (41_heap.md). -/

namespace Sys2Proof.Machine

/-! ### Creation and capacity -/

/-- HINIT: creates the heap of x[rs1] zero bytes and an empty allocator, once (R131). -/
def execHinit (rs1 : Reg) (s : State) : Host.Outcome State Fault Refusal :=
  command (.hinit rs1) s do
    require (s.init = false) .heapState (s.reg rs1)
    require (8 ≤ s.regInt rs1) .invalidArgument (s.reg rs1)
    require (s.regInt rs1 ≤ s.heapMax) .outOfMemory (s.reg rs1)
    pure
      { s with
        init := true
        cap := (s.regInt rs1).toNat
        mem := []
        bin := Vector.replicate 16 0
        large := 0
        bump := 8
        live := [] }

/-- HENSURE: the capacity becomes at least x[rs1] (R132). -/
def execHensure (rs1 : Reg) (s : State) : Host.Outcome State Fault Refusal :=
  command (.hensure rs1) s do
    require (s.init = true) .heapState (s.reg rs1)
    require (0 ≤ s.regInt rs1) .invalidArgument (s.reg rs1)
    ensureCapacity s (s.regInt rs1).toNat

/-! ### Typed loads and stores -/

/-- A load of `n` bytes, zero-extended (R133 to R136). -/
def loadInto (s : State) (rd rs1 : Reg) (n : Nat) : Except Raise State := do
  let v ← memRead s (s.reg rs1) n
  pure (s.setReg rd v)

/-- LD8 (R133). -/
def execLd8 (rd rs1 : Reg) (s : State) : Host.Outcome State Fault Refusal :=
  command (.ld8 rd rs1) s (loadInto s rd rs1 1)

/-- LD16 (R134). -/
def execLd16 (rd rs1 : Reg) (s : State) : Host.Outcome State Fault Refusal :=
  command (.ld16 rd rs1) s (loadInto s rd rs1 2)

/-- LD32 (R135). -/
def execLd32 (rd rs1 : Reg) (s : State) : Host.Outcome State Fault Refusal :=
  command (.ld32 rd rs1) s (loadInto s rd rs1 4)

/-- LD64 (R136). -/
def execLd64 (rd rs1 : Reg) (s : State) : Host.Outcome State Fault Refusal :=
  command (.ld64 rd rs1) s (loadInto s rd rs1 8)

/-- ST8 stores `x[rs2] mod 2^8` (R137). -/
def execSt8 (rs1 rs2 : Reg) (s : State) : Host.Outcome State Fault Refusal :=
  command (.st8 rs1 rs2) s (memWrite s (s.reg rs1) 1 (s.reg rs2))

/-- ST16 stores `x[rs2] mod 2^16` (R138). -/
def execSt16 (rs1 rs2 : Reg) (s : State) : Host.Outcome State Fault Refusal :=
  command (.st16 rs1 rs2) s (memWrite s (s.reg rs1) 2 (s.reg rs2))

/-- ST32 stores `x[rs2] mod 2^32` (R139). -/
def execSt32 (rs1 rs2 : Reg) (s : State) : Host.Outcome State Fault Refusal :=
  command (.st32 rs1 rs2) s (memWrite s (s.reg rs1) 4 (s.reg rs2))

/-- ST64 stores x[rs2] (R140). -/
def execSt64 (rs1 rs2 : Reg) (s : State) : Host.Outcome State Fault Refusal :=
  command (.st64 rs1 rs2) s (memWrite s (s.reg rs1) 8 (s.reg rs2))

/-! ### Bulk operations -/

/-- The range test of the bulk operations: the `len` bytes from the signed address in `r` lie in 0 to CAP - 1, else
AddressOutOfRange with the register's value (R141 to R143). -/
def requireRange (s : State) (r : Reg) (len : Int) : Except Raise Unit :=
  require (0 ≤ s.regInt r ∧ s.regInt r + len ≤ s.cap) .addressOutOfRange (s.reg r)

/-- MEMCPY: copies x[rs3] bytes from x[rs2] to x[rs1]; any overlap raises InvalidArgument; a length of 0 checks no address (R141). -/
def execMemcpy (rs1 rs2 rs3 : Reg) (s : State) : Host.Outcome State Fault Refusal :=
  command (.memcpy rs1 rs2 rs3) s do
    let d := s.regInt rs1
    let a := s.regInt rs2
    let len := s.regInt rs3
    require (s.init = true) .heapState (s.reg rs1)
    require (0 ≤ len) .invalidArgument (s.reg rs3)
    if len = 0 then pure s
    else do
      requireRange s rs1 len
      requireRange s rs2 len
      require (d + len ≤ a ∨ a + len ≤ d) .invalidArgument (s.reg rs2)
      pure { s with mem := s.mem.copyUp d.toNat a.toNat len.toNat }

/-- MEMMOVE: as MEMCPY for ranges that may overlap, every source byte read before the first is written (R142). -/
def execMemmove (rs1 rs2 rs3 : Reg) (s : State) : Host.Outcome State Fault Refusal :=
  command (.memmove rs1 rs2 rs3) s do
    let len := s.regInt rs3
    require (s.init = true) .heapState (s.reg rs1)
    require (0 ≤ len) .invalidArgument (s.reg rs3)
    if len = 0 then pure s
    else do
      requireRange s rs1 len
      requireRange s rs2 len
      pure { s with mem := s.mem.store (s.regInt rs1).toNat (s.mem.load (s.regInt rs2).toNat len.toNat) }

/-- MEMSET: fills x[rs3] bytes from x[rs1] with the low byte of x[rs2] (R143). -/
def execMemset (rs1 rs2 rs3 : Reg) (s : State) : Host.Outcome State Fault Refusal :=
  command (.memset rs1 rs2 rs3) s do
    let len := s.regInt rs3
    require (s.init = true) .heapState (s.reg rs1)
    require (0 ≤ len) .invalidArgument (s.reg rs3)
    if len = 0 then pure s
    else do
      requireRange s rs1 len
      pure { s with mem := s.mem.store (s.regInt rs1).toNat (List.replicate len.toNat (BitVec.ofNat 8 (s.reg rs2))) }

end Sys2Proof.Machine
end

