-- ==== Sys2Proof/Machine/Limb.lean ====
section
/-! DEFINITION. The limb commands ADDH, SUBH, CMPH, SHLH, SHRH, ZEROH, WRU64H, HEXH (44_limb.md). Every source is read before the
destination is written, so regions may overlap (R250). -/

namespace Sys2Proof.Machine

/-- The first test of every limb and 128-bit command: the heap exists, else HeapState with x[rs1] (60_exceptions.md R317). -/
def requireHeap (s : State) (rs1 : Reg) : Except Raise Unit := require (s.init = true) .heapState (s.reg rs1)

/-- The 128-bit value at the address in a register: MemRead(x[r], 16) (R250). -/
def readVal (s : State) (r : Reg) : Except Raise Nat := memRead s (s.reg r) 16

/-- A 128-bit value written at the address in a register: MemWrite(x[r], 16, v) (R250). -/
def writeVal (s : State) (r : Reg) (v : Nat) : Except Raise State := memWrite s (s.reg r) 16 v

/-- A 128-bit shift count: the whole register read as sgn_64, valid in 0 to 128, else InvalidArgument (R253). -/
def shiftCount (s : State) (r : Reg) : Except Raise Nat := do
  require (0 ≤ s.regInt r ∧ s.regInt r ≤ 128) .invalidArgument (s.reg r)
  pure (s.regInt r).toNat

/-! ### Add, subtract, compare -/

/-- ADDH: the 128-bit sum, its carry to x[rd], CARRYLO and V (R255). -/
def execAddh (m : Mode) (rd rs1 rs2 rs3 : Reg) (s : State) : Host.Outcome State Fault Refusal :=
  command (.addh m rd rs1 rs2 rs3) s do
    requireHeap s rs1
    let a ← readVal s rs2
    let b ← readVal s rs3
    let r := Engine.add128 m a b
    let s ← writeVal s rs1 r.1
    pure ((s.setLimbCarry r.2).setReg rd r.2)

/-- SUBH: the 128-bit difference, its borrow to x[rd], CARRYLO and V (R256). -/
def execSubh (m : Mode) (rd rs1 rs2 rs3 : Reg) (s : State) : Host.Outcome State Fault Refusal :=
  command (.subh m rd rs1 rs2 rs3) s do
    requireHeap s rs1
    let a ← readVal s rs2
    let b ← readVal s rs3
    let r := Engine.sub128 m a b
    let s ← writeVal s rs1 r.1
    pure ((s.setLimbCarry r.2).setReg rd r.2)

/-- The order of two 128-bit values by their limbs, from the most significant down: -1, 0 or 1 (R257). -/
def compareLimbs (a b : Nat) : List Nat → Int
  | [] => 0
  | i :: rest => if limb a i < limb b i then -1 else if limb b i < limb a i then 1 else compareLimbs a b rest

/-- CMPH: the unsigned order of two values, -1 as 2^64 - 1 (R257). -/
def execCmph (rd rs1 rs2 : Reg) (s : State) : Host.Outcome State Fault Refusal :=
  command (.cmph rd rs1 rs2) s do
    requireHeap s rs1
    let a ← readVal s rs1
    let b ← readVal s rs2
    pure (s.setReg rd (wrapInt 64 (compareLimbs a b [7, 6, 5, 4, 3, 2, 1, 0])))

/-! ### Shifts -/

/-- SHLH: the left shift with its 128-bit spill (R258). -/
def execShlh (m : Mode) (rs1 rs2 rs3 : Reg) (s : State) : Host.Outcome State Fault Refusal :=
  command (.shlh m rs1 rs2 rs3) s do
    requireHeap s rs1
    let n ← shiftCount s rs3
    let a ← readVal s rs2
    let r := Engine.shiftLeft128 m a n
    let s ← writeVal s rs1 r.1
    pure (s.setSpill r.2)

/-- SHRH: the logical right shift with its 128-bit spill (R259). -/
def execShrh (m : Mode) (rs1 rs2 rs3 : Reg) (s : State) : Host.Outcome State Fault Refusal :=
  command (.shrh m rs1 rs2 rs3) s do
    requireHeap s rs1
    let n ← shiftCount s rs3
    let a ← readVal s rs2
    let r := Engine.shiftRight128 m a n
    let s ← writeVal s rs1 r.1
    pure (s.setSpill r.2)

/-! ### Initialisation and display helpers -/

/-- ZEROH: sixteen zero bytes (R260). -/
def execZeroh (rs1 : Reg) (s : State) : Host.Outcome State Fault Refusal :=
  command (.zeroh rs1) s do
    requireHeap s rs1
    writeVal s rs1 0

/-- WRU64H: an unsigned 64-bit value as a 128-bit value (R261). -/
def execWru64h (rs1 rs2 : Reg) (s : State) : Host.Outcome State Fault Refusal :=
  command (.wru64h rs1 rs2) s do
    requireHeap s rs1
    writeVal s rs1 (s.reg rs2)

/-- The ASCII code of hexadecimal digit `d`, lower case (R262). -/
def hexChar (d : Nat) : Nat := if d ≤ 9 then 48 + d else 87 + d

/-- The 32 characters of a 128-bit value, most significant digit first, character j weighted 256^j (R262). -/
def hexText (a : Nat) : Nat := sumTo 32 fun j => hexChar (a / 16 ^ (31 - j) % 16) * 256 ^ j

/-- HEXH: the value's 32 hexadecimal digits as text, character j at x[rs1] + j (R262). -/
def execHexh (rs1 rs2 : Reg) (s : State) : Host.Outcome State Fault Refusal :=
  command (.hexh rs1 rs2) s do
    requireHeap s rs1
    let a ← readVal s rs2
    memWrite s (s.reg rs1) 32 (hexText a)

end Sys2Proof.Machine
end

