-- ==== Sys2Proof/Machine/Int128.lean ====
section
/-! DEFINITION. The 128-bit typed commands UADD, USUB, USHL, USRL, WRS64H, SNEG, SADD, SSUB, SSHL, SSAR, SCMP (45_int128.md). They
write the destination only, no flag and no carry (R280); a result outside the type is a fault. -/

namespace Sys2Proof.Machine

/-! ### UnsignedInt128 -/

/-- UADD: the sum, ArithmeticOverflow if it carries (R282). -/
def execUadd (m : Mode) (rs1 rs2 rs3 : Reg) (s : State) : Host.Outcome State Fault Refusal :=
  command (.uadd m rs1 rs2 rs3) s do
    requireHeap s rs1
    let a ← readVal s rs2
    let b ← readVal s rs3
    let r := Engine.add128 m a b
    require (r.2 = 0) .arithmeticOverflow (s.reg rs2)
    writeVal s rs1 r.1

/-- USUB: the difference, ArithmeticUnderflow if it borrows (R283). -/
def execUsub (m : Mode) (rs1 rs2 rs3 : Reg) (s : State) : Host.Outcome State Fault Refusal :=
  command (.usub m rs1 rs2 rs3) s do
    requireHeap s rs1
    let a ← readVal s rs2
    let b ← readVal s rs3
    let r := Engine.sub128 m a b
    require (r.2 = 0) .arithmeticUnderflow (s.reg rs2)
    writeVal s rs1 r.1

/-- USHL: the left shift, ArithmeticOverflow with the count if it spills (R284). -/
def execUshl (m : Mode) (rs1 rs2 rs3 : Reg) (s : State) : Host.Outcome State Fault Refusal :=
  command (.ushl m rs1 rs2 rs3) s do
    requireHeap s rs1
    let n ← shiftCount s rs3
    let a ← readVal s rs2
    let r := Engine.shiftLeft128 m a n
    require (r.2 = 0) .arithmeticOverflow (s.reg rs3)
    writeVal s rs1 r.1

/-- USRL: the logical right shift; lost bits are not reported (R285). -/
def execUsrl (m : Mode) (rs1 rs2 rs3 : Reg) (s : State) : Host.Outcome State Fault Refusal :=
  command (.usrl m rs1 rs2 rs3) s do
    requireHeap s rs1
    let n ← shiftCount s rs3
    let a ← readVal s rs2
    writeVal s rs1 (Engine.shiftRight128 m a n).1

/-! ### SignedInt128 -/

/-- WRS64H: a signed 64-bit value as a signed 128-bit value (R286). -/
def execWrs64h (rs1 rs2 : Reg) (s : State) : Host.Outcome State Fault Refusal :=
  command (.wrs64h rs1 rs2) s do
    requireHeap s rs1
    writeVal s rs1 (wrapInt 128 (s.regInt rs2))

/-- The two's-complement negation of a 128-bit pattern: not, then add 1 (R287). -/
def negate128 (m : Mode) (a : Nat) : Nat := (Engine.add128 m (Engine.not m 128 a) 1).1

/-- SNEG: the negation, ArithmeticOverflow for the minimum value (R287). -/
def execSneg (m : Mode) (rs1 rs2 : Reg) (s : State) : Host.Outcome State Fault Refusal :=
  command (.sneg m rs1 rs2) s do
    requireHeap s rs1
    let a ← readVal s rs2
    require (a ≠ 2 ^ 127) .arithmeticOverflow (s.reg rs2)
    writeVal s rs1 (negate128 m a)

/-- SADD: the sum, ArithmeticOverflow when equal signs give the opposite sign; the unsigned carry is ignored (R288). -/
def execSadd (m : Mode) (rs1 rs2 rs3 : Reg) (s : State) : Host.Outcome State Fault Refusal :=
  command (.sadd m rs1 rs2 rs3) s do
    requireHeap s rs1
    let a ← readVal s rs2
    let b ← readVal s rs3
    let r := (Engine.add128 m a b).1
    require (¬(neg128 a = neg128 b ∧ neg128 r ≠ neg128 a)) .arithmeticOverflow (s.reg rs2)
    writeVal s rs1 r

/-- SSUB: the difference, ArithmeticOverflow when unequal signs give a sign other than A's (R289). -/
def execSsub (m : Mode) (rs1 rs2 rs3 : Reg) (s : State) : Host.Outcome State Fault Refusal :=
  command (.ssub m rs1 rs2 rs3) s do
    requireHeap s rs1
    let a ← readVal s rs2
    let b ← readVal s rs3
    let r := (Engine.sub128 m a b).1
    require (¬(neg128 a ≠ neg128 b ∧ neg128 r ≠ neg128 a)) .arithmeticOverflow (s.reg rs2)
    writeVal s rs1 r

/-- SSHL: the exact product sgn_128(A) * 2^n, ArithmeticOverflow with the count if it is outside the signed range (R290). The mode
has no part in the rule. -/
def execSshl (m : Mode) (rs1 rs2 rs3 : Reg) (s : State) : Host.Outcome State Fault Refusal :=
  command (.sshl m rs1 rs2 rs3) s do
    requireHeap s rs1
    let n ← shiftCount s rs3
    let a ← readVal s rs2
    let product := sgn128 a * 2 ^ n
    require (-2 ^ 127 ≤ product ∧ product ≤ 2 ^ 127 - 1) .arithmeticOverflow (s.reg rs3)
    writeVal s rs1 (wrapInt 128 product)

/-- SSAR: the arithmetic right shift, the vacated top bits filled with the sign (R291). -/
def execSsar (m : Mode) (rs1 rs2 rs3 : Reg) (s : State) : Host.Outcome State Fault Refusal :=
  command (.ssar m rs1 rs2 rs3) s do
    requireHeap s rs1
    let n ← shiftCount s rs3
    let a ← readVal s rs2
    writeVal s rs1 ((Engine.shiftRight128 m a n).1 + if neg128 a then 2 ^ 128 - 2 ^ (128 - n) else 0)

/-- The order of two integers: -1, 0 or 1 (R292). -/
def signedOrder (a b : Int) : Int := if a < b then -1 else if a = b then 0 else 1

/-- SCMP: the signed order of two values, -1 as 2^64 - 1 (R292). -/
def execScmp (rd rs1 rs2 : Reg) (s : State) : Host.Outcome State Fault Refusal :=
  command (.scmp rd rs1 rs2) s do
    requireHeap s rs1
    let a ← readVal s rs1
    let b ← readVal s rs2
    pure (s.setReg rd (wrapInt 64 (signedOrder (sgn128 a) (sgn128 b))))

end Sys2Proof.Machine
end

