-- ==== Sys2Proof/Machine/System.lean ====
section
/-! DEFINITION. The system and register commands NOP, LDI, LDIS, MOV, RDSR (40_system.md). -/

namespace Sys2Proof.Machine

/-- NOP does nothing but complete (R120). -/
def execNop (s : State) : Host.Outcome State Fault Refusal :=
  command .nop s (.ok s)

/-- LDI: x[rd] <- sext_20(imm20) (R121). -/
def execLdi (rd : Reg) (imm : BitVec 20) (s : State) : Host.Outcome State Fault Refusal :=
  command (.ldi rd imm) s (.ok (s.setReg rd (ldiValue imm)))

/-- LDIS: x[rd] <- ((x[rd] * 65536) mod 2^64) + imm16 (R122). -/
def execLdis (rd : Reg) (imm : BitVec 20) (s : State) : Host.Outcome State Fault Refusal :=
  command (.ldis rd imm) s (.ok (s.setReg rd (s.reg rd * 65536 % 2 ^ 64 + ldisValue imm)))

/-- MOV: x[rd] <- x[rs1] (R123). -/
def execMov (rd rs1 : Reg) (s : State) : Host.Outcome State Fault Refusal :=
  command (.mov rd rs1) s (.ok (s.setReg rd (s.reg rs1)))

/-- RDSR: x[rd] <- the system register; an undefined number raises IllegalCommand with the word (R124). -/
def execRdsr (rd : Reg) (imm : BitVec 20) (s : State) : Host.Outcome State Fault Refusal :=
  command (.rdsr rd imm) s <|
    match sysRegOf imm.toNat with
    | some r => .ok (s.setReg rd (s.sysReg r).toNat)
    | none => .error ⟨.illegalCommand, (encode (.rdsr rd imm)).toNat⟩

end Sys2Proof.Machine
end

