-- ==== Sys2Proof/Machine/Dispatch.lean ====
section
/-! DEFINITION. The meaning of every command, one arm for each row of the opcode map (30_encoding.md R96). -/

namespace Sys2Proof.Machine

def exec (i : Instr) (s : State) : Host.Outcome State Fault Refusal :=
  match i with
  -- System and register commands (40_system.md)
  | .nop => Sys2Proof.Machine.execNop s
  | .ldi rd imm => Sys2Proof.Machine.execLdi rd imm s
  | .ldis rd imm => Sys2Proof.Machine.execLdis rd imm s
  | .mov rd rs1 => Sys2Proof.Machine.execMov rd rs1 s
  | .rdsr rd imm => Sys2Proof.Machine.execRdsr rd imm s
  -- Heap commands (41_heap.md)
  | .hinit rs1 => Sys2Proof.Machine.execHinit rs1 s
  | .hensure rs1 => Sys2Proof.Machine.execHensure rs1 s
  | .ld8 rd rs1 => Sys2Proof.Machine.execLd8 rd rs1 s
  | .ld16 rd rs1 => Sys2Proof.Machine.execLd16 rd rs1 s
  | .ld32 rd rs1 => Sys2Proof.Machine.execLd32 rd rs1 s
  | .ld64 rd rs1 => Sys2Proof.Machine.execLd64 rd rs1 s
  | .st8 rs1 rs2 => Sys2Proof.Machine.execSt8 rs1 rs2 s
  | .st16 rs1 rs2 => Sys2Proof.Machine.execSt16 rs1 rs2 s
  | .st32 rs1 rs2 => Sys2Proof.Machine.execSt32 rs1 rs2 s
  | .st64 rs1 rs2 => Sys2Proof.Machine.execSt64 rs1 rs2 s
  | .memcpy rs1 rs2 rs3 => Sys2Proof.Machine.execMemcpy rs1 rs2 rs3 s
  | .memmove rs1 rs2 rs3 => Sys2Proof.Machine.execMemmove rs1 rs2 rs3 s
  | .memset rs1 rs2 rs3 => Sys2Proof.Machine.execMemset rs1 rs2 rs3 s
  -- Allocator commands (42_allocator.md)
  | .malloc rd rs1 => Sys2Proof.Machine.execMalloc rd rs1 s
  | .calloc rd rs1 rs2 => Sys2Proof.Machine.execCalloc rd rs1 rs2 s
  | .free rs1 => Sys2Proof.Machine.execFree rs1 s
  | .realloc rd rs1 rs2 => Sys2Proof.Machine.execRealloc rd rs1 rs2 s
  -- Engine commands (43_engine.md)
  | .shl m w rd rs1 rs2 => Sys2Proof.Machine.execShl m w rd rs1 rs2 s
  | .shr m w rd rs1 rs2 => Sys2Proof.Machine.execShr m w rd rs1 rs2 s
  | .ushr m w rd rs1 rs2 => Sys2Proof.Machine.execUshr m w rd rs1 rs2 s
  | .bshl m w rd rs1 rs2 => Sys2Proof.Machine.execBshl m w rd rs1 rs2 s
  | .bshr m w rd rs1 rs2 => Sys2Proof.Machine.execBshr m w rd rs1 rs2 s
  | .bushr m w rd rs1 rs2 => Sys2Proof.Machine.execBushr m w rd rs1 rs2 s
  | .and m w rd rs1 rs2 => Sys2Proof.Machine.execAnd m w rd rs1 rs2 s
  | .or m w rd rs1 rs2 => Sys2Proof.Machine.execOr m w rd rs1 rs2 s
  | .xor m w rd rs1 rs2 => Sys2Proof.Machine.execXor m w rd rs1 rs2 s
  | .not m w rd rs1 => Sys2Proof.Machine.execNot m w rd rs1 s
  | .btest m w rd rs1 rs2 => Sys2Proof.Machine.execBtest m w rd rs1 rs2 s
  | .bset m w rd rs1 rs2 => Sys2Proof.Machine.execBset m w rd rs1 rs2 s
  | .bclr m w rd rs1 rs2 => Sys2Proof.Machine.execBclr m w rd rs1 rs2 s
  | .btgl m w rd rs1 rs2 => Sys2Proof.Machine.execBtgl m w rd rs1 rs2 s
  | .popcnt m w rd rs1 => Sys2Proof.Machine.execPopcnt m w rd rs1 s
  | .mask m w rd rs1 => Sys2Proof.Machine.execMask m w rd rs1 s
  | .sext m w rd rs1 rs2 => Sys2Proof.Machine.execSext m w rd rs1 rs2 s
  | .zext m w rd rs1 rs2 => Sys2Proof.Machine.execZext m w rd rs1 rs2 s
  | .bdec m w rs1 rs2 => Sys2Proof.Machine.execBdec m w rs1 rs2 s
  | .bcomp m w rd rs1 => Sys2Proof.Machine.execBcomp m w rd rs1 s
  -- Limb commands (44_limb.md)
  | .addh m rd rs1 rs2 rs3 => Sys2Proof.Machine.execAddh m rd rs1 rs2 rs3 s
  | .subh m rd rs1 rs2 rs3 => Sys2Proof.Machine.execSubh m rd rs1 rs2 rs3 s
  | .cmph rd rs1 rs2 => Sys2Proof.Machine.execCmph rd rs1 rs2 s
  | .shlh m rs1 rs2 rs3 => Sys2Proof.Machine.execShlh m rs1 rs2 rs3 s
  | .shrh m rs1 rs2 rs3 => Sys2Proof.Machine.execShrh m rs1 rs2 rs3 s
  | .zeroh rs1 => Sys2Proof.Machine.execZeroh rs1 s
  | .wru64h rs1 rs2 => Sys2Proof.Machine.execWru64h rs1 rs2 s
  | .hexh rs1 rs2 => Sys2Proof.Machine.execHexh rs1 rs2 s
  -- 128-bit typed commands (45_int128.md)
  | .uadd m rs1 rs2 rs3 => Sys2Proof.Machine.execUadd m rs1 rs2 rs3 s
  | .usub m rs1 rs2 rs3 => Sys2Proof.Machine.execUsub m rs1 rs2 rs3 s
  | .ushl m rs1 rs2 rs3 => Sys2Proof.Machine.execUshl m rs1 rs2 rs3 s
  | .usrl m rs1 rs2 rs3 => Sys2Proof.Machine.execUsrl m rs1 rs2 rs3 s
  | .wrs64h rs1 rs2 => Sys2Proof.Machine.execWrs64h rs1 rs2 s
  | .sneg m rs1 rs2 => Sys2Proof.Machine.execSneg m rs1 rs2 s
  | .sadd m rs1 rs2 rs3 => Sys2Proof.Machine.execSadd m rs1 rs2 rs3 s
  | .ssub m rs1 rs2 rs3 => Sys2Proof.Machine.execSsub m rs1 rs2 rs3 s
  | .sshl m rs1 rs2 rs3 => Sys2Proof.Machine.execSshl m rs1 rs2 rs3 s
  | .ssar m rs1 rs2 rs3 => Sys2Proof.Machine.execSsar m rs1 rs2 rs3 s
  | .scmp rd rs1 rs2 => Sys2Proof.Machine.execScmp rd rs1 rs2 s

end Sys2Proof.Machine
end

