-- ==== Sys2Proof/Machine/HostPort.lean ====
section
/-! DEFINITION. The host interface: what each move of the host does to the block and what it returns (60_exceptions.md R330), the
words the host issues (30_encoding.md R94), and reset (70_reset_and_hazards.md R350). -/

namespace Sys2Proof.Machine

/-- A move and the value it returned, put on the observable trace (R330). -/
def State.observe (s : State) (m : HostMove) (returned : Option Word) : State := { s with trace := ⟨m, returned⟩ :: s.trace }

/-- Reset of the block: every piece of the block's state takes its reset value; the parameter HEAPMAX stays, and so do the host's own
coming moves and the trace it has seen, which are not the block's (R350, log 2). -/
def State.blockReset (s : State) : State := { State.reset with heapMax := s.heapMax, host := s.host, trace := s.trace }

/-- A command word presented to the block: decoded and executed, or, when it is no command, IllegalCommand. While a fault is latched
the word is dropped whatever it is (R320, R321; `execute` holds that test, log 5). -/
def issueWord (w : CmdWord) (s : State) : Host.Outcome State Fault Refusal :=
  match decode w with
  | .ok i => exec i s
  | .error _ => illegalWord w s

/-- One move of the host (R330). Reads and writes of registers, reads of system registers and reset are legal at any time; a
fault-clear only while a fault is latched (R325), otherwise it is refused (log 4). -/
def hostMove (m : HostMove) (s : State) : Host.Outcome State Fault Refusal :=
  match m with
  | .reset => .next (s.blockReset.observe .reset none)
  | .issue w => issueWord w (s.observe (.issue w) none)
  | .readReg r => .next (s.observe (.readReg r) (some s.x[r]))
  | .writeReg r v => .next ((s.setReg r v).observe (.writeReg r v) none)
  | .readSysReg r => .next (s.observe (.readSysReg r) (some (s.sysReg r)))
  | .faultClear => if s.fault then .next (s.clearFault.observe .faultClear none) else .refused .faultClearNotLegal

/-- The host's next move, taken off its list. With no move pending the block waits and nothing changes (R350, R331, log 3). -/
def nextMove (s : State) : Host.Outcome State Fault Refusal :=
  match s.host with
  | [] => .next s
  | m :: rest => hostMove m { s with host := rest }

/-- The state ready to run a word the host presents next: a latched fault is cleared (R325), nothing else changes (log 5). -/
def State.acceptingCommands (s : State) : State := if s.fault then s.clearFault else s

end Sys2Proof.Machine
end

