-- ==== Sys2Proof/Machine/Step.lean ====
section
/-! DEFINITION. One step of the machine: one move of the host (70_reset_and_hazards.md R356: one step per host move). -/

namespace Sys2Proof.Machine

/-- One step: the host's next move. -/
def step (s : State) : Host.Outcome State Fault Refusal := nextMove s

/-- The state in which the host's next move is to issue the word `w` of `nbits` bits (the bits above them 0), with no fault latched,
so that the next step runs exactly it. The block fetches nothing (10_state.md R27): this stands for the host giving the word (log 2,
log 5). -/
def State.withFetchWord (s : State) (nbits w : Nat) : State :=
  { s.acceptingCommands with host := .issue (BitVec.ofNat 32 (w % 2 ^ nbits)) :: s.host }

end Sys2Proof.Machine
end

