-- ==== Sys2Proof/Machine/Assembler.lean ====
section
/-! DEFINITION. The assembler's side of the command set: the pseudo-instructions and the commands each stands for (30_encoding.md
R108), and the text of a command (R105). Neither is part of a step: the block sees command words only. -/

namespace Sys2Proof.Machine

/-- The pseudo-instructions and aliases of R108. -/
inductive Pseudo where
  | ldf32 (rd ra : Reg)
  | ldf64 (rd ra : Reg)
  | stf32 (ra rv : Reg)
  | stf64 (ra rv : Reg)
  | li (rd : Reg) (c : Word)
  | fromU64h (ra rv : Reg)
  | fromS64h (ra rv : Reg)
  | oneh (ra rt : Reg)
  | ucmp (rd ra rb : Reg)
  | uzero (ra : Reg)
deriving DecidableEq, Repr

/-- The 16 bits of `c` from bit `lo` up, as the immediate of LDI or LDIS. -/
def liGroup (c : Word) (lo : Nat) : BitVec 20 := BitVec.ofNat 20 (c.toNat / 2 ^ lo % 65536)

/-- The commands a pseudo-instruction expands to (R108). For `LI` the expansion of the table, which always works. -/
def Pseudo.expand : Pseudo → List Instr
  | .ldf32 rd ra => [.ld32 rd ra]
  | .ldf64 rd ra => [.ld64 rd ra]
  | .stf32 ra rv => [.st32 ra rv]
  | .stf64 ra rv => [.st64 ra rv]
  | .li rd c =>
    if -524288 ≤ c.toInt ∧ c.toInt ≤ 524287 then [.ldi rd (c.setWidth 20)]
    else [.ldi rd (liGroup c 48), .ldis rd (liGroup c 32), .ldis rd (liGroup c 16), .ldis rd (liGroup c 0)]
  | .fromU64h ra rv => [.wru64h ra rv]
  | .fromS64h ra rv => [.wrs64h ra rv]
  | .oneh ra rt => [.ldi rt 1, .wru64h ra rt]
  | .ucmp rd ra rb => [.cmph rd ra rb]
  | .uzero ra => [.zeroh ra]

/-! ### The text of a command (R105) -/

/-- A register operand, `x0` to `x15`. -/
def regText (r : Reg) : String := "x" ++ toString r.val

/-- The `.W` suffix of an engine command. -/
def widthText (w : Width) : String := "." ++ toString w.bits

/-- The `.M` suffix; it may be left out for NATIVE, and this text never leaves it out. -/
def modeText : Mode → String
  | .native => ".N"
  | .arithmetic => ".A"

/-- The name of a system register as RDSR takes it (10_state.md R23). -/
def sysRegText : SysReg → String
  | .status => "STATUS"
  | .faultCmd => "FAULTCMD"
  | .faultInfo => "FAULTINFO"
  | .cmdseq => "CMDSEQ"
  | .flags => "FLAGS"
  | .carryLo => "CARRYLO"
  | .carryHi => "CARRYHI"
  | .heapCap => "HEAPCAP"
  | .bump => "BUMP"
  | .large => "LARGE"
  | .heapMax => "HEAPMAX"
  | .bin k => "BIN" ++ toString k.val

/-- One line of assembler text: the mnemonic with its suffixes, and the operands in the order rd, rs1, rs2, rs3. -/
def lineText (mnemonic : String) (operands : List String) : String :=
  match operands with
  | [] => mnemonic
  | _ => mnemonic ++ " " ++ ", ".intercalate operands

/-- The text of a command (R105). LDI's immediate is written signed, in decimal; a system register by its name where it has one. -/
def asmText : Instr → String
  | .nop => lineText "NOP" []
  | .ldi rd imm => lineText "LDI" [regText rd, toString imm.toInt]
  | .ldis rd imm => lineText "LDIS" [regText rd, toString (ldisValue imm)]
  | .mov rd rs1 => lineText "MOV" [regText rd, regText rs1]
  | .rdsr rd imm => lineText "RDSR" [regText rd, ((sysRegOf imm.toNat).map sysRegText).getD (toString imm.toNat)]
  | .hinit rs1 => lineText "HINIT" [regText rs1]
  | .hensure rs1 => lineText "HENSURE" [regText rs1]
  | .ld8 rd rs1 => lineText "LD8" [regText rd, regText rs1]
  | .ld16 rd rs1 => lineText "LD16" [regText rd, regText rs1]
  | .ld32 rd rs1 => lineText "LD32" [regText rd, regText rs1]
  | .ld64 rd rs1 => lineText "LD64" [regText rd, regText rs1]
  | .st8 rs1 rs2 => lineText "ST8" [regText rs1, regText rs2]
  | .st16 rs1 rs2 => lineText "ST16" [regText rs1, regText rs2]
  | .st32 rs1 rs2 => lineText "ST32" [regText rs1, regText rs2]
  | .st64 rs1 rs2 => lineText "ST64" [regText rs1, regText rs2]
  | .memcpy rs1 rs2 rs3 => lineText "MEMCPY" [regText rs1, regText rs2, regText rs3]
  | .memmove rs1 rs2 rs3 => lineText "MEMMOVE" [regText rs1, regText rs2, regText rs3]
  | .memset rs1 rs2 rs3 => lineText "MEMSET" [regText rs1, regText rs2, regText rs3]
  | .malloc rd rs1 => lineText "MALLOC" [regText rd, regText rs1]
  | .calloc rd rs1 rs2 => lineText "CALLOC" [regText rd, regText rs1, regText rs2]
  | .free rs1 => lineText "FREE" [regText rs1]
  | .realloc rd rs1 rs2 => lineText "REALLOC" [regText rd, regText rs1, regText rs2]
  | .shl m w rd rs1 rs2 => lineText ("SHL" ++ widthText w ++ modeText m) [regText rd, regText rs1, regText rs2]
  | .shr m w rd rs1 rs2 => lineText ("SHR" ++ widthText w ++ modeText m) [regText rd, regText rs1, regText rs2]
  | .ushr m w rd rs1 rs2 => lineText ("USHR" ++ widthText w ++ modeText m) [regText rd, regText rs1, regText rs2]
  | .bshl m w rd rs1 rs2 => lineText ("BSHL" ++ widthText w ++ modeText m) [regText rd, regText rs1, regText rs2]
  | .bshr m w rd rs1 rs2 => lineText ("BSHR" ++ widthText w ++ modeText m) [regText rd, regText rs1, regText rs2]
  | .bushr m w rd rs1 rs2 => lineText ("BUSHR" ++ widthText w ++ modeText m) [regText rd, regText rs1, regText rs2]
  | .and m w rd rs1 rs2 => lineText ("AND" ++ widthText w ++ modeText m) [regText rd, regText rs1, regText rs2]
  | .or m w rd rs1 rs2 => lineText ("OR" ++ widthText w ++ modeText m) [regText rd, regText rs1, regText rs2]
  | .xor m w rd rs1 rs2 => lineText ("XOR" ++ widthText w ++ modeText m) [regText rd, regText rs1, regText rs2]
  | .not m w rd rs1 => lineText ("NOT" ++ widthText w ++ modeText m) [regText rd, regText rs1]
  | .btest m w rd rs1 rs2 => lineText ("BTEST" ++ widthText w ++ modeText m) [regText rd, regText rs1, regText rs2]
  | .bset m w rd rs1 rs2 => lineText ("BSET" ++ widthText w ++ modeText m) [regText rd, regText rs1, regText rs2]
  | .bclr m w rd rs1 rs2 => lineText ("BCLR" ++ widthText w ++ modeText m) [regText rd, regText rs1, regText rs2]
  | .btgl m w rd rs1 rs2 => lineText ("BTGL" ++ widthText w ++ modeText m) [regText rd, regText rs1, regText rs2]
  | .popcnt m w rd rs1 => lineText ("POPCNT" ++ widthText w ++ modeText m) [regText rd, regText rs1]
  | .mask m w rd rs1 => lineText ("MASK" ++ widthText w ++ modeText m) [regText rd, regText rs1]
  | .sext m w rd rs1 rs2 => lineText ("SEXT" ++ widthText w ++ modeText m) [regText rd, regText rs1, regText rs2]
  | .zext m w rd rs1 rs2 => lineText ("ZEXT" ++ widthText w ++ modeText m) [regText rd, regText rs1, regText rs2]
  | .bdec m w rs1 rs2 => lineText ("BDEC" ++ widthText w ++ modeText m) [regText rs1, regText rs2]
  | .bcomp m w rd rs1 => lineText ("BCOMP" ++ widthText w ++ modeText m) [regText rd, regText rs1]
  | .addh m rd rs1 rs2 rs3 => lineText ("ADDH" ++ modeText m) [regText rd, regText rs1, regText rs2, regText rs3]
  | .subh m rd rs1 rs2 rs3 => lineText ("SUBH" ++ modeText m) [regText rd, regText rs1, regText rs2, regText rs3]
  | .cmph rd rs1 rs2 => lineText "CMPH" [regText rd, regText rs1, regText rs2]
  | .shlh m rs1 rs2 rs3 => lineText ("SHLH" ++ modeText m) [regText rs1, regText rs2, regText rs3]
  | .shrh m rs1 rs2 rs3 => lineText ("SHRH" ++ modeText m) [regText rs1, regText rs2, regText rs3]
  | .zeroh rs1 => lineText "ZEROH" [regText rs1]
  | .wru64h rs1 rs2 => lineText "WRU64H" [regText rs1, regText rs2]
  | .hexh rs1 rs2 => lineText "HEXH" [regText rs1, regText rs2]
  | .uadd m rs1 rs2 rs3 => lineText ("UADD" ++ modeText m) [regText rs1, regText rs2, regText rs3]
  | .usub m rs1 rs2 rs3 => lineText ("USUB" ++ modeText m) [regText rs1, regText rs2, regText rs3]
  | .ushl m rs1 rs2 rs3 => lineText ("USHL" ++ modeText m) [regText rs1, regText rs2, regText rs3]
  | .usrl m rs1 rs2 rs3 => lineText ("USRL" ++ modeText m) [regText rs1, regText rs2, regText rs3]
  | .wrs64h rs1 rs2 => lineText "WRS64H" [regText rs1, regText rs2]
  | .sneg m rs1 rs2 => lineText ("SNEG" ++ modeText m) [regText rs1, regText rs2]
  | .sadd m rs1 rs2 rs3 => lineText ("SADD" ++ modeText m) [regText rs1, regText rs2, regText rs3]
  | .ssub m rs1 rs2 rs3 => lineText ("SSUB" ++ modeText m) [regText rs1, regText rs2, regText rs3]
  | .sshl m rs1 rs2 rs3 => lineText ("SSHL" ++ modeText m) [regText rs1, regText rs2, regText rs3]
  | .ssar m rs1 rs2 rs3 => lineText ("SSAR" ++ modeText m) [regText rs1, regText rs2, regText rs3]
  | .scmp rd rs1 rs2 => lineText "SCMP" [regText rd, regText rs1, regText rs2]

end Sys2Proof.Machine
end

