-- ==== Sys2Proof/Safety.lean ====
section
/-! DEFINITION. The terms the statements are made in: bytes as numbers, the state a fault leaves, the invariant every step keeps,
what 30_encoding.md and 60_exceptions.md tabulate about the commands, and the heap as 10_state.md R43 describes it: chunks and
lists. Nothing here is used by the machine. -/

namespace Sys2Proof

/-! ### What the spec tabulates about the commands -/

/-- The command with its mode bit set to `m`; a command without one is itself (30_encoding.md R93). -/
def Instr.withMode (m : Mode) : Instr → Instr
  | .shl _ w rd rs1 rs2 => .shl m w rd rs1 rs2
  | .shr _ w rd rs1 rs2 => .shr m w rd rs1 rs2
  | .ushr _ w rd rs1 rs2 => .ushr m w rd rs1 rs2
  | .bshl _ w rd rs1 rs2 => .bshl m w rd rs1 rs2
  | .bshr _ w rd rs1 rs2 => .bshr m w rd rs1 rs2
  | .bushr _ w rd rs1 rs2 => .bushr m w rd rs1 rs2
  | .and _ w rd rs1 rs2 => .and m w rd rs1 rs2
  | .or _ w rd rs1 rs2 => .or m w rd rs1 rs2
  | .xor _ w rd rs1 rs2 => .xor m w rd rs1 rs2
  | .not _ w rd rs1 => .not m w rd rs1
  | .btest _ w rd rs1 rs2 => .btest m w rd rs1 rs2
  | .bset _ w rd rs1 rs2 => .bset m w rd rs1 rs2
  | .bclr _ w rd rs1 rs2 => .bclr m w rd rs1 rs2
  | .btgl _ w rd rs1 rs2 => .btgl m w rd rs1 rs2
  | .popcnt _ w rd rs1 => .popcnt m w rd rs1
  | .mask _ w rd rs1 => .mask m w rd rs1
  | .sext _ w rd rs1 rs2 => .sext m w rd rs1 rs2
  | .zext _ w rd rs1 rs2 => .zext m w rd rs1 rs2
  | .bdec _ w rs1 rs2 => .bdec m w rs1 rs2
  | .bcomp _ w rd rs1 => .bcomp m w rd rs1
  | .addh _ rd rs1 rs2 rs3 => .addh m rd rs1 rs2 rs3
  | .subh _ rd rs1 rs2 rs3 => .subh m rd rs1 rs2 rs3
  | .shlh _ rs1 rs2 rs3 => .shlh m rs1 rs2 rs3
  | .shrh _ rs1 rs2 rs3 => .shrh m rs1 rs2 rs3
  | .uadd _ rs1 rs2 rs3 => .uadd m rs1 rs2 rs3
  | .usub _ rs1 rs2 rs3 => .usub m rs1 rs2 rs3
  | .ushl _ rs1 rs2 rs3 => .ushl m rs1 rs2 rs3
  | .usrl _ rs1 rs2 rs3 => .usrl m rs1 rs2 rs3
  | .sneg _ rs1 rs2 => .sneg m rs1 rs2
  | .sadd _ rs1 rs2 rs3 => .sadd m rs1 rs2 rs3
  | .ssub _ rs1 rs2 rs3 => .ssub m rs1 rs2 rs3
  | .sshl _ rs1 rs2 rs3 => .sshl m rs1 rs2 rs3
  | .ssar _ rs1 rs2 rs3 => .ssar m rs1 rs2 rs3
  | i => i

/-- The fault codes a command's row of 60_exceptions.md R319 marks, in R310's numbers; RDSR has IllegalCommand of its own (R124). -/
def Instr.raises : Instr → List Nat
  | .nop | .ldi .. | .ldis .. | .mov .. => []
  | .rdsr .. => [8]
  | .hinit .. | .hensure .. => [1, 2, 7]
  | .ld8 .. | .ld16 .. | .ld32 .. | .ld64 .. | .st8 .. | .st16 .. | .st32 .. | .st64 .. => [6, 7]
  | .memcpy .. | .memmove .. | .memset .. => [2, 6, 7]
  | .malloc .. | .calloc .. => [1, 2, 5, 7]
  | .free .. => [2, 5, 7]
  | .realloc .. => [1, 2, 5, 7]
  | .shl .. | .shr .. | .ushr .. | .bshl .. | .bshr .. | .bushr .. => [2]
  | .and .. | .or .. | .xor .. | .not .. | .popcnt .. => []
  | .btest .. | .bset .. | .bclr .. | .btgl .. | .mask .. | .sext .. | .zext .. => [2]
  | .bdec .. | .bcomp .. => [6, 7]
  | .addh .. | .subh .. | .cmph .. | .zeroh .. | .wru64h .. | .hexh .. => [6, 7]
  | .shlh .. | .shrh .. => [2, 6, 7]
  | .uadd .. => [3, 6, 7]
  | .usub .. => [4, 6, 7]
  | .ushl .. => [2, 3, 6, 7]
  | .usrl .. | .ssar .. => [2, 6, 7]
  | .wrs64h .. | .scmp .. => [6, 7]
  | .sneg .. | .sadd .. | .ssub .. => [3, 6, 7]
  | .sshl .. => [2, 3, 6, 7]

/-- The commands that write FLAGS.V, CARRYLO and CARRYHI (10_state.md R28, R29). -/
def Instr.writesFlags : Instr → Bool
  | .shl .. | .shr .. | .ushr .. | .bshl .. | .bshr .. | .bushr .. | .addh .. | .subh .. | .shlh .. | .shrh .. => true
  | _ => false

/-- The register a command writes, if it writes one: its rd field (10_state.md R21). -/
def Instr.dest : Instr → Option Reg
  | .ldi rd _ | .ldis rd _ | .mov rd _ | .rdsr rd _ => some rd
  | .ld8 rd _ | .ld16 rd _ | .ld32 rd _ | .ld64 rd _ => some rd
  | .malloc rd _ | .calloc rd _ _ | .realloc rd _ _ => some rd
  | .shl _ _ rd _ _ | .shr _ _ rd _ _ | .ushr _ _ rd _ _ | .bshl _ _ rd _ _ | .bshr _ _ rd _ _ | .bushr _ _ rd _ _ => some rd
  | .and _ _ rd _ _ | .or _ _ rd _ _ | .xor _ _ rd _ _ | .not _ _ rd _ => some rd
  | .btest _ _ rd _ _ | .bset _ _ rd _ _ | .bclr _ _ rd _ _ | .btgl _ _ rd _ _ => some rd
  | .popcnt _ _ rd _ | .mask _ _ rd _ | .sext _ _ rd _ _ | .zext _ _ rd _ _ | .bcomp _ _ rd _ => some rd
  | .addh _ rd _ _ _ | .subh _ rd _ _ _ | .cmph rd _ _ | .scmp rd _ _ => some rd
  | .nop | .hinit _ | .hensure _ | .st8 _ _ | .st16 _ _ | .st32 _ _ | .st64 _ _ | .memcpy _ _ _ | .memmove _ _ _ | .memset _ _ _ => none
  | .free _ | .bdec _ _ _ _ | .shlh _ _ _ _ | .shrh _ _ _ _ | .zeroh _ | .wru64h _ _ | .hexh _ _ => none
  | .uadd _ _ _ _ | .usub _ _ _ _ | .ushl _ _ _ _ | .usrl _ _ _ _ | .wrs64h _ _ | .sneg _ _ _ => none
  | .sadd _ _ _ _ | .ssub _ _ _ _ | .sshl _ _ _ _ | .ssar _ _ _ _ => none

/-- Masks and matches of NOP to RDSR (R96). -/
def mapSystem : List (CmdWord × CmdWord) :=
  [(0xFFFFFFFF, 0x00000001),
   (0x000000FF, 0x00000002),
   (0xF00000FF, 0x00000003),
   (0xFFFF00FF, 0x00000004),
   (0x000000FF, 0x00000005)]

/-- Masks and matches of HINIT to MEMSET, and of MALLOC to REALLOC (R96). -/
def mapHeap : List (CmdWord × CmdWord) :=
  [(0xFFFF0FFF, 0x00000010),
   (0xFFFF0FFF, 0x00000011),
   (0xFFFF00FF, 0x00000012),
   (0xFFFF00FF, 0x00000013),
   (0xFFFF00FF, 0x00000014),
   (0xFFFF00FF, 0x00000015),
   (0xFFF00FFF, 0x00000016),
   (0xFFF00FFF, 0x00000017),
   (0xFFF00FFF, 0x00000018),
   (0xFFF00FFF, 0x00000019),
   (0xFF000FFF, 0x0000001A),
   (0xFF000FFF, 0x0000001B),
   (0xFF000FFF, 0x0000001C),
   (0xFFFF00FF, 0x00000020),
   (0xFFF000FF, 0x00000021),
   (0xFFFF0FFF, 0x00000022),
   (0xFFF000FF, 0x00000023)]

/-- Masks and matches of SHL to BCOMP (R96). -/
def mapEngine : List (CmdWord × CmdWord) :=
  [(0xF8F000FF, 0x00000030),
   (0xF8F000FF, 0x00000031),
   (0xF8F000FF, 0x00000032),
   (0xF8F000FF, 0x00000033),
   (0xF8F000FF, 0x00000034),
   (0xF8F000FF, 0x00000035),
   (0xF8F000FF, 0x00000036),
   (0xF8F000FF, 0x00000037),
   (0xF8F000FF, 0x00000038),
   (0xF8FF00FF, 0x00000039),
   (0xF8F000FF, 0x0000003A),
   (0xF8F000FF, 0x0000003B),
   (0xF8F000FF, 0x0000003C),
   (0xF8F000FF, 0x0000003D),
   (0xF8FF00FF, 0x0000003E),
   (0xF8FF00FF, 0x0000003F),
   (0xF8F000FF, 0x00000040),
   (0xF8F000FF, 0x00000041),
   (0xF8F00FFF, 0x00000042),
   (0xF8FF00FF, 0x00000043)]

/-- Masks and matches of ADDH to HEXH, and of UADD to SCMP (R96). -/
def mapWide : List (CmdWord × CmdWord) :=
  [(0xFB0000FF, 0x00000050),
   (0xFB0000FF, 0x00000051),
   (0xFFF000FF, 0x00000052),
   (0xFB000FFF, 0x00000053),
   (0xFB000FFF, 0x00000054),
   (0xFFFF0FFF, 0x00000055),
   (0xFFF00FFF, 0x00000056),
   (0xFFF00FFF, 0x00000057),
   (0xFB000FFF, 0x00000060),
   (0xFB000FFF, 0x00000061),
   (0xFB000FFF, 0x00000062),
   (0xFB000FFF, 0x00000063),
   (0xFFF00FFF, 0x00000068),
   (0xFBF00FFF, 0x00000069),
   (0xFB000FFF, 0x0000006A),
   (0xFB000FFF, 0x0000006B),
   (0xFB000FFF, 0x0000006C),
   (0xFB000FFF, 0x0000006D),
   (0xFFF000FF, 0x0000006E)]

/-- The opcode map: the mask and the match of each of the 61 rows (30_encoding.md R94, R96; opcode_table.json). -/
def opcodeMap : List (CmdWord × CmdWord) := mapSystem ++ mapHeap ++ mapEngine ++ mapWide

end Sys2Proof

namespace Sys2Proof.Machine

/-! ### Bytes as numbers (20_memory.md R62, R63) -/

/-- The little-endian natural in bytes `a` to `a + n - 1`. -/
def Memory.natAt (m : Memory) (a n : Nat) : Nat := ∑ k ∈ Finset.range n, (m.read (a + k)).toNat * 256 ^ k

/-- `m'` is `m` with `v mod 2^(8n)` little-endian in bytes `a` to `a + n - 1` and every other byte as it was. -/
def Memory.Wrote (m m' : Memory) (a n v : Nat) : Prop :=
  ∀ k, m'.read k = if a ≤ k ∧ k < a + n then BitVec.ofNat 8 (v / 256 ^ (k - a)) else m.read k

/-- The `n` bytes from the signed address in register `r` exist. -/
abbrev State.InRange (s : State) (r : Reg) (n : Int) : Prop := 0 ≤ s.regInt r ∧ s.regInt r + n ≤ s.cap

/-- The address in register `r`, for an address that is not negative. -/
def State.addr (s : State) (r : Reg) : Nat := (s.regInt r).toNat

/-- The 128-bit value at the address in register `r` (10_state.md R46). -/
def State.val128 (s : State) (r : Reg) : Nat := s.mem.natAt (s.addr r) 16

/-! ### The state a fault leaves (60_exceptions.md R320) -/

/-- The state after fault entry with a code and an info value: these four fields and nothing else. -/
def State.latched (s : State) (word : CmdWord) (code info : Nat) : State :=
  { s with fault := true, code := BitVec.ofNat 8 code, faultCmd := word, faultInfo := BitVec.ofNat 64 info }

/-! ### The invariant every step keeps -/

/-- What holds of the state after every host move: the memory is canonical and below CAP; the latch fields are 0 when no fault is
latched and hold a code of R310 when one is; before HINIT there is no heap, after it BUMP lies in the heap and is 8 mod 16 (R31);
HEAPMAX is in its range (R6); LIVE is a set; V says whether CARRYHI:CARRYLO is 0 (R28, R29). -/
structure Inv (s : State) : Prop where
  memWf : s.mem.wf
  memBelow : ∀ c ∈ s.mem, c.1 < s.cap
  latchClear : s.fault = false → s.code = 0 ∧ s.faultCmd = 0 ∧ s.faultInfo = 0
  latchSet : s.fault = true → 1 ≤ s.code.toNat ∧ s.code.toNat ≤ 8
  noHeap : s.init = false →
    s.cap = 0 ∧ s.mem = [] ∧ s.bin = Vector.replicate 16 0 ∧ s.large = 0 ∧ s.bump = 0 ∧ s.live = []
  heap : s.init = true →
    8 ≤ s.bump.toNat ∧ s.bump.toNat % 16 = 8 ∧ s.bump.toNat ≤ s.cap ∧ s.cap ≤ s.heapMax
  heapMax : 24 ≤ s.heapMax ∧ s.heapMax < 2 ^ 62
  live : s.live.Pairwise (· < ·)
  carry : s.flagV = true ↔ s.carryLo ≠ 0 ∨ s.carryHi ≠ 0

/-! ### The written order of a command's tests (60_exceptions.md R322) -/

/-- The command's pseudocode tests the conditions in the order listed, `(condition, code, info)` each: the first that fails latches
its fault and nothing else happens; when all hold, `done` does. -/
def Tests (i : Instr) (s : State) : List (Prop × Nat × Nat) → Prop → Prop
  | [], done => done
  | (c, code, info) :: tests, done => (¬c → exec i s = .next (s.latched (encode i) code info)) ∧ (c → Tests i s tests done)

/-- The value a 128-bit pattern has when read as signed (45_int128.md R281). -/
abbrev signed128 (v : Nat) : Int := (BitVec.ofNat 128 v).toInt

/-! ### Where a command stores -/

/-- The register that holds the address a command stores to and the number of bytes it stores from there up; none for a command that
stores nothing at an address operand. The allocator's own writes of tags and links are not stores at an operand. -/
def State.storesTo (s : State) : Instr → Option (Reg × Int)
  | .st8 rs1 _ => some (rs1, 1)
  | .st16 rs1 _ => some (rs1, 2)
  | .st32 rs1 _ => some (rs1, 4)
  | .st64 rs1 _ => some (rs1, 8)
  | .memcpy rs1 _ rs3 | .memmove rs1 _ rs3 | .memset rs1 _ rs3 => some (rs1, s.regInt rs3)
  | .bdec _ w rs1 _ => some (rs1, (w.bits / 8 : Nat))
  | .addh _ _ rs1 _ _ | .subh _ _ rs1 _ _ | .shlh _ rs1 _ _ | .shrh _ rs1 _ _ | .zeroh rs1 | .wru64h rs1 _ => some (rs1, 16)
  | .hexh rs1 _ => some (rs1, 32)
  | .uadd _ rs1 _ _ | .usub _ rs1 _ _ | .ushl _ rs1 _ _ | .usrl _ rs1 _ _ | .wrs64h rs1 _ | .sneg _ rs1 _ => some (rs1, 16)
  | .sadd _ rs1 _ _ | .ssub _ rs1 _ _ | .sshl _ rs1 _ _ | .ssar _ rs1 _ _ => some (rs1, 16)
  | .nop | .ldi _ _ | .ldis _ _ | .mov _ _ | .rdsr _ _ | .hinit _ | .hensure _ => none
  | .ld8 _ _ | .ld16 _ _ | .ld32 _ _ | .ld64 _ _ | .malloc _ _ | .calloc _ _ _ | .free _ | .realloc _ _ _ => none
  | .shl _ _ _ _ _ | .shr _ _ _ _ _ | .ushr _ _ _ _ _ | .bshl _ _ _ _ _ | .bshr _ _ _ _ _ | .bushr _ _ _ _ _ => none
  | .and _ _ _ _ _ | .or _ _ _ _ _ | .xor _ _ _ _ _ | .not _ _ _ _ | .btest _ _ _ _ _ | .bset _ _ _ _ _ | .bclr _ _ _ _ _ => none
  | .btgl _ _ _ _ _ | .popcnt _ _ _ _ | .mask _ _ _ _ | .sext _ _ _ _ _ | .zext _ _ _ _ _ | .bcomp _ _ _ _ | .cmph _ _ _ | .scmp _ _ _ => none

/-! ### The heap as chunks and lists (10_state.md R43, 42_allocator.md R160) -/

/-- A chunk: payload address, payload size, in use or free. -/
structure Chunk where
  addr : Nat
  size : Nat
  used : Bool
deriving DecidableEq, Repr

/-- The tag of a chunk (R160). -/
def Chunk.tag (c : Chunk) : Nat := 2 * c.size + c.used.toNat

/-- The bytes of a chunk's header and footer (R160). -/
abbrev Chunk.hasTagAt (c : Chunk) (a : Nat) : Prop := c.addr ≤ a + 8 ∧ a < c.addr ∨ c.addr + c.size ≤ a ∧ a < c.addr + c.size + 8

/-- The bytes of a chunk's free-list link (R160). -/
abbrev Chunk.hasLinkAt (c : Chunk) (a : Nat) : Prop := c.addr ≤ a ∧ a < c.addr + 8

/-- The payload bytes of a chunk (R160). -/
abbrev Chunk.hasPayloadAt (c : Chunk) (a : Nat) : Prop := c.addr ≤ a ∧ a < c.addr + c.size

/-- The chunks tile the bytes from `h` to `b - 1`, in address order, with equal header and footer tags, and every size a multiple of
16 and at least 16 (I1, I2, I3). -/
def Memory.Tiled (m : Memory) : Nat → List Chunk → Nat → Prop
  | h, [], b => h = b
  | h, c :: cs, b =>
    c.addr = h + 8 ∧ 16 ≤ c.size ∧ c.size % 16 = 0 ∧ m.natAt h 8 = c.tag ∧ m.natAt (h + 8 + c.size) 8 = c.tag ∧
      m.Tiled (h + 16 + c.size) cs b

/-- The links from `p` on run through the payload addresses `ps` in order and end at 0 (R160). -/
def Memory.Linked (m : Memory) : Nat → List Nat → Prop
  | p, [] => p = 0
  | p, q :: ps => p = q ∧ q ≠ 0 ∧ m.Linked (m.natAt q 8) ps

/-- The heap and allocator of `s` hold the chunks `cs`, in address order, and the free lists `ls`, head first, as R43 (I1) to (I6)
say; no byte from CAP up exists (R61) and the capacity is in its bounds. -/
structure Represents (s : State) (cs : List Chunk) (ls : FreeList → List Nat) : Prop where
  init : s.init = true
  bound : s.bump.toNat ≤ s.cap ∧ s.cap ≤ s.heapMax ∧ s.heapMax < 2 ^ 62
  beyond : ∀ a, s.cap ≤ a → s.mem.read a = 0
  tiled : s.mem.Tiled 8 cs s.bump.toNat
  apart : cs.IsChain fun c d => c.used = true ∨ d.used = true
  linked : ∀ l, s.mem.Linked (s.head l) (ls l)
  nodup : ∀ l, (ls l).Nodup
  member : ∀ l p, p ∈ ls l ↔ ∃ c ∈ cs, c.addr = p ∧ c.used = false ∧ listFor c.size = l
  live : ∀ p, p ∈ s.live ↔ ∃ c ∈ cs, c.addr = p ∧ c.used = true

/-- The allocator's data are as R43 says, for some chunks and lists. -/
def HeapTiled (s : State) : Prop := ∃ cs ls, Represents s cs ls

/-- The first chunk of a list, in list order, with at least `r` payload bytes (R165). -/
def firstFit (cs : List Chunk) (ps : List Nat) (r : Nat) : Option Chunk :=
  (ps.filterMap fun p => cs.find? fun c => c.addr = p).find? fun c => r ≤ c.size

/-- The chunk the search finds: in the bin of `r` when `r` is at most 1024, else or failing that in the large list (R174). -/
def searchFit (cs : List Chunk) (ls : FreeList → List Nat) (r : Nat) : Option Chunk :=
  (if r ≤ 1024 then firstFit cs (ls (listFor r)) r else none).or (firstFit cs (ls .large) r)

/-- A chunk is cut into an allocation of `r` bytes at its front and, when the surplus is above 16, a free chunk (R168). -/
def Chunk.cut (c : Chunk) (r : Nat) : List Chunk :=
  if 16 < c.size - r then [⟨c.addr, r, true⟩, ⟨c.addr + r + 16, c.size - r - 16, false⟩] else [⟨c.addr, c.size, true⟩]

/-- The lists without the chunk at `p` (R165, R166). -/
def without (ls : FreeList → List Nat) (p : Nat) : FreeList → List Nat := fun l => (ls l).erase p

/-- The lists with the chunk at `p` of `size` payload bytes at the head of its list (R167). -/
def withHead (ls : FreeList → List Nat) (p size : Nat) : FreeList → List Nat :=
  fun l => if l = listFor size then p :: ls l else ls l

/-- The lists after the chunk `c` is taken and cut for `r` bytes (R165, R168). -/
def listsAfterCut (ls : FreeList → List Nat) (c : Chunk) (r : Nat) : FreeList → List Nat :=
  if 16 < c.size - r then withHead (without ls c.addr) (c.addr + r + 16) (c.size - r - 16) else without ls c.addr

/-- The lists without the chunk that may be there. -/
def withoutOption (ls : FreeList → List Nat) (c : Option Chunk) : FreeList → List Nat := c.elim ls fun d => without ls d.addr

/-- The bytes a neighbour that may be there brings into a merged payload: its payload and the two tags between (R173). -/
def absorbed (c : Option Chunk) : Nat := c.elim 0 fun d => d.size + 16

/-- Outside the tags of the chunks `cs` and the links of the free ones, `m'` has the bytes of `m`. -/
def Memory.SameBut (m m' : Memory) (cs : List Chunk) : Prop :=
  ∀ a, (∀ c ∈ cs, ¬c.hasTagAt a ∧ (c.used = false → ¬c.hasLinkAt a)) → m'.read a = m.read a

/-! ### Corrupted heaps: what CorruptionDetected is raised for (42_allocator.md R164 to R166, R173, R174) -/

/-- What `ReadChunk` answers for a chunk (R164): the address and the size are possible, the chunk lies below BUMP, and the header and
the footer hold its tag. -/
abbrev State.HasChunk (s : State) (c : Chunk) : Prop :=
  16 ≤ c.addr ∧ c.addr % 16 = 0 ∧ 16 ≤ c.size ∧ c.size % 16 = 0 ∧ c.addr + c.size + 8 ≤ s.bump.toNat ∧
    s.mem.natAt (c.addr - 8) 8 = c.tag ∧ s.mem.natAt (c.addr + c.size) 8 = c.tag

/-- A walk along the links from `p` passes the free chunks `cs`, each valid and such that `passes`, and stands at `q`. -/
def State.Walks (s : State) (passes : Chunk → Prop) : Nat → List Chunk → Nat → Prop
  | p, [], q => p = q
  | p, c :: cs, q => p = c.addr ∧ s.HasChunk c ∧ c.used = false ∧ passes c ∧ s.Walks passes (s.mem.natAt p 8) cs q

/-- No valid free chunk is at `p`: its tags do not agree, its size or address is impossible, or it says in use. -/
def State.NoFreeChunk (s : State) (p : Nat) : Prop := ∀ c : Chunk, c.addr = p → c.used = false → ¬s.HasChunk c

/-- The search of list `l` for `r` bytes passes chunks that are too small and comes to a `p` that is not null, where it may take no
further step (BUMP div 32 are taken) or finds no valid free chunk (R165). -/
def State.SearchBreaks (s : State) (l : FreeList) (r p : Nat) : Prop :=
  ∃ cs, s.Walks (fun c => c.size < r) (s.head l) cs p ∧ p ≠ 0 ∧ cs.length ≤ s.bump.toNat / 32 ∧
    (cs.length = s.bump.toNat / 32 ∨ s.NoFreeChunk p)

/-- The search of list `l` for `r` bytes passes chunks that are too small and comes to the end of the list (R165). -/
def State.SearchEnds (s : State) (l : FreeList) (r : Nat) : Prop :=
  ∃ cs, s.Walks (fun c => c.size < r) (s.head l) cs 0 ∧ cs.length ≤ s.bump.toNat / 32

/-- The search for `n` bytes breaks at `p`: in the bin of the request, or, when that search ended or there is no bin, in the large list
(R174). -/
def State.AllocBreaks (s : State) (n p : Nat) : Prop :=
  let r := max 16 ((n + 15) / 16 * 16)
  r ≤ 1024 ∧ s.SearchBreaks (listFor r) r p ∨ (r ≤ 1024 → s.SearchEnds (listFor r) r) ∧ s.SearchBreaks .large r p

/-- Taking the chunk at `t` off list `l` breaks with info `p`: the walk passes other chunks and comes to the end of the list or to its
last step without `t` (info `t`), or to a `p` where no valid free chunk is (R166). -/
def State.UnlinkBreaks (s : State) (l : FreeList) (t p : Nat) : Prop :=
  ∃ cs q, s.Walks (fun c => c.addr ≠ t) (s.head l) cs q ∧ q ≠ t ∧ cs.length ≤ s.bump.toNat / 32 ∧
    if q = 0 ∨ cs.length = s.bump.toNat / 32 then p = t else p = q ∧ s.NoFreeChunk q

/-- Taking the chunk at `t` off list `l` leaves `s'`: the walk comes to `t`, and the link of `t` goes into the chunk before it, or into
the head of the list when there is none (R166). -/
def State.Unlinks (s : State) (l : FreeList) (t : Nat) (s' : State) : Prop :=
  ∃ cs, s.Walks (fun c => c.addr ≠ t) (s.head l) cs t ∧ cs.length ≤ s.bump.toNat / 32 ∧
    match cs.getLast? with
    | none => s' = s.setHead l (s.mem.natAt t 8)
    | some c => ∃ m, s.mem.Wrote m c.addr 8 (s.mem.natAt t 8) ∧ s' = { s with mem := m }

/-- Freeing the chunk at `a` breaks at the preceding chunk, which its footer says is free, with info `p`: the footer's size is
impossible (info the footer's address), the chunk there is not valid, not free or of another size (info its address), or it cannot be
taken off its list (R173). -/
def State.PrecedingBreaks (s : State) (a p : Nat) : Prop :=
  a ≠ 16 ∧ ∃ ps, s.mem.natAt (a - 16) 8 = 2 * ps ∧
    let q := a - 16 - ps
    if 16 ≤ ps ∧ ps % 16 = 0 ∧ 16 ≤ q then
      ¬s.HasChunk ⟨q, ps, false⟩ ∧ p = q ∨ s.HasChunk ⟨q, ps, false⟩ ∧ s.UnlinkBreaks (listFor ps) q p
    else p = a - 16

/-- The preceding chunk is dealt with and leaves `s'`: there is none, it is in use, or it is valid and free and off its list (R173). -/
def State.PrecedingDone (s : State) (a : Nat) (s' : State) : Prop :=
  (a = 16 ∨ s.mem.natAt (a - 16) 8 % 2 = 1) ∧ s' = s ∨
    a ≠ 16 ∧ ∃ ps, s.mem.natAt (a - 16) 8 = 2 * ps ∧ s.HasChunk ⟨a - 16 - ps, ps, false⟩ ∧ s.Unlinks (listFor ps) (a - 16 - ps) s'

/-- Freeing the chunk before `n` breaks at the following chunk, which is there, with info `p`: it is not valid (info `n`), or it is free
and cannot be taken off its list (R173). -/
def State.FollowingBreaks (s : State) (n p : Nat) : Prop :=
  n - 8 < s.bump.toNat ∧
    ((∀ c : Chunk, c.addr = n → ¬s.HasChunk c) ∧ p = n ∨
      ∃ ns, s.HasChunk ⟨n, ns, false⟩ ∧ s.UnlinkBreaks (listFor ns) n p)

/-- Freeing the chunk at `a` of `size` payload bytes breaks with info `p`: at the preceding chunk, or, that one dealt with, at the
following chunk (R173). -/
def State.FreeBreaks (s : State) (a size p : Nat) : Prop :=
  s.PrecedingBreaks a p ∨ ∃ s', s.PrecedingDone a s' ∧ s'.FollowingBreaks (a + size + 16) p

/-- `m'` is `m` with the two tags of the chunk `c` written, header and then footer (R160). -/
def Memory.WroteTags (m m' : Memory) (c : Chunk) : Prop :=
  ∃ m1, m.Wrote m1 (c.addr - 8) 8 c.tag ∧ m1.Wrote m' (c.addr + c.size) 8 c.tag

end Sys2Proof.Machine
end

