-- ==== Sys2Proof/Certificates/Slice0/Obligations.lean ====
section
/-! DEFINITION. The statements for the provers. `Tests i s [..] done` reads a command's `require` lines in their written order
(60_exceptions.md R322): the first that fails latches its fault, and when all hold the command does `done`. -/

open Sys2Proof Sys2Proof.Machine

/-! ## System and register commands (40_system.md) -/

/-- NOP, LDI, LDIS and MOV: the word, the one register written, CMDSEQ, and nothing else (R120 to R123). -/
def Obligations.RegisterCommandResults : Prop :=
  ∀ (s : State) (rd rs1 : Reg) (imm : BitVec 20), s.fault = false →
    (encode .nop = 0x00000001 ∧ exec .nop s = .next { s with cmdseq := s.cmdseq + 1 }) ∧
    ((encode (.ldi rd imm)).toNat = 0x02 + rd.val * 2 ^ 8 + imm.toNat * 2 ^ 12 ∧
      exec (.ldi rd imm) s = .next { s with x := s.x.set rd.val (imm.signExtend 64), cmdseq := s.cmdseq + 1 }) ∧
    (imm.toNat < 2 ^ 16 →
      (encode (.ldis rd imm)).toNat = 0x03 + rd.val * 2 ^ 8 + imm.toNat * 2 ^ 12 ∧
      exec (.ldis rd imm) s =
        .next
          { s with
            x := s.x.set rd.val (BitVec.ofNat 64 (s.x[rd].toNat * 65536 % 2 ^ 64 + imm.toNat))
            cmdseq := s.cmdseq + 1 }) ∧
    (2 ^ 16 ≤ imm.toNat → ∀ w : CmdWord, w.toNat = 0x03 + rd.val * 2 ^ 8 + imm.toNat * 2 ^ 12 → ∀ i, decode w ≠ .ok i) ∧
    ((encode (.mov rd rs1)).toNat = 0x04 + rd.val * 2 ^ 8 + rs1.val * 2 ^ 12 ∧
      exec (.mov rd rs1) s = .next { s with x := s.x.set rd.val s.x[rs1], cmdseq := s.cmdseq + 1 })

/-- RDSR reads each defined system register, zero-extended, and faults on every other number (R124, with the table of 10_state.md
R23). In a state with no fault latched CODE is 0 too (the invariant), so STATUS reads 0 or 2. -/
def Obligations.RdsrReadsSystemRegisters : Prop :=
  ∀ (s : State) (rd : Reg) (imm : BitVec 20), s.fault = false →
    let i := Instr.rdsr rd imm
    let reads := fun (v : Nat) => exec i s = .next { s with x := s.x.set rd.val (BitVec.ofNat 64 v), cmdseq := s.cmdseq + 1 }
    (encode i).toNat = 0x05 + rd.val * 2 ^ 8 + imm.toNat * 2 ^ 12 ∧
    (∀ n v, (n, v) ∈
      [(0, s.fault.toNat + 2 * s.init.toNat + 2 ^ 8 * s.code.toNat), (1, s.faultCmd.toNat), (2, s.faultInfo.toNat),
        (3, s.cmdseq.toNat), (4, s.flagV.toNat), (5, s.carryLo.toNat), (6, s.carryHi.toNat), (7, s.cap), (8, s.bump.toNat),
        (9, s.large.toNat), (10, s.heapMax)] →
      imm.toNat = n → reads v) ∧
    (∀ k : Fin 16, imm.toNat = 16 + k.val → reads s.bin[k].toNat) ∧
    (Inv s → imm.toNat = 0 → reads (if s.init then 2 else 0)) ∧
    (11 ≤ imm.toNat ∧ imm.toNat ≤ 15 ∨ 32 ≤ imm.toNat → exec i s = .next (s.latched (encode i) 8 (encode i).toNat))

/-! ## Heap commands (41_heap.md) -/

/-- HINIT creates the heap once: its tests in order, then the whole state it leaves, every byte 0 (R131). -/
def Obligations.HinitCreatesHeap : Prop :=
  ∀ (s : State) (rs1 : Reg), s.fault = false →
    let i := Instr.hinit rs1
    (encode i).toNat = 0x10 + rs1.val * 2 ^ 12 ∧
    Tests i s
      [(s.init = false, 7, s.reg rs1), (8 ≤ s.regInt rs1, 2, s.reg rs1), (s.regInt rs1 ≤ s.heapMax, 1, s.reg rs1)]
      (∃ m : Memory, (∀ a, m.read a = 0) ∧
        exec i s =
          .next
            { s with
              init := true, cap := s.addr rs1, mem := m, bin := Vector.replicate 16 0, large := 0, bump := 8, live := []
              cmdseq := s.cmdseq + 1 })

/-- HENSURE and GrowTo: a larger capacity is reached by doubling, bounded by HEAP_MAX_BYTES, new bytes 0 and old bytes kept; beyond
the bound OutOfMemory and no growth at all (R130, R132). -/
def Obligations.HensureGrowsHeap : Prop :=
  ∀ (s : State) (rs1 : Reg), s.fault = false →
    let i := Instr.hensure rs1
    let m := s.addr rs1
    let newCap := min s.heapMax (max m (2 * s.cap))
    (encode i).toNat = 0x11 + rs1.val * 2 ^ 12 ∧
    Tests i s [(s.init = true, 7, s.reg rs1), (0 ≤ s.regInt rs1, 2, s.reg rs1)]
      ((m ≤ s.cap → exec i s = .next { s with cmdseq := s.cmdseq + 1 }) ∧
        (s.cap < m → s.heapMax < m → exec i s = .next (s.latched (encode i) 1 m)) ∧
        (s.cap < m → m ≤ s.heapMax → m ≤ newCap ∧
          ∃ mem' : Memory, (∀ a, mem'.read a = if s.cap ≤ a ∧ a < newCap then 0 else s.mem.read a) ∧
            exec i s = .next { s with cap := newCap, mem := mem', cmdseq := s.cmdseq + 1 }))

/-- LD8, LD16, LD32 and LD64 read 1, 2, 4 and 8 bytes little-endian at any byte address and zero-extend (R133 to R136, MemRead of
20_memory.md R62); the result is below 2^(8n). -/
def Obligations.LoadsReadLittleEndian : Prop :=
  ∀ (mk : Reg → Reg → Instr) (op n : Nat),
    (mk, op, n) ∈ [(Instr.ld8, 0x12, 1), (Instr.ld16, 0x13, 2), (Instr.ld32, 0x14, 4), (Instr.ld64, 0x15, 8)] →
    ∀ (s : State) (rd rs1 : Reg), s.fault = false →
      let i := mk rd rs1
      let v := s.mem.natAt (s.addr rs1) n
      (encode i).toNat = op + rd.val * 2 ^ 8 + rs1.val * 2 ^ 12 ∧ v < 2 ^ (8 * n) ∧
      Tests i s [(s.init = true, 7, s.reg rs1), (s.InRange rs1 n, 6, s.reg rs1)]
        (exec i s = .next { s with x := s.x.set rd.val (BitVec.ofNat 64 v), cmdseq := s.cmdseq + 1 })

/-- ST8, ST16, ST32 and ST64 write the low 1, 2, 4 and 8 bytes of a register little-endian at any byte address, whole or not at all,
and no other byte (R137 to R140, MemWrite of 20_memory.md R63). -/
def Obligations.StoresWriteLittleEndian : Prop :=
  ∀ (mk : Reg → Reg → Instr) (op n : Nat),
    (mk, op, n) ∈ [(Instr.st8, 0x16, 1), (Instr.st16, 0x17, 2), (Instr.st32, 0x18, 4), (Instr.st64, 0x19, 8)] →
    ∀ (s : State) (rs1 rs2 : Reg), s.fault = false →
      let i := mk rs1 rs2
      (encode i).toNat = op + rs1.val * 2 ^ 12 + rs2.val * 2 ^ 16 ∧
      Tests i s [(s.init = true, 7, s.reg rs1), (s.InRange rs1 n, 6, s.reg rs1)]
        (∃ m, s.mem.Wrote m (s.addr rs1) n (s.reg rs2) ∧ exec i s = .next { s with mem := m, cmdseq := s.cmdseq + 1 })

/-- MEMCPY: a length of 0 checks no address; both ranges, then the absence of overlap, are tested; then the bytes are copied (R141). -/
def Obligations.MemcpyCopiesDisjointRanges : Prop :=
  ∀ (s : State) (rs1 rs2 rs3 : Reg), s.fault = false →
    let i := Instr.memcpy rs1 rs2 rs3
    let d := s.regInt rs1
    let a := s.regInt rs2
    let n := s.regInt rs3
    (encode i).toNat = 0x1A + rs1.val * 2 ^ 12 + rs2.val * 2 ^ 16 + rs3.val * 2 ^ 20 ∧
    Tests i s [(s.init = true, 7, s.reg rs1), (0 ≤ n, 2, s.reg rs3)]
      ((n = 0 → exec i s = .next { s with cmdseq := s.cmdseq + 1 }) ∧
        (n ≠ 0 →
          Tests i s
            [(s.InRange rs1 n, 6, s.reg rs1), (s.InRange rs2 n, 6, s.reg rs2), (d + n ≤ a ∨ a + n ≤ d, 2, s.reg rs2)]
            (∃ m : Memory,
              (∀ k, m.read k = if d ≤ k ∧ k < d + n then s.mem.read (s.addr rs2 + (k - s.addr rs1)) else s.mem.read k) ∧
              exec i s = .next { s with mem := m, cmdseq := s.cmdseq + 1 })))

/-- MEMMOVE: as MEMCPY for ranges that may overlap; the destination receives the source's bytes as they were before (R142). -/
def Obligations.MemmoveCopiesOldBytes : Prop :=
  ∀ (s : State) (rs1 rs2 rs3 : Reg), s.fault = false →
    let i := Instr.memmove rs1 rs2 rs3
    let d := s.regInt rs1
    let n := s.regInt rs3
    (encode i).toNat = 0x1B + rs1.val * 2 ^ 12 + rs2.val * 2 ^ 16 + rs3.val * 2 ^ 20 ∧
    Tests i s [(s.init = true, 7, s.reg rs1), (0 ≤ n, 2, s.reg rs3)]
      ((n = 0 → exec i s = .next { s with cmdseq := s.cmdseq + 1 }) ∧
        (n ≠ 0 →
          Tests i s [(s.InRange rs1 n, 6, s.reg rs1), (s.InRange rs2 n, 6, s.reg rs2)]
            (∃ m : Memory,
              (∀ k, m.read k = if d ≤ k ∧ k < d + n then s.mem.read (s.addr rs2 + (k - s.addr rs1)) else s.mem.read k) ∧
              exec i s = .next { s with mem := m, cmdseq := s.cmdseq + 1 })))

/-- MEMSET fills the range with the low byte of the fill register (R143). -/
def Obligations.MemsetFillsRange : Prop :=
  ∀ (s : State) (rs1 rs2 rs3 : Reg), s.fault = false →
    let i := Instr.memset rs1 rs2 rs3
    let d := s.regInt rs1
    let n := s.regInt rs3
    (encode i).toNat = 0x1C + rs1.val * 2 ^ 12 + rs2.val * 2 ^ 16 + rs3.val * 2 ^ 20 ∧
    Tests i s [(s.init = true, 7, s.reg rs1), (0 ≤ n, 2, s.reg rs3)]
      ((n = 0 → exec i s = .next { s with cmdseq := s.cmdseq + 1 }) ∧
        (n ≠ 0 →
          Tests i s [(s.InRange rs1 n, 6, s.reg rs1)]
            (∃ m : Memory,
              (∀ k : Nat, m.read k = if d ≤ k ∧ k < d + n then BitVec.ofNat 8 (s.reg rs2 % 256) else s.mem.read k) ∧
              exec i s = .next { s with mem := m, cmdseq := s.cmdseq + 1 })))

/-- A mixed-width access sees the same bytes: after a store of n bytes, a load of k bytes at an offset inside them reads those bytes
of the stored value, least significant at the lowest address (20_memory.md R64). -/
def Obligations.LoadAfterStoreSeesItsBytes : Prop :=
  ∀ (st ld : Reg → Reg → Instr) (n k : Nat),
    (st, n) ∈ [(Instr.st8, 1), (Instr.st16, 2), (Instr.st32, 4), (Instr.st64, 8)] →
    (ld, k) ∈ [(Instr.ld8, 1), (Instr.ld16, 2), (Instr.ld32, 4), (Instr.ld64, 8)] →
    ∀ (s : State) (rs1 rs2 : Reg), s.fault = false → s.init = true → s.InRange rs1 n →
      ∃ t, exec (st rs1 rs2) s = .next t ∧
        ∀ (rd r : Reg) (off : Nat), off + k ≤ n → t.regInt r = s.regInt rs1 + off →
          exec (ld rd r) t =
            .next
              { t with
                x := t.x.set rd.val (BitVec.ofNat 64 (s.reg rs2 / 256 ^ off % 256 ^ k))
                cmdseq := t.cmdseq + 1 }

/-! ## Allocator commands (42_allocator.md) -/

/-- The tests of MALLOC, FREE and REALLOC in their order: the arguments (R163), then the tags of the chunk FREE and REALLOC are given (R164;
the last of them, u = 1, catches a double free, R177, R178), then the chunks and lists the allocator meets on its way: CorruptionDetected is
raised, with the address R164 to R166 and R173 say, where a list's walk breaks (a member not valid, not free, or BUMP div 32 members passed),
where a free neighbour is not valid, and where it is not on its list. FREE of the null address does nothing; REALLOC of it does what MALLOC
of the same size does; a REALLOC that shrinks frees the tail it cut, one that grows searches as MALLOC does and frees the old chunk after
the copy (R175, R177, R178). The faults of CALLOC are those of MALLOC of the product (CallocIsMallocThenZeroFill). -/
def Obligations.AllocatorChecksArguments : Prop :=
  ∀ (s : State) (rd rs1 rs2 : Reg), s.fault = false →
    let a := s.reg rs1
    let payload := 16 ≤ s.regInt rs1 ∧ a % 16 = 0 ∧ a + 24 ≤ s.bump.toNat
    let header := s.mem.natAt (a - 8) 8
    let size := header / 2
    let tags :=
      [(16 ≤ size ∧ size % 16 = 0 ∧ a + size + 8 ≤ s.bump.toNat, 5, a), (s.mem.natAt (a + size) 8 = header, 5, a),
        (header % 2 = 1, 5, a)]
    let re := Instr.realloc rd rs1 rs2
    let n := (s.regInt rs2).toNat
    let r := max 16 ((n + 15) / 16 * 16)
    (encode (.malloc rd rs1)).toNat = 0x20 + rd.val * 2 ^ 8 + rs1.val * 2 ^ 12 ∧
    (encode (.free rs1)).toNat = 0x22 + rs1.val * 2 ^ 12 ∧
    (encode re).toNat = 0x23 + rd.val * 2 ^ 8 + rs1.val * 2 ^ 12 + rs2.val * 2 ^ 16 ∧
    Tests (.malloc rd rs1) s [(s.init = true, 7, a), (0 ≤ s.regInt rs1, 2, a)]
      (Inv s → ∀ p, s.AllocBreaks (s.regInt rs1).toNat p →
        exec (.malloc rd rs1) s = .next (s.latched (encode (.malloc rd rs1)) 5 p)) ∧
    Tests (.free rs1) s [(s.init = true, 7, a)]
      ((a = 0 → exec (.free rs1) s = .next { s with cmdseq := s.cmdseq + 1 }) ∧
        (a ≠ 0 →
          Tests (.free rs1) s [(payload, 2, a)]
            (Inv s →
              Tests (.free rs1) s tags
                (∀ p, s.FreeBreaks a size p → exec (.free rs1) s = .next (s.latched (encode (.free rs1)) 5 p))))) ∧
    Tests re s [(s.init = true, 7, a), (0 ≤ s.regInt rs2, 2, s.reg rs2)]
      ((a ≠ 0 →
          Tests re s [(payload, 2, a)]
            (Inv s →
              Tests re s tags
                ((r ≤ size → 16 < size - r → ∀ m1 m2 p,
                    s.mem.WroteTags m1 ⟨a, r, true⟩ → m1.WroteTags m2 ⟨a + r + 16, size - r - 16, true⟩ →
                    { s with mem := m2 }.FreeBreaks (a + r + 16) (size - r - 16) p →
                    exec re s = .next (s.latched (encode re) 5 p)) ∧
                  (size < r →
                    (∀ p, s.AllocBreaks n p → exec re s = .next (s.latched (encode re) 5 p)) ∧
                    (∀ u p, exec (.malloc rd rs2) s = .next u → u.fault = false →
                      { u with mem := u.mem.copyUp u.x[rd].toNat a size }.FreeBreaks a size p →
                      exec re s = .next (s.latched (encode re) 5 p)))))) ∧
        (a = 0 → ∃ u, exec (.malloc rd rs2) s = .next u ∧
          (u.fault = false → exec re s = .next u) ∧
          (u.fault = true → exec re s = .next (s.latched (encode re) u.code.toNat u.faultInfo.toNat))))

/-- CALLOC tests both operands and their exact product, then does what MALLOC of the product does and sets exactly the product's
bytes to 0; a fault of that MALLOC is CALLOC's (R176). -/
def Obligations.CallocIsMallocThenZeroFill : Prop :=
  ∀ (s : State) (rd rs1 rs2 : Reg), s.fault = false →
    let i := Instr.calloc rd rs1 rs2
    let t := (s.regInt rs1).toNat * (s.regInt rs2).toNat
    (encode i).toNat = 0x21 + rd.val * 2 ^ 8 + rs1.val * 2 ^ 12 + rs2.val * 2 ^ 16 ∧
    Tests i s
      [(s.init = true, 7, s.reg rs1), (0 ≤ s.regInt rs1, 2, s.reg rs1), (0 ≤ s.regInt rs2, 2, s.reg rs2),
        (t ≤ 2 ^ 63 - 1, 2, t % 2 ^ 64)]
      (∃ u, exec (.malloc rd rs1) { s with x := s.x.set rs1.val (BitVec.ofNat 64 t) } = .next u ∧
        (u.fault = true → exec i s = .next (s.latched (encode i) u.code.toNat u.faultInfo.toNat)) ∧
        (u.fault = false →
          ∃ m : Memory,
            (∀ a, m.read a = if u.x[rd].toNat ≤ a ∧ a < u.x[rd].toNat + t then 0 else u.mem.read a) ∧
            exec i s = .next { u with x := s.x.set rd.val u.x[rd], mem := m }))

/-- Where the lists the search would look at are empty, MALLOC, CALLOC and REALLOC of the null address make a new chunk at BUMP: the
heap grows only if it must, the two tags are written, the payload is not cleared but for CALLOC's product, and BUMP, LIVE and x[rd] follow
(R172, R175, R176, R178). -/
def Obligations.EmptyListsBumpAllocate : Prop :=
  ∀ (s : State) (rd : Reg) (i : Instr) (n z : Nat), Inv s → s.fault = false → s.init = true →
    ((∃ rs1, i = .malloc rd rs1 ∧ s.regInt rs1 = n ∧ z = 0) ∨
      (∃ rs1 rs2, i = .calloc rd rs1 rs2 ∧ 0 ≤ s.regInt rs1 ∧ 0 ≤ s.regInt rs2 ∧
        s.regInt rs1 * s.regInt rs2 = n ∧ n ≤ 2 ^ 63 - 1 ∧ z = n) ∨
      (∃ rs1 rs2, i = .realloc rd rs1 rs2 ∧ s.reg rs1 = 0 ∧ s.regInt rs2 = n ∧ z = 0)) →
    let r := max 16 ((n + 15) / 16 * 16)
    let h := s.bump.toNat
    let need := h + 16 + r
    let cap := if s.cap < need then min s.heapMax (max need (2 * s.cap)) else s.cap
    (r ≤ 1024 → ∀ k : Fin 16, k.val = (r - 1) / 64 → s.bin[k] = 0) → s.large = 0 →
    (s.heapMax < need → exec i s = .next (s.latched (encode i) 1 need)) ∧
    (need ≤ s.heapMax →
      ∃ (m : Memory) (l : List Nat),
        (∀ a, m.read a =
          if h ≤ a ∧ a < h + 8 then BitVec.ofNat 8 ((2 * r + 1) / 256 ^ (a - h))
          else if h + 8 + r ≤ a ∧ a < h + 16 + r then BitVec.ofNat 8 ((2 * r + 1) / 256 ^ (a - (h + 8 + r)))
          else if h + 8 ≤ a ∧ a < h + 8 + z then 0
          else s.mem.read a) ∧
        (∀ q, q ∈ l ↔ q = h + 8 ∨ q ∈ s.live) ∧
        exec i s =
          .next
            { s with
              x := s.x.set rd.val (BitVec.ofNat 64 (h + 8)), mem := m, cap := cap, bump := BitVec.ofNat 64 need, live := l
              cmdseq := s.cmdseq + 1 })

/-- FREE of a chunk whose neighbours, where there are any, are in use: both tags say free, the link holds the old head of its list, it
becomes the head, and nothing else changes (R173, R177). -/
def Obligations.FreeWithoutFreeNeighbours : Prop :=
  ∀ (s : State) (rs1 : Reg) (size : Nat), Inv s → s.fault = false → s.init = true →
    let a := s.reg rs1
    let n := a + size + 16
    16 ≤ a → a % 16 = 0 → 16 ≤ size → size % 16 = 0 → a + size + 8 ≤ s.bump.toNat →
    s.mem.natAt (a - 8) 8 = 2 * size + 1 → s.mem.natAt (a + size) 8 = 2 * size + 1 →
    (a = 16 ∨ s.mem.natAt (a - 16) 8 % 2 = 1) →
    (a + size + 8 = s.bump.toNat ∨
      ∃ ns, 16 ≤ ns ∧ ns % 16 = 0 ∧ n + ns + 8 ≤ s.bump.toNat ∧
        s.mem.natAt (n - 8) 8 = 2 * ns + 1 ∧ s.mem.natAt (n + ns) 8 = 2 * ns + 1) →
    ∃ (m : Memory) (l : List Nat),
      (∀ k, m.read k =
        if a - 8 ≤ k ∧ k < a then BitVec.ofNat 8 (2 * size / 256 ^ (k - (a - 8)))
        else if a + size ≤ k ∧ k < a + size + 8 then BitVec.ofNat 8 (2 * size / 256 ^ (k - (a + size)))
        else if a ≤ k ∧ k < a + 8 then BitVec.ofNat 8 (s.head (listFor size) / 256 ^ (k - a))
        else s.mem.read k) ∧
      (∀ q, q ∈ l ↔ q ∈ s.live ∧ q ≠ a) ∧
      exec (.free rs1) s = .next { s.setHead (listFor size) a with mem := m, live := l, cmdseq := s.cmdseq + 1 }

/-- REALLOC to a size the chunk already has room for, with a surplus of at most 16, leaves the chunk in place: only x[rd] and CMDSEQ
change (R178). -/
def Obligations.ReallocStaysInPlace : Prop :=
  ∀ (s : State) (rd rs1 rs2 : Reg) (size : Nat), Inv s → s.fault = false → s.init = true →
    let a := s.reg rs1
    let r := max 16 (((s.regInt rs2).toNat + 15) / 16 * 16)
    16 ≤ a → a % 16 = 0 → 16 ≤ size → size % 16 = 0 → a + size + 8 ≤ s.bump.toNat →
    s.mem.natAt (a - 8) 8 = 2 * size + 1 → s.mem.natAt (a + size) 8 = 2 * size + 1 →
    0 ≤ s.regInt rs2 → r ≤ size → size ≤ r + 16 →
    exec (.realloc rd rs1 rs2) s = .next { s with x := s.x.set rd.val (BitVec.ofNat 64 a), cmdseq := s.cmdseq + 1 }

/-- MALLOC on a well-formed heap is first fit: the chunk the search finds is taken off its list and cut, or, when it finds none, a
chunk is made at BUMP, or OutOfMemory is raised; the heap stays well formed, and outside the tags and links every byte stays (R165, R168,
R172, R174, R175). -/
def Obligations.MallocTakesFirstFit : Prop :=
  ∀ (s : State) (cs : List Chunk) (ls : FreeList → List Nat) (rd rs1 : Reg),
    Represents s cs ls → s.fault = false → 0 ≤ s.regInt rs1 →
    let i := Instr.malloc rd rs1
    let r := max 16 (((s.regInt rs1).toNat + 15) / 16 * 16)
    let p := s.bump.toNat + 8
    let need := s.bump.toNat + 16 + r
    (∀ c, searchFit cs ls r = some c →
      ∃ t pre post, exec i s = .next t ∧ cs = pre ++ c :: post ∧
        Represents t (pre ++ c.cut r ++ post) (listsAfterCut ls c r) ∧
        s.mem.SameBut t.mem (pre ++ c.cut r ++ post) ∧
        t =
          { s with
            x := s.x.set rd.val (BitVec.ofNat 64 c.addr), mem := t.mem, bin := t.bin, large := t.large, live := t.live
            cmdseq := s.cmdseq + 1 }) ∧
    (searchFit cs ls r = none → s.heapMax < need → exec i s = .next (s.latched (encode i) 1 need)) ∧
    (searchFit cs ls r = none → need ≤ s.heapMax →
      ∃ t, exec i s = .next t ∧
        Represents t (cs ++ [⟨p, r, true⟩]) ls ∧ s.mem.SameBut t.mem (cs ++ [⟨p, r, true⟩]) ∧
        t =
          { s with
            x := s.x.set rd.val (BitVec.ofNat 64 p), mem := t.mem, live := t.live, bump := BitVec.ofNat 64 need
            cap := if s.cap < need then min s.heapMax (max need (2 * s.cap)) else s.cap
            cmdseq := s.cmdseq + 1 })

/-- FREE on a well-formed heap merges the chunk with a free neighbour `l` before it and a free neighbour `f` after it, where they are,
takes these off their lists, and puts the merged chunk at the head of the list of its size; outside the tags and links every byte
stays (R166, R167, R173, R177). -/
def Obligations.FreeCoalesces : Prop :=
  ∀ (s : State) (rs1 : Reg) (pre post : List Chunk) (l f : Option Chunk) (c : Chunk) (ls : FreeList → List Nat),
    Represents s (pre ++ l.toList ++ [c] ++ f.toList ++ post) ls → s.fault = false → s.reg rs1 = c.addr → c.used = true →
    (∀ a ∈ l, a.used = false) → (∀ b ∈ f, b.used = false) →
    (l = none → ∀ a ∈ pre.getLast?, a.used = true) → (f = none → ∀ b ∈ post.head?, b.used = true) →
    let start := l.elim c.addr Chunk.addr
    let size := absorbed l + c.size + absorbed f
    let cs := pre ++ [⟨start, size, false⟩] ++ post
    ∃ t, exec (.free rs1) s = .next t ∧
      Represents t cs (withHead (withoutOption (withoutOption ls l) f) start size) ∧
      (∀ a, (∀ d ∈ cs, ¬d.hasTagAt a ∧ (d.used = false → ¬d.hasLinkAt a)) → (∀ b ∈ f, ¬b.hasLinkAt a) →
        t.mem.read a = s.mem.read a) ∧
      t = { s with mem := t.mem, bin := t.bin, large := t.large, live := t.live, cmdseq := s.cmdseq + 1 }

/-- REALLOC to a smaller size with a surplus above 16 keeps the front in place and frees the tail, merged with a free chunk `f` after
it where there is one (R178). -/
def Obligations.ReallocSplitsTail : Prop :=
  ∀ (s : State) (rd rs1 rs2 : Reg) (pre post : List Chunk) (c : Chunk) (f : Option Chunk) (ls : FreeList → List Nat),
    Represents s (pre ++ [c] ++ f.toList ++ post) ls → s.fault = false → s.reg rs1 = c.addr → c.used = true →
    0 ≤ s.regInt rs2 → (∀ b ∈ f, b.used = false) → (f = none → ∀ b ∈ post.head?, b.used = true) →
    let r := max 16 (((s.regInt rs2).toNat + 15) / 16 * 16)
    let q := c.addr + r + 16
    let size := c.size - r - 16 + absorbed f
    let cs := pre ++ [⟨c.addr, r, true⟩, ⟨q, size, false⟩] ++ post
    r ≤ c.size → 16 < c.size - r →
    ∃ t, exec (.realloc rd rs1 rs2) s = .next t ∧
      Represents t cs (withHead (withoutOption ls f) q size) ∧ s.mem.SameBut t.mem (c :: cs) ∧
      t =
        { s with
          x := s.x.set rd.val (BitVec.ofNat 64 c.addr), mem := t.mem, bin := t.bin, large := t.large
          cmdseq := s.cmdseq + 1 }

/-- REALLOC to a larger size allocates first (as MALLOC would: first fit, else at BUMP, else OutOfMemory with the old chunk untouched),
copies the whole old payload, and frees the old chunk; every other allocation keeps its place and its bytes (R178, R181). -/
def Obligations.ReallocMovesAndKeepsContent : Prop :=
  ∀ (s : State) (cs : List Chunk) (ls : FreeList → List Nat) (rd rs1 rs2 : Reg) (c : Chunk),
    Represents s cs ls → s.fault = false → c ∈ cs → c.used = true → s.reg rs1 = c.addr → 0 ≤ s.regInt rs2 →
    let i := Instr.realloc rd rs1 rs2
    let r := max 16 (((s.regInt rs2).toNat + 15) / 16 * 16)
    let need := s.bump.toNat + 16 + r
    c.size < r →
    (searchFit cs ls r = none → s.heapMax < need → exec i s = .next (s.latched (encode i) 1 need)) ∧
    ((searchFit cs ls r).isSome ∨ need ≤ s.heapMax →
      ∃ t cs' ls' p, exec i s = .next t ∧ Represents t cs' ls' ∧ p ∈ cs' ∧ p.used = true ∧ r ≤ p.size ∧
        p.addr = (searchFit cs ls r).elim (s.bump.toNat + 8) Chunk.addr ∧ p.addr ∉ s.live ∧
        (∀ a, a ∈ t.live ↔ a = p.addr ∨ a ∈ s.live ∧ a ≠ c.addr) ∧
        (∀ k < c.size, t.mem.read (p.addr + k) = s.mem.read (c.addr + k)) ∧
        (∀ d ∈ cs, d.used = true → d ≠ c → d ∈ cs' ∧ ∀ a, d.hasPayloadAt a → t.mem.read a = s.mem.read a) ∧
        t =
          { s with
            x := s.x.set rd.val (BitVec.ofNat 64 p.addr), mem := t.mem, bin := t.bin, large := t.large, live := t.live
            bump := t.bump, cap := t.cap, cmdseq := s.cmdseq + 1 })

/-- The allocator's invariants: from a heap as R43 describes it, every command leaves such a heap, if what it stores stays inside the
payload of a live allocation and what it frees or resizes is null or live; and none of them raises CorruptionDetected (10_state.md R43,
42_allocator.md R164). HINIT makes the first such heap. -/
def Obligations.CommandsKeepHeapTiled : Prop :=
  (∀ (i : Instr) (s t : State) (cs : List Chunk) (ls : FreeList → List Nat),
    Represents s cs ls → s.fault = false → exec i s = .next t →
    (∀ r n, s.storesTo i = some (r, n) → 0 < n → s.InRange r n →
      ∀ a, s.addr r ≤ a → a < s.addr r + n.toNat → ∃ c ∈ cs, c.used = true ∧ c.hasPayloadAt a) →
    (∀ r, i = .free r → s.reg r = 0 ∨ s.reg r ∈ s.live) →
    (∀ rd r q, i = .realloc rd r q → s.reg r = 0 ∨ s.reg r ∈ s.live) →
    HeapTiled t ∧ (t.fault = true → t.code ≠ 5)) ∧
  (∀ (s t : State) (r : Reg), s.fault = false → s.init = false → s.heapMax < 2 ^ 62 →
    8 ≤ s.regInt r → s.regInt r ≤ s.heapMax → exec (.hinit r) s = .next t → Represents t [] fun _ => [])

/-! ## Engine commands (43_engine.md) -/

/-- SHL and, for a multiple of 8, BSHL: value and carry of the unreduced product, for every width and in both modes (R201, R202, R204,
R210, R213). -/
def Obligations.LeftShiftsKeepTheCarry : Prop :=
  ∀ (mk : Mode → Width → Reg → Reg → Reg → Instr) (op : Nat) (aligned : Bool),
    (mk, op, aligned) ∈ [(Instr.shl, 0x30, false), (Instr.bshl, 0x33, true)] →
    ∀ (s : State) (m : Mode) (w : Width) (rd rs1 rs2 : Reg), s.fault = false →
      let i := mk m w rd rs1 rs2
      let W : Nat := 8 * 2 ^ w.select
      let v := s.reg rs1 % 2 ^ W
      let n := s.regInt rs2
      let c := v * 2 ^ n.toNat / 2 ^ W
      (encode i).toNat = op + rd.val * 2 ^ 8 + rs1.val * 2 ^ 12 + rs2.val * 2 ^ 16 + w.select * 2 ^ 24 + m.select * 2 ^ 26 ∧
      Tests i s [(0 ≤ n ∧ n ≤ W ∧ (aligned = true → n % 8 = 0), 2, s.reg rs2)]
        (c < 2 ^ W ∧
          exec i s =
            .next
              { s with
                carryLo := BitVec.ofNat 64 c, carryHi := 0, flagV := decide (c ≠ 0)
                x := s.x.set rd.val (BitVec.ofNat 64 (v * 2 ^ n.toNat % 2 ^ W))
                cmdseq := s.cmdseq + 1 })

/-- SHR and, for a multiple of 8, BSHR: the sign-propagating value, which is the floor of the signed reading, and the lost low bits as
carry, for every width and in both modes (R204, R211, R214). -/
def Obligations.SignedRightShiftsFloor : Prop :=
  ∀ (mk : Mode → Width → Reg → Reg → Reg → Instr) (op : Nat) (aligned : Bool),
    (mk, op, aligned) ∈ [(Instr.shr, 0x31, false), (Instr.bshr, 0x34, true)] →
    ∀ (s : State) (m : Mode) (w : Width) (rd rs1 rs2 : Reg), s.fault = false →
      let i := mk m w rd rs1 rs2
      let W : Nat := 8 * 2 ^ w.select
      let v := s.reg rs1 % 2 ^ W
      let n := s.regInt rs2
      let val := if v < 2 ^ (W - 1) then v / 2 ^ n.toNat else v / 2 ^ n.toNat + (2 ^ W - 2 ^ (W - n.toNat))
      let c := v % 2 ^ n.toNat
      (encode i).toNat = op + rd.val * 2 ^ 8 + rs1.val * 2 ^ 12 + rs2.val * 2 ^ 16 + w.select * 2 ^ 24 + m.select * 2 ^ 26 ∧
      Tests i s [(0 ≤ n ∧ n ≤ W ∧ (aligned = true → n % 8 = 0), 2, s.reg rs2)]
        ((val : Int) = (BitVec.ofNat W v).toInt / 2 ^ n.toNat % 2 ^ W ∧
          exec i s =
            .next
              { s with
                carryLo := BitVec.ofNat 64 c, carryHi := 0, flagV := decide (c ≠ 0)
                x := s.x.set rd.val (BitVec.ofNat 64 val)
                cmdseq := s.cmdseq + 1 })

/-- USHR and, for a multiple of 8, BUSHR: quotient and remainder by 2^n, for every width and in both modes (R204, R212, R215). -/
def Obligations.UnsignedRightShiftsDivide : Prop :=
  ∀ (mk : Mode → Width → Reg → Reg → Reg → Instr) (op : Nat) (aligned : Bool),
    (mk, op, aligned) ∈ [(Instr.ushr, 0x32, false), (Instr.bushr, 0x35, true)] →
    ∀ (s : State) (m : Mode) (w : Width) (rd rs1 rs2 : Reg), s.fault = false →
      let i := mk m w rd rs1 rs2
      let W : Nat := 8 * 2 ^ w.select
      let v := s.reg rs1 % 2 ^ W
      let n := s.regInt rs2
      let c := v % 2 ^ n.toNat
      (encode i).toNat = op + rd.val * 2 ^ 8 + rs1.val * 2 ^ 12 + rs2.val * 2 ^ 16 + w.select * 2 ^ 24 + m.select * 2 ^ 26 ∧
      Tests i s [(0 ≤ n ∧ n ≤ W ∧ (aligned = true → n % 8 = 0), 2, s.reg rs2)]
        (exec i s =
          .next
            { s with
              carryLo := BitVec.ofNat 64 c, carryHi := 0, flagV := decide (c ≠ 0)
              x := s.x.set rd.val (BitVec.ofNat 64 (v / 2 ^ n.toNat))
              cmdseq := s.cmdseq + 1 })

/-- AND, OR, XOR and NOT by the arithmetic decomposition of R204, bit by bit, for every width and in both modes (R216 to R219). -/
def Obligations.BitwiseLogicByBits : Prop :=
  ∀ (s : State) (m : Mode) (w : Width) (rd rs1 rs2 : Reg), s.fault = false →
    let W : Nat := 8 * 2 ^ w.select
    let a := s.reg rs1 % 2 ^ W
    let b := s.reg rs2 % 2 ^ W
    let result := fun (v : Nat) => Host.Outcome.next (φ := Fault) (ρ := Refusal)
      { s with x := s.x.set rd.val (BitVec.ofNat 64 v), cmdseq := s.cmdseq + 1 }
    (∀ (mk : Mode → Width → Reg → Reg → Reg → Instr) (op : Nat) (f : Nat → Nat → Nat),
      (mk, op, f) ∈
        [(Instr.and, 0x36, fun p q => p * q), (Instr.or, 0x37, fun p q => p + q - p * q),
          (Instr.xor, 0x38, fun p q => p + q - 2 * p * q)] →
      (encode (mk m w rd rs1 rs2)).toNat =
        op + rd.val * 2 ^ 8 + rs1.val * 2 ^ 12 + rs2.val * 2 ^ 16 + w.select * 2 ^ 24 + m.select * 2 ^ 26 ∧
      exec (mk m w rd rs1 rs2) s = result (∑ k ∈ Finset.range W, f (a / 2 ^ k % 2) (b / 2 ^ k % 2) * 2 ^ k)) ∧
    (encode (.not m w rd rs1)).toNat = 0x39 + rd.val * 2 ^ 8 + rs1.val * 2 ^ 12 + w.select * 2 ^ 24 + m.select * 2 ^ 26 ∧
    exec (.not m w rd rs1) s = result (2 ^ W - 1 - a)

/-- BTEST, BSET, BCLR and BTGL on bit i of the reduced value, by R204's formulas, an index outside 0 to W - 1 refused (R220 to R223). -/
def Obligations.SingleBitOperations : Prop :=
  ∀ (mk : Mode → Width → Reg → Reg → Reg → Instr) (op : Nat) (f : Nat → Nat → Nat → Nat),
    (mk, op, f) ∈
      [(Instr.btest, 0x3A, fun _ _ b => b), (Instr.bset, 0x3B, fun v p b => v + (1 - b) * p),
        (Instr.bclr, 0x3C, fun v p b => v - b * p), (Instr.btgl, 0x3D, fun v p b => v + p - 2 * b * p)] →
    ∀ (s : State) (m : Mode) (w : Width) (rd rs1 rs2 : Reg), s.fault = false →
      let i := mk m w rd rs1 rs2
      let W : Nat := 8 * 2 ^ w.select
      let v := s.reg rs1 % 2 ^ W
      let k := s.regInt rs2
      (encode i).toNat = op + rd.val * 2 ^ 8 + rs1.val * 2 ^ 12 + rs2.val * 2 ^ 16 + w.select * 2 ^ 24 + m.select * 2 ^ 26 ∧
      Tests i s [(0 ≤ k ∧ k ≤ W - 1, 2, s.reg rs2)]
        (exec i s =
          .next
            { s with
              x := s.x.set rd.val (BitVec.ofNat 64 (f v (2 ^ k.toNat) (v / 2 ^ k.toNat % 2)))
              cmdseq := s.cmdseq + 1 })

/-- POPCNT counts the ones among the W bits, MASK makes k ones, k in 0 to W (R224, R225). -/
def Obligations.CountAndMask : Prop :=
  ∀ (s : State) (m : Mode) (w : Width) (rd rs1 : Reg), s.fault = false →
    let W : Nat := 8 * 2 ^ w.select
    let v := s.reg rs1 % 2 ^ W
    let k := s.regInt rs1
    (encode (.popcnt m w rd rs1)).toNat = 0x3E + rd.val * 2 ^ 8 + rs1.val * 2 ^ 12 + w.select * 2 ^ 24 + m.select * 2 ^ 26 ∧
    exec (.popcnt m w rd rs1) s =
      .next
        { s with
          x := s.x.set rd.val (BitVec.ofNat 64 (∑ j ∈ Finset.range W, v / 2 ^ j % 2))
          cmdseq := s.cmdseq + 1 } ∧
    (encode (.mask m w rd rs1)).toNat = 0x3F + rd.val * 2 ^ 8 + rs1.val * 2 ^ 12 + w.select * 2 ^ 24 + m.select * 2 ^ 26 ∧
    Tests (.mask m w rd rs1) s [(0 ≤ k ∧ k ≤ W, 2, s.reg rs1)]
      (exec (.mask m w rd rs1) s =
        .next { s with x := s.x.set rd.val (BitVec.ofNat 64 (2 ^ k.toNat - 1)), cmdseq := s.cmdseq + 1 })

/-- SEXT and ZEXT from width f, 1 to W, to width W and not to 64 (R226, R227). -/
def Obligations.ExtensionsStopAtTheWidth : Prop :=
  ∀ (mk : Mode → Width → Reg → Reg → Reg → Instr) (op sign : Nat),
    (mk, op, sign) ∈ [(Instr.sext, 0x40, 1), (Instr.zext, 0x41, 0)] →
    ∀ (s : State) (m : Mode) (w : Width) (rd rs1 rs2 : Reg), s.fault = false →
      let i := mk m w rd rs1 rs2
      let W : Nat := 8 * 2 ^ w.select
      let v := s.reg rs1 % 2 ^ W
      let f := s.regInt rs2
      let val := v % 2 ^ f.toNat + sign * (v / 2 ^ (f.toNat - 1) % 2) * (2 ^ W - 2 ^ f.toNat)
      (encode i).toNat = op + rd.val * 2 ^ 8 + rs1.val * 2 ^ 12 + rs2.val * 2 ^ 16 + w.select * 2 ^ 24 + m.select * 2 ^ 26 ∧
      Tests i s [(1 ≤ f ∧ f ≤ W, 2, s.reg rs2)]
        (val < 2 ^ W ∧ exec i s = .next { s with x := s.x.set rd.val (BitVec.ofNat 64 val), cmdseq := s.cmdseq + 1 })

/-- BDEC writes the W/8 bytes of the reduced value, least significant first, as a store of width W; BCOMP composes them back, as a load
of width W (R228, R229). -/
def Obligations.BytePackIsStoreAndLoad : Prop :=
  ∀ (s : State) (m : Mode) (w : Width) (rd rs1 rs2 : Reg), s.fault = false →
    let W : Nat := 8 * 2 ^ w.select
    let dec := Instr.bdec m w rs1 rs2
    let comp := Instr.bcomp m w rd rs1
    (encode dec).toNat = 0x42 + rs1.val * 2 ^ 12 + rs2.val * 2 ^ 16 + w.select * 2 ^ 24 + m.select * 2 ^ 26 ∧
    Tests dec s [(s.init = true, 7, s.reg rs1), (s.InRange rs1 (W / 8 : Nat), 6, s.reg rs1)]
      (∃ mem', s.mem.Wrote mem' (s.addr rs1) (W / 8) (s.reg rs2 % 2 ^ W) ∧
        exec dec s = .next { s with mem := mem', cmdseq := s.cmdseq + 1 }) ∧
    (encode comp).toNat = 0x43 + rd.val * 2 ^ 8 + rs1.val * 2 ^ 12 + w.select * 2 ^ 24 + m.select * 2 ^ 26 ∧
    Tests comp s [(s.init = true, 7, s.reg rs1), (s.InRange rs1 (W / 8 : Nat), 6, s.reg rs1)]
      (exec comp s =
        .next
          { s with
            x := s.x.set rd.val (BitVec.ofNat 64 (s.mem.natAt (s.addr rs1) (W / 8)))
            cmdseq := s.cmdseq + 1 })

/-- The mode bit changes no result: the two datapaths of every command answer the same state, but for FAULTCMD, which holds the command
word with its mode bit, when the command faults (R203). -/
def Obligations.ModeChangesNoResult : Prop :=
  ∀ (i : Instr) (s : State),
    ∃ t u, exec (i.withMode .native) s = .next t ∧ exec (i.withMode .arithmetic) s = .next u ∧
      u = { t with faultCmd := u.faultCmd } ∧ (t.fault = false ∨ s.fault = true → u = t)

/-! ## Limb commands (44_limb.md) -/

/-- The limb loops of R251 and R252 have the closed forms the rules give, for all 128-bit values and all counts 0 to 128. -/
def Obligations.LimbLoopsHaveClosedForms : Prop :=
  ∀ a b n : Nat, a < 2 ^ 128 → b < 2 ^ 128 → n ≤ 128 →
    Arith.add128 a b = ((a + b) % 2 ^ 128, (a + b) / 2 ^ 128) ∧
    Arith.sub128 a b = ((a + 2 ^ 128 - b) % 2 ^ 128, if a < b then 1 else 0) ∧
    Arith.shiftLeft128 a n = (a * 2 ^ n % 2 ^ 128, a * 2 ^ n / 2 ^ 128) ∧
    Arith.shiftRight128 a n = (a / 2 ^ n, a % 2 ^ n)

/-- ADDH and SUBH: A, then B, then the destination are tested; the sum or difference modulo 2^128 is written over the old source
values, and the carry or borrow goes to x[rd], CARRYLO and V (R255, R256). -/
def Obligations.AddhSubhReportTheCarry : Prop :=
  ∀ (mk : Mode → Reg → Reg → Reg → Reg → Instr) (op : Nat) (res carry : Nat → Nat → Nat),
    (mk, op, res, carry) ∈
      [(Instr.addh, 0x50, fun a b => (a + b) % 2 ^ 128, fun a b => (a + b) / 2 ^ 128),
        (Instr.subh, 0x51, fun a b => (a + 2 ^ 128 - b) % 2 ^ 128, fun a b => if a < b then 1 else 0)] →
    ∀ (s : State) (m : Mode) (rd rs1 rs2 rs3 : Reg), s.fault = false →
      let i := mk m rd rs1 rs2 rs3
      let c := carry (s.val128 rs2) (s.val128 rs3)
      (encode i).toNat =
        op + rd.val * 2 ^ 8 + rs1.val * 2 ^ 12 + rs2.val * 2 ^ 16 + rs3.val * 2 ^ 20 + m.select * 2 ^ 26 ∧
      Tests i s
        [(s.init = true, 7, s.reg rs1), (s.InRange rs2 16, 6, s.reg rs2), (s.InRange rs3 16, 6, s.reg rs3),
          (s.InRange rs1 16, 6, s.reg rs1)]
        (∃ mem', s.mem.Wrote mem' (s.addr rs1) 16 (res (s.val128 rs2) (s.val128 rs3)) ∧
          exec i s =
            .next
              { s with
                mem := mem', carryLo := BitVec.ofNat 64 c, carryHi := 0, flagV := decide (c = 1)
                x := s.x.set rd.val (BitVec.ofNat 64 c), cmdseq := s.cmdseq + 1 })

/-- CMPH writes the unsigned order of two 128-bit values and SCMP the signed one, -1 as 2^64 - 1; no byte changes (R257, R292). -/
def Obligations.ComparisonsGiveTheOrder : Prop :=
  ∀ (mk : Reg → Reg → Reg → Instr) (op : Nat) (reading : Nat → Int),
    (mk, op, reading) ∈ [(Instr.cmph, 0x52, fun (v : Nat) => (v : Int)), (Instr.scmp, 0x6E, fun v => signed128 v)] →
    ∀ (s : State) (rd rs1 rs2 : Reg), s.fault = false →
      let i := mk rd rs1 rs2
      let a := reading (s.val128 rs1)
      let b := reading (s.val128 rs2)
      (encode i).toNat = op + rd.val * 2 ^ 8 + rs1.val * 2 ^ 12 + rs2.val * 2 ^ 16 ∧
      Tests i s
        [(s.init = true, 7, s.reg rs1), (s.InRange rs1 16, 6, s.reg rs1), (s.InRange rs2 16, 6, s.reg rs2)]
        (exec i s =
          .next
            { s with
              x := s.x.set rd.val (if a < b then 0xFFFFFFFFFFFFFFFF else if a = b then 0 else 1)
              cmdseq := s.cmdseq + 1 })

/-- SHLH and SHRH: the count, then A, then the destination are tested; the shifted value is written and the spill goes whole to
CARRYHI:CARRYLO (R253, R258, R259). -/
def Obligations.LimbShiftsKeepTheSpill : Prop :=
  ∀ (mk : Mode → Reg → Reg → Reg → Instr) (op : Nat) (res spill : Nat → Nat → Nat),
    (mk, op, res, spill) ∈
      [(Instr.shlh, 0x53, fun a n => a * 2 ^ n % 2 ^ 128, fun a n => a * 2 ^ n / 2 ^ 128),
        (Instr.shrh, 0x54, fun a n => a / 2 ^ n, fun a n => a % 2 ^ n)] →
    ∀ (s : State) (m : Mode) (rs1 rs2 rs3 : Reg), s.fault = false →
      let i := mk m rs1 rs2 rs3
      let n := s.regInt rs3
      let sp := spill (s.val128 rs2) n.toNat
      (encode i).toNat = op + rs1.val * 2 ^ 12 + rs2.val * 2 ^ 16 + rs3.val * 2 ^ 20 + m.select * 2 ^ 26 ∧
      Tests i s
        [(s.init = true, 7, s.reg rs1), (0 ≤ n ∧ n ≤ 128, 2, s.reg rs3), (s.InRange rs2 16, 6, s.reg rs2),
          (s.InRange rs1 16, 6, s.reg rs1)]
        (sp < 2 ^ 128 ∧
          ∃ mem', s.mem.Wrote mem' (s.addr rs1) 16 (res (s.val128 rs2) n.toNat) ∧
            exec i s =
              .next
                { s with
                  mem := mem', carryLo := BitVec.ofNat 64 (sp % 2 ^ 64), carryHi := BitVec.ofNat 64 (sp / 2 ^ 64)
                  flagV := decide (sp ≠ 0), cmdseq := s.cmdseq + 1 })

/-- ZEROH writes sixteen 0 bytes, WRU64H a register zero-extended to 128 bits, WRS64H a register sign-extended to 128 bits (R260,
R261, R286). -/
def Obligations.WideInitialisers : Prop :=
  ∀ (s : State) (rs1 rs2 : Reg), s.fault = false →
    let tests := [(s.init = true, 7, s.reg rs1), (s.InRange rs1 16, 6, s.reg rs1)]
    let wrote := fun (i : Instr) (v : Nat) =>
      ∃ m, s.mem.Wrote m (s.addr rs1) 16 v ∧ exec i s = .next { s with mem := m, cmdseq := s.cmdseq + 1 }
    (encode (.zeroh rs1)).toNat = 0x55 + rs1.val * 2 ^ 12 ∧
    Tests (.zeroh rs1) s tests (wrote (.zeroh rs1) 0) ∧
    (encode (.wru64h rs1 rs2)).toNat = 0x56 + rs1.val * 2 ^ 12 + rs2.val * 2 ^ 16 ∧
    Tests (.wru64h rs1 rs2) s tests (wrote (.wru64h rs1 rs2) (s.reg rs2)) ∧
    (encode (.wrs64h rs1 rs2)).toNat = 0x68 + rs1.val * 2 ^ 12 + rs2.val * 2 ^ 16 ∧
    Tests (.wrs64h rs1 rs2) s tests (wrote (.wrs64h rs1 rs2) (s.x[rs2].signExtend 128).toNat)

/-- HEXH writes the 32 hexadecimal digits of the old value as lower-case ASCII text, most significant digit at the lowest address
(R262). -/
def Obligations.HexhWritesText : Prop :=
  ∀ (s : State) (rs1 rs2 : Reg), s.fault = false →
    let i := Instr.hexh rs1 rs2
    let d := fun (j : Nat) => s.val128 rs2 / 16 ^ (31 - j) % 16
    (encode i).toNat = 0x57 + rs1.val * 2 ^ 12 + rs2.val * 2 ^ 16 ∧
    Tests i s
      [(s.init = true, 7, s.reg rs1), (s.InRange rs2 16, 6, s.reg rs2), (s.InRange rs1 32, 6, s.reg rs1)]
      (∃ m : Memory,
        (∀ j < 32, (m.read (s.addr rs1 + j)).toNat = if d j ≤ 9 then 48 + d j else 87 + d j) ∧
        (∀ a, a < s.addr rs1 ∨ s.addr rs1 + 32 ≤ a → m.read a = s.mem.read a) ∧
        exec i s = .next { s with mem := m, cmdseq := s.cmdseq + 1 })

/-- The two laws of R263, run as commands. (a) When A + B fits, ADDH and then SUBH of the sum and A give B back with carry and borrow 0.
(b) When SHLH of A by n spills nothing, SHRH by n of the result gives A back and spills nothing. -/
def Obligations.LimbRoundTrips : Prop :=
  ∀ (s : State) (m m' : Mode) (rd rd' rs1 rs2 rs3 rs4 : Reg), s.fault = false → s.init = true →
    s.InRange rs1 16 → s.InRange rs2 16 → s.InRange rs4 16 →
    (s.InRange rs3 16 → rd ≠ rs1 → rd ≠ rs2 → rd ≠ rs4 → s.addr rs1 + 16 ≤ s.addr rs2 ∨ s.addr rs2 + 16 ≤ s.addr rs1 →
      s.val128 rs2 + s.val128 rs3 < 2 ^ 128 →
      ∃ t u, exec (.addh m rd rs1 rs2 rs3) s = .next t ∧ t.x[rd] = 0 ∧
        exec (.subh m' rd' rs4 rs1 rs2) t = .next u ∧ u.x[rd'] = 0 ∧ u.mem.natAt (s.addr rs4) 16 = s.val128 rs3) ∧
    (0 ≤ s.regInt rs3 → s.regInt rs3 ≤ 128 → s.val128 rs2 * 2 ^ (s.regInt rs3).toNat < 2 ^ 128 →
      ∃ t u, exec (.shlh m rs1 rs2 rs3) s = .next t ∧ t.carryLo = 0 ∧ t.carryHi = 0 ∧
        exec (.shrh m' rs4 rs1 rs3) t = .next u ∧ u.carryLo = 0 ∧ u.carryHi = 0 ∧
        u.mem.natAt (s.addr rs4) 16 = s.val128 rs2)

/-! ## 128-bit typed commands (45_int128.md) -/

/-- UADD and USUB write the exact sum or difference, or fault when it is outside 0 to 2^128 - 1, before the destination is tested (R282,
R283). -/
def Obligations.UnsignedAddSubtractExact : Prop :=
  ∀ (s : State) (m : Mode) (rs1 rs2 rs3 : Reg), s.fault = false →
    let a := s.val128 rs2
    let b := s.val128 rs3
    let wrote := fun (i : Instr) (v : Nat) =>
      ∃ mem', s.mem.Wrote mem' (s.addr rs1) 16 v ∧ exec i s = .next { s with mem := mem', cmdseq := s.cmdseq + 1 }
    let fields := rs1.val * 2 ^ 12 + rs2.val * 2 ^ 16 + rs3.val * 2 ^ 20 + m.select * 2 ^ 26
    let tests := fun (fits : Prop) (code : Nat) =>
      [(s.init = true, 7, s.reg rs1), (s.InRange rs2 16, 6, s.reg rs2), (s.InRange rs3 16, 6, s.reg rs3),
        (fits, code, s.reg rs2), (s.InRange rs1 16, 6, s.reg rs1)]
    (encode (.uadd m rs1 rs2 rs3)).toNat = 0x60 + fields ∧
    Tests (.uadd m rs1 rs2 rs3) s (tests (a + b < 2 ^ 128) 3) (wrote (.uadd m rs1 rs2 rs3) (a + b)) ∧
    (encode (.usub m rs1 rs2 rs3)).toNat = 0x61 + fields ∧
    Tests (.usub m rs1 rs2 rs3) s (tests (b ≤ a) 4) (wrote (.usub m rs1 rs2 rs3) (a - b))

/-- USHL writes the exact product or faults with the count when it does not fit; USRL writes the quotient and never faults on lost
bits (R284, R285). -/
def Obligations.UnsignedShiftsExact : Prop :=
  ∀ (s : State) (m : Mode) (rs1 rs2 rs3 : Reg), s.fault = false →
    let a := s.val128 rs2
    let n := s.regInt rs3
    let wrote := fun (i : Instr) (v : Nat) =>
      ∃ mem', s.mem.Wrote mem' (s.addr rs1) 16 v ∧ exec i s = .next { s with mem := mem', cmdseq := s.cmdseq + 1 }
    let fields := rs1.val * 2 ^ 12 + rs2.val * 2 ^ 16 + rs3.val * 2 ^ 20 + m.select * 2 ^ 26
    (encode (.ushl m rs1 rs2 rs3)).toNat = 0x62 + fields ∧
    Tests (.ushl m rs1 rs2 rs3) s
      [(s.init = true, 7, s.reg rs1), (0 ≤ n ∧ n ≤ 128, 2, s.reg rs3), (s.InRange rs2 16, 6, s.reg rs2),
        (a * 2 ^ n.toNat < 2 ^ 128, 3, s.reg rs3), (s.InRange rs1 16, 6, s.reg rs1)]
      (wrote (.ushl m rs1 rs2 rs3) (a * 2 ^ n.toNat)) ∧
    (encode (.usrl m rs1 rs2 rs3)).toNat = 0x63 + fields ∧
    Tests (.usrl m rs1 rs2 rs3) s
      [(s.init = true, 7, s.reg rs1), (0 ≤ n ∧ n ≤ 128, 2, s.reg rs3), (s.InRange rs2 16, 6, s.reg rs2),
        (s.InRange rs1 16, 6, s.reg rs1)]
      (wrote (.usrl m rs1 rs2 rs3) (a / 2 ^ n.toNat))

/-- SNEG writes not-plus-one, which is the exact negation, and faults on the minimum value only (R287). -/
def Obligations.SignedNegation : Prop :=
  ∀ (s : State) (m : Mode) (rs1 rs2 : Reg), s.fault = false →
    let i := Instr.sneg m rs1 rs2
    let a := s.val128 rs2
    let r := (2 ^ 128 - 1 - a + 1) % 2 ^ 128
    (encode i).toNat = 0x69 + rs1.val * 2 ^ 12 + rs2.val * 2 ^ 16 + m.select * 2 ^ 26 ∧
    Tests i s
      [(s.init = true, 7, s.reg rs1), (s.InRange rs2 16, 6, s.reg rs2), (a ≠ 2 ^ 127, 3, s.reg rs2),
        (s.InRange rs1 16, 6, s.reg rs1)]
      (signed128 r = -signed128 a ∧ (2 ^ 128 - 1 - r + 1) % 2 ^ 128 = a ∧
        ∃ mem', s.mem.Wrote mem' (s.addr rs1) 16 r ∧ exec i s = .next { s with mem := mem', cmdseq := s.cmdseq + 1 })

/-- SADD and SSUB write the two's-complement pattern of the exact result and fault exactly when it is outside the signed range, in
either direction with ArithmeticOverflow (R288, R289). -/
def Obligations.SignedAddSubtractExact : Prop :=
  ∀ (mk : Mode → Reg → Reg → Reg → Instr) (op : Nat) (f : Int → Int → Int),
    (mk, op, f) ∈ [(Instr.sadd, 0x6A, fun a b => a + b), (Instr.ssub, 0x6B, fun a b => a - b)] →
    ∀ (s : State) (m : Mode) (rs1 rs2 rs3 : Reg), s.fault = false →
      let i := mk m rs1 rs2 rs3
      let v := f (signed128 (s.val128 rs2)) (signed128 (s.val128 rs3))
      (encode i).toNat = op + rs1.val * 2 ^ 12 + rs2.val * 2 ^ 16 + rs3.val * 2 ^ 20 + m.select * 2 ^ 26 ∧
      Tests i s
        [(s.init = true, 7, s.reg rs1), (s.InRange rs2 16, 6, s.reg rs2), (s.InRange rs3 16, 6, s.reg rs3),
          (-2 ^ 127 ≤ v ∧ v ≤ 2 ^ 127 - 1, 3, s.reg rs2), (s.InRange rs1 16, 6, s.reg rs1)]
        (∃ mem', s.mem.Wrote mem' (s.addr rs1) 16 (v % 2 ^ 128).toNat ∧
          exec i s = .next { s with mem := mem', cmdseq := s.cmdseq + 1 })

/-- SSHL writes the pattern of the exact product and faults, with the count, exactly when the product is outside the signed range
(R290). -/
def Obligations.SignedLeftShiftExact : Prop :=
  ∀ (s : State) (m : Mode) (rs1 rs2 rs3 : Reg), s.fault = false →
    let i := Instr.sshl m rs1 rs2 rs3
    let n := s.regInt rs3
    let v := signed128 (s.val128 rs2) * 2 ^ n.toNat
    (encode i).toNat = 0x6C + rs1.val * 2 ^ 12 + rs2.val * 2 ^ 16 + rs3.val * 2 ^ 20 + m.select * 2 ^ 26 ∧
    Tests i s
      [(s.init = true, 7, s.reg rs1), (0 ≤ n ∧ n ≤ 128, 2, s.reg rs3), (s.InRange rs2 16, 6, s.reg rs2),
        (-2 ^ 127 ≤ v ∧ v ≤ 2 ^ 127 - 1, 3, s.reg rs3), (s.InRange rs1 16, 6, s.reg rs1)]
      (∃ mem', s.mem.Wrote mem' (s.addr rs1) 16 (v % 2 ^ 128).toNat ∧
        exec i s = .next { s with mem := mem', cmdseq := s.cmdseq + 1 })

/-- SSAR fills the vacated bits with the sign, which is the floor of the signed quotient, and raises no arithmetic fault (R291). -/
def Obligations.SignedRightShiftFloor : Prop :=
  ∀ (s : State) (m : Mode) (rs1 rs2 rs3 : Reg), s.fault = false →
    let i := Instr.ssar m rs1 rs2 rs3
    let a := s.val128 rs2
    let n := s.regInt rs3
    let r := a / 2 ^ n.toNat + if 2 ^ 127 ≤ a then 2 ^ 128 - 2 ^ (128 - n.toNat) else 0
    (encode i).toNat = 0x6D + rs1.val * 2 ^ 12 + rs2.val * 2 ^ 16 + rs3.val * 2 ^ 20 + m.select * 2 ^ 26 ∧
    Tests i s
      [(s.init = true, 7, s.reg rs1), (0 ≤ n ∧ n ≤ 128, 2, s.reg rs3), (s.InRange rs2 16, 6, s.reg rs2),
        (s.InRange rs1 16, 6, s.reg rs1)]
      ((r : Int) = signed128 a / 2 ^ n.toNat % 2 ^ 128 ∧
        ∃ mem', s.mem.Wrote mem' (s.addr rs1) 16 r ∧ exec i s = .next { s with mem := mem', cmdseq := s.cmdseq + 1 })

/-! ## Faults and the host interface (60_exceptions.md, 70_reset_and_hazards.md) -/

/-- Every command is a transaction: it completes and CMDSEQ advances by one, mod 2^64, with the fault registers as they were, or it
takes one fault of R310 and the four fault fields are all that changes (R10, R27, R320). The host's list and the trace, which a command
leaves alone, are the model's own (log 2). -/
def Obligations.EveryCommandCompletesOrLatches : Prop :=
  ∀ (i : Instr) (s : State), s.fault = false →
    (∃ t, exec i s = .next t ∧ t.cmdseq = s.cmdseq + 1 ∧ t.fault = false ∧ t.code = s.code ∧ t.faultCmd = s.faultCmd ∧
      t.faultInfo = s.faultInfo ∧ t.heapMax = s.heapMax ∧ t.host = s.host ∧ t.trace = s.trace) ∨
    (∃ code info, 1 ≤ code ∧ code ≤ 8 ∧ exec i s = .next (s.latched (encode i) code info))

/-- A command raises only the faults its row of R319 marks; in particular the allocator commands never raise AddressOutOfRange, on any
heap whatever its bytes. -/
def Obligations.FaultsAreThoseOfTheTable : Prop :=
  ∀ (i : Instr) (s t : State), Inv s → s.fault = false → exec i s = .next t → t.fault = true → t.code.toNat ∈ i.raises

/-- While a fault is latched a presented word, whatever it is, changes nothing of the block (R321). The host's list of coming moves and
the trace, which move on, are the model's own (log 2). -/
def Obligations.HaltedBlockDropsWords : Prop :=
  ∀ (s : State) (w : CmdWord) (rest : List HostMove), s.fault = true → s.host = .issue w :: rest →
    step s = .next { s with host := rest, trace := ⟨.issue w, none⟩ :: s.trace }

/-- The fault-clear move returns the four fault fields to 0 and changes nothing else of the block (R325). The host's list of coming moves
and the trace, which move on, are the model's own (log 2). -/
def Obligations.FaultClearReturns : Prop :=
  ∀ (s : State) (rest : List HostMove), s.fault = true → s.host = .faultClear :: rest →
    step s =
      .next
        { s with
          fault := false, code := 0, faultCmd := 0, faultInfo := 0
          host := rest, trace := ⟨.faultClear, none⟩ :: s.trace }

/-- The host reads any register and any system register and writes any register, latched or not, with no other effect (R330); a system
register reads as the table of R23 says in every state, so STATUS, FAULTCMD and FAULTINFO are read this way while F = 1, and where no fault
is latched it reads as RDSR reads it. That moves wait in a list and returned values stand in a trace is the model's own (log 2). -/
def Obligations.HostReadsAndWritesRegisters : Prop :=
  ∀ (s : State) (r : Reg) (v : Nat) (q : SysReg) (rest : List HostMove),
    (s.host = .readReg r :: rest → step s = .next { s with host := rest, trace := ⟨.readReg r, some s.x[r]⟩ :: s.trace }) ∧
    (s.host = .writeReg r v :: rest →
      step s =
        .next
          { s with
            x := s.x.set r.val (BitVec.ofNat 64 (v % 2 ^ 64))
            host := rest, trace := ⟨.writeReg r v, none⟩ :: s.trace }) ∧
    (s.host = .readSysReg q :: rest →
      step s = .next { s with host := rest, trace := ⟨.readSysReg q, some (s.sysReg q)⟩ :: s.trace }) ∧
    (∀ u, (q, u) ∈
      [(.status, s.fault.toNat + 2 * s.init.toNat + 2 ^ 8 * s.code.toNat), (.faultCmd, s.faultCmd.toNat),
        (.faultInfo, s.faultInfo.toNat), (.cmdseq, s.cmdseq.toNat), (.flags, s.flagV.toNat), (.carryLo, s.carryLo.toNat),
        (.carryHi, s.carryHi.toNat), (.heapCap, s.cap), (.bump, s.bump.toNat), (.large, s.large.toNat), (.heapMax, s.heapMax)] →
      s.sysReg q = BitVec.ofNat 64 u) ∧
    (∀ k, q = .bin k → s.sysReg q = s.bin[k]) ∧
    (s.fault = false → ∀ (rd : Reg) (imm : BitVec 20), sysRegOf imm.toNat = some q →
      exec (.rdsr rd imm) s = .next { s with x := s.x.set rd.val (s.sysReg q), cmdseq := s.cmdseq + 1 })

/-- The reset move, from any state: every piece of the block's state takes the value R350 gives; the parameter HEAPMAX, the host's own
coming moves and its trace are not the block's and stay (the last two are the model's own, log 2). -/
def Obligations.ResetFromAnyState : Prop :=
  ∀ (s : State) (rest : List HostMove), s.host = .reset :: rest →
    step s =
      .next
        { x := Vector.replicate 16 0, cmdseq := 0, fault := false, code := 0, faultCmd := 0, faultInfo := 0, flagV := false
          carryLo := 0, carryHi := 0, init := false, cap := 0, mem := [], bin := Vector.replicate 16 0, large := 0, bump := 0
          heapMax := s.heapMax, live := [], host := rest, trace := ⟨.reset, none⟩ :: s.trace }

/-! ## Encoding (30_encoding.md) -/

/-- A presented word is a command exactly when it matches a row of the opcode map under the row's mask, and then exactly one; any
other word raises IllegalCommand with the word (R94, R97, R318). The host's list of coming moves and the trace are the model's own
(log 2). -/
def Obligations.WordsMatchingNoRowAreIllegal : Prop :=
  ∀ (s : State) (w : CmdWord) (rest : List HostMove), s.fault = false → s.host = .issue w :: rest →
    let t := { s with host := rest, trace := ⟨.issue w, none⟩ :: s.trace }
    ((∀ row ∈ opcodeMap, w &&& row.1 ≠ row.2) → step s = .next (t.latched w 8 w.toNat)) ∧
    ((∃ row ∈ opcodeMap, w &&& row.1 = row.2) →
      (opcodeMap.filter fun row => w &&& row.1 = row.2).length = 1 ∧ ∃ i, decode w = .ok i ∧ step s = exec i t)

/-- Decoding the encoding of any well-formed command gives the command back, from the word and from its four little-endian bytes at
the head of any stream (R66, R91, R92, R96, R99). -/
def Obligations.DecodeOfEncode : Prop :=
  ∀ (i : Instr) (rest : List Byte), i.wellFormed = true →
    decode (encode i) = .ok i ∧ decodeBytes (leBytes 4 (encode i).toNat ++ rest) = .ok (i, rest)

/-- A word that decodes is the encoding of what it decodes to, and that command is well formed: every bit of the word is accounted for
(R94). -/
def Obligations.EncodeOfDecode : Prop := ∀ (w : CmdWord) (i : Instr), decode w = .ok i → encode i = w ∧ i.wellFormed = true

/-- Words the spec writes out in its examples decode to the commands they stand for, one or more of each family. -/
def Obligations.ExampleWordsDecode : Prop :=
  decode 0x00010102 = .ok (.ldi 1 16) ∧ decode 0x05678203 = .ok (.ldis 2 0x5678) ∧ decode 0x00008305 = .ok (.rdsr 3 8) ∧
  decode 0x00001010 = .ok (.hinit 1) ∧ decode 0x00021019 = .ok (.st64 1 2) ∧ decode 0x0032101A = .ok (.memcpy 1 2 3) ∧
  decode 0x00021321 = .ok (.calloc 3 1 2) ∧ decode 0x00012423 = .ok (.realloc 4 2 1) ∧
  decode 0x06021330 = .ok (.shl .arithmetic .w32 3 1 2) ∧ decode 0x0302133D = .ok (.btgl .native .w64 3 1 2) ∧
  decode 0x00321550 = .ok (.addh .native 5 1 2 3) ∧ decode 0x00021057 = .ok (.hexh 1 2) ∧
  decode 0x0032106A = .ok (.sadd .native 1 2 3) ∧ decode 0x0003256E = .ok (.scmp 5 2 3)

/-- A step whose host move presents a word runs exactly the command the word decodes to, on the state with the move taken off the
host's list and entered in the trace (R27, R330). The host's list and the trace are the model's own (log 2). -/
def Obligations.StepRunsTheDecodedCommand : Prop :=
  ∀ (s : State) (w : CmdWord) (i : Instr) (rest : List HostMove),
    s.host = .issue w :: rest → decode w = .ok i →
    step s = exec i { s with host := rest, trace := ⟨.issue w, none⟩ :: s.trace }

/-! ## The whole machine -/

/-- Every step keeps the invariant: canonical memory below CAP, legal fault latch, heap and BUMP in their bounds, HEAPMAX in its range,
LIVE a set, V telling whether the carry is 0 (R6, R24, R28, R31, R41, R310, R320). -/
def Obligations.InvariantKeptByEveryStep : Prop := ∀ s t : State, Inv s → step s = .next t → Inv t

/-- The invariant holds right after reset (10_state.md R50; HEAPMAX by 00_scope.md R6). -/
def Obligations.InvariantAtReset : Prop := Inv State.reset

/-- No command but the six engine shifts, ADDH, SUBH, SHLH and SHRH changes V, CARRYLO or CARRYHI; those that complete leave V telling
whether the carry is 0 (R28, R29). -/
def Obligations.OnlyShiftsAndLimbsWriteFlags : Prop :=
  ∀ (i : Instr) (s t : State), exec i s = .next t →
    (i.writesFlags = false → t.flagV = s.flagV ∧ t.carryLo = s.carryLo ∧ t.carryHi = s.carryHi) ∧
    (i.writesFlags = true → t.fault = false → (t.flagV = true ↔ t.carryLo ≠ 0 ∨ t.carryHi ≠ 0))

/-- A command writes at most one general register, the one its rd field names, and none when it faults (R21, R320). -/
def Obligations.AtMostOneRegisterWritten : Prop :=
  ∀ (i : Instr) (s t : State), exec i s = .next t →
    (i.dest = none → t.x = s.x) ∧ (∀ rd, i.dest = some rd → ∀ q, q ≠ rd → t.x[q] = s.x[q]) ∧ (t.fault = true → t.x = s.x)

/-- The heap only grows: no command lowers CAP or BUMP or ends the heap, HEAPMAX is constant, CAP changes only by HINIT, HENSURE and
the allocating commands, and BUMP only by HINIT and these (R31, R34, R41). -/
def Obligations.HeapOnlyGrows : Prop :=
  ∀ (i : Instr) (s t : State), Inv s → exec i s = .next t →
    s.cap ≤ t.cap ∧ s.bump.toNat ≤ t.bump.toNat ∧ t.heapMax = s.heapMax ∧ (s.init = true → t.init = true) ∧
    ((∀ r, i ≠ .hinit r) → t.init = s.init ∧
      ((∀ rd r, i ≠ .malloc rd r) → (∀ rd r q, i ≠ .calloc rd r q) → (∀ rd r q, i ≠ .realloc rd r q) →
        t.bump = s.bump ∧ ((∀ r, i ≠ .hensure r) → t.cap = s.cap)))

/-- LIVE is specification-only: no command's effect on anything else depends on it (R45). -/
def Obligations.LiveInfluencesNothing : Prop :=
  ∀ (i : Instr) (s : State) (l : List Nat),
    ∃ t l', exec i s = .next t ∧ exec i { s with live := l } = .next { t with live := l' }

/-- The commands LI and ONEH stand for, run one after the other, do what the pseudo-instruction says: LI leaves the whole 64-bit
constant in its register, for every constant, and nothing else changes but CMDSEQ; ONEH stores the 128-bit value 1 (R108). -/
def Obligations.PseudoInstructionsExpand : Prop :=
  ∀ (s : State), s.fault = false →
    let run := fun (is : List Instr) =>
      is.foldl (fun o i => match o with | .next u => exec i u | stop => stop) (Host.Outcome.next s)
    (∀ (rd : Reg) (c : Word),
      run (Pseudo.li rd c).expand =
        .next { s with x := s.x.set rd.val c, cmdseq := s.cmdseq + BitVec.ofNat 64 (Pseudo.li rd c).expand.length }) ∧
    (∀ ra rt : Reg, ra ≠ rt → s.init = true → s.InRange ra 16 →
      ∃ m, s.mem.Wrote m (s.addr ra) 16 1 ∧
        run (Pseudo.oneh ra rt).expand = .next { s with x := s.x.set rt.val 1, mem := m, cmdseq := s.cmdseq + 2 })
end

