-- ==== Sys2Proof/Laws/Memory.lean ====
section
/-! SUPPORT. The laws of the heap's bytes: what a read answers after each memory operation, that every operation keeps the canonical
form, and that canonical memories with equal bytes are equal. -/

namespace Sys2Proof.Machine

/-! ### Little-endian bytes -/

@[simp] theorem leBytes_length (n v : Nat) : (leBytes n v).length = n := by
  induction n generalizing v with
  | zero => rfl
  | succ n ih => simp [leBytes, ih]

theorem leBytes_getElem (n v k : Nat) (h : k < (leBytes n v).length) : (leBytes n v)[k] = BitVec.ofNat 8 (v / 256 ^ k) := by
  induction n generalizing v k with
  | zero => simp [leBytes] at h
  | succ n ih =>
    cases k with
    | zero => simp [leBytes]
    | succ k => simp [leBytes, ih, Nat.div_div_eq_div_mul, Nat.pow_succ, Nat.mul_comm]

theorem leNat_lt (bs : List Byte) : leNat bs < 256 ^ bs.length := by
  induction bs with
  | nil => simp [leNat]
  | cons b bs ih =>
    have := b.isLt
    simp only [leNat, List.length_cons, Nat.pow_succ]
    omega

/-- The bytes of a natural read back as it, reduced to their width. -/
theorem leNat_leBytes (n v : Nat) : leNat (leBytes n v) = v % 256 ^ n := by
  induction n generalizing v with
  | zero => simp [leBytes, leNat, Nat.mod_one]
  | succ n ih =>
    have hb : (BitVec.ofNat 8 v).toNat = v % 256 := BitVec.toNat_ofNat v 8
    rw [leBytes, leNat, ih, hb, Nat.pow_succ, Nat.mul_comm (256 ^ n) 256, Nat.mod_mul]

/-! ### Reads -/

@[simp] theorem Memory.read_nil (a : Nat) : Memory.read [] a = 0 := rfl

theorem Memory.read_append (m n : Memory) (a : Nat) :
    Memory.read (m ++ n) a = if a ∈ m.map Prod.fst then Memory.read m a else Memory.read n a := by
  induction m with
  | nil => simp
  | cons c m ih =>
    obtain ⟨k, b⟩ := c
    by_cases h : k = a
    · simp [Memory.read, h]
    · simp [Memory.read, h, ih, Ne.symm h]

theorem Memory.read_eq_zero_of_notMem (m : Memory) (a : Nat) (h : a ∉ m.map Prod.fst) : Memory.read m a = 0 := by
  induction m with
  | nil => rfl
  | cons c m ih =>
    obtain ⟨k, b⟩ := c
    simp only [List.map_cons, List.mem_cons, not_or] at h
    simp [Memory.read, Ne.symm h.1, ih h.2]

/-- Keeping the cells whose address satisfies `p` keeps the reads of those addresses and makes every other one 0. -/
theorem Memory.read_filter (m : Memory) (p : Nat → Bool) (a : Nat) :
    Memory.read (m.filter fun c => p c.1) a = if p a then Memory.read m a else 0 := by
  induction m with
  | nil => simp
  | cons c m ih =>
    obtain ⟨k, b⟩ := c
    by_cases hp : p k <;> by_cases hk : k = a
    · subst hk; simp [Memory.read, hp]
    · simp [Memory.read, hp, hk, ih]
    · subst hk; simp [hp, ih]
    · simp [Memory.read, hp, hk, ih]

theorem cellsAt_fst (a : Nat) (bs : List Byte) (c : Host.Cell) (h : c ∈ cellsAt a bs) :
    a ≤ c.1 ∧ c.1 < a + bs.length ∧ c.2 ≠ 0 := by
  induction bs generalizing a with
  | nil => simp [cellsAt] at h
  | cons b bs ih =>
    simp only [cellsAt] at h
    simp only [List.length_cons]
    split at h
    · obtain ⟨h1, h2, h3⟩ := ih _ h
      exact ⟨by omega, by omega, h3⟩
    · rcases List.mem_cons.1 h with rfl | h
      · simp_all
      · obtain ⟨h1, h2, h3⟩ := ih _ h
        exact ⟨by omega, by omega, h3⟩

theorem cellsAt_read (a : Nat) (bs : List Byte) (k : Nat) :
    Memory.read (cellsAt a bs) k = if h : a ≤ k ∧ k < a + bs.length then bs[k - a] else 0 := by
  induction bs generalizing a with
  | nil => simp [cellsAt]
  | cons b bs ih =>
    simp only [cellsAt, List.length_cons]
    by_cases hk : a = k
    · subst hk
      split
      · rename_i hb; simp [ih, hb]
      · simp [Memory.read]
    · have e : (if b = 0 then cellsAt (a + 1) bs else (a, b) :: cellsAt (a + 1) bs).read k = Memory.read (cellsAt (a + 1) bs) k := by
        split <;> simp [Memory.read, hk]
      rw [e, ih]
      by_cases h : a + 1 ≤ k ∧ k < a + 1 + bs.length
      · have h2 : a ≤ k ∧ k < a + (bs.length + 1) := by omega
        rw [dif_pos h, dif_pos h2]
        have : k - a = (k - (a + 1)) + 1 := by omega
        simp [this]
      · have h2 : ¬(a ≤ k ∧ k < a + (bs.length + 1)) := by omega
        rw [dif_neg h, dif_neg h2]

/-- What a read answers after a store: the stored byte inside the stored range, the old byte outside it. -/
theorem Memory.read_store (m : Memory) (a : Nat) (bs : List Byte) (k : Nat) :
    (m.store a bs).read k = if h : a ≤ k ∧ k < a + bs.length then bs[k - a] else m.read k := by
  have hmem : ∀ p : Nat → Bool, (k ∈ (m.filter fun c => p c.1).map Prod.fst) → p k = true := by
    intro p h
    obtain ⟨c, hc, rfl⟩ := List.mem_map.1 h
    exact (List.mem_filter.1 hc).2
  unfold Memory.store
  rw [List.append_assoc, Memory.read_append, Memory.read_append]
  have f1 := Memory.read_filter m (fun j => decide (j < a)) k
  have f2 := Memory.read_filter m (fun j => decide (a + bs.length ≤ j)) k
  have h1 := hmem (fun j => decide (j < a))
  have hc : k ∈ (cellsAt a bs).map Prod.fst → a ≤ k ∧ k < a + bs.length := by
    intro h
    obtain ⟨c, hc, rfl⟩ := List.mem_map.1 h
    exact ⟨(cellsAt_fst a bs c hc).1, (cellsAt_fst a bs c hc).2.1⟩
  have hz := Memory.read_eq_zero_of_notMem (cellsAt a bs) k
  have hz1 := Memory.read_eq_zero_of_notMem (m.filter fun c => decide (c.1 < a)) k
  have hr := cellsAt_read a bs k
  by_cases hin : a ≤ k ∧ k < a + bs.length
  · rw [dif_pos hin] at hr ⊢
    rw [if_neg (fun h => by have := h1 h; simp at this; omega)]
    split
    · exact hr
    · rename_i h
      rw [f2, ← hr, hz h]
      simp only [decide_eq_true_eq, ite_eq_right_iff]
      intro; omega
  · rw [dif_neg hin, if_neg (fun h => hin (hc h))]
    by_cases hlt : k < a
    · split
      · rw [f1]; simp [hlt]
      · rename_i h
        have := hz1 h
        rw [f1] at this
        simp only [decide_eq_true_eq] at this
        rw [if_pos hlt] at this
        rw [f2, this]; simp
    · rw [if_neg (fun h => by have := h1 h; simp at this; omega), f2, if_pos]
      simp; omega

/-- What a read answers after a range is set to 0. -/
theorem Memory.read_clear (m : Memory) (lo hi k : Nat) :
    (m.clear lo hi).read k = if lo ≤ k ∧ k < hi then 0 else m.read k := by
  have := Memory.read_filter m (fun j => decide (j < lo) || decide (hi ≤ j)) k
  unfold Memory.clear
  rw [this]
  by_cases h : lo ≤ k ∧ k < hi
  · rw [if_pos h, if_neg]; simp; omega
  · rw [if_neg h, if_pos]; simp; omega

/-! ### The canonical form -/

theorem Memory.wf_filter (m : Memory) (p : Host.Cell → Bool) (h : m.wf) : Memory.wf (m.filter p) :=
  ⟨h.1.sublist List.filter_sublist, fun c hc => h.2 c (List.mem_filter.1 hc).1⟩

theorem cellsAt_wf (a : Nat) (bs : List Byte) : Memory.wf (cellsAt a bs) := by
  refine ⟨?_, fun c hc => (cellsAt_fst a bs c hc).2.2⟩
  induction bs generalizing a with
  | nil => simp [cellsAt]
  | cons b bs ih =>
    simp only [cellsAt]
    split
    · exact ih _
    · refine List.pairwise_cons.2 ⟨fun c hc => ?_, ih _⟩
      have := (cellsAt_fst _ _ _ hc).1
      show a < c.1
      omega

/-- A store keeps the canonical form. -/
theorem Memory.wf_store (m : Memory) (a : Nat) (bs : List Byte) (h : m.wf) : (m.store a bs).wf := by
  have w1 := Memory.wf_filter m (fun c => decide (c.1 < a)) h
  have w2 := Memory.wf_filter m (fun c => decide (a + bs.length ≤ c.1)) h
  have wc := cellsAt_wf a bs
  refine ⟨?_, ?_⟩
  · refine List.pairwise_append.2 ⟨List.pairwise_append.2 ⟨w1.1, wc.1, fun c hc d hd => ?_⟩, w2.1, fun c hc d hd => ?_⟩
    · have := (List.mem_filter.1 hc).2
      have := (cellsAt_fst a bs d hd).1
      simp at *
      omega
    · have := (List.mem_filter.1 hd).2
      rcases List.mem_append.1 hc with hc | hc
      · have := (List.mem_filter.1 hc).2
        simp at *
        omega
      · have := (cellsAt_fst a bs c hc).2.1
        simp at *
        omega
  · intro c hc
    simp only [Memory.store, List.mem_append] at hc
    rcases hc with (hc | hc) | hc
    · exact w1.2 c hc
    · exact wc.2 c hc
    · exact w2.2 c hc

/-- Setting a range to 0 keeps the canonical form. -/
theorem Memory.wf_clear (m : Memory) (lo hi : Nat) (h : m.wf) : (m.clear lo hi).wf := Memory.wf_filter m _ h

/-- The byte-by-byte copy keeps the canonical form. -/
theorem Memory.wf_copyUp (m : Memory) (d a n : Nat) (h : m.wf) : (m.copyUp d a n).wf := by
  induction n with
  | zero => exact h
  | succ n ih => exact Memory.wf_store _ _ _ ih

/-- Every listed address of a stored memory is an old one or lies in the stored range. -/
theorem Memory.mem_store (m : Memory) (a : Nat) (bs : List Byte) (c : Host.Cell) (h : c ∈ m.store a bs) :
    c ∈ m ∨ a ≤ c.1 ∧ c.1 < a + bs.length := by
  simp only [Memory.store, List.mem_append, List.mem_filter] at h
  rcases h with (h | h) | h
  · exact .inl h.1
  · exact .inr ⟨(cellsAt_fst a bs c h).1, (cellsAt_fst a bs c h).2.1⟩
  · exact .inl h.1

/-- Equal bytes make equal canonical memories. -/
theorem Memory.ext_of_read (m n : Memory) (hm : m.wf) (hn : n.wf) (h : ∀ a, m.read a = n.read a) : m = n := by
  induction m generalizing n with
  | nil =>
    cases n with
    | nil => rfl
    | cons d n =>
      obtain ⟨k, b⟩ := d
      have := h k
      simp [Memory.read] at this
      exact absurd this.symm (hn.2 _ (List.mem_cons_self ..))
  | cons c m ih =>
    obtain ⟨k, b⟩ := c
    have hb : b ≠ 0 := hm.2 _ (List.mem_cons_self ..)
    have hm1 := List.pairwise_cons.1 hm.1
    have fresh : ∀ (l : Memory) (j : Nat), (∀ d ∈ l, j < d.1) → ∀ i ≤ j, l.read i = 0 := by
      intro l j hl i hij
      refine Memory.read_eq_zero_of_notMem l i fun hi => ?_
      obtain ⟨d, hd, rfl⟩ := List.mem_map.1 hi
      have := hl d hd
      omega
    cases n with
    | nil =>
      have := h k
      simp [Memory.read] at this
      exact absurd this hb
    | cons d n =>
      obtain ⟨j, b'⟩ := d
      have hb' : b' ≠ 0 := hn.2 _ (List.mem_cons_self ..)
      have hn1 := List.pairwise_cons.1 hn.1
      have hkj : k = j := by
        rcases Nat.lt_trichotomy k j with hlt | heq | hgt
        · have e := h k
          rw [fresh ((j, b') :: n) k (by
            intro d hd
            rcases List.mem_cons.1 hd with rfl | hd
            · exact hlt
            · exact Nat.lt_trans hlt (hn1.1 d hd)) k (Nat.le_refl k)] at e
          simp [Memory.read] at e
          exact absurd e hb
        · exact heq
        · have e := h j
          rw [fresh ((k, b) :: m) j (by
            intro d hd
            rcases List.mem_cons.1 hd with rfl | hd
            · exact hgt
            · exact Nat.lt_trans hgt (hm1.1 d hd)) j (Nat.le_refl j)] at e
          simp [Memory.read] at e
          exact absurd e.symm hb'
      subst hkj
      have e := h k
      simp [Memory.read] at e
      subst e
      congr 1
      refine ih n ⟨hm1.2, fun c hc => hm.2 c (List.mem_cons_of_mem _ hc)⟩
        ⟨hn1.2, fun c hc => hn.2 c (List.mem_cons_of_mem _ hc)⟩ fun a => ?_
      by_cases hka : a ≤ k
      · rw [fresh m k hm1.1 a hka, fresh n k hn1.1 a hka]
      · have e := h a
        have hne : k ≠ a := by omega
        simpa [Memory.read, hne] using e

end Sys2Proof.Machine
end

