-- ==== Sys2Proof/Laws/State.lean ====
section
/-! SUPPORT. The fields of a state after each named update, one lemma for each field and update, all true by rfl, so that no proof
unfolds a record update. -/

namespace Sys2Proof.Machine

variable (s : State)

@[simp] theorem State.setReg_x (r : Reg) (v : Nat) : (s.setReg r v).x = s.x.set r.val (BitVec.ofNat 64 v) := rfl
@[simp] theorem State.setReg_cmdseq (r : Reg) (v : Nat) : (s.setReg r v).cmdseq = s.cmdseq := rfl
@[simp] theorem State.setReg_fault (r : Reg) (v : Nat) : (s.setReg r v).fault = s.fault := rfl
@[simp] theorem State.setReg_code (r : Reg) (v : Nat) : (s.setReg r v).code = s.code := rfl
@[simp] theorem State.setReg_faultCmd (r : Reg) (v : Nat) : (s.setReg r v).faultCmd = s.faultCmd := rfl
@[simp] theorem State.setReg_faultInfo (r : Reg) (v : Nat) : (s.setReg r v).faultInfo = s.faultInfo := rfl
@[simp] theorem State.setReg_flagV (r : Reg) (v : Nat) : (s.setReg r v).flagV = s.flagV := rfl
@[simp] theorem State.setReg_carryLo (r : Reg) (v : Nat) : (s.setReg r v).carryLo = s.carryLo := rfl
@[simp] theorem State.setReg_carryHi (r : Reg) (v : Nat) : (s.setReg r v).carryHi = s.carryHi := rfl
@[simp] theorem State.setReg_init (r : Reg) (v : Nat) : (s.setReg r v).init = s.init := rfl
@[simp] theorem State.setReg_cap (r : Reg) (v : Nat) : (s.setReg r v).cap = s.cap := rfl
@[simp] theorem State.setReg_mem (r : Reg) (v : Nat) : (s.setReg r v).mem = s.mem := rfl
@[simp] theorem State.setReg_bin (r : Reg) (v : Nat) : (s.setReg r v).bin = s.bin := rfl
@[simp] theorem State.setReg_large (r : Reg) (v : Nat) : (s.setReg r v).large = s.large := rfl
@[simp] theorem State.setReg_bump (r : Reg) (v : Nat) : (s.setReg r v).bump = s.bump := rfl
@[simp] theorem State.setReg_heapMax (r : Reg) (v : Nat) : (s.setReg r v).heapMax = s.heapMax := rfl
@[simp] theorem State.setReg_live (r : Reg) (v : Nat) : (s.setReg r v).live = s.live := rfl
@[simp] theorem State.setReg_host (r : Reg) (v : Nat) : (s.setReg r v).host = s.host := rfl
@[simp] theorem State.setReg_trace (r : Reg) (v : Nat) : (s.setReg r v).trace = s.trace := rfl

@[simp] theorem State.setShiftCarry_x (c : Nat) : (s.setShiftCarry c).x = s.x := rfl
@[simp] theorem State.setShiftCarry_cmdseq (c : Nat) : (s.setShiftCarry c).cmdseq = s.cmdseq := rfl
@[simp] theorem State.setShiftCarry_fault (c : Nat) : (s.setShiftCarry c).fault = s.fault := rfl
@[simp] theorem State.setShiftCarry_code (c : Nat) : (s.setShiftCarry c).code = s.code := rfl
@[simp] theorem State.setShiftCarry_faultCmd (c : Nat) : (s.setShiftCarry c).faultCmd = s.faultCmd := rfl
@[simp] theorem State.setShiftCarry_faultInfo (c : Nat) : (s.setShiftCarry c).faultInfo = s.faultInfo := rfl
@[simp] theorem State.setShiftCarry_flagV (c : Nat) : (s.setShiftCarry c).flagV = decide (c ≠ 0) := rfl
@[simp] theorem State.setShiftCarry_carryLo (c : Nat) : (s.setShiftCarry c).carryLo = BitVec.ofNat 64 c := rfl
@[simp] theorem State.setShiftCarry_carryHi (c : Nat) : (s.setShiftCarry c).carryHi = 0 := rfl
@[simp] theorem State.setShiftCarry_init (c : Nat) : (s.setShiftCarry c).init = s.init := rfl
@[simp] theorem State.setShiftCarry_cap (c : Nat) : (s.setShiftCarry c).cap = s.cap := rfl
@[simp] theorem State.setShiftCarry_mem (c : Nat) : (s.setShiftCarry c).mem = s.mem := rfl
@[simp] theorem State.setShiftCarry_bin (c : Nat) : (s.setShiftCarry c).bin = s.bin := rfl
@[simp] theorem State.setShiftCarry_large (c : Nat) : (s.setShiftCarry c).large = s.large := rfl
@[simp] theorem State.setShiftCarry_bump (c : Nat) : (s.setShiftCarry c).bump = s.bump := rfl
@[simp] theorem State.setShiftCarry_heapMax (c : Nat) : (s.setShiftCarry c).heapMax = s.heapMax := rfl
@[simp] theorem State.setShiftCarry_live (c : Nat) : (s.setShiftCarry c).live = s.live := rfl
@[simp] theorem State.setShiftCarry_host (c : Nat) : (s.setShiftCarry c).host = s.host := rfl
@[simp] theorem State.setShiftCarry_trace (c : Nat) : (s.setShiftCarry c).trace = s.trace := rfl

@[simp] theorem State.setLimbCarry_x (c : Nat) : (s.setLimbCarry c).x = s.x := rfl
@[simp] theorem State.setLimbCarry_cmdseq (c : Nat) : (s.setLimbCarry c).cmdseq = s.cmdseq := rfl
@[simp] theorem State.setLimbCarry_fault (c : Nat) : (s.setLimbCarry c).fault = s.fault := rfl
@[simp] theorem State.setLimbCarry_code (c : Nat) : (s.setLimbCarry c).code = s.code := rfl
@[simp] theorem State.setLimbCarry_faultCmd (c : Nat) : (s.setLimbCarry c).faultCmd = s.faultCmd := rfl
@[simp] theorem State.setLimbCarry_faultInfo (c : Nat) : (s.setLimbCarry c).faultInfo = s.faultInfo := rfl
@[simp] theorem State.setLimbCarry_flagV (c : Nat) : (s.setLimbCarry c).flagV = decide (c = 1) := rfl
@[simp] theorem State.setLimbCarry_carryLo (c : Nat) : (s.setLimbCarry c).carryLo = BitVec.ofNat 64 c := rfl
@[simp] theorem State.setLimbCarry_carryHi (c : Nat) : (s.setLimbCarry c).carryHi = 0 := rfl
@[simp] theorem State.setLimbCarry_init (c : Nat) : (s.setLimbCarry c).init = s.init := rfl
@[simp] theorem State.setLimbCarry_cap (c : Nat) : (s.setLimbCarry c).cap = s.cap := rfl
@[simp] theorem State.setLimbCarry_mem (c : Nat) : (s.setLimbCarry c).mem = s.mem := rfl
@[simp] theorem State.setLimbCarry_bin (c : Nat) : (s.setLimbCarry c).bin = s.bin := rfl
@[simp] theorem State.setLimbCarry_large (c : Nat) : (s.setLimbCarry c).large = s.large := rfl
@[simp] theorem State.setLimbCarry_bump (c : Nat) : (s.setLimbCarry c).bump = s.bump := rfl
@[simp] theorem State.setLimbCarry_heapMax (c : Nat) : (s.setLimbCarry c).heapMax = s.heapMax := rfl
@[simp] theorem State.setLimbCarry_live (c : Nat) : (s.setLimbCarry c).live = s.live := rfl
@[simp] theorem State.setLimbCarry_host (c : Nat) : (s.setLimbCarry c).host = s.host := rfl
@[simp] theorem State.setLimbCarry_trace (c : Nat) : (s.setLimbCarry c).trace = s.trace := rfl

@[simp] theorem State.setSpill_x (sp : Nat) : (s.setSpill sp).x = s.x := rfl
@[simp] theorem State.setSpill_cmdseq (sp : Nat) : (s.setSpill sp).cmdseq = s.cmdseq := rfl
@[simp] theorem State.setSpill_fault (sp : Nat) : (s.setSpill sp).fault = s.fault := rfl
@[simp] theorem State.setSpill_code (sp : Nat) : (s.setSpill sp).code = s.code := rfl
@[simp] theorem State.setSpill_faultCmd (sp : Nat) : (s.setSpill sp).faultCmd = s.faultCmd := rfl
@[simp] theorem State.setSpill_faultInfo (sp : Nat) : (s.setSpill sp).faultInfo = s.faultInfo := rfl
@[simp] theorem State.setSpill_flagV (sp : Nat) : (s.setSpill sp).flagV = decide (sp ≠ 0) := rfl
@[simp] theorem State.setSpill_carryLo (sp : Nat) : (s.setSpill sp).carryLo = BitVec.ofNat 64 (sp % 2 ^ 64) := rfl
@[simp] theorem State.setSpill_carryHi (sp : Nat) : (s.setSpill sp).carryHi = BitVec.ofNat 64 (sp / 2 ^ 64) := rfl
@[simp] theorem State.setSpill_init (sp : Nat) : (s.setSpill sp).init = s.init := rfl
@[simp] theorem State.setSpill_cap (sp : Nat) : (s.setSpill sp).cap = s.cap := rfl
@[simp] theorem State.setSpill_mem (sp : Nat) : (s.setSpill sp).mem = s.mem := rfl
@[simp] theorem State.setSpill_bin (sp : Nat) : (s.setSpill sp).bin = s.bin := rfl
@[simp] theorem State.setSpill_large (sp : Nat) : (s.setSpill sp).large = s.large := rfl
@[simp] theorem State.setSpill_bump (sp : Nat) : (s.setSpill sp).bump = s.bump := rfl
@[simp] theorem State.setSpill_heapMax (sp : Nat) : (s.setSpill sp).heapMax = s.heapMax := rfl
@[simp] theorem State.setSpill_live (sp : Nat) : (s.setSpill sp).live = s.live := rfl
@[simp] theorem State.setSpill_host (sp : Nat) : (s.setSpill sp).host = s.host := rfl
@[simp] theorem State.setSpill_trace (sp : Nat) : (s.setSpill sp).trace = s.trace := rfl

@[simp] theorem State.addLive_x (p : Nat) : (s.addLive p).x = s.x := rfl
@[simp] theorem State.addLive_cmdseq (p : Nat) : (s.addLive p).cmdseq = s.cmdseq := rfl
@[simp] theorem State.addLive_fault (p : Nat) : (s.addLive p).fault = s.fault := rfl
@[simp] theorem State.addLive_code (p : Nat) : (s.addLive p).code = s.code := rfl
@[simp] theorem State.addLive_faultCmd (p : Nat) : (s.addLive p).faultCmd = s.faultCmd := rfl
@[simp] theorem State.addLive_faultInfo (p : Nat) : (s.addLive p).faultInfo = s.faultInfo := rfl
@[simp] theorem State.addLive_flagV (p : Nat) : (s.addLive p).flagV = s.flagV := rfl
@[simp] theorem State.addLive_carryLo (p : Nat) : (s.addLive p).carryLo = s.carryLo := rfl
@[simp] theorem State.addLive_carryHi (p : Nat) : (s.addLive p).carryHi = s.carryHi := rfl
@[simp] theorem State.addLive_init (p : Nat) : (s.addLive p).init = s.init := rfl
@[simp] theorem State.addLive_cap (p : Nat) : (s.addLive p).cap = s.cap := rfl
@[simp] theorem State.addLive_mem (p : Nat) : (s.addLive p).mem = s.mem := rfl
@[simp] theorem State.addLive_bin (p : Nat) : (s.addLive p).bin = s.bin := rfl
@[simp] theorem State.addLive_large (p : Nat) : (s.addLive p).large = s.large := rfl
@[simp] theorem State.addLive_bump (p : Nat) : (s.addLive p).bump = s.bump := rfl
@[simp] theorem State.addLive_heapMax (p : Nat) : (s.addLive p).heapMax = s.heapMax := rfl
@[simp] theorem State.addLive_live (p : Nat) : (s.addLive p).live = insertAddr p s.live := rfl
@[simp] theorem State.addLive_host (p : Nat) : (s.addLive p).host = s.host := rfl
@[simp] theorem State.addLive_trace (p : Nat) : (s.addLive p).trace = s.trace := rfl

@[simp] theorem State.removeLive_x (p : Nat) : (s.removeLive p).x = s.x := rfl
@[simp] theorem State.removeLive_cmdseq (p : Nat) : (s.removeLive p).cmdseq = s.cmdseq := rfl
@[simp] theorem State.removeLive_fault (p : Nat) : (s.removeLive p).fault = s.fault := rfl
@[simp] theorem State.removeLive_code (p : Nat) : (s.removeLive p).code = s.code := rfl
@[simp] theorem State.removeLive_faultCmd (p : Nat) : (s.removeLive p).faultCmd = s.faultCmd := rfl
@[simp] theorem State.removeLive_faultInfo (p : Nat) : (s.removeLive p).faultInfo = s.faultInfo := rfl
@[simp] theorem State.removeLive_flagV (p : Nat) : (s.removeLive p).flagV = s.flagV := rfl
@[simp] theorem State.removeLive_carryLo (p : Nat) : (s.removeLive p).carryLo = s.carryLo := rfl
@[simp] theorem State.removeLive_carryHi (p : Nat) : (s.removeLive p).carryHi = s.carryHi := rfl
@[simp] theorem State.removeLive_init (p : Nat) : (s.removeLive p).init = s.init := rfl
@[simp] theorem State.removeLive_cap (p : Nat) : (s.removeLive p).cap = s.cap := rfl
@[simp] theorem State.removeLive_mem (p : Nat) : (s.removeLive p).mem = s.mem := rfl
@[simp] theorem State.removeLive_bin (p : Nat) : (s.removeLive p).bin = s.bin := rfl
@[simp] theorem State.removeLive_large (p : Nat) : (s.removeLive p).large = s.large := rfl
@[simp] theorem State.removeLive_bump (p : Nat) : (s.removeLive p).bump = s.bump := rfl
@[simp] theorem State.removeLive_heapMax (p : Nat) : (s.removeLive p).heapMax = s.heapMax := rfl
@[simp] theorem State.removeLive_live (p : Nat) : (s.removeLive p).live = s.live.filter fun q => q ≠ p := rfl
@[simp] theorem State.removeLive_host (p : Nat) : (s.removeLive p).host = s.host := rfl
@[simp] theorem State.removeLive_trace (p : Nat) : (s.removeLive p).trace = s.trace := rfl

@[simp] theorem State.enterFault_x (w : CmdWord) (r : Raise) : (s.enterFault w r).x = s.x := rfl
@[simp] theorem State.enterFault_cmdseq (w : CmdWord) (r : Raise) : (s.enterFault w r).cmdseq = s.cmdseq := rfl
@[simp] theorem State.enterFault_fault (w : CmdWord) (r : Raise) : (s.enterFault w r).fault = true := rfl
@[simp] theorem State.enterFault_code (w : CmdWord) (r : Raise) : (s.enterFault w r).code = r.kind.number := rfl
@[simp] theorem State.enterFault_faultCmd (w : CmdWord) (r : Raise) : (s.enterFault w r).faultCmd = w := rfl
@[simp] theorem State.enterFault_faultInfo (w : CmdWord) (r : Raise) : (s.enterFault w r).faultInfo = BitVec.ofNat 64 r.info := rfl
@[simp] theorem State.enterFault_flagV (w : CmdWord) (r : Raise) : (s.enterFault w r).flagV = s.flagV := rfl
@[simp] theorem State.enterFault_carryLo (w : CmdWord) (r : Raise) : (s.enterFault w r).carryLo = s.carryLo := rfl
@[simp] theorem State.enterFault_carryHi (w : CmdWord) (r : Raise) : (s.enterFault w r).carryHi = s.carryHi := rfl
@[simp] theorem State.enterFault_init (w : CmdWord) (r : Raise) : (s.enterFault w r).init = s.init := rfl
@[simp] theorem State.enterFault_cap (w : CmdWord) (r : Raise) : (s.enterFault w r).cap = s.cap := rfl
@[simp] theorem State.enterFault_mem (w : CmdWord) (r : Raise) : (s.enterFault w r).mem = s.mem := rfl
@[simp] theorem State.enterFault_bin (w : CmdWord) (r : Raise) : (s.enterFault w r).bin = s.bin := rfl
@[simp] theorem State.enterFault_large (w : CmdWord) (r : Raise) : (s.enterFault w r).large = s.large := rfl
@[simp] theorem State.enterFault_bump (w : CmdWord) (r : Raise) : (s.enterFault w r).bump = s.bump := rfl
@[simp] theorem State.enterFault_heapMax (w : CmdWord) (r : Raise) : (s.enterFault w r).heapMax = s.heapMax := rfl
@[simp] theorem State.enterFault_live (w : CmdWord) (r : Raise) : (s.enterFault w r).live = s.live := rfl
@[simp] theorem State.enterFault_host (w : CmdWord) (r : Raise) : (s.enterFault w r).host = s.host := rfl
@[simp] theorem State.enterFault_trace (w : CmdWord) (r : Raise) : (s.enterFault w r).trace = s.trace := rfl

@[simp] theorem State.clearFault_x : (s.clearFault).x = s.x := rfl
@[simp] theorem State.clearFault_cmdseq : (s.clearFault).cmdseq = s.cmdseq := rfl
@[simp] theorem State.clearFault_fault : (s.clearFault).fault = false := rfl
@[simp] theorem State.clearFault_code : (s.clearFault).code = 0 := rfl
@[simp] theorem State.clearFault_faultCmd : (s.clearFault).faultCmd = 0 := rfl
@[simp] theorem State.clearFault_faultInfo : (s.clearFault).faultInfo = 0 := rfl
@[simp] theorem State.clearFault_flagV : (s.clearFault).flagV = s.flagV := rfl
@[simp] theorem State.clearFault_carryLo : (s.clearFault).carryLo = s.carryLo := rfl
@[simp] theorem State.clearFault_carryHi : (s.clearFault).carryHi = s.carryHi := rfl
@[simp] theorem State.clearFault_init : (s.clearFault).init = s.init := rfl
@[simp] theorem State.clearFault_cap : (s.clearFault).cap = s.cap := rfl
@[simp] theorem State.clearFault_mem : (s.clearFault).mem = s.mem := rfl
@[simp] theorem State.clearFault_bin : (s.clearFault).bin = s.bin := rfl
@[simp] theorem State.clearFault_large : (s.clearFault).large = s.large := rfl
@[simp] theorem State.clearFault_bump : (s.clearFault).bump = s.bump := rfl
@[simp] theorem State.clearFault_heapMax : (s.clearFault).heapMax = s.heapMax := rfl
@[simp] theorem State.clearFault_live : (s.clearFault).live = s.live := rfl
@[simp] theorem State.clearFault_host : (s.clearFault).host = s.host := rfl
@[simp] theorem State.clearFault_trace : (s.clearFault).trace = s.trace := rfl

@[simp] theorem State.complete_x : (s.complete).x = s.x := rfl
@[simp] theorem State.complete_cmdseq : (s.complete).cmdseq = s.cmdseq + 1 := rfl
@[simp] theorem State.complete_fault : (s.complete).fault = s.fault := rfl
@[simp] theorem State.complete_code : (s.complete).code = s.code := rfl
@[simp] theorem State.complete_faultCmd : (s.complete).faultCmd = s.faultCmd := rfl
@[simp] theorem State.complete_faultInfo : (s.complete).faultInfo = s.faultInfo := rfl
@[simp] theorem State.complete_flagV : (s.complete).flagV = s.flagV := rfl
@[simp] theorem State.complete_carryLo : (s.complete).carryLo = s.carryLo := rfl
@[simp] theorem State.complete_carryHi : (s.complete).carryHi = s.carryHi := rfl
@[simp] theorem State.complete_init : (s.complete).init = s.init := rfl
@[simp] theorem State.complete_cap : (s.complete).cap = s.cap := rfl
@[simp] theorem State.complete_mem : (s.complete).mem = s.mem := rfl
@[simp] theorem State.complete_bin : (s.complete).bin = s.bin := rfl
@[simp] theorem State.complete_large : (s.complete).large = s.large := rfl
@[simp] theorem State.complete_bump : (s.complete).bump = s.bump := rfl
@[simp] theorem State.complete_heapMax : (s.complete).heapMax = s.heapMax := rfl
@[simp] theorem State.complete_live : (s.complete).live = s.live := rfl
@[simp] theorem State.complete_host : (s.complete).host = s.host := rfl
@[simp] theorem State.complete_trace : (s.complete).trace = s.trace := rfl

@[simp] theorem State.observe_x (m : HostMove) (v : Option Word) : (s.observe m v).x = s.x := rfl
@[simp] theorem State.observe_cmdseq (m : HostMove) (v : Option Word) : (s.observe m v).cmdseq = s.cmdseq := rfl
@[simp] theorem State.observe_fault (m : HostMove) (v : Option Word) : (s.observe m v).fault = s.fault := rfl
@[simp] theorem State.observe_code (m : HostMove) (v : Option Word) : (s.observe m v).code = s.code := rfl
@[simp] theorem State.observe_faultCmd (m : HostMove) (v : Option Word) : (s.observe m v).faultCmd = s.faultCmd := rfl
@[simp] theorem State.observe_faultInfo (m : HostMove) (v : Option Word) : (s.observe m v).faultInfo = s.faultInfo := rfl
@[simp] theorem State.observe_flagV (m : HostMove) (v : Option Word) : (s.observe m v).flagV = s.flagV := rfl
@[simp] theorem State.observe_carryLo (m : HostMove) (v : Option Word) : (s.observe m v).carryLo = s.carryLo := rfl
@[simp] theorem State.observe_carryHi (m : HostMove) (v : Option Word) : (s.observe m v).carryHi = s.carryHi := rfl
@[simp] theorem State.observe_init (m : HostMove) (v : Option Word) : (s.observe m v).init = s.init := rfl
@[simp] theorem State.observe_cap (m : HostMove) (v : Option Word) : (s.observe m v).cap = s.cap := rfl
@[simp] theorem State.observe_mem (m : HostMove) (v : Option Word) : (s.observe m v).mem = s.mem := rfl
@[simp] theorem State.observe_bin (m : HostMove) (v : Option Word) : (s.observe m v).bin = s.bin := rfl
@[simp] theorem State.observe_large (m : HostMove) (v : Option Word) : (s.observe m v).large = s.large := rfl
@[simp] theorem State.observe_bump (m : HostMove) (v : Option Word) : (s.observe m v).bump = s.bump := rfl
@[simp] theorem State.observe_heapMax (m : HostMove) (v : Option Word) : (s.observe m v).heapMax = s.heapMax := rfl
@[simp] theorem State.observe_live (m : HostMove) (v : Option Word) : (s.observe m v).live = s.live := rfl
@[simp] theorem State.observe_host (m : HostMove) (v : Option Word) : (s.observe m v).host = s.host := rfl
@[simp] theorem State.observe_trace (m : HostMove) (v : Option Word) : (s.observe m v).trace = ⟨m, v⟩ :: s.trace := rfl

@[simp] theorem State.setHead_bin_bin (k : Fin 16) (p : Nat) : (s.setHead (.bin k) p).bin = s.bin.set k.val (BitVec.ofNat 64 p) := rfl
@[simp] theorem State.setHead_bin_large (k : Fin 16) (p : Nat) : (s.setHead (.bin k) p).large = s.large := rfl
@[simp] theorem State.setHead_large_large (p : Nat) : (s.setHead .large p).large = BitVec.ofNat 64 p := rfl
@[simp] theorem State.setHead_large_bin (p : Nat) : (s.setHead .large p).bin = s.bin := rfl
@[simp] theorem State.setHead_x (l : FreeList) (p : Nat) : (s.setHead l p).x = s.x := by cases l <;> rfl
@[simp] theorem State.setHead_cmdseq (l : FreeList) (p : Nat) : (s.setHead l p).cmdseq = s.cmdseq := by cases l <;> rfl
@[simp] theorem State.setHead_fault (l : FreeList) (p : Nat) : (s.setHead l p).fault = s.fault := by cases l <;> rfl
@[simp] theorem State.setHead_code (l : FreeList) (p : Nat) : (s.setHead l p).code = s.code := by cases l <;> rfl
@[simp] theorem State.setHead_faultCmd (l : FreeList) (p : Nat) : (s.setHead l p).faultCmd = s.faultCmd := by cases l <;> rfl
@[simp] theorem State.setHead_faultInfo (l : FreeList) (p : Nat) : (s.setHead l p).faultInfo = s.faultInfo := by cases l <;> rfl
@[simp] theorem State.setHead_flagV (l : FreeList) (p : Nat) : (s.setHead l p).flagV = s.flagV := by cases l <;> rfl
@[simp] theorem State.setHead_carryLo (l : FreeList) (p : Nat) : (s.setHead l p).carryLo = s.carryLo := by cases l <;> rfl
@[simp] theorem State.setHead_carryHi (l : FreeList) (p : Nat) : (s.setHead l p).carryHi = s.carryHi := by cases l <;> rfl
@[simp] theorem State.setHead_init (l : FreeList) (p : Nat) : (s.setHead l p).init = s.init := by cases l <;> rfl
@[simp] theorem State.setHead_cap (l : FreeList) (p : Nat) : (s.setHead l p).cap = s.cap := by cases l <;> rfl
@[simp] theorem State.setHead_mem (l : FreeList) (p : Nat) : (s.setHead l p).mem = s.mem := by cases l <;> rfl
@[simp] theorem State.setHead_bump (l : FreeList) (p : Nat) : (s.setHead l p).bump = s.bump := by cases l <;> rfl
@[simp] theorem State.setHead_heapMax (l : FreeList) (p : Nat) : (s.setHead l p).heapMax = s.heapMax := by cases l <;> rfl
@[simp] theorem State.setHead_live (l : FreeList) (p : Nat) : (s.setHead l p).live = s.live := by cases l <;> rfl
@[simp] theorem State.setHead_host (l : FreeList) (p : Nat) : (s.setHead l p).host = s.host := by cases l <;> rfl
@[simp] theorem State.setHead_trace (l : FreeList) (p : Nat) : (s.setHead l p).trace = s.trace := by cases l <;> rfl

/-- The register a write names holds the written value mod 2^64. -/
theorem State.setReg_same (r : Reg) (v : Nat) : (s.setReg r v).x[r] = BitVec.ofNat 64 v := by
  simp

/-- A register write leaves every other register. -/
theorem State.setReg_other (r q : Reg) (v : Nat) (h : q ≠ r) : (s.setReg r v).x[q] = s.x[q] := by
  have : r.val ≠ q.val := fun e => h (Fin.ext e.symm)
  simp [this]

/-- A list head written reads back. -/
theorem State.head_setHead_same (l : FreeList) (p : Nat) (h : p < 2 ^ 64) : (s.setHead l p).head l = p := by
  cases l <;> simp [State.head] <;> exact h

/-- A list head written leaves every other head. -/
theorem State.head_setHead_other (l k : FreeList) (p : Nat) (h : k ≠ l) : (s.setHead l p).head k = s.head k := by
  cases l <;> cases k <;> simp_all [State.head, Vector.getElem_set]
  rename_i i j
  rw [if_neg fun e => h (Fin.ext e.symm)]

/-- A block that accepts commands is unchanged by being made ready for one. -/
theorem State.acceptingCommands_of_accepting (h : s.fault = false) : s.acceptingCommands = s := by
  simp [State.acceptingCommands, h]

end Sys2Proof.Machine
end

