-- ==== Sys2Proof/Laws/Ops.lean ====
section
/-! SUPPORT. What each shared operation can do, said once: tests, memory accesses, growth, and running a command. Later proofs cite
these and do not unfold the operations. -/

namespace Sys2Proof.Machine

/-! ### Sequencing -/

@[simp] theorem ok_bind {α β : Type} (a : α) (f : α → Except Raise β) : (Except.ok a >>= f) = f a := rfl

@[simp] theorem error_bind {α β : Type} (e : Raise) (f : α → Except Raise β) : (Except.error e >>= f) = Except.error e := rfl

@[simp] theorem pure_eq_ok {α : Type} (a : α) : (pure a : Except Raise α) = Except.ok a := rfl

/-- A sequence that answers a value went through its first part. -/
theorem bind_eq_ok {α β : Type} {x : Except Raise α} {f : α → Except Raise β} {b : β} :
    (x >>= f) = .ok b ↔ ∃ a, x = .ok a ∧ f a = .ok b := by
  cases x with
  | ok a => simp
  | error e => simp

/-- A sequence raises what its first part raises, or what the rest raises after it. -/
theorem bind_eq_error {α β : Type} {x : Except Raise α} {f : α → Except Raise β} {e : Raise} :
    (x >>= f) = .error e ↔ x = .error e ∨ ∃ a, x = .ok a ∧ f a = .error e := by
  cases x with
  | ok a => simp
  | error e' => simp

theorem require_of {c : Prop} [Decidable c] (h : c) (kind : FaultKind) (info : Nat) : require c kind info = .ok () := if_pos h

theorem require_of_not {c : Prop} [Decidable c] (h : ¬c) (kind : FaultKind) (info : Nat) :
    require c kind info = .error ⟨kind, info⟩ := if_neg h

@[simp] theorem require_eq_ok {c : Prop} [Decidable c] {kind : FaultKind} {info : Nat} {u : Unit} :
    require c kind info = .ok u ↔ c := by
  unfold require
  split <;> simp [*]

@[simp] theorem require_eq_error {c : Prop} [Decidable c] {kind : FaultKind} {info : Nat} {e : Raise} :
    require c kind info = .error e ↔ ¬c ∧ e = ⟨kind, info⟩ := by
  unfold require
  split <;> simp [*, eq_comm]

/-! ### Readings -/

/-- A register read as a natural and then as signed is the register read as signed. -/
@[simp] theorem sgn64_reg (s : State) (r : Reg) : sgn64 (s.reg r) = s.regInt r := by
  simp [sgn64, State.reg, State.regInt]

/-- Below 2^63 the signed reading of a natural is the natural. -/
theorem sgn64_of_lt {v : Nat} (h : v < 2 ^ 63) : sgn64 v = v := by
  simp only [sgn64, BitVec.toInt_eq_toNat_cond, BitVec.toNat_ofNat]
  rw [Nat.mod_eq_of_lt (by omega)]
  split <;> omega

/-- A natural below 2^64 whose signed reading is not negative is below 2^63 and is that reading. -/
theorem sgn64_nonneg {v : Nat} (hv : v < 2 ^ 64) (h : 0 ≤ sgn64 v) : v < 2 ^ 63 ∧ sgn64 v = v := by
  simp only [sgn64, BitVec.toInt_eq_toNat_cond, BitVec.toNat_ofNat] at h ⊢
  rw [Nat.mod_eq_of_lt hv] at h ⊢
  split at h <;> rename_i hc
  · rw [if_pos hc]; omega
  · omega

theorem State.reg_lt (s : State) (r : Reg) : s.reg r < 2 ^ 64 := s.x[r].isLt

theorem State.regInt_lt (s : State) (r : Reg) : s.regInt r < 2 ^ 63 := by
  have := BitVec.toInt_lt (x := s.x[r])
  simpa [State.regInt] using this

/-- A register whose signed reading is not negative holds that reading. -/
theorem State.regInt_nonneg (s : State) (r : Reg) (h : 0 ≤ s.regInt r) : s.regInt r = s.reg r := by
  have := sgn64_nonneg (s.reg_lt r) (by simpa using h)
  simpa using this.2

/-! ### Memory accesses -/

theorem Memory.natAt_zero (m : Memory) (a : Nat) : m.natAt a 0 = 0 := rfl

theorem Memory.natAt_succ (m : Memory) (a n : Nat) : m.natAt a (n + 1) = (m.read a).toNat + 256 * m.natAt (a + 1) n := by
  simp only [Memory.natAt, Finset.sum_range_succ', Nat.pow_zero, Nat.mul_one, Nat.add_zero, Finset.mul_sum]
  rw [Nat.add_comm]
  congr 1
  refine Finset.sum_congr rfl fun k _ => ?_
  rw [Nat.pow_succ, show a + 1 + k = a + (k + 1) by omega]
  ring

/-- The natural `MemRead` returns is the little-endian reading of the bytes. -/
theorem leNat_load (m : Memory) (a n : Nat) : leNat (m.load a n) = m.natAt a n := by
  induction n generalizing a with
  | zero => rfl
  | succ n ih =>
    have e : m.load a (n + 1) = m.read a :: m.load (a + 1) n := by
      simp only [Memory.load, List.range_succ_eq_map, List.map_cons, List.map_map, Nat.add_zero]
      congr 1
      refine List.map_congr_left fun k _ => ?_
      show m.read (a + (k + 1)) = m.read (a + 1 + k)
      congr 1
      omega
    rw [e, leNat, ih, Memory.natAt_succ]

theorem Memory.natAt_lt (m : Memory) (a n : Nat) : m.natAt a n < 256 ^ n := by
  rw [← leNat_load]
  have := leNat_lt (m.load a n)
  simpa [Memory.load] using this

/-- Memories that agree on the bytes agree on the natural held in them. -/
theorem Memory.natAt_congr {m m' : Memory} {a n : Nat} (h : ∀ k < n, m'.read (a + k) = m.read (a + k)) :
    m'.natAt a n = m.natAt a n :=
  Finset.sum_congr rfl fun k hk => by rw [h k (Finset.mem_range.1 hk)]

/-- Storing the bytes of a natural writes it as `MemWrite` says. -/
theorem Memory.wrote_store (m : Memory) (a n v : Nat) : m.Wrote (m.store a (leBytes n v)) a n v := by
  intro k
  rw [Memory.read_store]
  simp only [leBytes_length]
  split
  · rw [leBytes_getElem]
  · rfl

/-- Where a natural was written it reads back, reduced to its width. -/
theorem Memory.Wrote.natAt_same {m m' : Memory} {a n v : Nat} (h : m.Wrote m' a n v) : m'.natAt a n = v % 256 ^ n := by
  rw [← leNat_leBytes, ← leNat_load]
  congr 1
  refine List.ext_getElem (by simp [Memory.load]) fun k h1 h2 => ?_
  rw [leBytes_getElem]
  simp only [Memory.load, List.getElem_map, List.getElem_range]
  rw [h, if_pos (by simp [Memory.load] at h1; omega)]
  congr 3
  omega

/-- A natural in bytes that were not written to is as it was. -/
theorem Memory.Wrote.natAt_other {m m' : Memory} {a n v b k : Nat} (h : m.Wrote m' a n v) (hd : b + k ≤ a ∨ a + n ≤ b) :
    m'.natAt b k = m.natAt b k :=
  Memory.natAt_congr fun j hj => by rw [h, if_neg (by omega)]

theorem Memory.Wrote.read_other {m m' : Memory} {a n v b : Nat} (h : m.Wrote m' a n v) (hd : b < a ∨ a + n ≤ b) :
    m'.read b = m.read b := by rw [h, if_neg (by omega)]

/-- `MemRead` in three cases: no heap, out of range, the natural in the bytes. -/
theorem memRead_eq (s : State) (a n : Nat) :
    memRead s a n =
      if s.init = true then
        if 0 ≤ sgn64 a ∧ sgn64 a + n ≤ s.cap then .ok (s.mem.natAt (sgn64 a).toNat n) else .error ⟨.addressOutOfRange, a⟩
      else .error ⟨.heapState, a⟩ := by
  unfold memRead require
  by_cases h1 : s.init = true
  · by_cases h2 : 0 ≤ sgn64 a ∧ sgn64 a + n ≤ s.cap
    · simp only [if_pos h1, if_pos h2, ok_bind, pure_eq_ok, leNat_load]
    · simp only [if_pos h1, if_neg h2, ok_bind, error_bind]
  · simp only [if_neg h1, error_bind]

/-- A read that answers: the heap exists, the bytes are in range, and the answer is the natural in them. -/
theorem memRead_ok {s : State} {a n v : Nat} (h : memRead s a n = .ok v) :
    s.init = true ∧ 0 ≤ sgn64 a ∧ sgn64 a + n ≤ s.cap ∧ v = s.mem.natAt (sgn64 a).toNat n := by
  rw [memRead_eq] at h
  split at h
  · split at h
    · rename_i h1 h2
      simp only [Except.ok.injEq] at h
      exact ⟨h1, h2.1, h2.2, h.symm⟩
    · simp at h
  · simp at h

/-- A read below 2^63 and inside the heap answers. -/
theorem memRead_of {s : State} {a n : Nat} (hi : s.init = true) (ha : a < 2 ^ 63) (h : a + n ≤ s.cap) :
    memRead s a n = .ok (s.mem.natAt a n) := by
  rw [memRead_eq, if_pos hi, sgn64_of_lt ha, if_pos (by omega)]
  simp

/-- `MemWrite` in three cases: no heap, out of range, the bytes stored and nothing else. -/
theorem memWrite_eq (s : State) (a n v : Nat) :
    memWrite s a n v =
      if s.init = true then
        if 0 ≤ sgn64 a ∧ sgn64 a + n ≤ s.cap then .ok { s with mem := s.mem.store (sgn64 a).toNat (leBytes n v) }
        else .error ⟨.addressOutOfRange, a⟩
      else .error ⟨.heapState, a⟩ := by
  unfold memWrite require
  by_cases h1 : s.init = true
  · by_cases h2 : 0 ≤ sgn64 a ∧ sgn64 a + n ≤ s.cap
    · simp only [if_pos h1, if_pos h2, ok_bind, pure_eq_ok]
    · simp only [if_pos h1, if_neg h2, ok_bind, error_bind]
  · simp only [if_neg h1, error_bind]

/-- A write that answers: the heap exists, the bytes are in range, they are written, and nothing else changes. -/
theorem memWrite_ok {s t : State} {a n v : Nat} (h : memWrite s a n v = .ok t) :
    s.init = true ∧ 0 ≤ sgn64 a ∧ sgn64 a + n ≤ s.cap ∧ t = { s with mem := s.mem.store (sgn64 a).toNat (leBytes n v) } := by
  rw [memWrite_eq] at h
  split at h
  · split at h
    · rename_i h1 h2
      simp only [Except.ok.injEq] at h
      exact ⟨h1, h2.1, h2.2, h.symm⟩
    · simp at h
  · simp at h

/-- A write below 2^63 and inside the heap answers. -/
theorem memWrite_of {s : State} {a n v : Nat} (hi : s.init = true) (ha : a < 2 ^ 63) (h : a + n ≤ s.cap) :
    memWrite s a n v = .ok { s with mem := s.mem.store a (leBytes n v) } := by
  rw [memWrite_eq, if_pos hi, sgn64_of_lt ha, if_pos (by omega)]
  simp

/-- `GrowTo` in two cases: beyond HEAP_MAX_BYTES, or the new capacity with its new bytes 0. -/
theorem growTo_eq (s : State) (m : Nat) :
    growTo s m =
      if m ≤ s.heapMax then
        .ok { s with mem := s.mem.clear s.cap (min s.heapMax (max m (2 * s.cap))), cap := min s.heapMax (max m (2 * s.cap)) }
      else .error ⟨.outOfMemory, m⟩ := by
  unfold growTo require
  split <;> rfl

/-- Room is made in three cases: there is enough, beyond HEAP_MAX_BYTES, or growth. -/
theorem ensureCapacity_eq (s : State) (m : Nat) :
    ensureCapacity s m =
      if m ≤ s.cap then .ok s
      else if m ≤ s.heapMax then
        .ok { s with mem := s.mem.clear s.cap (min s.heapMax (max m (2 * s.cap))), cap := min s.heapMax (max m (2 * s.cap)) }
      else .error ⟨.outOfMemory, m⟩ := by
  unfold ensureCapacity
  rw [growTo_eq]
  by_cases h : s.cap < m
  · rw [if_pos h, if_neg (show ¬m ≤ s.cap by omega)]
  · rw [if_neg h, if_pos (show m ≤ s.cap by omega)]

/-! ### LIVE -/

/-- An address put into LIVE joins the addresses there. -/
theorem mem_insertAddr (p q : Nat) (l : List Nat) : q ∈ insertAddr p l ↔ q = p ∨ q ∈ l := by
  induction l with
  | nil => simp [insertAddr]
  | cons a l ih =>
    simp only [insertAddr]
    split
    · simp
    · split
      · subst_vars; simp
      · simp [ih]; tauto

/-- LIVE stays strictly rising when an address is put into it. -/
theorem insertAddr_sorted (p : Nat) (l : List Nat) (h : l.Pairwise (· < ·)) : (insertAddr p l).Pairwise (· < ·) := by
  induction l with
  | nil => simp [insertAddr]
  | cons a l ih =>
    obtain ⟨h1, h2⟩ := List.pairwise_cons.1 h
    simp only [insertAddr]
    split
    · rename_i hlt
      exact List.pairwise_cons.2 ⟨fun b hb => by
        rcases List.mem_cons.1 hb with rfl | hb
        · exact hlt
        · exact Nat.lt_trans hlt (h1 b hb), h⟩
    · split
      · exact h
      · refine List.pairwise_cons.2 ⟨fun b hb => ?_, ih h2⟩
        rcases (mem_insertAddr p b l).1 hb with rfl | hb
        · omega
        · exact h1 b hb

/-! ### Running a command -/

/-- A pseudocode that ends without a raise: the command completes and CMDSEQ advances. -/
theorem command_ok {i : Instr} {s t : State} (hF : s.fault = false) : command i s (.ok t) = .next { t with cmdseq := t.cmdseq + 1 } := by
  simp [command, execute, hF, State.complete]

/-- A pseudocode that raises: the fault is latched and nothing else changes. -/
theorem command_error {i : Instr} {s : State} {r : Raise} (hF : s.fault = false) :
    command i s (.error r) = .next (s.latched (encode i) r.kind.number.toNat r.info) := by
  simp [command, execute, hF, State.enterFault, State.latched]

/-- While a fault is latched a command changes nothing. -/
theorem command_halted {i : Instr} {s : State} {body : Except Raise State} (hF : s.fault = true) : command i s body = .next s := by
  simp [command, execute, hF]

/-- What a command answers is always a next state: itself while halted, the completed state, or the latched one. -/
theorem command_next {i : Instr} {s t : State} {body : Except Raise State} (h : command i s body = .next t) :
    (s.fault = true ∧ t = s) ∨
    (s.fault = false ∧ ∃ u, body = .ok u ∧ t = { u with cmdseq := u.cmdseq + 1 }) ∨
    (s.fault = false ∧ ∃ r, body = .error r ∧ t = s.latched (encode i) r.kind.number.toNat r.info) := by
  cases hF : s.fault with
  | true =>
    rw [command_halted hF] at h
    exact .inl ⟨rfl, (Host.Outcome.next.inj h).symm⟩
  | false =>
    cases body with
    | ok u =>
      rw [command_ok hF] at h
      exact .inr (.inl ⟨rfl, u, rfl, (Host.Outcome.next.inj h).symm⟩)
    | error r =>
      rw [command_error hF] at h
      exact .inr (.inr ⟨rfl, r, rfl, (Host.Outcome.next.inj h).symm⟩)

/-! ### Reading a command's tests off its pseudocode -/

/-- A pseudocode that begins with a `require` has that test first. -/
theorem Tests.require {i : Instr} {s : State} {c : Prop} [Decidable c] {kind : FaultKind} {info : Nat} {rest : Unit → Except Raise State}
    {tests : List (Prop × Nat × Nat)} {done : Prop} (hF : s.fault = false)
    (h : exec i s = command i s (Machine.require c kind info >>= rest))
    (next : c → exec i s = command i s (rest ()) → Tests i s tests done) :
    Tests i s ((c, kind.number.toNat, info) :: tests) done := by
  refine ⟨fun hc => ?_, fun hc => next hc ?_⟩
  · rw [h, require_of_not hc, error_bind, command_error hF]
  · rw [h, require_of hc, ok_bind]

/-- A pseudocode that begins with a read, where the heap exists, has the range test of the read first. -/
theorem Tests.memRead {i : Instr} {s : State} {r : Reg} {n : Nat} {rest : Nat → Except Raise State}
    {tests : List (Prop × Nat × Nat)} {done : Prop} (hF : s.fault = false) (hi : s.init = true)
    (h : exec i s = command i s (Machine.memRead s (s.reg r) n >>= rest))
    (next : s.InRange r n → exec i s = command i s (rest (s.mem.natAt (s.addr r) n)) → Tests i s tests done) :
    Tests i s ((s.InRange r n, 6, s.reg r) :: tests) done := by
  rw [memRead_eq, if_pos hi, sgn64_reg] at h
  refine ⟨fun hc => ?_, fun hc => next hc ?_⟩
  · rw [h, if_neg hc, error_bind, command_error hF]; rfl
  · rw [h, if_pos hc, ok_bind]; rfl

/-- A pseudocode that begins with a write, where the heap exists, has the range test of the write first. -/
theorem Tests.memWrite {i : Instr} {s u : State} {r : Reg} {n v : Nat} {rest : State → Except Raise State}
    {tests : List (Prop × Nat × Nat)} {done : Prop} (hF : s.fault = false) (hi : s.init = true)
    (h : exec i s = command i s (Machine.memWrite s (s.reg r) n v >>= rest))
    (hu : u = { s with mem := s.mem.store (s.addr r) (leBytes n v) })
    (next : s.InRange r n → exec i s = command i s (rest u) → Tests i s tests done) :
    Tests i s ((s.InRange r n, 6, s.reg r) :: tests) done := by
  subst hu
  rw [memWrite_eq, if_pos hi, sgn64_reg] at h
  refine ⟨fun hc => ?_, fun hc => next hc ?_⟩
  · rw [h, if_neg hc, error_bind, command_error hF]; rfl
  · rw [h, if_pos hc, ok_bind]; rfl

/-- The memory of the state after reset is in canonical form. -/
theorem reset_mem_wf : State.reset.mem.wf := ⟨List.Pairwise.nil, fun c hc => by simp [State.reset] at hc⟩

end Sys2Proof.Machine
end

