-- ==== Sys2Proof/Laws/Chunks.lean ====
section
/-! SUPPORT. What each allocator procedure can do when it answers, said once: what a validated chunk is, what a search found, where it
breaks on a corrupted heap, and that no procedure touches anything but the heap's bytes, the list heads, BUMP and CAP. -/

namespace Sys2Proof.Machine

/-! ### The frame of the allocator -/

/-- `t` differs from `s` in the heap's bytes and the allocator's registers at most, and the heap was there and has not shrunk. -/
structure HeapFrame (s t : State) : Prop where
  same : t = { s with mem := t.mem, bin := t.bin, large := t.large, bump := t.bump, cap := t.cap }
  cap : s.cap ≤ t.cap
  bump : s.bump.toNat ≤ t.bump.toNat

namespace HeapFrame

theorem refl (s : State) : HeapFrame s s := ⟨rfl, Nat.le_refl _, Nat.le_refl _⟩

theorem trans {s t u : State} (h : HeapFrame s t) (k : HeapFrame t u) : HeapFrame s u := by
  refine ⟨?_, Nat.le_trans h.cap k.cap, Nat.le_trans h.bump k.bump⟩
  rw [k.same, h.same]

theorem x {s t : State} (h : HeapFrame s t) : t.x = s.x := by rw [h.same]
theorem cmdseq {s t : State} (h : HeapFrame s t) : t.cmdseq = s.cmdseq := by rw [h.same]
theorem fault {s t : State} (h : HeapFrame s t) : t.fault = s.fault := by rw [h.same]
theorem code {s t : State} (h : HeapFrame s t) : t.code = s.code := by rw [h.same]
theorem faultCmd {s t : State} (h : HeapFrame s t) : t.faultCmd = s.faultCmd := by rw [h.same]
theorem faultInfo {s t : State} (h : HeapFrame s t) : t.faultInfo = s.faultInfo := by rw [h.same]
theorem flagV {s t : State} (h : HeapFrame s t) : t.flagV = s.flagV := by rw [h.same]
theorem carryLo {s t : State} (h : HeapFrame s t) : t.carryLo = s.carryLo := by rw [h.same]
theorem carryHi {s t : State} (h : HeapFrame s t) : t.carryHi = s.carryHi := by rw [h.same]
theorem init {s t : State} (h : HeapFrame s t) : t.init = s.init := by rw [h.same]
theorem heapMax {s t : State} (h : HeapFrame s t) : t.heapMax = s.heapMax := by rw [h.same]
theorem live {s t : State} (h : HeapFrame s t) : t.live = s.live := by rw [h.same]
theorem host {s t : State} (h : HeapFrame s t) : t.host = s.host := by rw [h.same]
theorem trace {s t : State} (h : HeapFrame s t) : t.trace = s.trace := by rw [h.same]

end HeapFrame

theorem memWrite_frame {s t : State} {a n v : Nat} (h : memWrite s a n v = .ok t) : HeapFrame s t := by
  rw [(memWrite_ok h).2.2.2]
  exact ⟨rfl, Nat.le_refl _, Nat.le_refl _⟩

theorem setHead_frame (s : State) (l : FreeList) (p : Nat) : HeapFrame s (s.setHead l p) := by
  cases l <;> exact ⟨rfl, Nat.le_refl _, Nat.le_refl _⟩

theorem ensureCapacity_frame {s t : State} {m : Nat} (h : ensureCapacity s m = .ok t) : HeapFrame s t := by
  rw [ensureCapacity_eq] at h
  split at h
  · cases h; exact .refl s
  · split at h
    · cases h
      rename_i h1 h2
      exact ⟨rfl, by show s.cap ≤ min s.heapMax (max m (2 * s.cap)); omega, Nat.le_refl _⟩
    · cases h

/-- Room made is room: the capacity reaches what was asked. -/
theorem ensureCapacity_cap {s t : State} {m : Nat} (h : ensureCapacity s m = .ok t) : m ≤ t.cap := by
  rw [ensureCapacity_eq] at h
  split at h
  · cases h; assumption
  · split at h
    · cases h
      rename_i h1 h2
      show m ≤ min s.heapMax (max m (2 * s.cap))
      omega
    · cases h

/-- Both tags of a chunk written: the header, then the footer, and nothing else. -/
theorem writeTags_ok {s t : State} {p size u : Nat} (h : writeTags s p size u = .ok t) :
    ∃ s', memWrite s (p - 8) 8 (tag size u) = .ok s' ∧ memWrite s' (p + size) 8 (tag size u) = .ok t :=
  bind_eq_ok.1 h

theorem writeTags_frame {s t : State} {p size u : Nat} (h : writeTags s p size u = .ok t) : HeapFrame s t := by
  obtain ⟨s', h1, h2⟩ := writeTags_ok h
  exact (memWrite_frame h1).trans (memWrite_frame h2)

/-! ### Validated chunks (R164) -/

/-- What a chunk that passes the checks of `ReadChunk` is: its address and size are possible, it lies below BUMP, its bytes exist, and
header and footer hold the same tag of that size and that in-use bit. -/
theorem readChunk_ok {s : State} {p size u : Nat} (hp : p < 2 ^ 64) (h : readChunk s p = .ok (size, u)) :
    s.init = true ∧ p % 16 = 0 ∧ 16 ≤ p ∧ p < 2 ^ 63 ∧ 16 ≤ size ∧ size % 16 = 0 ∧ p + size + 8 ≤ s.bumpNat ∧ u < 2 ∧
      s.mem.natAt (p - 8) 8 = 2 * size + u ∧ memRead s (p - 8) 8 = .ok (2 * size + u) ∧ memRead s (p + size) 8 = .ok (2 * size + u) := by
  unfold readChunk at h
  obtain ⟨_, h1, h⟩ := bind_eq_ok.1 h
  rw [require_eq_ok] at h1
  obtain ⟨hd, h2, h⟩ := bind_eq_ok.1 h
  obtain ⟨_, h3, h⟩ := bind_eq_ok.1 h
  rw [require_eq_ok] at h3
  obtain ⟨ft, h4, h⟩ := bind_eq_ok.1 h
  obtain ⟨_, h5, h⟩ := bind_eq_ok.1 h
  rw [require_eq_ok] at h5
  simp only [pure_eq_ok, Except.ok.injEq, Prod.mk.injEq] at h
  obtain ⟨rfl, rfl⟩ := h
  have hp2 := sgn64_nonneg hp (by omega)
  have hr := memRead_ok h2
  rw [sgn64_of_lt (by omega), Int.toNat_natCast] at hr
  have e : 2 * (hd / 2) + hd % 2 = hd := Nat.div_add_mod hd 2
  exact ⟨hr.1, h1.1, by omega, hp2.1, h3.1, h3.2.1, h3.2.2, by omega, by rw [e]; exact hr.2.2.2.symm, by rw [e]; exact h2,
    by rw [e]; rw [h5] at h4; exact h4⟩

/-! ### Lists (R165 to R167) -/

theorem take_frame {s t : State} {l : FreeList} {prev p : Nat} (h : take s l prev p = .ok t) : HeapFrame s t := by
  unfold take at h
  obtain ⟨nx, -, h⟩ := bind_eq_ok.1 h
  split at h
  · cases h; exact setHead_frame ..
  · exact memWrite_frame h

theorem unlink_frame {s t : State} {l : FreeList} {p : Nat} (h : unlink s l p = .ok t) : HeapFrame s t := by
  obtain ⟨prev, -, h⟩ := bind_eq_ok.1 h
  exact take_frame h

theorem insertChunk_frame {s t : State} {p size : Nat} (h : insertChunk s p size = .ok t) : HeapFrame s t := by
  obtain ⟨s', h1, h⟩ := bind_eq_ok.1 h
  cases h
  exact (memWrite_frame h1).trans (setHead_frame ..)

/-- A chunk a search found passed the checks of `ReadChunk`, says free, and is large enough. -/
theorem findFitFrom_ok {s : State} {r steps prev p : Nat} {f : Fit} (h : findFitFrom s r steps prev p = .ok (some f)) :
    r ≤ f.size ∧ readChunk s f.addr = .ok (f.size, 0) := by
  induction steps generalizing prev p with
  | zero =>
    unfold findFitFrom at h
    split at h <;> simp at h
  | succ steps ih =>
    unfold findFitFrom at h
    split at h
    · simp at h
    · obtain ⟨⟨size, u⟩, h1, h⟩ := bind_eq_ok.1 h
      obtain ⟨_, h2, h3⟩ := bind_eq_ok.1 h
      rw [require_eq_ok] at h2
      subst h2
      split at h3
      · cases h3; exact ⟨by assumption, h1⟩
      · obtain ⟨nx, -, h4⟩ := bind_eq_ok.1 h3
        exact ih h4

theorem findFit_ok {s : State} {l : FreeList} {r : Nat} {f : Fit} (h : findFit s l r = .ok (some f)) :
    r ≤ f.size ∧ readChunk s f.addr = .ok (f.size, 0) := findFitFrom_ok h

/-! ### Placement, bump allocation, the search (R168, R172, R174) -/

theorem place_frame {s t : State} {p size r : Nat} (h : place s p size r = .ok t) : HeapFrame s t := by
  unfold place at h
  split at h
  · obtain ⟨s1, h1, h⟩ := bind_eq_ok.1 h
    obtain ⟨s2, h2, h⟩ := bind_eq_ok.1 h
    exact ((writeTags_frame h1).trans (writeTags_frame h2)).trans (insertChunk_frame h)
  · exact writeTags_frame h

theorem claim_ok {s t : State} {l : FreeList} {f : Fit} {r p : Nat} (h : claim s l f r = .ok (p, t)) :
    p = f.addr ∧ ∃ s', take s l f.prev f.addr = .ok s' ∧ place s' f.addr f.size r = .ok t := by
  obtain ⟨s1, h1, h⟩ := bind_eq_ok.1 h
  obtain ⟨s2, h2, h⟩ := bind_eq_ok.1 h
  cases h
  exact ⟨rfl, s1, h1, h2⟩

/-- What bump allocation does when it answers: room was made, the tags of a chunk of `r` bytes were written after the old BUMP, and BUMP
moved past it. -/
theorem bumpAlloc_ok {s t : State} {r p : Nat} (h : bumpAlloc s r = .ok (p, t)) :
    p = s.bumpNat + 8 ∧ ∃ s1 s2, ensureCapacity s (s.bumpNat + 16 + r) = .ok s1 ∧ writeTags s1 (s.bumpNat + 8) r 1 = .ok s2 ∧
      t = { s2 with bump := BitVec.ofNat 64 (s.bumpNat + 16 + r) } := by
  obtain ⟨s1, h1, h⟩ := bind_eq_ok.1 h
  obtain ⟨s2, h2, h⟩ := bind_eq_ok.1 h
  cases h
  exact ⟨rfl, s1, s2, h1, h2, rfl⟩

/-- The three ways an allocation can answer: a chunk of the bin of the request, a chunk of the large list, or a chunk made at BUMP. -/
theorem alloc_ok {s t : State} {n p : Nat} (h : alloc s n = .ok (p, t)) :
    (∃ f, requestSize n ≤ 1024 ∧ findFit s (listFor (requestSize n)) (requestSize n) = .ok (some f) ∧
      claim s (listFor (requestSize n)) f (requestSize n) = .ok (p, t)) ∨
    (∃ f, findFit s .large (requestSize n) = .ok (some f) ∧ claim s .large f (requestSize n) = .ok (p, t)) ∨
    bumpAlloc s (requestSize n) = .ok (p, t) := by
  have large : ∀ {r}, allocLarge s r = .ok (p, t) →
      (∃ f, findFit s .large r = .ok (some f) ∧ claim s .large f r = .ok (p, t)) ∨ bumpAlloc s r = .ok (p, t) := by
    intro r h
    obtain ⟨o, h1, h⟩ := bind_eq_ok.1 h
    cases o with
    | none => exact .inr h
    | some f => exact .inl ⟨f, h1, h⟩
  unfold alloc at h
  simp only at h
  split at h
  · obtain ⟨o, h1, h⟩ := bind_eq_ok.1 h
    cases o with
    | none => exact .inr (large h)
    | some f => exact .inl ⟨f, by assumption, h1, h⟩
  · exact .inr (large h)

/-! ### Freeing (R173) -/

/-- The two ways the preceding chunk can be dealt with: it is absent or in use, or it is free, was validated and taken off its list. -/
theorem mergePreceding_ok {s t : State} {p size start merged : Nat} (h : mergePreceding s p size = .ok (start, merged, t)) :
    (start = p ∧ merged = size ∧ t = s ∧ (p - 8 ≤ 8 ∨ ∃ pf, memRead s (p - 16) 8 = .ok pf ∧ pf % 2 = 1)) ∨
    (∃ ps, 8 < p - 8 ∧ memRead s (p - 16) 8 = .ok (2 * ps) ∧ 16 ≤ ps ∧ ps % 16 = 0 ∧ start = p - 16 - ps ∧ 16 ≤ start ∧
      merged = size + ps + 16 ∧ readChunk s start = .ok (ps, 0) ∧ unlink s (listFor ps) start = .ok t) := by
  unfold mergePreceding at h
  split at h
  · rename_i hp
    obtain ⟨pf, h1, h⟩ := bind_eq_ok.1 h
    split at h
    · rename_i hf
      obtain ⟨_, h2, h⟩ := bind_eq_ok.1 h
      rw [require_eq_ok] at h2
      obtain ⟨⟨s2, u2⟩, h3, h⟩ := bind_eq_ok.1 h
      obtain ⟨_, h4, h⟩ := bind_eq_ok.1 h
      rw [require_eq_ok] at h4
      obtain ⟨s1, h5, h⟩ := bind_eq_ok.1 h
      simp only [pure_eq_ok, Except.ok.injEq, Prod.mk.injEq] at h
      obtain ⟨rfl, rfl, rfl⟩ := h
      obtain ⟨rfl, rfl⟩ := h4
      refine .inr ⟨pf / 2, hp, ?_, h2.1, h2.2.1, rfl, h2.2.2, rfl, h3, h5⟩
      rw [show 2 * (pf / 2) = pf by omega]
      exact h1
    · rename_i hf
      simp only [pure_eq_ok, Except.ok.injEq, Prod.mk.injEq] at h
      exact .inl ⟨h.1.symm, h.2.1.symm, h.2.2.symm, .inr ⟨pf, h1, by omega⟩⟩
  · simp only [pure_eq_ok, Except.ok.injEq, Prod.mk.injEq] at h
    exact .inl ⟨h.1.symm, h.2.1.symm, h.2.2.symm, .inl (by omega)⟩

/-- The three ways the following chunk can be dealt with: it is absent, it is in use, or it is free and was taken off its list. -/
theorem mergeFollowing_ok {s t : State} {n size merged : Nat} (h : mergeFollowing s n size = .ok (merged, t)) :
    (merged = size ∧ t = s ∧ (s.bumpNat ≤ n - 8 ∨ ∃ ns nu, readChunk s n = .ok (ns, nu) ∧ nu ≠ 0)) ∨
    (∃ ns, n - 8 < s.bumpNat ∧ readChunk s n = .ok (ns, 0) ∧ merged = size + ns + 16 ∧ unlink s (listFor ns) n = .ok t) := by
  unfold mergeFollowing at h
  split at h
  · rename_i hn
    obtain ⟨⟨ns, nu⟩, h1, h⟩ := bind_eq_ok.1 h
    simp only at h
    split at h
    · rename_i hu
      obtain ⟨s1, h2, h⟩ := bind_eq_ok.1 h
      simp only [pure_eq_ok, Except.ok.injEq, Prod.mk.injEq] at h
      obtain ⟨rfl, rfl⟩ := h
      subst hu
      exact .inr ⟨ns, hn, h1, rfl, h2⟩
    · rename_i hu
      simp only [pure_eq_ok, Except.ok.injEq, Prod.mk.injEq] at h
      exact .inl ⟨h.1.symm, h.2.symm, .inr ⟨ns, nu, h1, hu⟩⟩
  · simp only [pure_eq_ok, Except.ok.injEq, Prod.mk.injEq] at h
    exact .inl ⟨h.1.symm, h.2.symm, .inl (by omega)⟩

/-- What freeing a chunk does when it answers, part by part. -/
theorem freeChunk_ok {s t : State} {p size : Nat} (h : freeChunk s p size = .ok t) :
    ∃ start m1 s1 m2 s2 s3, mergePreceding s p size = .ok (start, m1, s1) ∧
      mergeFollowing s1 (p + size + 16) m1 = .ok (m2, s2) ∧ writeTags s2 start m2 0 = .ok s3 ∧ insertChunk s3 start m2 = .ok t := by
  obtain ⟨⟨start, m1, s1⟩, h1, h⟩ := bind_eq_ok.1 h
  obtain ⟨⟨m2, s2⟩, h2, h⟩ := bind_eq_ok.1 h
  obtain ⟨s3, h3, h⟩ := bind_eq_ok.1 h
  exact ⟨start, m1, s1, m2, s2, s3, h1, h2, h3, h⟩

theorem freeChunk_frame {s t : State} {p size : Nat} (h : freeChunk s p size = .ok t) : HeapFrame s t := by
  obtain ⟨start, m1, s1, m2, s2, s3, h1, h2, h3, h4⟩ := freeChunk_ok h
  have f1 : HeapFrame s s1 := by
    rcases mergePreceding_ok h1 with ⟨-, -, rfl, -⟩ | ⟨_, -, -, -, -, -, -, -, -, hu⟩
    · exact .refl _
    · exact unlink_frame hu
  have f2 : HeapFrame s1 s2 := by
    rcases mergeFollowing_ok h2 with ⟨-, rfl, -⟩ | ⟨_, -, -, -, hu⟩
    · exact .refl _
    · exact unlink_frame hu
  exact ((f1.trans f2).trans (writeTags_frame h3)).trans (insertChunk_frame h4)

/-! ### Where the checks break (R164 to R166, R173, R174) -/

/-- There is a heap and BUMP lies in it: what the checks need to read the tags. -/
structure HeapBounds (s : State) : Prop where
  init : s.init = true
  bump : s.bump.toNat ≤ s.cap
  cap : s.cap < 2 ^ 62

theorem Inv.heapBounds {s : State} (h : Inv s) (hi : s.init = true) : HeapBounds s :=
  ⟨hi, (h.heap hi).2.2.1, by have := (h.heap hi).2.2.2; have := h.heapMax; omega⟩

/-- There is at most one valid chunk at an address. -/
theorem State.HasChunk.unique {s : State} {c d : Chunk} (hc : s.HasChunk c) (hd : s.HasChunk d) (h : c.addr = d.addr) : c = d := by
  obtain ⟨a, z, u⟩ := c
  obtain ⟨a', z', u'⟩ := d
  obtain rfl : a = a' := h
  have hz : 2 * z + u.toNat = 2 * z' + u'.toNat := hc.2.2.2.2.2.1.symm.trans hd.2.2.2.2.2.1
  obtain ⟨rfl, rfl⟩ : z = z' ∧ u = u' := by cases u <;> cases u' <;> simp at hz ⊢ <;> omega
  rfl

/-- What `ReadChunk` does, whole: it answers the one valid chunk there, or raises CorruptionDetected with the address. -/
theorem readChunk_cases {s : State} (hb : HeapBounds s) (p : Nat) :
    (∃ c : Chunk, c.addr = p ∧ s.HasChunk c ∧ readChunk s p = .ok (c.size, c.used.toNat)) ∨
      (∀ c : Chunk, c.addr = p → ¬s.HasChunk c) ∧ readChunk s p = .error ⟨.corruptionDetected, p⟩ := by
  have := hb.bump
  have := hb.cap
  unfold readChunk State.bumpNat
  by_cases h1 : p % 16 = 0 ∧ 16 ≤ sgn64 p ∧ p + 24 ≤ s.bump.toNat
  · have hp : 16 ≤ p := by have := h1.2.1; rw [sgn64_of_lt (by omega)] at this; omega
    rw [require_of h1, ok_bind, memRead_of hb.init (by omega) (by omega), ok_bind]
    simp only []
    by_cases h2 : 16 ≤ s.mem.natAt (p - 8) 8 / 2 ∧ s.mem.natAt (p - 8) 8 / 2 % 16 = 0 ∧ p + s.mem.natAt (p - 8) 8 / 2 + 8 ≤ s.bump.toNat
    · rw [require_of h2, ok_bind, memRead_of hb.init (by omega) (by omega), ok_bind]
      by_cases h3 : s.mem.natAt (p + s.mem.natAt (p - 8) 8 / 2) 8 = s.mem.natAt (p - 8) 8
      · rw [require_of h3, ok_bind]
        have hu : (decide (s.mem.natAt (p - 8) 8 % 2 = 1)).toNat = s.mem.natAt (p - 8) 8 % 2 := by
          by_cases h : s.mem.natAt (p - 8) 8 % 2 = 1
          · simp [h]
          · simp [h]; omega
        refine .inl ⟨⟨p, s.mem.natAt (p - 8) 8 / 2, decide (s.mem.natAt (p - 8) 8 % 2 = 1)⟩, rfl,
          ⟨hp, h1.1, h2.1, h2.2.1, h2.2.2, ?_, ?_⟩, by simp only [pure_eq_ok, hu]⟩
        · show _ = 2 * _ + _
          rw [hu]
          simp only []
          omega
        · show _ = 2 * _ + _
          rw [hu]
          simp only [h3]
          omega
      · rw [require_of_not h3, error_bind]
        refine .inr ⟨?_, rfl⟩
        rintro ⟨a, z, u⟩ rfl ⟨-, -, -, -, -, h6, h7⟩
        have := u.toNat_lt
        simp only [Chunk.tag] at h3 h6 h7
        rw [show s.mem.natAt (a - 8) 8 / 2 = z by omega] at h3
        omega
    · rw [require_of_not h2, error_bind]
      refine .inr ⟨?_, rfl⟩
      rintro ⟨a, z, u⟩ rfl ⟨-, -, h3, h4, h5, h6, -⟩
      have := u.toNat_lt
      simp only [Chunk.tag] at h2 h3 h4 h5 h6
      rw [show s.mem.natAt (a - 8) 8 / 2 = z by omega] at h2
      omega
  · rw [require_of_not h1, error_bind]
    refine .inr ⟨?_, rfl⟩
    rintro ⟨a, z, u⟩ rfl ⟨h3, h4, h5, h6, h7, -, -⟩
    simp only at *
    rw [sgn64_of_lt (by omega)] at h1
    omega

/-- A valid chunk is what `ReadChunk` answers. -/
theorem readChunk_of {s : State} {c : Chunk} (hb : HeapBounds s) (h : s.HasChunk c) :
    readChunk s c.addr = .ok (c.size, c.used.toNat) := by
  rcases readChunk_cases hb c.addr with ⟨d, hd, hc, e⟩ | ⟨hn, -⟩
  · rw [hc.unique h hd] at e; exact e
  · exact absurd h (hn c rfl)

/-- Where no valid free chunk is, `ReadChunk` and the test that it says free raise CorruptionDetected with the address. -/
theorem readChunk_noFree {α : Type} {s : State} {p : Nat} (hb : HeapBounds s) (h : s.NoFreeChunk p) (f : Nat × Nat → Unit → Except Raise α) :
    (readChunk s p >>= fun x => require (x.2 = 0) .corruptionDetected p >>= f x) = .error ⟨.corruptionDetected, p⟩ := by
  rcases readChunk_cases hb p with ⟨c, rfl, hc, e⟩ | ⟨-, e⟩
  · rw [e, ok_bind]
    cases hu : c.used with
    | true => rw [require_of_not (by simp), error_bind]
    | false => exact absurd hc (h c rfl hu)
  · rw [e, error_bind]

/-- A link in a valid chunk is read. -/
theorem memRead_link {s : State} {c : Chunk} (hb : HeapBounds s) (h : s.HasChunk c) :
    memRead s c.addr 8 = .ok (s.mem.natAt c.addr 8) := by
  have := hb.bump
  have := hb.cap
  obtain ⟨h1, -, h3, -, h5, -⟩ := h
  exact memRead_of hb.init (by omega) (by omega)

/-- The search's walk over chunks that are too small is as many steps of the search. -/
theorem findFitFrom_walk {s : State} {r p q : Nat} {cs : List Chunk} (hb : HeapBounds s) (steps prev : Nat)
    (h : s.Walks (fun c => c.size < r) p cs q) :
    findFitFrom s r (steps + cs.length) prev p = findFitFrom s r steps ((cs.getLast?.map Chunk.addr).getD prev) q := by
  induction cs generalizing p prev with
  | nil => cases h; rfl
  | cons c cs ih =>
    obtain ⟨rfl, hc, hu, hr, hw⟩ := h
    rw [List.length_cons, ← Nat.add_assoc, findFitFrom, if_neg (by have := hc.1; omega), readChunk_of hb hc, hu]
    simp only [ok_bind]
    rw [require_of (by rfl), ok_bind, if_neg (by omega), memRead_link hb hc, ok_bind, ih c.addr hw]
    cases cs with
    | nil => rfl
    | cons d cs => simp [List.getLast?_eq_some_getLast]

/-- Where a search breaks it raises CorruptionDetected. -/
theorem findFit_breaks {s : State} {l : FreeList} {r p : Nat} (hb : HeapBounds s) (h : s.SearchBreaks l r p) :
    findFit s l r = .error ⟨.corruptionDetected, p⟩ := by
  obtain ⟨cs, hw, hp, hl, h⟩ := h
  obtain ⟨k, hk⟩ := Nat.le.dest hl
  unfold findFit State.walkLimit State.bumpNat
  rw [← hk, Nat.add_comm, findFitFrom_walk hb k 0 hw]
  cases k with
  | zero => rw [findFitFrom, if_neg hp]
  | succ k =>
    rw [findFitFrom, if_neg hp]
    exact readChunk_noFree hb (h.resolve_left (by omega)) _

/-- A search that comes to the end of its list finds nothing. -/
theorem findFit_ends {s : State} {l : FreeList} {r : Nat} (hb : HeapBounds s) (h : s.SearchEnds l r) : findFit s l r = .ok none := by
  obtain ⟨cs, hw, hl⟩ := h
  obtain ⟨k, hk⟩ := Nat.le.dest hl
  unfold findFit State.walkLimit State.bumpNat
  rw [← hk, Nat.add_comm, findFitFrom_walk hb k 0 hw]
  cases k <;> rw [findFitFrom, if_pos rfl]

/-- An allocation whose search breaks raises CorruptionDetected. -/
theorem alloc_breaks {s : State} {n p : Nat} (hb : HeapBounds s) (h : s.AllocBreaks n p) : alloc s n = .error ⟨.corruptionDetected, p⟩ := by
  have large : ∀ r, s.SearchBreaks .large r p → allocLarge s r = .error ⟨.corruptionDetected, p⟩ := fun r h => by
    unfold allocLarge
    rw [findFit_breaks hb h, error_bind]
  simp only [State.AllocBreaks] at h
  unfold alloc requestSize roundUp16
  simp only
  rcases h with ⟨h1, h2⟩ | ⟨h1, h2⟩
  · rw [if_pos h1, findFit_breaks hb h2, error_bind]
  · split
    · rename_i h3
      rw [findFit_ends hb (h1 h3), ok_bind]
      exact large _ h2
    · exact large _ h2

/-- The walk for a predecessor over other chunks is as many steps of the search for it. -/
theorem findPrevFrom_walk {s : State} {t p q : Nat} {cs : List Chunk} (hb : HeapBounds s) (steps prev : Nat)
    (h : s.Walks (fun c => c.addr ≠ t) p cs q) :
    findPrevFrom s t (steps + cs.length) prev p = findPrevFrom s t steps ((cs.getLast?.map Chunk.addr).getD prev) q := by
  induction cs generalizing p prev with
  | nil => cases h; rfl
  | cons c cs ih =>
    obtain ⟨rfl, hc, hu, ht, hw⟩ := h
    rw [List.length_cons, ← Nat.add_assoc, findPrevFrom, if_neg (by have := hc.1; omega), readChunk_of hb hc, hu]
    simp only [ok_bind]
    rw [require_of (by rfl), ok_bind, memRead_link hb hc, ok_bind, ih c.addr hw]
    cases cs with
    | nil => rfl
    | cons d cs => simp [List.getLast?_eq_some_getLast]

/-- Where taking a chunk off a list breaks it raises CorruptionDetected. -/
theorem unlink_breaks {s : State} {l : FreeList} {t p : Nat} (hb : HeapBounds s) (h : s.UnlinkBreaks l t p) :
    unlink s l t = .error ⟨.corruptionDetected, p⟩ := by
  obtain ⟨cs, q, hw, hq, hl, h⟩ := h
  obtain ⟨k, hk⟩ := Nat.le.dest hl
  suffices e : findPrevFrom s t s.walkLimit 0 (s.head l) = .error ⟨.corruptionDetected, p⟩ by
    unfold unlink
    rw [e, error_bind]
  unfold State.walkLimit State.bumpNat
  rw [← hk, Nat.add_comm, findPrevFrom_walk hb k 0 hw]
  cases k with
  | zero => rw [if_pos (by omega)] at h; rw [findPrevFrom, if_neg hq, h]
  | succ k =>
    rw [findPrevFrom]
    split at h
    · rename_i hc
      rw [if_pos (by omega), require_of_not hq, error_bind, h]
    · rename_i hc
      obtain ⟨rfl, hn⟩ := h
      rw [if_neg (by omega)]
      exact readChunk_noFree hb hn _

/-- The members a walk passes are valid. -/
theorem State.Walks.hasChunk {s : State} {passes : Chunk → Prop} {p q : Nat} {cs : List Chunk} (h : s.Walks passes p cs q) :
    ∀ c ∈ cs, s.HasChunk c := by
  induction cs generalizing p with
  | nil => simp
  | cons d cs ih =>
    obtain ⟨-, hd, -, -, hw⟩ := h
    exact List.forall_mem_cons.2 ⟨hd, ih hw⟩

/-- Taking a chunk off a list moves neither BUMP nor CAP. -/
theorem State.Unlinks.bump_cap {s s' : State} {l : FreeList} {t : Nat} (h : s.Unlinks l t s') : s'.bump = s.bump ∧ s'.cap = s.cap := by
  obtain ⟨cs, -, -, h⟩ := h
  split at h
  · rw [h]; exact ⟨State.setHead_bump .., State.setHead_cap ..⟩
  · obtain ⟨-, -, rfl⟩ := h; exact ⟨rfl, rfl⟩

/-- A chunk that is on its list is taken off it, and what else is written has the bytes asked for. -/
theorem unlink_of {s s' : State} {l : FreeList} {t : Nat} (hb : HeapBounds s) (ht : ∃ c : Chunk, c.addr = t ∧ s.HasChunk c)
    (h : s.Unlinks l t s') :
    ∃ m : Memory, (∀ a, m.read a = s'.mem.read a) ∧ unlink s l t = .ok { s' with mem := m } := by
  obtain ⟨cs, hw, hl, h⟩ := h
  obtain ⟨c, rfl, hc⟩ := ht
  obtain ⟨k, hk⟩ := Nat.le.dest hl
  have e : findPrevFrom s c.addr s.walkLimit 0 (s.head l) = .ok ((cs.getLast?.map Chunk.addr).getD 0) := by
    unfold State.walkLimit State.bumpNat
    rw [← hk, Nat.add_comm, findPrevFrom_walk hb k 0 hw]
    cases k with
    | zero => rw [findPrevFrom, if_pos rfl]
    | succ k => rw [findPrevFrom, if_pos (.inr rfl), require_of rfl, ok_bind, pure_eq_ok]
  unfold unlink take
  rw [e, ok_bind, memRead_link hb hc, ok_bind]
  cases hg : cs.getLast? with
  | none =>
    rw [hg] at h
    simp only at h
    subst h
    exact ⟨_, fun _ => rfl, rfl⟩
  | some d =>
    rw [hg] at h
    obtain ⟨m, hm, rfl⟩ := h
    have hd := hw.hasChunk d (List.mem_of_getLast? hg)
    have := hb.bump
    have := hb.cap
    obtain ⟨h1, -, h3, -, h5, -⟩ := hd
    refine ⟨s.mem.store d.addr (leBytes 8 (s.mem.natAt c.addr 8)), fun a => ?_, ?_⟩
    · rw [hm a, Memory.wrote_store]
    · simp only [Option.map_some, Option.getD_some]
      rw [if_neg (by omega), memWrite_of hb.init (by omega) (by omega)]

/-! ### The checks look at bytes, list heads and BUMP only -/

/-- The two states have the same bytes, list heads and BUMP. -/
structure SameHeap (s t : State) : Prop where
  read : ∀ a, s.mem.read a = t.mem.read a
  bin : s.bin = t.bin
  large : s.large = t.large
  bump : s.bump = t.bump

namespace SameHeap

variable {s t : State}

theorem symm (h : SameHeap s t) : SameHeap t s := ⟨fun a => (h.read a).symm, h.bin.symm, h.large.symm, h.bump.symm⟩

theorem natAt (h : SameHeap s t) (a n : Nat) : s.mem.natAt a n = t.mem.natAt a n := Memory.natAt_congr fun k _ => h.read (a + k)

theorem head (h : SameHeap s t) (l : FreeList) : s.head l = t.head l := by
  cases l
  · simp only [State.head, h.bin]
  · simp only [State.head, h.large]

theorem setHead (h : SameHeap s t) (l : FreeList) (p : Nat) : SameHeap (s.setHead l p) (t.setHead l p) := by
  cases l
  · exact ⟨h.read, by simp only [State.setHead, h.bin], h.large, h.bump⟩
  · exact ⟨h.read, h.bin, rfl, h.bump⟩

theorem hasChunk (h : SameHeap s t) (c : Chunk) : s.HasChunk c ↔ t.HasChunk c := by
  simp only [State.HasChunk, h.natAt, h.bump]

theorem walks (h : SameHeap s t) {passes : Chunk → Prop} {p q : Nat} {cs : List Chunk} :
    s.Walks passes p cs q ↔ t.Walks passes p cs q := by
  induction cs generalizing p with
  | nil => rfl
  | cons c cs ih => simp only [State.Walks, h.hasChunk, h.natAt, ih]

theorem unlinkBreaks (h : SameHeap s t) {l : FreeList} {a p : Nat} : s.UnlinkBreaks l a p ↔ t.UnlinkBreaks l a p := by
  simp only [State.UnlinkBreaks, State.NoFreeChunk, h.walks, h.hasChunk, h.head, h.bump]

theorem followingBreaks (h : SameHeap s t) {n p : Nat} : s.FollowingBreaks n p ↔ t.FollowingBreaks n p := by
  simp only [State.FollowingBreaks, h.unlinkBreaks, h.hasChunk, h.bump]

theorem precedingBreaks (h : SameHeap s t) {a p : Nat} : s.PrecedingBreaks a p ↔ t.PrecedingBreaks a p := by
  simp only [State.PrecedingBreaks, h.unlinkBreaks, h.hasChunk, h.natAt]

theorem unlinks (h : SameHeap s t) {l : FreeList} {a : Nat} {s' : State} (hu : s.Unlinks l a s') :
    ∃ t', t.Unlinks l a t' ∧ SameHeap s' t' := by
  obtain ⟨cs, hw, hl, hu⟩ := hu
  have common := And.intro (h.walks.1 hw) (h.bump ▸ hl)
  rw [h.head] at common
  cases hg : cs.getLast? with
  | none =>
    rw [hg] at hu
    refine ⟨_, ⟨cs, common.1, common.2, by rw [hg]⟩, ?_⟩
    simp only at hu
    rw [hu, h.natAt]
    exact h.setHead l _
  | some c =>
    rw [hg] at hu
    obtain ⟨m, hm, rfl⟩ := hu
    refine ⟨{ t with mem := m }, ⟨cs, common.1, common.2, ?_⟩, fun _ => rfl, h.bin, h.large, h.bump⟩
    rw [hg]
    refine ⟨m, fun k => ?_, rfl⟩
    rw [hm k, h.natAt, h.read]

theorem freeBreaks (h : SameHeap s t) {a size p : Nat} (hf : s.FreeBreaks a size p) : t.FreeBreaks a size p := by
  rcases hf with hf | ⟨s', hd, hf⟩
  · exact .inl (h.precedingBreaks.1 hf)
  · rcases hd with ⟨hd, rfl⟩ | ⟨hd, ps, h1, h2, h3⟩
    · exact .inr ⟨t, .inl ⟨by rwa [h.natAt] at hd, rfl⟩, h.followingBreaks.1 hf⟩
    · obtain ⟨t', ht, h'⟩ := h.unlinks h3
      exact .inr ⟨t', .inr ⟨hd, ps, by rwa [h.natAt] at h1, (h.hasChunk _).1 h2, ht⟩, h'.followingBreaks.1 hf⟩

end SameHeap

/-- Where freeing a chunk breaks it raises CorruptionDetected. -/
theorem freeChunk_breaks {s : State} {a size p : Nat} (hb : HeapBounds s) (ha : 16 ≤ a) (ha' : a % 16 = 0) (hs : a + size + 8 ≤ s.bump.toNat)
    (h : s.FreeBreaks a size p) : freeChunk s a size = .error ⟨.corruptionDetected, p⟩ := by
  have := hb.bump
  have := hb.cap
  have following : ∀ {s' : State} {z : Nat}, HeapBounds s' → s'.FollowingBreaks (a + size + 16) p →
      mergeFollowing s' (a + size + 16) z = .error ⟨.corruptionDetected, p⟩ := by
    rintro s' z hb' ⟨h1, h2⟩
    unfold mergeFollowing State.bumpNat
    rw [if_pos h1]
    rcases h2 with ⟨hn, rfl⟩ | ⟨ns, hc, hu⟩
    · rcases readChunk_cases hb' (a + size + 16) with ⟨c, hc, hc', -⟩ | ⟨-, e⟩
      · exact absurd hc' (hn c hc)
      · rw [e, error_bind]
    · rw [readChunk_of hb' hc, ok_bind]
      simp only [Bool.toNat_false, if_true]
      rw [unlink_breaks hb' hu, error_bind]
  unfold freeChunk
  rcases h with ⟨h1, ps, h2, h3⟩ | ⟨s', h1, h2⟩
  · suffices e : mergePreceding s a size = .error ⟨.corruptionDetected, p⟩ by rw [e, error_bind]
    unfold mergePreceding
    rw [if_pos (by omega), memRead_of hb.init (by omega) (by omega), ok_bind, h2, if_pos (by omega)]
    simp only [Nat.mul_div_cancel_left _ (show 0 < 2 by omega)] at h3 ⊢
    split at h3
    · rename_i hc
      rw [require_of hc, ok_bind]
      rcases h3 with ⟨hn, rfl⟩ | ⟨hc', hu⟩
      · rcases readChunk_cases hb (a - 16 - ps) with ⟨⟨c, z, u⟩, rfl, hc', e⟩ | ⟨-, e⟩
        · rw [e, ok_bind]
          simp only
          rw [require_of_not, error_bind]
          rintro ⟨rfl, hu⟩
          cases u
          · exact hn hc'
          · simp at hu
        · rw [e, error_bind]
      · have e := readChunk_of hb hc'
        simp only at e
        rw [e, ok_bind]
        simp only
        rw [require_of (by simp), ok_bind, unlink_breaks hb hu, error_bind]
    · rename_i hc
      rw [require_of_not hc, error_bind, h3]
  · rcases h1 with ⟨h1, rfl⟩ | ⟨h1, ps, h3, h4, h5⟩
    · have e : mergePreceding s' a size = .ok (a, size, s') := by
        unfold mergePreceding
        split
        · rw [memRead_of hb.init (by omega) (by omega), ok_bind, if_neg (by omega)]; rfl
        · rfl
      rw [e, ok_bind]
      simp only
      rw [following hb h2, error_bind]
    · obtain ⟨m, hm, e⟩ := unlink_of hb ⟨_, rfl, h4⟩ h5
      have hf := unlink_frame e
      obtain ⟨hbump, hcap⟩ := h5.bump_cap
      have e' : mergePreceding s a size = .ok (a - 16 - ps, size + ps + 16, { s' with mem := m }) := by
        unfold mergePreceding
        have hr := readChunk_of hb h4
        simp only at hr
        rw [if_pos (by omega), memRead_of hb.init (by omega) (by omega), ok_bind, h3, if_pos (by omega)]
        simp only [Nat.mul_div_cancel_left _ (show 0 < 2 by omega)]
        rw [require_of ⟨h4.2.2.1, h4.2.2.2.1, h4.1⟩, ok_bind, hr, ok_bind]
        simp only
        rw [require_of (by simp), ok_bind, e]
        rfl
      rw [e', ok_bind]
      simp only
      have hb' : HeapBounds { s' with mem := m } := by
        refine ⟨hf.init.trans hb.init, ?_, ?_⟩
        · show s'.bump.toNat ≤ s'.cap; rw [hbump, hcap]; exact hb.bump
        · show s'.cap < _; rw [hcap]; exact hb.cap
      have same : SameHeap s' { s' with mem := m } := ⟨fun a => (hm a).symm, rfl, rfl, rfl⟩
      rw [following hb' (same.followingBreaks.1 h2), error_bind]


/-! ### What the commands cite -/

/-- A pseudocode that reads the tags of the chunk at `a`, which CheckArg let pass, and tests u = 1 has the three tests of the tags. -/
theorem Tests.readChunk {i : Instr} {s : State} {a : Nat} {rest : Nat × Nat → Unit → Except Raise State} {done : Prop} (hF : s.fault = false)
    (hb : HeapBounds s) (hp : 16 ≤ a ∧ a % 16 = 0)
    (h : exec i s = command i s (readChunk s a >>= fun x => Machine.require (x.2 = 1) .corruptionDetected a >>= rest x))
    (next : s.HasChunk ⟨a, s.mem.natAt (a - 8) 8 / 2, true⟩ →
      exec i s = command i s (rest (s.mem.natAt (a - 8) 8 / 2, 1) ()) → done) :
    Tests i s
      [(16 ≤ s.mem.natAt (a - 8) 8 / 2 ∧ s.mem.natAt (a - 8) 8 / 2 % 16 = 0 ∧ a + s.mem.natAt (a - 8) 8 / 2 + 8 ≤ s.bump.toNat, 5, a),
        (s.mem.natAt (a + s.mem.natAt (a - 8) 8 / 2) 8 = s.mem.natAt (a - 8) 8, 5, a), (s.mem.natAt (a - 8) 8 % 2 = 1, 5, a)]
      done := by
  have size : ∀ {c : Chunk}, c.addr = a → s.HasChunk c → s.mem.natAt (a - 8) 8 / 2 = c.size := by
    rintro ⟨b, z, u⟩ rfl ⟨-, -, -, -, -, h6, -⟩
    have := u.toNat_lt
    simp only [Chunk.tag] at h6 ⊢
    omega
  have none : (∀ c : Chunk, c.addr = a → ¬s.HasChunk c) → exec i s = .next (s.latched (encode i) 5 a) := by
    intro hn
    rcases readChunk_cases hb a with ⟨c, hc, hc', -⟩ | ⟨-, e⟩
    · exact absurd hc' (hn c hc)
    · rw [h, e, error_bind, command_error hF]; rfl
  refine ⟨fun h1 => none ?_, fun h1 => ⟨fun h2 => none ?_, fun h2 => ⟨fun h3 => ?_, fun h3 => ?_⟩⟩⟩
  · rintro c hc hc'
    rw [size hc hc', ← hc] at h1
    exact h1 ⟨hc'.2.2.1, hc'.2.2.2.1, hc'.2.2.2.2.1⟩
  · rintro c hc hc'
    rw [size hc hc', ← hc] at h2
    exact h2 (hc'.2.2.2.2.2.2.trans hc'.2.2.2.2.2.1.symm)
  · have hc : s.HasChunk ⟨a, s.mem.natAt (a - 8) 8 / 2, false⟩ := by
      refine ⟨hp.1, hp.2, h1.1, h1.2.1, h1.2.2, ?_, ?_⟩ <;> simp only [Chunk.tag, Bool.toNat_false] <;> omega
    have e := readChunk_of hb hc
    simp only at e
    rw [h, e, ok_bind]
    simp only
    rw [require_of_not (by simp), error_bind, command_error hF]; rfl
  · have hc : s.HasChunk ⟨a, s.mem.natAt (a - 8) 8 / 2, true⟩ := by
      refine ⟨hp.1, hp.2, h1.1, h1.2.1, h1.2.2, ?_, ?_⟩ <;> simp only [Chunk.tag, Bool.toNat_true] <;> omega
    have e := readChunk_of hb hc
    simp only at e
    rw [e, ok_bind] at h
    simp only at h
    rw [require_of (by simp), ok_bind] at h
    exact next hc h

theorem writeTags_bump_cap {s t : State} {p size u : Nat} (h : writeTags s p size u = .ok t) : t.bump = s.bump ∧ t.cap = s.cap := by
  obtain ⟨s', h1, h2⟩ := writeTags_ok h
  rw [(memWrite_ok h2).2.2.2, (memWrite_ok h1).2.2.2]
  exact ⟨rfl, rfl⟩

/-- The two tags of a chunk below BUMP are written, and no other byte and nothing else changes. -/
theorem writeTags_of {s : State} {c : Chunk} {m m' : Memory} (hb : HeapBounds s) (h8 : 8 ≤ c.addr)
    (hc : c.addr + c.size + 8 ≤ s.bump.toNat) (hm : ∀ a, s.mem.read a = m.read a) (h : m.WroteTags m' c) :
    ∃ t, writeTags s c.addr c.size c.used.toNat = .ok t ∧ t = { s with mem := t.mem } ∧ ∀ a, t.mem.read a = m'.read a := by
  have := hb.bump
  have := hb.cap
  obtain ⟨m1, h1, h2⟩ := h
  unfold writeTags
  rw [memWrite_of hb.init (by omega) (by omega), ok_bind, memWrite_of (by exact hb.init) (by omega) (by show _ ≤ s.cap; omega)]
  refine ⟨_, rfl, rfl, fun a => ?_⟩
  show Memory.read (Memory.store _ _ _) a = _
  rw [Memory.wrote_store, h2 a, Memory.wrote_store, h1 a, hm a]; rfl

/-- An allocation that answers keeps BUMP in the heap, and its address lies there. -/
theorem alloc_bounds {s t : State} {n p : Nat} (hb : HeapBounds s) (hm : s.heapMax < 2 ^ 62) (hc : s.cap ≤ s.heapMax)
    (h : alloc s n = .ok (p, t)) : HeapBounds t ∧ HeapFrame s t ∧ p < 2 ^ 63 := by
  have found : ∀ l f r, findFit s l r = .ok (some f) → claim s l f r = .ok (p, t) → HeapBounds t ∧ HeapFrame s t ∧ p < 2 ^ 63 := by
    intro l f r h1 h2
    obtain ⟨rfl, s', h3, h4⟩ := claim_ok h2
    have hp : f.addr < 2 ^ 63 := by
      rcases readChunk_cases hb f.addr with ⟨c, hc1, hc2, -⟩ | ⟨-, e⟩
      · have := hc2.2.2.2.2.1; have := hb.bump; have := hb.cap; omega
      · rw [(findFit_ok h1).2] at e; cases e
    have fr := (take_frame h3).trans (place_frame h4)
    have taken : s'.bump = s.bump ∧ s'.cap = s.cap := by
      obtain ⟨nx, -, h3⟩ := bind_eq_ok.1 h3
      split at h3
      · cases h3; simp
      · rw [(memWrite_ok h3).2.2.2]; simp
    have placed : t.bump = s'.bump ∧ t.cap = s'.cap := by
      unfold place at h4
      split at h4
      · obtain ⟨s1, h5, h4⟩ := bind_eq_ok.1 h4
        obtain ⟨s2, h6, h4⟩ := bind_eq_ok.1 h4
        obtain ⟨s3, h7, h4⟩ := bind_eq_ok.1 h4
        cases h4
        have h5 := writeTags_bump_cap h5
        have h6 := writeTags_bump_cap h6
        rw [State.setHead_bump, State.setHead_cap, (memWrite_ok h7).2.2.2]
        exact ⟨h6.1.trans h5.1, h6.2.trans h5.2⟩
      · exact writeTags_bump_cap h4
    exact ⟨⟨fr.init.trans hb.init, by rw [placed.1, placed.2, taken.1, taken.2]; exact hb.bump,
      by rw [placed.2, taken.2]; exact hb.cap⟩, fr, hp⟩
  rcases alloc_ok h with ⟨f, -, h1, h2⟩ | ⟨f, h1, h2⟩ | h
  · exact found _ f _ h1 h2
  · exact found _ f _ h1 h2
  · obtain ⟨rfl, s1, s2, h1, h2, rfl⟩ := bumpAlloc_ok h
    have grown : s1.cap ≤ s.heapMax := by
      rw [ensureCapacity_eq] at h1
      split at h1
      · cases h1; exact hc
      · split at h1
        · cases h1; exact Nat.min_le_left _ _
        · cases h1
    have room := ensureCapacity_cap h1
    have tagged := (writeTags_bump_cap h2).2
    have fr := (ensureCapacity_frame h1).trans (writeTags_frame h2)
    have hn : (BitVec.ofNat 64 (s.bumpNat + 16 + requestSize n)).toNat = s.bumpNat + 16 + requestSize n := by
      rw [BitVec.toNat_ofNat, Nat.mod_eq_of_lt (by omega)]
    refine ⟨⟨fr.init.trans hb.init, ?_, ?_⟩, ⟨?_, fr.cap, ?_⟩, by omega⟩
    · show (BitVec.ofNat 64 _).toNat ≤ s2.cap; omega
    · show s2.cap < _; omega
    · conv_lhs => rw [fr.same]
    · show _ ≤ (BitVec.ofNat 64 _).toNat; rw [hn]; unfold State.bumpNat; omega

end Sys2Proof.Machine
end

