-- ==== Sys2Proof/Laws/Encoding.lean ====
section
/-! SUPPORT. Command words as sums of their fields, and each field read back (30_encoding.md R91, R92). -/

namespace Sys2Proof

theorem Width.select_lt (w : Width) : w.select < 4 := by cases w <;> decide

theorem Mode.select_lt (m : Mode) : m.select < 2 := by cases m <;> decide

/-- The number a format I word is (R92). -/
theorem wordI_toNat (op : Nat) (h : op < 256) (rd : Reg) (imm : BitVec 20) :
    (wordI op rd imm).toNat = op + rd.val * 2 ^ 8 + imm.toNat * 2 ^ 12 := by
  have := rd.isLt; have := imm.isLt
  simp only [wordI, BitVec.toNat_ofNat]
  rw [Nat.mod_eq_of_lt]; omega

/-- The number a format R word is (R91). -/
theorem wordR_toNat (op : Nat) (h : op < 256) (rd rs1 rs2 rs3 : Reg) (ws m : Nat) (hw : ws < 4) (hm : m < 2) :
    (wordR op rd rs1 rs2 rs3 ws m).toNat =
      op + rd.val * 2 ^ 8 + rs1.val * 2 ^ 12 + rs2.val * 2 ^ 16 + rs3.val * 2 ^ 20 + ws * 2 ^ 24 + m * 2 ^ 26 := by
  have := rd.isLt; have := rs1.isLt; have := rs2.isLt; have := rs3.isLt
  simp only [wordR, BitVec.toNat_ofNat]
  rw [Nat.mod_eq_of_lt]; omega

/-- The opcode field of a format I word is its opcode (R90). -/
theorem opcodeOf_wordI (op : Nat) (h : op < 256) (rd : Reg) (imm : BitVec 20) : opcodeOf (wordI op rd imm) = op := by
  unfold opcodeOf field; rw [wordI_toNat op h]; omega

/-- The opcode field of a format R word is its opcode (R90). -/
theorem opcodeOf_wordR (op : Nat) (h : op < 256) (rd rs1 rs2 rs3 : Reg) (ws m : Nat) (hw : ws < 4) (hm : m < 2) :
    opcodeOf (wordR op rd rs1 rs2 rs3 ws m) = op := by
  unfold opcodeOf field; rw [wordR_toNat op h _ _ _ _ _ _ hw hm]; omega

/-- The fields of a format R word are what it was built from (R91). -/
theorem fields_wordR (op : Nat) (h : op < 256) (rd rs1 rs2 rs3 : Reg) (ws m : Nat) (hw : ws < 4) (hm : m < 2) :
    let w := wordR op rd rs1 rs2 rs3 ws m
    RField.rd.get w = rd.val ∧ RField.rs1.get w = rs1.val ∧ RField.rs2.get w = rs2.val ∧ RField.rs3.get w = rs3.val ∧
      RField.wsel.get w = ws ∧ RField.mode.get w = m ∧ RField.zero.get w = 0 := by
  have := rd.isLt; have := rs1.isLt; have := rs2.isLt; have := rs3.isLt
  simp only [RField.get, field, wordR_toNat op h _ _ _ _ _ _ hw hm]
  omega

end Sys2Proof
end

