-- ==== Sys2Proof/Laws/PerInstr.lean ====
section
/-! SUPPORT. A property of every command, one lemma for each: the word the encoder writes carries, in bits 7:0, the opcode the opcode
map gives the command (30_encoding.md R90, R96). -/

namespace Sys2Proof.Laws.EncodedOpcode

/-- The opcode column of the opcode map (R96). -/
def opcode : Instr → Nat
  | .nop => 0x01
  | .ldi .. => 0x02
  | .ldis .. => 0x03
  | .mov .. => 0x04
  | .rdsr .. => 0x05
  | .hinit .. => 0x10
  | .hensure .. => 0x11
  | .ld8 .. => 0x12
  | .ld16 .. => 0x13
  | .ld32 .. => 0x14
  | .ld64 .. => 0x15
  | .st8 .. => 0x16
  | .st16 .. => 0x17
  | .st32 .. => 0x18
  | .st64 .. => 0x19
  | .memcpy .. => 0x1A
  | .memmove .. => 0x1B
  | .memset .. => 0x1C
  | .malloc .. => 0x20
  | .calloc .. => 0x21
  | .free .. => 0x22
  | .realloc .. => 0x23
  | .shl .. => 0x30
  | .shr .. => 0x31
  | .ushr .. => 0x32
  | .bshl .. => 0x33
  | .bshr .. => 0x34
  | .bushr .. => 0x35
  | .and .. => 0x36
  | .or .. => 0x37
  | .xor .. => 0x38
  | .not .. => 0x39
  | .btest .. => 0x3A
  | .bset .. => 0x3B
  | .bclr .. => 0x3C
  | .btgl .. => 0x3D
  | .popcnt .. => 0x3E
  | .mask .. => 0x3F
  | .sext .. => 0x40
  | .zext .. => 0x41
  | .bdec .. => 0x42
  | .bcomp .. => 0x43
  | .addh .. => 0x50
  | .subh .. => 0x51
  | .cmph .. => 0x52
  | .shlh .. => 0x53
  | .shrh .. => 0x54
  | .zeroh .. => 0x55
  | .wru64h .. => 0x56
  | .hexh .. => 0x57
  | .uadd .. => 0x60
  | .usub .. => 0x61
  | .ushl .. => 0x62
  | .usrl .. => 0x63
  | .wrs64h .. => 0x68
  | .sneg .. => 0x69
  | .sadd .. => 0x6A
  | .ssub .. => 0x6B
  | .sshl .. => 0x6C
  | .ssar .. => 0x6D
  | .scmp .. => 0x6E

/-- The opcode field of the command's word is its opcode. -/
def Statement (i : Instr) : Prop := opcodeOf (encode i) = opcode i

theorem nop : Statement (.nop) := opcodeOf_wordR 0x01 (by decide) _ _ _ _ _ _ (by decide) (by decide)
theorem ldi (rd : Reg) (imm : BitVec 20) : Statement (.ldi rd imm) := opcodeOf_wordI 0x02 (by decide) rd imm
theorem ldis (rd : Reg) (imm : BitVec 20) : Statement (.ldis rd imm) := opcodeOf_wordI 0x03 (by decide) rd imm
theorem mov (rd : Reg) (rs1 : Reg) : Statement (.mov rd rs1) := opcodeOf_wordR 0x04 (by decide) _ _ _ _ _ _ (by decide) (by decide)
theorem rdsr (rd : Reg) (imm : BitVec 20) : Statement (.rdsr rd imm) := opcodeOf_wordI 0x05 (by decide) rd imm
theorem hinit (rs1 : Reg) : Statement (.hinit rs1) := opcodeOf_wordR 0x10 (by decide) _ _ _ _ _ _ (by decide) (by decide)
theorem hensure (rs1 : Reg) : Statement (.hensure rs1) := opcodeOf_wordR 0x11 (by decide) _ _ _ _ _ _ (by decide) (by decide)
theorem ld8 (rd : Reg) (rs1 : Reg) : Statement (.ld8 rd rs1) := opcodeOf_wordR 0x12 (by decide) _ _ _ _ _ _ (by decide) (by decide)
theorem ld16 (rd : Reg) (rs1 : Reg) : Statement (.ld16 rd rs1) := opcodeOf_wordR 0x13 (by decide) _ _ _ _ _ _ (by decide) (by decide)
theorem ld32 (rd : Reg) (rs1 : Reg) : Statement (.ld32 rd rs1) := opcodeOf_wordR 0x14 (by decide) _ _ _ _ _ _ (by decide) (by decide)
theorem ld64 (rd : Reg) (rs1 : Reg) : Statement (.ld64 rd rs1) := opcodeOf_wordR 0x15 (by decide) _ _ _ _ _ _ (by decide) (by decide)
theorem st8 (rs1 : Reg) (rs2 : Reg) : Statement (.st8 rs1 rs2) := opcodeOf_wordR 0x16 (by decide) _ _ _ _ _ _ (by decide) (by decide)
theorem st16 (rs1 : Reg) (rs2 : Reg) : Statement (.st16 rs1 rs2) := opcodeOf_wordR 0x17 (by decide) _ _ _ _ _ _ (by decide) (by decide)
theorem st32 (rs1 : Reg) (rs2 : Reg) : Statement (.st32 rs1 rs2) := opcodeOf_wordR 0x18 (by decide) _ _ _ _ _ _ (by decide) (by decide)
theorem st64 (rs1 : Reg) (rs2 : Reg) : Statement (.st64 rs1 rs2) := opcodeOf_wordR 0x19 (by decide) _ _ _ _ _ _ (by decide) (by decide)
theorem memcpy (rs1 : Reg) (rs2 : Reg) (rs3 : Reg) : Statement (.memcpy rs1 rs2 rs3) := opcodeOf_wordR 0x1A (by decide) _ _ _ _ _ _ (by decide) (by decide)
theorem memmove (rs1 : Reg) (rs2 : Reg) (rs3 : Reg) : Statement (.memmove rs1 rs2 rs3) := opcodeOf_wordR 0x1B (by decide) _ _ _ _ _ _ (by decide) (by decide)
theorem memset (rs1 : Reg) (rs2 : Reg) (rs3 : Reg) : Statement (.memset rs1 rs2 rs3) := opcodeOf_wordR 0x1C (by decide) _ _ _ _ _ _ (by decide) (by decide)
theorem malloc (rd : Reg) (rs1 : Reg) : Statement (.malloc rd rs1) := opcodeOf_wordR 0x20 (by decide) _ _ _ _ _ _ (by decide) (by decide)
theorem calloc (rd : Reg) (rs1 : Reg) (rs2 : Reg) : Statement (.calloc rd rs1 rs2) := opcodeOf_wordR 0x21 (by decide) _ _ _ _ _ _ (by decide) (by decide)
theorem free (rs1 : Reg) : Statement (.free rs1) := opcodeOf_wordR 0x22 (by decide) _ _ _ _ _ _ (by decide) (by decide)
theorem realloc (rd : Reg) (rs1 : Reg) (rs2 : Reg) : Statement (.realloc rd rs1 rs2) := opcodeOf_wordR 0x23 (by decide) _ _ _ _ _ _ (by decide) (by decide)
theorem shl (m : Mode) (w : Width) (rd : Reg) (rs1 : Reg) (rs2 : Reg) : Statement (.shl m w rd rs1 rs2) := opcodeOf_wordR 0x30 (by decide) _ _ _ _ _ _ w.select_lt m.select_lt
theorem shr (m : Mode) (w : Width) (rd : Reg) (rs1 : Reg) (rs2 : Reg) : Statement (.shr m w rd rs1 rs2) := opcodeOf_wordR 0x31 (by decide) _ _ _ _ _ _ w.select_lt m.select_lt
theorem ushr (m : Mode) (w : Width) (rd : Reg) (rs1 : Reg) (rs2 : Reg) : Statement (.ushr m w rd rs1 rs2) := opcodeOf_wordR 0x32 (by decide) _ _ _ _ _ _ w.select_lt m.select_lt
theorem bshl (m : Mode) (w : Width) (rd : Reg) (rs1 : Reg) (rs2 : Reg) : Statement (.bshl m w rd rs1 rs2) := opcodeOf_wordR 0x33 (by decide) _ _ _ _ _ _ w.select_lt m.select_lt
theorem bshr (m : Mode) (w : Width) (rd : Reg) (rs1 : Reg) (rs2 : Reg) : Statement (.bshr m w rd rs1 rs2) := opcodeOf_wordR 0x34 (by decide) _ _ _ _ _ _ w.select_lt m.select_lt
theorem bushr (m : Mode) (w : Width) (rd : Reg) (rs1 : Reg) (rs2 : Reg) : Statement (.bushr m w rd rs1 rs2) := opcodeOf_wordR 0x35 (by decide) _ _ _ _ _ _ w.select_lt m.select_lt
theorem and (m : Mode) (w : Width) (rd : Reg) (rs1 : Reg) (rs2 : Reg) : Statement (.and m w rd rs1 rs2) := opcodeOf_wordR 0x36 (by decide) _ _ _ _ _ _ w.select_lt m.select_lt
theorem or (m : Mode) (w : Width) (rd : Reg) (rs1 : Reg) (rs2 : Reg) : Statement (.or m w rd rs1 rs2) := opcodeOf_wordR 0x37 (by decide) _ _ _ _ _ _ w.select_lt m.select_lt
theorem xor (m : Mode) (w : Width) (rd : Reg) (rs1 : Reg) (rs2 : Reg) : Statement (.xor m w rd rs1 rs2) := opcodeOf_wordR 0x38 (by decide) _ _ _ _ _ _ w.select_lt m.select_lt
theorem not (m : Mode) (w : Width) (rd : Reg) (rs1 : Reg) : Statement (.not m w rd rs1) := opcodeOf_wordR 0x39 (by decide) _ _ _ _ _ _ w.select_lt m.select_lt
theorem btest (m : Mode) (w : Width) (rd : Reg) (rs1 : Reg) (rs2 : Reg) : Statement (.btest m w rd rs1 rs2) := opcodeOf_wordR 0x3A (by decide) _ _ _ _ _ _ w.select_lt m.select_lt
theorem bset (m : Mode) (w : Width) (rd : Reg) (rs1 : Reg) (rs2 : Reg) : Statement (.bset m w rd rs1 rs2) := opcodeOf_wordR 0x3B (by decide) _ _ _ _ _ _ w.select_lt m.select_lt
theorem bclr (m : Mode) (w : Width) (rd : Reg) (rs1 : Reg) (rs2 : Reg) : Statement (.bclr m w rd rs1 rs2) := opcodeOf_wordR 0x3C (by decide) _ _ _ _ _ _ w.select_lt m.select_lt
theorem btgl (m : Mode) (w : Width) (rd : Reg) (rs1 : Reg) (rs2 : Reg) : Statement (.btgl m w rd rs1 rs2) := opcodeOf_wordR 0x3D (by decide) _ _ _ _ _ _ w.select_lt m.select_lt
theorem popcnt (m : Mode) (w : Width) (rd : Reg) (rs1 : Reg) : Statement (.popcnt m w rd rs1) := opcodeOf_wordR 0x3E (by decide) _ _ _ _ _ _ w.select_lt m.select_lt
theorem mask (m : Mode) (w : Width) (rd : Reg) (rs1 : Reg) : Statement (.mask m w rd rs1) := opcodeOf_wordR 0x3F (by decide) _ _ _ _ _ _ w.select_lt m.select_lt
theorem sext (m : Mode) (w : Width) (rd : Reg) (rs1 : Reg) (rs2 : Reg) : Statement (.sext m w rd rs1 rs2) := opcodeOf_wordR 0x40 (by decide) _ _ _ _ _ _ w.select_lt m.select_lt
theorem zext (m : Mode) (w : Width) (rd : Reg) (rs1 : Reg) (rs2 : Reg) : Statement (.zext m w rd rs1 rs2) := opcodeOf_wordR 0x41 (by decide) _ _ _ _ _ _ w.select_lt m.select_lt
theorem bdec (m : Mode) (w : Width) (rs1 : Reg) (rs2 : Reg) : Statement (.bdec m w rs1 rs2) := opcodeOf_wordR 0x42 (by decide) _ _ _ _ _ _ w.select_lt m.select_lt
theorem bcomp (m : Mode) (w : Width) (rd : Reg) (rs1 : Reg) : Statement (.bcomp m w rd rs1) := opcodeOf_wordR 0x43 (by decide) _ _ _ _ _ _ w.select_lt m.select_lt
theorem addh (m : Mode) (rd : Reg) (rs1 : Reg) (rs2 : Reg) (rs3 : Reg) : Statement (.addh m rd rs1 rs2 rs3) := opcodeOf_wordR 0x50 (by decide) _ _ _ _ _ _ (by decide) m.select_lt
theorem subh (m : Mode) (rd : Reg) (rs1 : Reg) (rs2 : Reg) (rs3 : Reg) : Statement (.subh m rd rs1 rs2 rs3) := opcodeOf_wordR 0x51 (by decide) _ _ _ _ _ _ (by decide) m.select_lt
theorem cmph (rd : Reg) (rs1 : Reg) (rs2 : Reg) : Statement (.cmph rd rs1 rs2) := opcodeOf_wordR 0x52 (by decide) _ _ _ _ _ _ (by decide) (by decide)
theorem shlh (m : Mode) (rs1 : Reg) (rs2 : Reg) (rs3 : Reg) : Statement (.shlh m rs1 rs2 rs3) := opcodeOf_wordR 0x53 (by decide) _ _ _ _ _ _ (by decide) m.select_lt
theorem shrh (m : Mode) (rs1 : Reg) (rs2 : Reg) (rs3 : Reg) : Statement (.shrh m rs1 rs2 rs3) := opcodeOf_wordR 0x54 (by decide) _ _ _ _ _ _ (by decide) m.select_lt
theorem zeroh (rs1 : Reg) : Statement (.zeroh rs1) := opcodeOf_wordR 0x55 (by decide) _ _ _ _ _ _ (by decide) (by decide)
theorem wru64h (rs1 : Reg) (rs2 : Reg) : Statement (.wru64h rs1 rs2) := opcodeOf_wordR 0x56 (by decide) _ _ _ _ _ _ (by decide) (by decide)
theorem hexh (rs1 : Reg) (rs2 : Reg) : Statement (.hexh rs1 rs2) := opcodeOf_wordR 0x57 (by decide) _ _ _ _ _ _ (by decide) (by decide)
theorem uadd (m : Mode) (rs1 : Reg) (rs2 : Reg) (rs3 : Reg) : Statement (.uadd m rs1 rs2 rs3) := opcodeOf_wordR 0x60 (by decide) _ _ _ _ _ _ (by decide) m.select_lt
theorem usub (m : Mode) (rs1 : Reg) (rs2 : Reg) (rs3 : Reg) : Statement (.usub m rs1 rs2 rs3) := opcodeOf_wordR 0x61 (by decide) _ _ _ _ _ _ (by decide) m.select_lt
theorem ushl (m : Mode) (rs1 : Reg) (rs2 : Reg) (rs3 : Reg) : Statement (.ushl m rs1 rs2 rs3) := opcodeOf_wordR 0x62 (by decide) _ _ _ _ _ _ (by decide) m.select_lt
theorem usrl (m : Mode) (rs1 : Reg) (rs2 : Reg) (rs3 : Reg) : Statement (.usrl m rs1 rs2 rs3) := opcodeOf_wordR 0x63 (by decide) _ _ _ _ _ _ (by decide) m.select_lt
theorem wrs64h (rs1 : Reg) (rs2 : Reg) : Statement (.wrs64h rs1 rs2) := opcodeOf_wordR 0x68 (by decide) _ _ _ _ _ _ (by decide) (by decide)
theorem sneg (m : Mode) (rs1 : Reg) (rs2 : Reg) : Statement (.sneg m rs1 rs2) := opcodeOf_wordR 0x69 (by decide) _ _ _ _ _ _ (by decide) m.select_lt
theorem sadd (m : Mode) (rs1 : Reg) (rs2 : Reg) (rs3 : Reg) : Statement (.sadd m rs1 rs2 rs3) := opcodeOf_wordR 0x6A (by decide) _ _ _ _ _ _ (by decide) m.select_lt
theorem ssub (m : Mode) (rs1 : Reg) (rs2 : Reg) (rs3 : Reg) : Statement (.ssub m rs1 rs2 rs3) := opcodeOf_wordR 0x6B (by decide) _ _ _ _ _ _ (by decide) m.select_lt
theorem sshl (m : Mode) (rs1 : Reg) (rs2 : Reg) (rs3 : Reg) : Statement (.sshl m rs1 rs2 rs3) := opcodeOf_wordR 0x6C (by decide) _ _ _ _ _ _ (by decide) m.select_lt
theorem ssar (m : Mode) (rs1 : Reg) (rs2 : Reg) (rs3 : Reg) : Statement (.ssar m rs1 rs2 rs3) := opcodeOf_wordR 0x6D (by decide) _ _ _ _ _ _ (by decide) m.select_lt
theorem scmp (rd : Reg) (rs1 : Reg) (rs2 : Reg) : Statement (.scmp rd rs1 rs2) := opcodeOf_wordR 0x6E (by decide) _ _ _ _ _ _ (by decide) (by decide)

end Sys2Proof.Laws.EncodedOpcode
end

