-- ==== Sys2Proof/Tests/Slice0.lean ====
section
/-! SUPPORT. The model's own tests: the well-formedness smoke, decoding of words written out from 30_encoding.md R91, R92 and R96,
one step of every command with the result the spec's own vectors give (95_test_vectors.md, 96_test_vectors_arith.md; their names
stand in the comments), and, for the statements, states that meet their hypotheses. -/

namespace Sys2Proof.Tests

set_option Elab.async false

open Sys2Proof Sys2Proof.Machine

/-! ### Well-formedness -/

theorem test_ldis_bound_wellFormed : Instr.wellFormed (.ldis 2 65535) = true := by decide

theorem test_ldis_wide_illFormed : Instr.wellFormed (.ldis 2 65536) = false := by decide

/-- V-S7: LDIS with bit 28 set is no command. -/
theorem test_ldis_wide_undecodable : decode 0x10000203 = .error (.unusedFieldNotZero 3) := by decide

/-! ### Decoding: rd is hexadecimal digit 2 of a word, rs1 digit 3, rs2 digit 4, rs3 digit 5, mode and width digit 6 -/

theorem test_decode_system :
    decode 0x00000001 = .ok (.nop) ∧
    decode 0x80000102 = .ok (.ldi 1 0x80000) ∧
    decode 0x05678203 = .ok (.ldis 2 0x5678) ∧
    decode 0x00003704 = .ok (.mov 7 3) ∧
    decode 0x0001F305 = .ok (.rdsr 3 31) := by
  decide +kernel

theorem test_decode_heap_sizes_and_loads :
    decode 0x00009010 = .ok (.hinit 9) ∧
    decode 0x0000A011 = .ok (.hensure 10) ∧
    decode 0x00001412 = .ok (.ld8 4 1) ∧
    decode 0x00001413 = .ok (.ld16 4 1) ∧
    decode 0x00001414 = .ok (.ld32 4 1) ∧
    decode 0x0000FE15 = .ok (.ld64 14 15) := by
  decide +kernel

theorem test_decode_stores_and_blocks :
    decode 0x00021016 = .ok (.st8 1 2) ∧
    decode 0x00021017 = .ok (.st16 1 2) ∧
    decode 0x00021018 = .ok (.st32 1 2) ∧
    decode 0x000EF019 = .ok (.st64 15 14) ∧
    decode 0x0032101A = .ok (.memcpy 1 2 3) ∧
    decode 0x0032101B = .ok (.memmove 1 2 3) ∧
    decode 0x0065201C = .ok (.memset 2 5 6) := by
  decide +kernel

theorem test_decode_allocator :
    decode 0x00001220 = .ok (.malloc 2 1) ∧
    decode 0x00021421 = .ok (.calloc 4 1 2) ∧
    decode 0x00006022 = .ok (.free 6) ∧
    decode 0x00012423 = .ok (.realloc 4 2 1) := by
  decide +kernel

theorem test_decode_shifts :
    decode 0x06021330 = .ok (.shl .arithmetic .w32 3 1 2) ∧
    decode 0x00021331 = .ok (.shr .native .w8 3 1 2) ∧
    decode 0x01021332 = .ok (.ushr .native .w16 3 1 2) ∧
    decode 0x03021333 = .ok (.bshl .native .w64 3 1 2) ∧
    decode 0x02021334 = .ok (.bshr .native .w32 3 1 2) ∧
    decode 0x07076535 = .ok (.bushr .arithmetic .w64 5 6 7) := by
  decide +kernel

theorem test_decode_logic :
    decode 0x04021336 = .ok (.and .arithmetic .w8 3 1 2) ∧
    decode 0x06006837 = .ok (.or .arithmetic .w32 8 6 0) ∧
    decode 0x0201BC38 = .ok (.xor .native .w32 12 11 1) ∧
    decode 0x04001E39 = .ok (.not .arithmetic .w8 14 1) := by
  decide +kernel

theorem test_decode_bits :
    decode 0x0002133A = .ok (.btest .native .w8 3 1 2) ∧
    decode 0x0102133B = .ok (.bset .native .w16 3 1 2) ∧
    decode 0x0202133C = .ok (.bclr .native .w32 3 1 2) ∧
    decode 0x0302133D = .ok (.btgl .native .w64 3 1 2) ∧
    decode 0x06001D3E = .ok (.popcnt .arithmetic .w32 13 1) ∧
    decode 0x0200133F = .ok (.mask .native .w32 3 1) := by
  decide +kernel

theorem test_decode_extend_and_pack :
    decode 0x0702EF40 = .ok (.sext .arithmetic .w64 15 14 2) ∧
    decode 0x02021341 = .ok (.zext .native .w32 3 1 2) ∧
    decode 0x02021042 = .ok (.bdec .native .w32 1 2) ∧
    decode 0x01001343 = .ok (.bcomp .native .w16 3 1) := by
  decide +kernel

theorem test_decode_limbs :
    decode 0x04321550 = .ok (.addh .arithmetic 5 1 2 3) ∧
    decode 0x00214651 = .ok (.subh .native 6 4 1 2) ∧
    decode 0x00032552 = .ok (.cmph 5 2 3) ∧
    decode 0x04321053 = .ok (.shlh .arithmetic 1 2 3) ∧
    decode 0x00314054 = .ok (.shrh .native 4 1 3) ∧
    decode 0x00001055 = .ok (.zeroh 1) ∧
    decode 0x00062056 = .ok (.wru64h 2 6) ∧
    decode 0x00045057 = .ok (.hexh 5 4) := by
  decide +kernel

theorem test_decode_unsigned_128 :
    decode 0x00324060 = .ok (.uadd .native 4 2 3) ∧
    decode 0x04321061 = .ok (.usub .arithmetic 1 2 3) ∧
    decode 0x00B24062 = .ok (.ushl .native 4 2 11) ∧
    decode 0x00321063 = .ok (.usrl .native 1 2 3) ∧
    decode 0x00052068 = .ok (.wrs64h 2 5) := by
  decide +kernel

theorem test_decode_signed_128 :
    decode 0x00024069 = .ok (.sneg .native 4 2) ∧
    decode 0x0032106A = .ok (.sadd .native 1 2 3) ∧
    decode 0x0432106B = .ok (.ssub .arithmetic 1 2 3) ∧
    decode 0x00B2406C = .ok (.sshl .native 4 2 11) ∧
    decode 0x00B4406D = .ok (.ssar .native 4 4 11) ∧
    decode 0x0003276E = .ok (.scmp 7 2 3) := by
  decide +kernel

/-- V-D1 to V-D12: words with an undefined opcode or a nonzero unused field are no commands. -/
theorem test_decode_refuses :
    ([0x00000000, 0xFFFFFFFF, 0x00000101, 0x08001220, 0x01001220, 0x04001220, 0x00100404, 0x00021139, 0x01321550, 0x00000006,
      0x00000064, 0x00321153].map fun w => (decode w).isOk) = List.replicate 12 false := by
  decide +kernel

/-- A command word lies least significant byte first, and what follows it in a stream stays (20_memory.md R66). -/
theorem test_decode_bytes : decodeBytes [0x30, 0x13, 0x02, 0x06, 0xAA] = .ok (.shl .arithmetic .w32 3 1 2, [0xAA]) := by
  decide +kernel

theorem test_decode_truncated : decodeBytes [0x01, 0x00, 0x00] = .error .truncated := by decide

theorem test_decode_table_word : decodeTableWord 32 0x05678203 = some (.ldis 2 0x5678) := by decide +kernel

/-! ### Small states -/

/-- x0 on, from a list; the rest 0. -/
def regs (l : List Nat) : Vector Word 16 :=
  let f := fun k => BitVec.ofNat 64 (l.getD k 0)
  #v[f 0, f 1, f 2, f 3, f 4, f 5, f 6, f 7, f 8, f 9, f 10, f 11, f 12, f 13, f 14, f 15]

/-- Reset, with HEAP_MAX_BYTES = 65536 as the vectors have it, and registers. -/
def block (l : List Nat) : State := { State.reset with heapMax := 65536, x := regs l }

/-- A memory from writes of (address, bytes, value). -/
def cells (writes : List (Nat × Nat × Nat)) : Memory := writes.foldl (fun m w => m.store w.1 (leBytes w.2.1 w.2.2)) []

/-- A heap of 4096 bytes with nothing allocated. -/
def heap (l : List Nat) (writes : List (Nat × Nat × Nat)) : State :=
  { block l with init := true, cap := 4096, bump := 8, mem := cells writes }

/-- The state section 2.5 of the vectors starts from, x1 and x2 given. -/
def engine (a b : Nat) : State := { block [0, a, b] with flagV := true, carryLo := 0x77, carryHi := 0x99 }

/-- The state sections 2.6 and 2.7 start from: A at 16, x3 and the value at 48 given. -/
def wide (a x3 b : Nat) : State :=
  { heap [0, 80, 16, x3] [(16, 16, a), (48, 16, b), (80, 16, 0xDEAD)] with carryLo := 0x77, carryHi := 0x99 }

/-- A and B at 16 and 48. -/
def pair (a b : Nat) : State := wide a 48 b

/-- A at 16 and a count in x3. -/
def counted (a n : Nat) : State := wide a n 0

/-- The state after a word is presented. -/
def issue (w : CmdWord) (s : State) : State :=
  match issueWord w s with
  | .next t => t
  | .fault _ | .refused _ => s

/-- The value of `n` bytes at an address. -/
def value (s : State) (a n : Nat) : Nat := leNat (s.mem.load a n)

/-- A register with the flags: x[r], CARRYLO, CARRYHI, V. -/
def withFlags (s : State) (r : Reg) : Word × Word × Word × Bool := (s.x[r], s.carryLo, s.carryHi, s.flagV)

/-- The value at 80 with the flags: CARRYHI, CARRYLO, V. -/
def at80 (s : State) : Nat × Word × Word × Bool := (value s 80 16, s.carryHi, s.carryLo, s.flagV)

/-- The latch: F, CODE, FAULTCMD, FAULTINFO; and CMDSEQ. -/
def latch (s : State) : Bool × BitVec 8 × CmdWord × Word × Word := (s.fault, s.code, s.faultCmd, s.faultInfo, s.cmdseq)

/-- A heap of the given chunks, BUMP, list heads, and further writes (links, payloads). -/
def chunks (l : List Nat) (cs : List Chunk) (bump : Nat) (heads : List (FreeList × Nat)) (writes : List (Nat × Nat × Nat)) : State :=
  heads.foldl (fun s h => s.setHead h.1 h.2)
    { heap l (cs.flatMap (fun c => [(c.addr - 8, 8, c.tag), (c.addr + c.size, 8, c.tag)]) ++ writes) with
      bump := BitVec.ofNat 64 bump, live := (cs.filter fun c => c.used).map Chunk.addr }

/-! ### System and register commands -/

/-- V-S1. -/
theorem test_nop : issue 0x00000001 (block []) = { block [] with cmdseq := 1 } := by decide +kernel

/-- V-S2, V-S3. -/
theorem test_ldi :
    (issue 0xFFFFF102 (block [])).x[1] = 0xFFFFFFFFFFFFFFFF ∧ (issue 0x80000102 (block [])).x[1] = 0xFFFFFFFFFFF80000 := by
  decide +kernel

/-- V-S6. -/
theorem test_ldis : (issue 0x0ABCD203 (block [0, 0, 0xFFFF000000000001])).x[2] = 0x1ABCD := by decide +kernel

/-- V-S8. -/
theorem test_mov : issue 0x00003704 (block [0, 0, 0, 48]) = { block [0, 0, 0, 48, 0, 0, 0, 48] with cmdseq := 1 } := by decide +kernel

/-- V-S9, V-S11, V-S12. -/
theorem test_rdsr :
    (issue 0x00003305 { block [] with cmdseq := 7 }).x[3] = 7 ∧ (issue 0x00000305 (heap [] [])).x[3] = 2 ∧
    (issue 0x0000A305 (block [])).x[3] = 65536 := by
  decide +kernel

/-- V-S13, V-S14. -/
theorem test_rdsr_undefined :
    latch (issue 0x0000B305 (block [])) = (true, 8, 0xB305, 0xB305, 0) ∧
    latch (issue 0x00020305 (block [])) = (true, 8, 0x20305, 0x20305, 0) := by
  decide +kernel

/-! ### Heap commands -/

/-- V-H1. -/
theorem test_hinit : issue 0x00001010 (block [0, 4096]) = { heap [0, 4096] [] with cmdseq := 1 } := by decide +kernel

/-- V-H2, V-H3, V-H6. -/
theorem test_hinit_faults :
    latch (issue 0x00001010 (heap [0, 4096] [])) = (true, 7, 0x1010, 0x1000, 0) ∧
    latch (issue 0x00001010 (block [0, 7])) = (true, 2, 0x1010, 7, 0) ∧
    latch (issue 0x00001010 (block [0, 65537])) = (true, 1, 0x1010, 0x10001, 0) := by
  decide +kernel

/-- V-H30, V-H32. -/
theorem test_hensure :
    issue 0x00001011 (heap [0, 5000] [(100, 1, 0x5A)]) = { heap [0, 5000] [(100, 1, 0x5A)] with cap := 8192, cmdseq := 1 } ∧
    (issue 0x00001011 { heap [0, 40001] [] with cap := 40000 }).cap = 65536 := by
  decide +kernel

/-- V-H33. -/
theorem test_hensure_outOfMemory : latch (issue 0x00001011 (heap [0, 65537] [])) = (true, 1, 0x1011, 0x10001, 0) := by decide +kernel

/-- V-H11. -/
theorem test_ld8 : (issue 0x00001412 (heap [0, 55] [(48, 8, 0x0102030405060708)])).x[4] = 1 := by decide +kernel

/-- V-H15. -/
theorem test_ld8_outOfRange : latch (issue 0x00001412 (heap [0, 4096] [])) = (true, 6, 0x1412, 0x1000, 0) := by decide +kernel

/-- V-H10. -/
theorem test_ld16 : (issue 0x00001413 (heap [0, 50] [(48, 8, 0x0102030405060708)])).x[4] = 0x506 := by decide +kernel

/-- V-H9, V-H18. -/
theorem test_ld32 :
    (issue 0x00001414 (heap [0, 48] [(48, 8, 0x0102030405060708)])).x[4] = 0x5060708 ∧
    (issue 0x00001414 (heap [0, 32] [(35, 1, 0x80)])).x[4] = 0x80000000 := by
  decide +kernel

/-- V-H12. -/
theorem test_ld64 : (issue 0x00001415 (heap [0, 51] [(48, 8, 0x0102030405060708)])).x[4] = 0x102030405 := by decide +kernel

/-- V-H16. -/
theorem test_ld64_negative :
    latch (issue 0x00001415 (heap [0, 0xFFFFFFFFFFFFFFF8] [])) = (true, 6, 0x1415, 0xFFFFFFFFFFFFFFF8, 0) := by
  decide +kernel

/-- V-H17. -/
theorem test_st8 : (issue 0x00021016 (heap [0, 20, 0x1FE] [])).mem = [(20, 0xFE)] := by decide +kernel

/-- R138, at the last two bytes. -/
theorem test_st16 : (issue 0x00021017 (heap [0, 4094, 0x12345] [])).mem = [(4094, 0x45), (4095, 0x23)] := by decide +kernel

/-- R139: a 0 byte leaves no cell. -/
theorem test_st32 :
    (issue 0x00021018 (heap [0, 9, 0x8765432100FF] [(13, 1, 7)])).mem = [(9, 0xFF), (11, 0x21), (12, 0x43), (13, 7)] := by
  decide +kernel

/-- V-H8. -/
theorem test_st64 :
    (issue 0x00021019 (heap [0, 48, 0x0102030405060708] [])).mem = [(48, 8), (49, 7), (50, 6), (51, 5), (52, 4), (53, 3), (54, 2), (55, 1)] := by
  decide +kernel

/-- V-H14. -/
theorem test_st64_outOfRange :
    (issue 0x00021019 (heap [0, 4089, 0xFF] [])).mem = [] ∧
    latch (issue 0x00021019 (heap [0, 4089, 0xFF] [])) = (true, 6, 0x21019, 0xFF9, 0) := by
  decide +kernel

/-- V-H22. -/
theorem test_memcpy :
    value (issue 0x0032101A (heap [0, 20, 16, 4] [(16, 4, 0x04030201)])) 16 8 = 0x0403020104030201 := by
  decide +kernel

/-- V-H20, V-H26, V-F11. -/
theorem test_memcpy_faults :
    latch (issue 0x0032101A (heap [0, 18, 16, 4] [])) = (true, 2, 0x32101A, 0x10, 0) ∧
    latch (issue 0x0032101A (heap [0, 48, 4094, 4] [])) = (true, 6, 0x32101A, 0xFFE, 0) ∧
    latch (issue 0x0032101A (heap [0, 5000, 6000, 0xFFFFFFFFFFFFFFFF] [])) = (true, 2, 0x32101A, 0xFFFFFFFFFFFFFFFF, 0) := by
  decide +kernel

/-- V-H27, V-H28. -/
theorem test_memmove :
    value (issue 0x0032101B (heap [0, 18, 16, 4] [(16, 4, 0x04030201)])) 16 6 = 0x040302010201 ∧
    value (issue 0x0032101B (heap [0, 15, 16, 4] [(16, 4, 0x04030201)])) 15 5 = 0x0404030201 := by
  decide +kernel

/-- V-H29. -/
theorem test_memset : (issue 0x0032101C (heap [0, 16, 0x3AB, 3] [])).mem = [(16, 0xAB), (17, 0xAB), (18, 0xAB)] := by decide +kernel

/-! ### Allocator commands -/

/-- V-A2, step 7. -/
theorem test_malloc_splits :
    issue 0x00001420 (chunks [0, 200] [⟨16, 256, false⟩, ⟨288, 16, true⟩] 312 [(.bin 3, 16)] []) =
      { chunks [0, 200, 0, 0, 16] [⟨16, 208, true⟩, ⟨240, 32, false⟩, ⟨288, 16, true⟩] 312 [(.bin 0, 240)] [] with cmdseq := 1 } := by
  decide +kernel

/-- V-A6, steps 2 and 4. -/
theorem test_malloc_bumps :
    issue 0x00001220 { heap [0, 100] [] with cap := 64 } = { chunks [0, 100, 16] [⟨16, 112, true⟩] 136 [] [] with cap := 136, cmdseq := 1 } ∧
    latch (issue 0x00001320 { chunks [0, 70000] [⟨16, 112, true⟩] 136 [] [] with cap := 136 }) = (true, 1, 0x1320, 0x11208, 0) := by
  decide +kernel

/-- V-A7, step 11. -/
theorem test_calloc :
    let s := issue 0x00021421 (chunks [0, 3, 8] [⟨16, 32, false⟩, ⟨64, 16, true⟩] 88 [(.bin 0, 16)]
      [(24, 24, 0xEEEEEEEEEEEEEEEEEEEEEEEEEEEEEEEEEEEEEEEEEEEEEEEE)])
    s.x[4] = 16 ∧ value s 16 24 = 0 ∧ value s 40 8 = 0xEEEEEEEEEEEEEEEE ∧ s.bin[0] = 0 ∧ s.live = [16, 64] ∧ value s 8 8 = 65 := by
  decide +kernel

/-- V-A8, steps 1 and 4. -/
theorem test_calloc_product :
    latch (issue 0x00021421 (heap [0, 0x100000000, 0x80000000] [])) = (true, 2, 0x21421, 0x8000000000000000, 0) ∧
    latch (issue 0x00021421 (heap [0, 0x4000000000000000, 1] [])) = (true, 1, 0x21421, 0x4000000000000018, 0) := by
  decide +kernel

/-- V-A5, step 9: both neighbours are free. -/
theorem test_free_coalesces :
    let s := issue 0x00004022 (chunks [0, 0, 0, 0, 80] [⟨16, 48, false⟩, ⟨80, 16, true⟩, ⟨112, 16, false⟩] 136 [(.bin 0, 112)] [(112, 8, 16)])
    value s 8 8 = 224 ∧ value s 128 8 = 224 ∧ value s 16 8 = 0 ∧ s.bin[0] = 0 ∧ s.bin[1] = 16 ∧ s.live = [] ∧ s.bump = 136 := by
  decide +kernel

/-- V-A9, steps 4, 6, 8 and 3. -/
theorem test_free_faults :
    let s := fun a => chunks [0, 0, 0, 0, 0, 0, a] [⟨16, 64, true⟩] 88 [] []
    latch (issue 0x00006022 (s 24)) = (true, 2, 0x6022, 24, 0) ∧ latch (issue 0x00006022 (s 80)) = (true, 2, 0x6022, 80, 0) ∧
    latch (issue 0x00006022 (s 32)) = (true, 5, 0x6022, 32, 0) ∧ issue 0x00006022 (s 0) = { s 0 with cmdseq := 1 } := by
  decide +kernel

/-- V-A10, step 6. -/
theorem test_realloc_shrinks :
    let s := issue 0x00012423 (chunks [0, 16, 16] [⟨16, 64, true⟩] 88 [] [(16, 8, 0x55)])
    s = { chunks [0, 16, 16, 0, 16] [⟨16, 16, true⟩, ⟨48, 32, false⟩] 88 [(.bin 0, 48)] [(16, 8, 0x55)] with cmdseq := 1 } := by
  decide +kernel

/-- V-A10, step 10. -/
theorem test_realloc_moves :
    let s := issue 0x00014623 (chunks [0, 100, 0, 0, 16] [⟨16, 16, true⟩, ⟨48, 32, false⟩, ⟨96, 48, true⟩] 152 [(.bin 0, 48)]
      [(16, 16, 0x55555555555555555555555555555555)])
    s.x[6] = 160 ∧ s.bump = 280 ∧ s.bin[0] = 16 ∧ s.live = [96, 160] ∧ value s 160 20 = 0x55555555555555555555555555555555 ∧
    value s 16 8 = 0 ∧ value s 8 8 = 128 ∧ value s 80 8 = 128 := by
  decide +kernel

/-! ### Engine commands -/

/-- V-E1 (the source's own example), V-E8. -/
theorem test_shl :
    withFlags (issue 0x06021330 (engine 0x12345678 8)) 3 = (0x34567800, 0x12, 0, true) ∧
    withFlags (issue 0x03021330 (engine 0xFFFFFFFFFFFFFFFF 64)) 3 = (0, 0xFFFFFFFFFFFFFFFF, 0, true) := by
  decide +kernel

/-- V-E5. -/
theorem test_shl_count : latch (issue 0x02021330 (engine 0x12345678 33)) = (true, 2, 0x2021330, 33, 0) := by decide +kernel

/-- V-E12, V-E13. -/
theorem test_shr :
    withFlags (issue 0x00021331 (engine 0x91 2)) 3 = (0xE4, 1, 0, true) ∧
    withFlags (issue 0x00021331 (engine 0x90 8)) 3 = (0xFF, 0x90, 0, true) := by
  decide +kernel

/-- V-E16, V-E17. -/
theorem test_ushr :
    withFlags (issue 0x01021332 (engine 0x8001 1)) 3 = (0x4000, 1, 0, true) ∧
    withFlags (issue 0x01021332 (engine 0x8001 16)) 3 = (0, 0x8001, 0, true) := by
  decide +kernel

/-- V-E19; V-E20 faults. -/
theorem test_bshl :
    withFlags (issue 0x03021333 (engine 0x102030405060708 16)) 3 = (0x304050607080000, 0x102, 0, true) ∧
    withFlags (issue 0x03021333 (engine 0x102030405060708 12)) 3 = (0, 0x77, 0x99, true) := by
  decide +kernel

/-- V-E21. -/
theorem test_bshr : withFlags (issue 0x02021334 (engine 0x80000000 8)) 3 = (0xFF800000, 0, 0, false) := by decide +kernel

/-- V-E22; V-E23 faults. -/
theorem test_bushr :
    withFlags (issue 0x02021335 (engine 0x80000000 8)) 3 = (0x800000, 0, 0, false) ∧
    withFlags (issue 0x02021335 (engine 0x80000000 7)) 3 = (0, 0x77, 0x99, true) := by
  decide +kernel

/-- V-E25, V-E28. -/
theorem test_and :
    withFlags (issue 0x04021336 (engine 0xCC 0xAA)) 3 = (0x88, 0x77, 0x99, true) ∧
    withFlags (issue 0x01021336 (engine 0xFFFFFFFFFFFFFFFF 0x123456789ABCDEF0)) 3 = (0xDEF0, 0x77, 0x99, true) := by
  decide +kernel

/-- V-E26. -/
theorem test_or : withFlags (issue 0x00021337 (engine 0xCC 0xAA)) 3 = (0xEE, 0x77, 0x99, true) := by decide +kernel

/-- V-E27, V-E29. -/
theorem test_xor :
    withFlags (issue 0x00021338 (engine 0xCC 0xAA)) 3 = (0x66, 0x77, 0x99, true) ∧
    withFlags (issue 0x01021338 (engine 0xFFFF 0xF0F)) 3 = (0xF0F0, 0x77, 0x99, true) := by
  decide +kernel

/-- V-E30, V-E32. -/
theorem test_not :
    withFlags (issue 0x02001339 (engine 0x12345678 0)) 3 = (0xEDCBA987, 0x77, 0x99, true) ∧
    withFlags (issue 0x00001339 (engine 0xFFFFFFFFFFFFFF00 0)) 3 = (0xFF, 0x77, 0x99, true) := by
  decide +kernel

/-- V-E33, V-E35. -/
theorem test_btest :
    withFlags (issue 0x0002133A (engine 0x80 7)) 3 = (1, 0x77, 0x99, true) ∧
    withFlags (issue 0x0002133A (engine 0x180 6)) 3 = (0, 0x77, 0x99, true) := by
  decide +kernel

/-- V-E34. -/
theorem test_btest_index : latch (issue 0x0002133A (engine 0x80 8)) = (true, 2, 0x2133A, 8, 0) := by decide +kernel

/-- V-E36, V-E37. -/
theorem test_bset :
    withFlags (issue 0x0102133B (engine 0 15)) 3 = (0x8000, 0x77, 0x99, true) ∧
    withFlags (issue 0x0102133B (engine 0x8000 15)) 3 = (0x8000, 0x77, 0x99, true) := by
  decide +kernel

/-- V-E38, V-E39. -/
theorem test_bclr :
    withFlags (issue 0x0202133C (engine 0xFFFFFFFF 0)) 3 = (0xFFFFFFFE, 0x77, 0x99, true) ∧
    withFlags (issue 0x0202133C (engine 0xFFFFFFFE 0)) 3 = (0xFFFFFFFE, 0x77, 0x99, true) := by
  decide +kernel

/-- V-E40, V-E41. -/
theorem test_btgl :
    withFlags (issue 0x0302133D (engine 1 63)) 3 = (0x8000000000000001, 0x77, 0x99, true) ∧
    withFlags (issue 0x0302133D (engine 0x8000000000000001 63)) 3 = (1, 0x77, 0x99, true) := by
  decide +kernel

/-- V-E44, V-E45. -/
theorem test_popcnt :
    withFlags (issue 0x0200133E (engine 0xF0F0F0F0 0)) 3 = (16, 0x77, 0x99, true) ∧
    withFlags (issue 0x0000133E (engine 0xFFFFFFFFFFFFFFFF 0)) 3 = (8, 0x77, 0x99, true) := by
  decide +kernel

/-- V-E47, V-E50. -/
theorem test_mask :
    withFlags (issue 0x0200133F (engine 12 0)) 3 = (0xFFF, 0x77, 0x99, true) ∧
    withFlags (issue 0x0300133F (engine 64 0)) 3 = (0xFFFFFFFFFFFFFFFF, 0x77, 0x99, true) := by
  decide +kernel

/-- V-E51. -/
theorem test_mask_width : latch (issue 0x0200133F (engine 33 0)) = (true, 2, 0x200133F, 33, 0) := by decide +kernel

/-- V-E52, V-E55. -/
theorem test_sext :
    withFlags (issue 0x02021340 (engine 0x80 8)) 3 = (0xFFFFFF80, 0x77, 0x99, true) ∧
    withFlags (issue 0x03021340 (engine 1 1)) 3 = (0xFFFFFFFFFFFFFFFF, 0x77, 0x99, true) := by
  decide +kernel

/-- V-E58, V-E59. -/
theorem test_zext :
    withFlags (issue 0x02021341 (engine 0x12345678 8)) 3 = (0x78, 0x77, 0x99, true) ∧
    withFlags (issue 0x02021341 (engine 0x12345678 32)) 3 = (0x12345678, 0x77, 0x99, true) := by
  decide +kernel

/-- V-E56, V-E60. -/
theorem test_sext_width :
    latch (issue 0x02021340 (engine 0x80 0)) = (true, 2, 0x2021340, 0, 0) ∧
    latch (issue 0x02021341 (engine 0x12345678 0)) = (true, 2, 0x2021341, 0, 0) := by
  decide +kernel

/-- V-E61, V-E64. -/
theorem test_bdec :
    (issue 0x02021042 (heap [0, 64, 0x12345678] [])).mem = [(64, 0x78), (65, 0x56), (66, 0x34), (67, 0x12)] ∧
    value (issue 0x00021042 (heap [0, 64, 0xAABBCCDDEEFF0011] [(64, 4, 0x12345678)])) 64 4 = 0x12345611 := by
  decide +kernel

/-- V-E63, V-E67. -/
theorem test_bcomp :
    (issue 0x01001343 (heap [0, 64] [(64, 4, 0x12345678)])).x[3] = 0x5678 ∧
    latch (issue 0x02001343 (block [0, 64])) = (true, 7, 0x2001343, 0x40, 0) := by
  decide +kernel

/-! ### Limb commands -/

/-- V-L2, V-L1. -/
theorem test_addh :
    at80 (issue 0x04321550 (pair 0xFFFFFFFFFFFFFFFFFFFFFFFFFFFFFFFF 1)) = (0, 0, 1, true) ∧
    (issue 0x04321550 (pair 0xFFFFFFFFFFFFFFFFFFFFFFFFFFFFFFFF 1)).x[5] = 1 ∧
    at80 (issue 0x00321550 (pair 0xFFFFFFFFFFFFFFFF 1)) = (0x10000000000000000, 0, 0, false) := by
  decide +kernel

/-- V-L32. -/
theorem test_addh_overlap :
    let s := issue 0x00321550 (heap [0, 24, 16, 16] [(16, 16, 0x0F0E0D0C0B0A09080706050403020100)])
    value s 24 16 = 0x1E1C1A18161412100E0C0A0806040200 ∧ value s 16 8 = 0x0706050403020100 := by
  decide +kernel

/-- V-L6, V-L7. -/
theorem test_subh :
    at80 (issue 0x00321551 (pair 0 1)) = (0xFFFFFFFFFFFFFFFFFFFFFFFFFFFFFFFF, 0, 1, true) ∧ (issue 0x00321551 (pair 0 1)).x[5] = 1 ∧
    at80 (issue 0x00321551 (pair 0x10000000000000000 1)) = (0xFFFFFFFFFFFFFFFF, 0, 0, false) := by
  decide +kernel

/-- V-L13, V-L11, V-L12. -/
theorem test_cmph :
    withFlags (issue 0x00032552 (pair 0x80000000000000000000000000000000 1)) 5 = (1, 0x77, 0x99, false) ∧
    (issue 0x00032552 (pair 0xFFFFFFFFFFFFFFFF 0x10000000000000000)).x[5] = 0xFFFFFFFFFFFFFFFF ∧
    (issue 0x00032552 (pair 7 7)).x[5] = 0 := by
  decide +kernel

/-- V-L15 (the source's own example), V-L21. -/
theorem test_shlh :
    at80 (issue 0x00321053 (counted 1 128)) = (0, 0, 1, true) ∧
    at80 (issue 0x00321053 (counted 0x123456789ABCDEF0FEDCBA9876543210 100)) =
      (0x65432100000000000000000000000000, 0x123456789, 0xABCDEF0FEDCBA987, true) := by
  decide +kernel

/-- V-F9, V-F10. -/
theorem test_shlh_order :
    latch (issue 0x00321053 (heap [0, 5000, 16, 200] [])) = (true, 2, 0x321053, 200, 0) ∧
    latch (issue 0x00321053 (heap [0, 5000, 16, 4] [])) = (true, 6, 0x321053, 5000, 0) := by
  decide +kernel

/-- V-L27, V-L28. -/
theorem test_shrh :
    at80 (issue 0x00321054 (counted 0x123456789ABCDEF0FEDCBA9876543210 68)) = (0x123456789ABCDEF, 0, 0xFEDCBA9876543210, true) ∧
    at80 (issue 0x00321054 (counted 0x123456789ABCDEF0FEDCBA9876543210 128)) = (0, 0x123456789ABCDEF0, 0xFEDCBA9876543210, true) := by
  decide +kernel

/-- V-L33. -/
theorem test_zeroh :
    let s := issue 0x00001055 (heap [0, 16] [(16, 24, 0xAAAAAAAAAAAAAAAAAAAAAAAAAAAAAAAAAAAAAAAAAAAAAAAA)])
    value s 16 16 = 0 ∧ value s 32 8 = 0xAAAAAAAAAAAAAAAA := by
  decide +kernel

/-- V-L34. -/
theorem test_wru64h :
    value (issue 0x00021056 (heap [0, 16, 0xFFFFFFFFFFFFFFFF] [(16, 16, 0xAAAAAAAAAAAAAAAAAAAAAAAAAAAAAAAA)])) 16 16 = 0xFFFFFFFFFFFFFFFF := by
  decide +kernel

/-- V-L36: the text abcdef0123456789abcdef0123456789 over its own source. -/
theorem test_hexh :
    let s := issue 0x00021057 (heap [0, 80, 80] [(80, 16, 0xABCDEF0123456789ABCDEF0123456789)])
    (s.mem.load 80 32).map BitVec.toNat =
      [97, 98, 99, 100, 101, 102, 48, 49, 50, 51, 52, 53, 54, 55, 56, 57, 97, 98, 99, 100, 101, 102, 48, 49, 50, 51, 52, 53, 54, 55, 56, 57] := by
  decide +kernel

/-! ### 128-bit typed commands -/

/-- V-I1 (the source's own example), V-I3. -/
theorem test_uadd :
    value (issue 0x00321060 (pair 0xFFFFFFFFFFFFFFFF 1)) 80 16 = 0x10000000000000000 ∧
    value (issue 0x04321060 (pair 0xFFFFFFFFFFFFFFFFFFFFFFFFFFFFFFFF 0)) 80 16 = 0xFFFFFFFFFFFFFFFFFFFFFFFFFFFFFFFF := by
  decide +kernel

/-- V-I2. -/
theorem test_uadd_overflow :
    latch (issue 0x00321060 (pair 0xFFFFFFFFFFFFFFFFFFFFFFFFFFFFFFFF 1)) = (true, 3, 0x00321060, 16, 0) ∧
    value (issue 0x00321060 (pair 0xFFFFFFFFFFFFFFFFFFFFFFFFFFFFFFFF 1)) 80 16 = 0xDEAD := by
  decide +kernel

/-- V-I6. -/
theorem test_usub : value (issue 0x00321061 (pair 7 5)) 80 16 = 2 := by decide +kernel

/-- V-I5. -/
theorem test_usub_underflow :
    latch (issue 0x00321061 (pair 5 7)) = (true, 4, 0x00321061, 16, 0) ∧ value (issue 0x00321061 (pair 5 7)) 80 16 = 0xDEAD := by
  decide +kernel

/-- V-I10, V-I12. -/
theorem test_ushl :
    value (issue 0x00321062 (counted 1 127)) 80 16 = 0x80000000000000000000000000000000 ∧
    value (issue 0x00321062 (counted 0 128)) 80 16 = 0 := by
  decide +kernel

/-- V-I11. -/
theorem test_ushl_overflow :
    latch (issue 0x00321062 (counted 1 128)) = (true, 3, 0x00321062, 128, 0) ∧
    value (issue 0x00321062 (counted 1 128)) 80 16 = 0xDEAD := by
  decide +kernel

/-- V-I16, V-I17. -/
theorem test_usrl :
    value (issue 0x00321063 (counted 0xFFFFFFFFFFFFFFFFFFFFFFFFFFFFFFFF 1)) 80 16 = 0x7FFFFFFFFFFFFFFFFFFFFFFFFFFFFFFF ∧
    value (issue 0x00321063 (counted 0xFFFFFFFFFFFFFFFFFFFFFFFFFFFFFFFF 128)) 80 16 = 0 := by
  decide +kernel

/-- V-I18. -/
theorem test_usrl_count :
    latch (issue 0x00321063 (counted 0xFFFFFFFFFFFFFFFFFFFFFFFFFFFFFFFF 0xFFFFFFFFFFFFFFFD)) = (true, 2, 0x00321063, 0xFFFFFFFFFFFFFFFD, 0) ∧
    value (issue 0x00321063 (counted 0xFFFFFFFFFFFFFFFFFFFFFFFFFFFFFFFF 0xFFFFFFFFFFFFFFFD)) 80 16 = 0xDEAD := by
  decide +kernel

/-- V-I21, V-I20. -/
theorem test_wrs64h :
    value (issue 0x00021068 (heap [0, 16, 0x8000000000000000] [])) 16 16 = 0xFFFFFFFFFFFFFFFF8000000000000000 ∧
    value (issue 0x00021068 (heap [0, 16, 0x64] [(16, 16, 0xAAAAAAAAAAAAAAAAAAAAAAAAAAAAAAAA)])) 16 16 = 0x64 := by
  decide +kernel

/-- V-I23, V-I27. -/
theorem test_sneg :
    value (issue 0x00021069 (pair 0x64 0)) 80 16 = 0xFFFFFFFFFFFFFFFFFFFFFFFFFFFFFF9C ∧
    value (issue 0x00021069 (pair 0x7FFFFFFFFFFFFFFFFFFFFFFFFFFFFFFF 0)) 80 16 = 0x80000000000000000000000000000001 := by
  decide +kernel

/-- V-I26. -/
theorem test_sneg_minimum :
    latch (issue 0x00021069 (pair 0x80000000000000000000000000000000 0)) = (true, 3, 0x00021069, 16, 0) ∧
    value (issue 0x00021069 (pair 0x80000000000000000000000000000000 0)) 80 16 = 0xDEAD := by
  decide +kernel

/-- V-I31, V-I34. -/
theorem test_sadd :
    value (issue 0x0032106A (pair 0xFFFFFFFFFFFFFFFFFFFFFFFFFFFFFFFF 1)) 80 16 = 0 ∧
    value (issue 0x0032106A (pair 0x80000000000000000000000000000000 0x7FFFFFFFFFFFFFFFFFFFFFFFFFFFFFFF)) 80 16 =
      0xFFFFFFFFFFFFFFFFFFFFFFFFFFFFFFFF := by
  decide +kernel

/-- V-I29, V-I32. -/
theorem test_sadd_overflow :
    latch (issue 0x0032106A (pair 0x7FFFFFFFFFFFFFFFFFFFFFFFFFFFFFFF 1)) = (true, 3, 0x0032106A, 16, 0) ∧
    value (issue 0x0032106A (pair 0x7FFFFFFFFFFFFFFFFFFFFFFFFFFFFFFF 1)) 80 16 = 0xDEAD ∧
    latch (issue 0x0032106A (pair 0x80000000000000000000000000000000 0xFFFFFFFFFFFFFFFFFFFFFFFFFFFFFFFF)) = (true, 3, 0x0032106A, 16, 0) ∧
    value (issue 0x0032106A (pair 0x80000000000000000000000000000000 0xFFFFFFFFFFFFFFFFFFFFFFFFFFFFFFFF)) 80 16 = 0xDEAD := by
  decide +kernel

/-- V-I35, V-I37. -/
theorem test_ssub :
    value (issue 0x0032106B (pair 0xFFFFFFFFFFFFFFFFFFFFFFFFFFFFFF9C 0x64)) 80 16 = 0xFFFFFFFFFFFFFFFFFFFFFFFFFFFFFF38 ∧
    value (issue 0x0032106B (pair 0xFFFFFFFFFFFFFFFFFFFFFFFFFFFFFFFF 0x80000000000000000000000000000000)) 80 16 = 0x7FFFFFFFFFFFFFFFFFFFFFFFFFFFFFFF := by
  decide +kernel

/-- V-I36. -/
theorem test_ssub_overflow :
    latch (issue 0x0032106B (pair 0 0x80000000000000000000000000000000)) = (true, 3, 0x0032106B, 16, 0) ∧
    value (issue 0x0032106B (pair 0 0x80000000000000000000000000000000)) 80 16 = 0xDEAD := by
  decide +kernel

/-- V-I42 (the source's §9 case), V-I44. -/
theorem test_sshl :
    value (issue 0x0032106C (counted 0xFFFFFFFFFFFFFFFFFFFFFFFFFFFFFFFF 127)) 80 16 = 0x80000000000000000000000000000000 ∧
    value (issue 0x0032106C (counted 1 126)) 80 16 = 0x40000000000000000000000000000000 := by
  decide +kernel

/-- V-I45. -/
theorem test_sshl_overflow :
    latch (issue 0x0032106C (counted 1 127)) = (true, 3, 0x0032106C, 127, 0) ∧
    value (issue 0x0032106C (counted 1 127)) 80 16 = 0xDEAD := by
  decide +kernel

/-- V-I52, V-I54. -/
theorem test_ssar :
    value (issue 0x0032106D (counted 0xFFFFFFFFFFFFFFFFFFFFFFFFFFFFFF9C 2)) 80 16 = 0xFFFFFFFFFFFFFFFFFFFFFFFFFFFFFFE7 ∧
    value (issue 0x0032106D (counted 0xFFFFFFFFFFFFFFFFFFFFFFFFFFFFFF9C 128)) 80 16 = 0xFFFFFFFFFFFFFFFFFFFFFFFFFFFFFFFF := by
  decide +kernel

/-- V-I60. -/
theorem test_ssar_count :
    latch (issue 0x0032106D (counted 0xFFFFFFFFFFFFFFFFFFFFFFFFFFFFFFF9 129)) = (true, 2, 0x0032106D, 129, 0) ∧
    value (issue 0x0032106D (counted 0xFFFFFFFFFFFFFFFFFFFFFFFFFFFFFFF9 129)) 80 16 = 0xDEAD := by
  decide +kernel

/-- V-I64, V-I65. -/
theorem test_scmp :
    (issue 0x0003256E (pair 0x80000000000000000000000000000000 0x7FFFFFFFFFFFFFFFFFFFFFFFFFFFFFFF)).x[5] = 0xFFFFFFFFFFFFFFFF ∧
    (issue 0x0003256E (pair 0xFFFFFFFFFFFFFFFFFFFFFFFFFFFFFFFF 0xFFFFFFFFFFFFFFFFFFFFFFFFFFFFFFFE)).x[5] = 1 ∧
    (issue 0x0003256E (pair 5 5)).x[5] = 0 := by
  decide +kernel

/-! ### Faults, host moves, reset, pseudo-instructions -/

/-- V-F1: LD8 past the end. -/
def halted : State :=
  { heap [0, 4096, 0, 0, 0x55] [] with cmdseq := 5, fault := true, code := 6, faultCmd := 0x1412, faultInfo := 0x1000 }

/-- The state after one step. -/
def next (s : State) : State :=
  match step s with
  | .next t => t
  | .fault _ | .refused _ => s

/-- V-F1. -/
theorem test_fault_entry : issue 0x00001412 { heap [0, 4096, 0, 0, 0x55] [] with cmdseq := 5 } = halted := by decide +kernel

/-- V-F2, V-F3. -/
theorem test_halted_drops : issue 0x00001402 halted = halted ∧ issue 0xFFFFFFFF halted = halted := by decide +kernel

/-- V-F4. -/
theorem test_halted_host :
    (next { halted with host := [.writeReg 4 0x66] }).x[4] = 0x66 ∧
    (next { halted with host := [.readSysReg .status] }).trace = [⟨.readSysReg .status, some 0x603⟩] := by
  decide +kernel

/-- V-F5. -/
theorem test_fault_clear :
    next { halted with host := [.faultClear] } = { heap [0, 4096, 0, 0, 0x55] [] with cmdseq := 5, trace := [⟨.faultClear, none⟩] } := by
  decide +kernel

/-- The move the rules do not allow (log 4). -/
theorem test_fault_clear_refused : step { heap [] [] with host := [.faultClear] } = .refused .faultClearNotLegal := rfl

/-- V-F7, V-D2. -/
theorem test_illegal_word :
    latch (issue 0x00321153 (block [0, 0, 0, 200])) = (true, 8, 0x321153, 0x321153, 0) ∧
    latch (issue 0xFFFFFFFF (block [])) = (true, 8, 0xFFFFFFFF, 0xFFFFFFFF, 0) := by
  decide +kernel

/-- V-R3. -/
theorem test_reset_move : next { halted with host := [.reset] } = { block [] with trace := [⟨.reset, none⟩] } := by decide +kernel

/-- V-H1, as the host's next move. -/
theorem test_fetch_word :
    next ((block [0, 4096]).withFetchWord 32 0x00001010) = { heap [0, 4096] [] with cmdseq := 1, trace := [⟨.issue 0x00001010, none⟩] } := by
  decide +kernel

/-- No move is pending (log 3). -/
theorem test_idle : next (block []) = block [] := by decide +kernel

/-- R108. -/
theorem test_pseudo :
    Pseudo.expand (.li 3 0xFFFFFFFFFFF80000) = [.ldi 3 0x80000] ∧
    Pseudo.expand (.li 3 0x123456789ABCDEF0) = [.ldi 3 0x1234, .ldis 3 0x5678, .ldis 3 0x9ABC, .ldis 3 0xDEF0] ∧
    Pseudo.expand (.oneh 1 2) = [.ldi 2 1, .wru64h 1 2] := by
  decide +kernel

/-- R105. -/
theorem test_asm_text :
    asmText (.shl .arithmetic .w32 3 1 2) = "SHL.32.A x3, x1, x2" ∧ asmText (.rdsr 3 31) = "RDSR x3, BIN15" := by
  decide +kernel

/-! ### States that meet the statements' hypotheses

A row `[..]` lists, in the order of a statement's tests, which of them a state passes: a row that ends in `false` reaches that test
and fails it, at the values next to the bound where there is one. -/

/-- `Inv`, decided. -/
def invCheck (s : State) : Bool :=
  decide (s.mem.Pairwise fun c d => c.1 < d.1) && s.mem.all (fun c => c.2 != 0) && s.mem.all (fun c => decide (c.1 < s.cap)) &&
    decide (s.fault = false → s.code = 0 ∧ s.faultCmd = 0 ∧ s.faultInfo = 0) &&
    decide (s.fault = true → 1 ≤ s.code.toNat ∧ s.code.toNat ≤ 8) &&
    decide (s.init = false → s.cap = 0 ∧ s.mem = [] ∧ s.bin = Vector.replicate 16 0 ∧ s.large = 0 ∧ s.bump = 0 ∧ s.live = []) &&
    decide (s.init = true → 8 ≤ s.bump.toNat ∧ s.bump.toNat % 16 = 8 ∧ s.bump.toNat ≤ s.cap ∧ s.cap ≤ s.heapMax) &&
    decide (24 ≤ s.heapMax ∧ s.heapMax < 2 ^ 62) && decide (s.live.Pairwise (· < ·)) &&
    decide (s.flagV = true ↔ s.carryLo ≠ 0 ∨ s.carryHi ≠ 0)

theorem inv_of_check {s : State} (h : invCheck s = true) : Inv s := by
  simp only [invCheck, Bool.and_eq_true, decide_eq_true_eq, List.all_eq_true, bne_iff_ne] at h
  obtain ⟨⟨⟨⟨⟨⟨⟨⟨⟨h0, h1⟩, h2⟩, h3⟩, h4⟩, h5⟩, h6⟩, h7⟩, h8⟩, h9⟩ := h
  exact ⟨⟨h0, h1⟩, h2, h3, h4, h5, h6, h7, h8, h9⟩

/-- `Memory.Tiled`, decided. -/
def tiledCheck (m : Memory) : Nat → List Chunk → Nat → Bool
  | h, [], b => h == b
  | h, c :: cs, b =>
    decide (c.addr = h + 8 ∧ 16 ≤ c.size ∧ c.size % 16 = 0) && leNat (m.load h 8) == c.tag &&
      leNat (m.load (h + 8 + c.size) 8) == c.tag && tiledCheck m (h + 16 + c.size) cs b

/-- `Memory.Linked`, decided. -/
def linkedCheck (m : Memory) : Nat → List Nat → Bool
  | p, [] => p == 0
  | p, q :: ps => p == q && q != 0 && linkedCheck m (leNat (m.load q 8)) ps

theorem tiled_of_check (m : Memory) (cs : List Chunk) (b : Nat) : ∀ h, tiledCheck m h cs b = true → m.Tiled h cs b := by
  induction cs with
  | nil => intro h hc; simpa [tiledCheck, Memory.Tiled] using hc
  | cons c cs ih =>
    intro h hc
    simp only [tiledCheck, Bool.and_eq_true, decide_eq_true_eq, beq_iff_eq, leNat_load] at hc
    obtain ⟨⟨⟨⟨h1, h2, h3⟩, h4⟩, h5⟩, h6⟩ := hc
    exact ⟨h1, h2, h3, h4, h5, ih _ h6⟩

theorem linked_of_check (m : Memory) (ps : List Nat) : ∀ p, linkedCheck m p ps = true → m.Linked p ps := by
  induction ps with
  | nil => intro p h; simpa [linkedCheck, Memory.Linked] using h
  | cons q ps ih =>
    intro p h
    simp only [linkedCheck, Bool.and_eq_true, beq_iff_eq, bne_iff_ne, leNat_load] at h
    exact ⟨h.1.1, h.1.2, ih _ h.2⟩

/-- All the free lists. -/
def allLists : List FreeList := .large :: (List.finRange 16).map FreeList.bin

theorem mem_allLists (l : FreeList) : l ∈ allLists := by cases l <;> simp [allLists]

/-- Free lists from those that are not empty. -/
def listsOf (ls : List (FreeList × List Nat)) (l : FreeList) : List Nat := (ls.lookup l).getD []

/-- `Represents`, decided. -/
def representsCheck (s : State) (cs : List Chunk) (ls : FreeList → List Nat) : Bool :=
  s.init && decide (s.bump.toNat ≤ s.cap ∧ s.cap ≤ s.heapMax ∧ s.heapMax < 2 ^ 62) && s.mem.all (fun c => decide (c.1 < s.cap)) &&
    tiledCheck s.mem 8 cs s.bump.toNat && decide (cs.IsChain fun c d => c.used = true ∨ d.used = true) &&
    allLists.all (fun l =>
      linkedCheck s.mem (s.head l) (ls l) && decide (ls l).Nodup &&
        (ls l).all fun p => cs.any fun c => decide (c.addr = p ∧ c.used = false ∧ listFor c.size = l)) &&
    cs.all (fun c => c.used || decide (c.addr ∈ ls (listFor c.size))) && s.live == (cs.filter fun c => c.used).map Chunk.addr

theorem represents_of_check {s : State} {cs : List Chunk} {ls : FreeList → List Nat} (h : representsCheck s cs ls = true) :
    Represents s cs ls := by
  simp only [representsCheck, Bool.and_eq_true, decide_eq_true_eq, List.all_eq_true, Bool.or_eq_true, beq_iff_eq,
    List.any_eq_true] at h
  obtain ⟨⟨⟨⟨⟨⟨⟨h1, h2⟩, h3⟩, h4⟩, h5⟩, h6⟩, h7⟩, h8⟩ := h
  refine ⟨h1, h2, ?_, tiled_of_check _ _ _ _ h4, h5, fun l => linked_of_check _ _ _ (h6 l (mem_allLists l)).1.1,
    fun l => (h6 l (mem_allLists l)).1.2, fun l p => ⟨fun hp => ?_, ?_⟩, ?_⟩
  · intro a ha
    apply Memory.read_eq_zero_of_notMem
    intro hm
    obtain ⟨c, hc, rfl⟩ := List.mem_map.1 hm
    have := h3 c hc
    omega
  · exact (h6 l (mem_allLists l)).2 p hp
  · rintro ⟨c, hc, rfl, hu, rfl⟩
    rcases h7 c hc with h | h
    · rw [hu] at h; cases h
    · exact h
  · intro p
    rw [h8]
    constructor
    · intro hp
      obtain ⟨c, hc, rfl⟩ := List.mem_map.1 hp
      have := List.mem_filter.1 hc
      exact ⟨c, this.1, rfl, this.2⟩
    · rintro ⟨c, hc, rfl, hu⟩
      exact List.mem_map.2 ⟨c, List.mem_filter.2 ⟨hc, hu⟩, rfl⟩

/-- The state an outcome leaves. -/
def leaves (o : Host.Outcome State Fault Refusal) : State :=
  match o with
  | .next t => t
  | .fault _ | .refused _ => State.reset

/-- Whether an outcome is a next state. -/
def isNext (o : Host.Outcome State Fault Refusal) : Bool :=
  match o with
  | .next _ => true
  | .fault _ | .refused _ => false

theorem next_of_isNext {o : Host.Outcome State Fault Refusal} (h : isNext o = true) : o = .next (leaves o) := by
  cases o <;> simp_all [isNext, leaves]

/-- -1 in a register. -/
abbrev minusOne : Nat := 0xFFFFFFFFFFFFFFFF

theorem witness_RegisterCommandResults :
    (block []).fault = false ∧ (0xFFFF : BitVec 20).toNat < 2 ^ 16 ∧ 2 ^ 16 ≤ (0x10000 : BitVec 20).toNat ∧
      (0x10000203 : CmdWord).toNat = 0x03 + (2 : Reg).val * 2 ^ 8 + (0x10000 : BitVec 20).toNat * 2 ^ 12 := by
  decide +kernel

theorem witness_RdsrReadsSystemRegisters :
    (block []).fault = false ∧ Inv (block []) ∧ (0 : BitVec 20).toNat = 0 ∧ (10 : BitVec 20).toNat = 10 ∧
      (16 : BitVec 20).toNat = 16 + (0 : Fin 16).val ∧ (31 : BitVec 20).toNat = 16 + (15 : Fin 16).val ∧
      (11 : BitVec 20).toNat = 11 ∧ (15 : BitVec 20).toNat = 15 ∧ (32 : BitVec 20).toNat = 32 :=
  ⟨rfl, inv_of_check (by decide +kernel), by decide⟩

theorem witness_HinitCreatesHeap :
    let row := fun s : State => [!s.fault, !s.init, decide (8 ≤ s.regInt 1), decide (s.regInt 1 ≤ s.heapMax)]
    row (block [0, 8]) = [true, true, true, true] ∧ row (block [0, 65536]) = [true, true, true, true] ∧
      row (heap [0, 8] []) = [true, false, true, true] ∧ row (block [0, 7]) = [true, true, false, true] ∧
      row (block [0, 65537]) = [true, true, true, false] := by
  decide +kernel

theorem witness_HensureGrowsHeap :
    let row := fun s : State => [!s.fault, s.init, decide (0 ≤ s.regInt 1), decide (s.addr 1 ≤ s.cap), decide (s.addr 1 ≤ s.heapMax)]
    row (heap [0, 4096] []) = [true, true, true, true, true] ∧ row (heap [0, 4097] []) = [true, true, true, false, true] ∧
      row (heap [0, 65536] []) = [true, true, true, false, true] ∧ row (heap [0, 65537] []) = [true, true, true, false, false] ∧
      row (heap [0, 0] []) = [true, true, true, true, true] ∧ (row (heap [0, minusOne] [])).take 3 = [true, true, false] ∧
      (row (block [0, 8])).take 2 = [true, false] := by
  decide +kernel

/-- The tests of an access of `n` bytes at x1. -/
def access (n : Nat) (s : State) : List Bool := [!s.fault, s.init, decide (s.InRange 1 n)]

theorem witness_LoadsReadLittleEndian :
    access 1 (heap [0, 4095] []) = [true, true, true] ∧ access 1 (heap [0, 4096] []) = [true, true, false] ∧
      access 2 (heap [0, 4094] []) = [true, true, true] ∧ access 2 (heap [0, 4095] []) = [true, true, false] ∧
      access 4 (heap [0, 4092] []) = [true, true, true] ∧ access 4 (heap [0, 4093] []) = [true, true, false] ∧
      access 8 (heap [0, 4088] []) = [true, true, true] ∧ access 8 (heap [0, 4089] []) = [true, true, false] ∧
      access 8 (heap [0, 0] []) = [true, true, true] ∧ access 1 (heap [0, minusOne] []) = [true, true, false] ∧
      (access 1 (block [])).take 2 = [true, false] := by
  decide +kernel

theorem witness_StoresWriteLittleEndian :
    access 1 (heap [0, 4095, 7] []) = [true, true, true] ∧ access 1 (heap [0, 4096, 7] []) = [true, true, false] ∧
      access 2 (heap [0, 4094, 7] []) = [true, true, true] ∧ access 2 (heap [0, 4095, 7] []) = [true, true, false] ∧
      access 4 (heap [0, 4092, 7] []) = [true, true, true] ∧ access 4 (heap [0, 4093, 7] []) = [true, true, false] ∧
      access 8 (heap [0, 4088, 7] []) = [true, true, true] ∧ access 8 (heap [0, 4089, 7] []) = [true, true, false] ∧
      access 8 (heap [0, minusOne, 7] []) = [true, true, false] ∧ (access 8 (block [0, 0, 7])).take 2 = [true, false] := by
  decide +kernel

theorem witness_MemcpyCopiesDisjointRanges :
    let row := fun s : State =>
      [!s.fault, s.init, decide (0 ≤ s.regInt 3), decide (s.regInt 3 ≠ 0), decide (s.InRange 1 (s.regInt 3)),
        decide (s.InRange 2 (s.regInt 3)),
        decide (s.regInt 1 + s.regInt 3 ≤ s.regInt 2 ∨ s.regInt 2 + s.regInt 3 ≤ s.regInt 1)]
    row (heap [0, 12, 16, 4] []) = [true, true, true, true, true, true, true] ∧
      row (heap [0, 4092, 4088, 4] []) = [true, true, true, true, true, true, true] ∧
      row (heap [0, 13, 16, 4] []) = [true, true, true, true, true, true, false] ∧
      row (heap [0, 19, 16, 4] []) = [true, true, true, true, true, true, false] ∧
      (row (heap [0, 16, 4093, 4] [])).take 6 = [true, true, true, true, true, false] ∧
      (row (heap [0, 4093, 16, 4] [])).take 5 = [true, true, true, true, false] ∧
      (row (heap [0, 99999, minusOne, 0] [])).take 4 = [true, true, true, false] ∧
      (row (heap [0, 16, 32, minusOne] [])).take 3 = [true, true, false] ∧ (row (block [])).take 2 = [true, false] := by
  decide +kernel

/-- The tests of MEMMOVE and, the fifth left out, of MEMSET. -/
def moveRow (s : State) : List Bool :=
  [!s.fault, s.init, decide (0 ≤ s.regInt 3), decide (s.regInt 3 ≠ 0), decide (s.InRange 1 (s.regInt 3)),
    decide (s.InRange 2 (s.regInt 3))]

theorem witness_MemmoveCopiesOldBytes :
    moveRow (heap [0, 4092, 4091, 4] []) = [true, true, true, true, true, true] ∧
      moveRow (heap [0, 16, 4093, 4] []) = [true, true, true, true, true, false] ∧
      (moveRow (heap [0, 4093, 16, 4] [])).take 5 = [true, true, true, true, false] ∧
      (moveRow (heap [0, 4096, 4096, 0] [])).take 4 = [true, true, true, false] ∧
      (moveRow (heap [0, 0, 0, minusOne] [])).take 3 = [true, true, false] ∧ (moveRow (block [])).take 2 = [true, false] := by
  decide +kernel

theorem witness_MemsetFillsRange :
    (moveRow (heap [0, 4092, 0x3AB, 4] [])).take 5 = [true, true, true, true, true] ∧
      (moveRow (heap [0, 4093, 0x3AB, 4] [])).take 5 = [true, true, true, true, false] ∧
      (moveRow (heap [0, 4096, 0, 0] [])).take 4 = [true, true, true, false] ∧
      (moveRow (heap [0, 0, 0, minusOne] [])).take 3 = [true, true, false] ∧ (moveRow (block [])).take 2 = [true, false] := by
  decide +kernel

/-- The last eight bytes are stored; a load of one byte at offset 7 and of eight at offset 0 lie inside. -/
theorem witness_LoadAfterStoreSeesItsBytes :
    let s := heap [0, 4088, 0x1122334455667788, 4095] []
    let t := leaves (exec (.st64 1 2) s)
    s.fault = false ∧ s.init = true ∧ s.InRange 1 8 ∧ isNext (exec (.st64 1 2) s) = true ∧ 7 + 1 ≤ 8 ∧
      t.regInt 3 = s.regInt 1 + 7 ∧ 0 + 8 ≤ 8 ∧ t.regInt 1 = s.regInt 1 + 0 := by
  decide +kernel

/-- The payload test of FREE and REALLOC at x1. -/
def payloadRow (s : State) : List Bool :=
  [!s.fault, s.init, decide (s.reg 1 ≠ 0),
    decide (16 ≤ s.regInt 1 ∧ s.reg 1 % 16 = 0 ∧ s.reg 1 + 24 ≤ s.bump.toNat)]

theorem witness_AllocatorChecksArguments :
    let one := fun l => chunks l [⟨16, 16, true⟩] 40 [] []
    payloadRow (one [0, 16]) = [true, true, true, true] ∧ payloadRow (one [0, 32]) = [true, true, true, false] ∧
      payloadRow (one [0, 24]) = [true, true, true, false] ∧ payloadRow (one [0, 8]) = [true, true, true, false] ∧
      payloadRow (one [0, 0xFFFFFFFFFFFFFFF0]) = [true, true, true, false] ∧ (payloadRow (one [])).take 3 = [true, true, false] ∧
      (payloadRow (block [])).take 2 = [true, false] ∧ (one [0, minusOne]).regInt 1 < 0 ∧ 0 ≤ (one [0, 0]).regInt 1 ∧
      (one [0, 0, minusOne]).regInt 2 < 0 ∧ (leaves (exec (.malloc 3 2) (one [0, 0, 40]))).fault = false ∧
      (leaves (exec (.malloc 3 2) (one [0, 0, 70000]))).fault = true := by
  decide +kernel

/-- The chunk the tag before `p` describes, valid or not. -/
def chunkAt (s : State) (p : Nat) : Chunk := ⟨p, s.mem.natAt (p - 8) 8 / 2, s.mem.natAt (p - 8) 8 % 2 == 1⟩

theorem chunkAt_of_hasChunk {s : State} {c : Chunk} (h : s.HasChunk c) : c = chunkAt s c.addr := by
  obtain ⟨p, z, u⟩ := c
  have h : s.mem.natAt (p - 8) 8 = 2 * z + u.toNat := h.2.2.2.2.2.1
  simp only [chunkAt, h]
  cases u
  · simp
  · simp; omega

/-- No valid chunk is at `p`; no valid free one, when only free ones count. -/
def noChunkCheck (s : State) (onlyFree : Bool) (p : Nat) : Bool :=
  decide ¬s.HasChunk (chunkAt s p) || onlyFree && (chunkAt s p).used

theorem noChunk_of_check {s : State} {p : Nat} (h : noChunkCheck s false p = true) : ∀ c : Chunk, c.addr = p → ¬s.HasChunk c := by
  rintro c rfl hc
  rw [noChunkCheck, ← chunkAt_of_hasChunk hc, decide_eq_false (not_not_intro hc)] at h
  cases h

theorem noFreeChunk_of_check {s : State} {p : Nat} (h : noChunkCheck s true p = true) : s.NoFreeChunk p := by
  rintro c rfl hu hc
  rw [noChunkCheck, ← chunkAt_of_hasChunk hc, hu, decide_eq_false (not_not_intro hc)] at h
  cases h

/-- `State.Walks`, decided. -/
def walksCheck (s : State) (passes : Chunk → Bool) : Nat → List Chunk → Nat → Bool
  | p, [], q => p == q
  | p, c :: cs, q => p == c.addr && decide (s.HasChunk c) && !c.used && passes c && walksCheck s passes (s.mem.natAt p 8) cs q

theorem walks_of_check {s : State} {passes : Chunk → Prop} [DecidablePred passes] {p q : Nat} {cs : List Chunk}
    (h : walksCheck s (fun c => decide (passes c)) p cs q = true) : s.Walks passes p cs q := by
  induction cs generalizing p with
  | nil => simpa [walksCheck, State.Walks] using h
  | cons c cs ih =>
    simp only [walksCheck, Bool.and_eq_true, decide_eq_true_eq, beq_iff_eq, Bool.not_eq_true'] at h
    obtain ⟨⟨⟨⟨h1, h2⟩, h3⟩, h4⟩, h5⟩ := h
    exact ⟨h1, h2, h3, h4, ih h5⟩

/-- `State.SearchBreaks` by way of the given chunks, decided. -/
def searchBreaksCheck (s : State) (l : FreeList) (r p : Nat) (cs : List Chunk) : Bool :=
  walksCheck s (fun c => decide (c.size < r)) (s.head l) cs p && p != 0 && decide (cs.length ≤ s.bump.toNat / 32) &&
    (decide (cs.length = s.bump.toNat / 32) || noChunkCheck s true p)

theorem searchBreaks_of_check {s : State} {l : FreeList} {r p : Nat} {cs : List Chunk} (h : searchBreaksCheck s l r p cs = true) :
    s.SearchBreaks l r p := by
  simp only [searchBreaksCheck, Bool.and_eq_true, Bool.or_eq_true, decide_eq_true_eq, bne_iff_ne] at h
  exact ⟨cs, walks_of_check h.1.1.1, h.1.1.2, h.1.2, h.2.imp_right noFreeChunk_of_check⟩

/-- `State.AllocBreaks` decided, in the bin of the request or, with the chunks the search of the bin passed, in the large list. -/
def allocBreaksCheck (s : State) (n p : Nat) (large : Bool) (bin cs : List Chunk) : Bool :=
  let r := max 16 ((n + 15) / 16 * 16)
  if large then
    (decide (1024 < r) ||
      walksCheck s (fun c => decide (c.size < r)) (s.head (listFor r)) bin 0 && decide (bin.length ≤ s.bump.toNat / 32)) &&
      searchBreaksCheck s .large r p cs
  else decide (r ≤ 1024) && searchBreaksCheck s (listFor r) r p cs

theorem allocBreaks_of_check {s : State} {n p : Nat} (large : Bool) (bin cs : List Chunk)
    (h : allocBreaksCheck s n p large bin cs = true) : s.AllocBreaks n p := by
  cases large
  · simp only [allocBreaksCheck, Bool.false_eq_true, if_false, Bool.and_eq_true, decide_eq_true_eq] at h
    exact .inl ⟨h.1, searchBreaks_of_check h.2⟩
  · simp only [allocBreaksCheck, if_true, Bool.and_eq_true, Bool.or_eq_true, decide_eq_true_eq] at h
    refine .inr ⟨fun hr => ?_, searchBreaks_of_check h.2⟩
    have := h.1.resolve_left (by omega)
    exact ⟨bin, walks_of_check this.1, this.2⟩

/-- `State.UnlinkBreaks` by way of the given chunks to `q`, decided. -/
def unlinkBreaksCheck (s : State) (l : FreeList) (t p : Nat) (cs : List Chunk) (q : Nat) : Bool :=
  walksCheck s (fun c => decide (c.addr ≠ t)) (s.head l) cs q && q != t && decide (cs.length ≤ s.bump.toNat / 32) &&
    if q = 0 ∨ cs.length = s.bump.toNat / 32 then p == t else p == q && noChunkCheck s true q

theorem unlinkBreaks_of_check {s : State} {l : FreeList} {t p : Nat} {cs : List Chunk} {q : Nat}
    (h : unlinkBreaksCheck s l t p cs q = true) : s.UnlinkBreaks l t p := by
  simp only [unlinkBreaksCheck, Bool.and_eq_true, decide_eq_true_eq, bne_iff_ne] at h
  refine ⟨cs, q, walks_of_check h.1.1.1, h.1.1.2, h.1.2, ?_⟩
  have h := h.2
  split at h
  · rename_i hc; rw [if_pos hc]; simpa using h
  · rename_i hc
    rw [if_neg hc]
    simp only [Bool.and_eq_true, beq_iff_eq] at h
    exact h.imp_right noFreeChunk_of_check

/-- `State.PrecedingBreaks` by way of the given chunks to `q`, decided. -/
def precedingBreaksCheck (s : State) (a p : Nat) (cs : List Chunk) (q : Nat) : Bool :=
  let f := s.mem.natAt (a - 16) 8
  let ps := f / 2
  let c : Chunk := ⟨a - 16 - ps, ps, false⟩
  a != 16 && f % 2 == 0 &&
    if 16 ≤ ps ∧ ps % 16 = 0 ∧ 16 ≤ c.addr then
      if s.HasChunk c then unlinkBreaksCheck s (listFor ps) c.addr p cs q else p == c.addr
    else p == a - 16

theorem precedingBreaks_of_check {s : State} {a size p : Nat} (cs : List Chunk) (q : Nat) (h : precedingBreaksCheck s a p cs q = true) :
    s.FreeBreaks a size p := by
  simp only [precedingBreaksCheck, Bool.and_eq_true, beq_iff_eq, bne_iff_ne] at h
  refine .inl ⟨h.1.1, _, (show _ = 2 * (s.mem.natAt (a - 16) 8 / 2) by omega), ?_⟩
  have h := h.2
  split at h
  · rename_i hc
    rw [if_pos hc]
    split at h
    · exact .inr ⟨by assumption, unlinkBreaks_of_check h⟩
    · exact .inl ⟨by assumption, by simpa using h⟩
  · rename_i hc; rw [if_neg hc]; simpa using h

/-- `State.FollowingBreaks` by way of the given chunks to `q`, decided. -/
def followingBreaksCheck (s : State) (n p : Nat) (cs : List Chunk) (q : Nat) : Bool :=
  let c := chunkAt s n
  decide (n - 8 < s.bump.toNat) &&
    if s.HasChunk c then !c.used && unlinkBreaksCheck s (listFor c.size) n p cs q else p == n

theorem followingBreaks_of_check {s : State} {n p : Nat} {cs : List Chunk} {q : Nat} (h : followingBreaksCheck s n p cs q = true) :
    s.FollowingBreaks n p := by
  simp only [followingBreaksCheck, Bool.and_eq_true, decide_eq_true_eq] at h
  refine ⟨h.1, ?_⟩
  have h := h.2
  split at h
  · rename_i hc
    simp only [Bool.and_eq_true, Bool.not_eq_true'] at h
    exact .inr ⟨_, by rw [← h.1]; exact hc, unlinkBreaks_of_check h.2⟩
  · rename_i hc
    exact .inl ⟨noChunk_of_check (by simp only [noChunkCheck, hc]; rfl), by simpa using h⟩

/-- Freeing where the preceding chunk is absent or in use, then a break at the following one. -/
theorem followingBreaks_alone {s : State} {a size p : Nat} (cs : List Chunk) (q : Nat)
    (h : ((a == 16 || s.mem.natAt (a - 16) 8 % 2 == 1) && followingBreaksCheck s (a + size + 16) p cs q) = true) :
    s.FreeBreaks a size p := by
  simp only [Bool.and_eq_true, Bool.or_eq_true, beq_iff_eq] at h
  exact .inr ⟨s, .inl ⟨h.1, rfl⟩, followingBreaks_of_check h.2⟩

/-- The state with the chunk at `t` off its list, `cs` the chunks before it. -/
def unlinked (s : State) (l : FreeList) (t : Nat) (cs : List Chunk) : State :=
  match cs.getLast? with
  | none => s.setHead l (s.mem.natAt t 8)
  | some c => { s with mem := s.mem.store c.addr (leBytes 8 (s.mem.natAt t 8)) }

/-- Freeing where the preceding chunk, of `ps` bytes, comes off its list, then a break at the following one. -/
theorem followingBreaks_merged {s : State} {a size p : Nat} (ps : Nat) (before cs : List Chunk) (q : Nat)
    (h : (a != 16 && s.mem.natAt (a - 16) 8 == 2 * ps && decide (s.HasChunk ⟨a - 16 - ps, ps, false⟩) &&
      walksCheck s (fun c => decide (c.addr ≠ a - 16 - ps)) (s.head (listFor ps)) before (a - 16 - ps) &&
      decide (before.length ≤ s.bump.toNat / 32) &&
      followingBreaksCheck (unlinked s (listFor ps) (a - 16 - ps) before) (a + size + 16) p cs q) = true) :
    s.FreeBreaks a size p := by
  simp only [Bool.and_eq_true, beq_iff_eq, bne_iff_ne, decide_eq_true_eq] at h
  obtain ⟨⟨⟨⟨⟨h1, h2⟩, h3⟩, h4⟩, h5⟩, h6⟩ := h
  refine .inr ⟨_, .inr ⟨h1, ps, h2, h3, before, walks_of_check h4, h5, ?_⟩, followingBreaks_of_check h6⟩
  unfold unlinked
  cases before.getLast? with
  | none => rfl
  | some c => exact ⟨_, Memory.wrote_store _ _ _ _, rfl⟩

/-- A state MALLOC meets: no fault, a heap, the invariant, a size that is not negative. -/
def searchRow (s : State) : Bool := !s.fault && s.init && invCheck s && decide (0 ≤ s.regInt 1)

/-- MALLOC meets an impossible address, a chunk in use, one after a chunk that is too small, a list that goes round (BUMP div 32 is 1),
a list where no step may be taken (0), and the same in the large list after the bin's search ended and where there is no bin. -/
theorem witness_AllocatorChecksArguments_search :
    let used := fun n head => chunks [0, n] [⟨16, 16, true⟩] 40 [head] []
    let second := chunks [0, 32] [⟨16, 16, false⟩, ⟨48, 32, true⟩] 88 [(.bin 0, 16)] [(16, 8, 48)]
    let round := chunks [0, 32] [⟨16, 16, false⟩] 40 [(.bin 0, 16)] [(16, 8, 16)]
    let ended := chunks [0, 32] [⟨16, 16, false⟩] 40 [(.bin 0, 16), (.large, 8)] []
    let none := chunks [0, 16] [] 8 [(.bin 0, 16)] []
    (searchRow (used 16 (.bin 0, 24)) = true ∧ (used 16 (.bin 0, 24)).AllocBreaks 16 24) ∧
      (searchRow (used 16 (.bin 0, 16)) = true ∧ (used 16 (.bin 0, 16)).AllocBreaks 16 16) ∧
      (searchRow second = true ∧ second.AllocBreaks 32 48) ∧ (searchRow round = true ∧ round.AllocBreaks 32 16) ∧
      (searchRow none = true ∧ none.AllocBreaks 16 16) ∧ (searchRow ended = true ∧ ended.AllocBreaks 32 8) ∧
      (searchRow (used 1025 (.large, 16)) = true ∧ (used 1025 (.large, 16)).AllocBreaks 1025 16) :=
  ⟨⟨by decide +kernel, allocBreaks_of_check false [] [] (by decide +kernel)⟩,
    ⟨by decide +kernel, allocBreaks_of_check false [] [] (by decide +kernel)⟩,
    ⟨by decide +kernel, allocBreaks_of_check false [] [⟨16, 16, false⟩] (by decide +kernel)⟩,
    ⟨by decide +kernel, allocBreaks_of_check false [] [⟨16, 16, false⟩] (by decide +kernel)⟩,
    ⟨by decide +kernel, allocBreaks_of_check false [] [] (by decide +kernel)⟩,
    ⟨by decide +kernel, allocBreaks_of_check true [⟨16, 16, false⟩] [] (by decide +kernel)⟩,
    ⟨by decide +kernel, allocBreaks_of_check true [] [] (by decide +kernel)⟩⟩

/-- The tests of FREE and REALLOC up to the tags of the chunk at x1. -/
def tagRow (s : State) : List Bool :=
  let header := s.mem.natAt (s.reg 1 - 8) 8
  let size := header / 2
  [(payloadRow s).all id, invCheck s, decide (16 ≤ size ∧ size % 16 = 0 ∧ s.reg 1 + size + 8 ≤ s.bump.toNat),
    decide (s.mem.natAt (s.reg 1 + size) 8 = header), decide (header % 2 = 1)]

/-- The size in the header is too large by 16, too small by 16, no multiple of 16; the footer differs in the size, in the last bit; the
chunk is free already. -/
theorem witness_AllocatorChecksArguments_tags :
    let s := fun (u : Bool) writes => chunks [0, 16] [⟨16, 16, u⟩] 40 [] writes
    tagRow (s true []) = [true, true, true, true, true] ∧
      (tagRow (s true [(8, 8, 65)])).take 3 = [true, true, false] ∧ (tagRow (s true [(8, 8, 1)])).take 3 = [true, true, false] ∧
      (tagRow (s true [(8, 8, 49)])).take 3 = [true, true, false] ∧
      (tagRow (s true [(32, 8, 65)])).take 4 = [true, true, true, false] ∧
      (tagRow (s true [(32, 8, 32)])).take 4 = [true, true, true, false] ∧
      tagRow (s false []) = [true, true, true, true, false] := by
  decide +kernel

/-- Whether FREE and REALLOC come to the neighbours of the chunk at x1, of `size` bytes. -/
def reaches (s : State) (size : Nat) : Bool := (tagRow s).all id && s.mem.natAt (s.reg 1 - 8) 8 / 2 == size

/-- FREE meets a preceding footer whose size is 0, or reaches below 16, or whose header differs; a preceding chunk that is on no list, on
a list with a member in use, on a list that goes round beside it. -/
theorem witness_AllocatorChecksArguments_preceding :
    let two := fun (u : Bool) heads writes => chunks [0, 48] [⟨16, 16, u⟩, ⟨48, 16, true⟩] 72 heads writes
    let round := chunks [0, 48] [⟨16, 16, false⟩, ⟨48, 16, true⟩, ⟨80, 16, false⟩] 104 [(.bin 0, 80)] [(80, 8, 80)]
    (reaches (two true [] [(32, 8, 0)]) 16 = true ∧ (two true [] [(32, 8, 0)]).FreeBreaks 48 16 32) ∧
      (reaches (two true [] [(32, 8, 64)]) 16 = true ∧ (two true [] [(32, 8, 64)]).FreeBreaks 48 16 32) ∧
      (reaches (two true [] [(32, 8, 32)]) 16 = true ∧ (two true [] [(32, 8, 32)]).FreeBreaks 48 16 16) ∧
      (reaches (two false [] []) 16 = true ∧ (two false [] []).FreeBreaks 48 16 16) ∧
      (reaches (two false [(.bin 0, 48)] []) 16 = true ∧ (two false [(.bin 0, 48)] []).FreeBreaks 48 16 48) ∧
      (reaches round 16 = true ∧ round.FreeBreaks 48 16 16) :=
  ⟨⟨by decide +kernel, precedingBreaks_of_check [] 0 (by decide +kernel)⟩,
    ⟨by decide +kernel, precedingBreaks_of_check [] 0 (by decide +kernel)⟩,
    ⟨by decide +kernel, precedingBreaks_of_check [] 0 (by decide +kernel)⟩,
    ⟨by decide +kernel, precedingBreaks_of_check [] 0 (by decide +kernel)⟩,
    ⟨by decide +kernel, precedingBreaks_of_check [] 48 (by decide +kernel)⟩,
    ⟨by decide +kernel, precedingBreaks_of_check (List.replicate 3 ⟨80, 16, false⟩) 80 (by decide +kernel)⟩⟩

/-- FREE meets a following chunk whose tags differ; a free one on no list, with no preceding chunk and after the preceding chunk came off
the head of the list; one whose tags differ after the preceding chunk came off behind another member. -/
theorem witness_AllocatorChecksArguments_following :
    let two := fun (u : Bool) writes => chunks [0, 16] [⟨16, 16, true⟩, ⟨48, 16, u⟩] 72 [] writes
    let three := chunks [0, 48] [⟨16, 16, false⟩, ⟨48, 16, true⟩, ⟨80, 16, false⟩] 104 [(.bin 0, 16)] []
    let four := chunks [0, 48] [⟨16, 16, false⟩, ⟨48, 16, true⟩, ⟨80, 16, true⟩, ⟨112, 16, false⟩] 136 [(.bin 0, 112)]
      [(112, 8, 16), (72, 8, 34)]
    (reaches (two true [(40, 8, 34)]) 16 = true ∧ (two true [(40, 8, 34)]).FreeBreaks 16 16 48) ∧
      (reaches (two false []) 16 = true ∧ (two false []).FreeBreaks 16 16 48) ∧
      (reaches three 16 = true ∧ three.FreeBreaks 48 16 80) ∧ (reaches four 16 = true ∧ four.FreeBreaks 48 16 80) :=
  ⟨⟨by decide +kernel, followingBreaks_alone [] 0 (by decide +kernel)⟩,
    ⟨by decide +kernel, followingBreaks_alone [] 0 (by decide +kernel)⟩,
    ⟨by decide +kernel, followingBreaks_merged 16 [] [] 0 (by decide +kernel)⟩,
    ⟨by decide +kernel, followingBreaks_merged 16 [⟨112, 16, false⟩] [] 0 (by decide +kernel)⟩⟩

/-- The memory with the tags of a chunk written. -/
def tagged (m : Memory) (c : Chunk) : Memory :=
  (m.store (c.addr - 8) (leBytes 8 c.tag)).store (c.addr + c.size) (leBytes 8 c.tag)

theorem tagged_wroteTags (m : Memory) (c : Chunk) : m.WroteTags (tagged m c) c :=
  ⟨_, Memory.wrote_store _ _ _ _, Memory.wrote_store _ _ _ _⟩

/-- REALLOC from 64 to 16 bytes beside a free chunk that is on no list; from 16 to 32 bytes with an impossible address in the bin, and
with the chunk after the old one free and on no list. -/
theorem witness_AllocatorChecksArguments_realloc :
    let s := chunks [0, 16, 16] [⟨16, 64, true⟩, ⟨96, 16, false⟩] 120 [] []
    let m1 := tagged s.mem ⟨16, 16, true⟩
    let m2 := tagged m1 ⟨48, 32, true⟩
    let grow := fun (u : Bool) heads => chunks [0, 16, 32] [⟨16, 16, true⟩, ⟨48, 16, u⟩] 72 heads []
    let t := leaves (exec (.malloc 3 2) (grow false []))
    (reaches s 64 = true ∧ s.regInt 2 = 16 ∧ s.mem.WroteTags m1 ⟨16, 16, true⟩ ∧ m1.WroteTags m2 ⟨48, 32, true⟩ ∧
        { s with mem := m2 }.FreeBreaks 48 32 96) ∧
      (reaches (grow true [(.bin 0, 24)]) 16 = true ∧ (grow true [(.bin 0, 24)]).regInt 2 = 32 ∧
        (grow true [(.bin 0, 24)]).AllocBreaks 32 24) ∧
      (reaches (grow false []) 16 = true ∧ (grow false []).regInt 2 = 32 ∧ exec (.malloc 3 2) (grow false []) = .next t ∧
        t.fault = false ∧ { t with mem := t.mem.copyUp t.x[3].toNat 16 16 }.FreeBreaks 16 16 48) :=
  ⟨⟨by decide +kernel, by decide +kernel, tagged_wroteTags .., tagged_wroteTags ..,
      followingBreaks_alone [] 0 (by decide +kernel)⟩,
    ⟨by decide +kernel, by decide +kernel, allocBreaks_of_check false [] [] (by decide +kernel)⟩,
    ⟨by decide +kernel, by decide +kernel, next_of_isNext (by decide +kernel), by decide +kernel,
      followingBreaks_alone [] 0 (by decide +kernel)⟩⟩

theorem witness_CallocIsMallocThenZeroFill :
    let row := fun s : State =>
      [!s.fault, s.init, decide (0 ≤ s.regInt 1), decide (0 ≤ s.regInt 2),
        decide ((s.regInt 1).toNat * (s.regInt 2).toNat ≤ 2 ^ 63 - 1)]
    let made := fun (s : State) (t : Nat) => leaves (exec (.malloc 3 1) { s with x := s.x.set 1 (BitVec.ofNat 64 t) })
    row (heap [0, 3, 8] []) = [true, true, true, true, true] ∧
      row (heap [0, 0x7FFFFFFFFFFFFFFF, 1] []) = [true, true, true, true, true] ∧
      row (heap [0, 0x100000000, 0x80000000] []) = [true, true, true, true, false] ∧
      (row (heap [0, 1, minusOne] [])).take 4 = [true, true, true, false] ∧
      (row (heap [0, minusOne, 1] [])).take 3 = [true, true, false] ∧ (row (block [])).take 2 = [true, false] ∧
      (made (heap [0, 3, 8] []) 24).fault = false ∧ (made (heap [0, 0x7FFFFFFFFFFFFFFF, 1] []) 0x7FFFFFFFFFFFFFFF).fault = true := by
  decide +kernel

/-- The bump pointer at 8, requests of 16 and 1040 bytes: the last capacity that is enough, and one byte less. -/
theorem witness_EmptyListsBumpAllocate :
    let s := fun (m : Nat) (l : List Nat) => { heap l [] with cap := 8, heapMax := m }
    Inv (s 40 [0, 16]) ∧ Inv (s 39 [0, 16]) ∧ Inv (s 1064 [0, 1025]) ∧ Inv (s 40 [0, 2, 8]) ∧ Inv (s 40 [0, 0, 16]) ∧
      ((s 40 [0, 16]).fault = false ∧ (s 40 [0, 16]).init = true ∧ (s 40 [0, 16]).regInt 1 = 16 ∧
        8 + 16 + max 16 ((16 + 15) / 16 * 16) = 40 ∧ (s 40 [0, 16]).bump.toNat = 8 ∧ (∀ k : Fin 16, (s 40 [0, 16]).bin[k] = 0) ∧
        (s 40 [0, 16]).large = 0) ∧
      (s 39 [0, 16]).heapMax < 40 ∧
      ((s 1064 [0, 1025]).regInt 1 = 1025 ∧ 8 + 16 + max 16 ((1025 + 15) / 16 * 16) = 1064) ∧
      ((s 40 [0, 2, 8]).regInt 1 * (s 40 [0, 2, 8]).regInt 2 = 16 ∧ 0 ≤ (s 40 [0, 2, 8]).regInt 1 ∧ 0 ≤ (s 40 [0, 2, 8]).regInt 2) ∧
      ((s 40 [0, 0, 16]).reg 1 = 0 ∧ (s 40 [0, 0, 16]).regInt 2 = 16) :=
  ⟨inv_of_check (by decide +kernel), inv_of_check (by decide +kernel), inv_of_check (by decide +kernel),
    inv_of_check (by decide +kernel), inv_of_check (by decide +kernel), by decide +kernel⟩

/-- What FREE and REALLOC ask of the chunk at x1. -/
def chunkRow (s : State) (size : Nat) : Bool :=
  decide (16 ≤ s.reg 1 ∧ s.reg 1 % 16 = 0 ∧ 16 ≤ size ∧ size % 16 = 0 ∧ s.reg 1 + size + 8 ≤ s.bump.toNat) &&
    s.mem.natAt (s.reg 1 - 8) 8 == 2 * size + 1 && s.mem.natAt (s.reg 1 + size) 8 == 2 * size + 1

/-- A chunk alone, and a chunk between two that are in use. -/
theorem witness_FreeWithoutFreeNeighbours :
    let s := chunks [0, 16] [⟨16, 64, true⟩] 88 [] []
    let t := chunks [0, 48] [⟨16, 16, true⟩, ⟨48, 32, true⟩, ⟨96, 16, true⟩] 120 [] []
    Inv s ∧ Inv t ∧
      (s.fault = false ∧ s.init = true ∧ chunkRow s 64 = true ∧ s.reg 1 = 16 ∧ s.reg 1 + 64 + 8 = s.bump.toNat) ∧
      (t.fault = false ∧ t.init = true ∧ chunkRow t 32 = true ∧ t.mem.natAt 32 8 % 2 = 1 ∧
        96 + 16 + 8 ≤ t.bump.toNat ∧ t.mem.natAt 88 8 = 2 * 16 + 1 ∧ t.mem.natAt 112 8 = 2 * 16 + 1) :=
  ⟨inv_of_check (by decide +kernel), inv_of_check (by decide +kernel), by decide +kernel⟩

/-- Room for 64 bytes: requests of 64 (no surplus) and of 48 (a surplus of 16). -/
theorem witness_ReallocStaysInPlace :
    let s := fun n => chunks [0, 16, n] [⟨16, 64, true⟩] 88 [] []
    Inv (s 64) ∧ Inv (s 33) ∧
      ((s 64).fault = false ∧ (s 64).init = true ∧ chunkRow (s 64) 64 = true ∧ 0 ≤ (s 64).regInt 2 ∧
        max 16 ((((s 64).regInt 2).toNat + 15) / 16 * 16) = 64) ∧
      (chunkRow (s 33) 64 = true ∧ 0 ≤ (s 33).regInt 2 ∧ max 16 ((((s 33).regInt 2).toNat + 15) / 16 * 16) = 48 ∧ 64 ≤ 48 + 16) :=
  ⟨inv_of_check (by decide +kernel), inv_of_check (by decide +kernel), by decide +kernel⟩

/-- Two free chunks, one in a bin and one in the large list. -/
def twoFree (l : List Nat) : State :=
  { chunks l [⟨16, 256, false⟩, ⟨288, 16, true⟩, ⟨320, 1040, false⟩] 1368 [(.bin 3, 16), (.large, 320)] [] with heapMax := 4096 }

theorem twoFree_represents (l : List Nat) (h : representsCheck (twoFree l) [⟨16, 256, false⟩, ⟨288, 16, true⟩, ⟨320, 1040, false⟩]
      (listsOf [(.bin 3, [16]), (.large, [320])]) = true) :
    Represents (twoFree l) [⟨16, 256, false⟩, ⟨288, 16, true⟩, ⟨320, 1040, false⟩]
      (listsOf [(.bin 3, [16]), (.large, [320])]) :=
  represents_of_check h

/-- A request of 208 cuts the chunk of its bin, one of 240 takes it whole, one of 272 goes on to the large list, one of 1041 finds
none and fits at BUMP, one of 2705 does not. -/
theorem witness_MallocTakesFirstFit :
    let cs : List Chunk := [⟨16, 256, false⟩, ⟨288, 16, true⟩, ⟨320, 1040, false⟩]
    let ls := listsOf [(.bin 3, [16]), (.large, [320])]
    let r := fun (s : State) => max 16 (((s.regInt 1).toNat + 15) / 16 * 16)
    let need := fun (s : State) => s.bump.toNat + 16 + r s
    (∀ n ∈ [200, 240, 257, 1041, 2705], Represents (twoFree [0, n]) cs ls) ∧
      (∀ n ∈ [200, 240, 257, 1041, 2705], (twoFree [0, n]).fault = false ∧ 0 ≤ (twoFree [0, n]).regInt 1) ∧
      (searchFit cs ls (r (twoFree [0, 200])) = some ⟨16, 256, false⟩ ∧ 16 < 256 - r (twoFree [0, 200])) ∧
      (searchFit cs ls (r (twoFree [0, 240])) = some ⟨16, 256, false⟩ ∧ 256 - r (twoFree [0, 240]) = 16) ∧
      searchFit cs ls (r (twoFree [0, 257])) = some ⟨320, 1040, false⟩ ∧
      (searchFit cs ls (r (twoFree [0, 1041])) = none ∧ need (twoFree [0, 1041]) ≤ 4096) ∧
      (searchFit cs ls (r (twoFree [0, 2705])) = none ∧ 4096 < need (twoFree [0, 2705])) :=
  ⟨by
    intro n hn
    simp only [List.mem_cons, List.not_mem_nil, or_false] at hn
    rcases hn with rfl | rfl | rfl | rfl | rfl <;> exact twoFree_represents _ (by decide +kernel), by decide +kernel⟩

/-- The chunk at 48 with a free neighbour on both sides, before, after, and on neither side. -/
theorem witness_FreeCoalesces :
    let a : Chunk := ⟨16, 16, false⟩
    let c : Chunk := ⟨48, 16, true⟩
    let b : Chunk := ⟨80, 16, false⟩
    let both := chunks [0, 48] [a, c, b] 104 [(.bin 0, 80)] [(80, 8, 16)]
    let before := chunks [0, 48] [a, c] 72 [(.bin 0, 16)] []
    let after := chunks [0, 48] [⟨16, 16, true⟩, c, b] 104 [(.bin 0, 80)] []
    let neither := chunks [0, 48] [⟨16, 16, true⟩, c] 72 [] []
    Represents both ([] ++ (some a).toList ++ [c] ++ (some b).toList ++ []) (listsOf [(.bin 0, [80, 16])]) ∧
      Represents before ([] ++ (some a).toList ++ [c] ++ Option.toList none ++ []) (listsOf [(.bin 0, [16])]) ∧
      Represents after ([⟨16, 16, true⟩] ++ Option.toList none ++ [c] ++ (some b).toList ++ []) (listsOf [(.bin 0, [80])]) ∧
      Represents neither ([⟨16, 16, true⟩] ++ Option.toList none ++ [c] ++ Option.toList none ++ []) (listsOf []) ∧
      both.fault = false ∧ before.fault = false ∧ after.fault = false ∧ neither.fault = false ∧
      both.reg 1 = c.addr ∧ before.reg 1 = c.addr ∧ after.reg 1 = c.addr ∧ neither.reg 1 = c.addr ∧ c.used = true ∧
      a.used = false ∧ b.used = false ∧ (∀ d ∈ [(⟨16, 16, true⟩ : Chunk)].getLast?, d.used = true) :=
  ⟨represents_of_check (by decide +kernel), represents_of_check (by decide +kernel), represents_of_check (by decide +kernel),
    represents_of_check (by decide +kernel), by decide +kernel⟩

/-- A chunk of 48 cut to 16, the smallest surplus that is split, with and without a free chunk after it. -/
theorem witness_ReallocSplitsTail :
    let c : Chunk := ⟨16, 48, true⟩
    let f : Chunk := ⟨80, 16, false⟩
    let s := chunks [0, 16, 0] [c] 72 [] []
    let t := chunks [0, 16, 16] [c, f] 104 [(.bin 0, 80)] []
    Represents s ([] ++ [c] ++ Option.toList none ++ []) (listsOf []) ∧
      Represents t ([] ++ [c] ++ (some f).toList ++ []) (listsOf [(.bin 0, [80])]) ∧
      s.fault = false ∧ t.fault = false ∧ s.reg 1 = c.addr ∧ t.reg 1 = c.addr ∧ c.used = true ∧ 0 ≤ s.regInt 2 ∧ 0 ≤ t.regInt 2 ∧
      f.used = false ∧ max 16 (((s.regInt 2).toNat + 15) / 16 * 16) = 16 ∧ max 16 (((t.regInt 2).toNat + 15) / 16 * 16) = 16 ∧
      16 ≤ c.size ∧ 16 < c.size - 16 :=
  ⟨represents_of_check (by decide +kernel), represents_of_check (by decide +kernel), by decide +kernel⟩

/-- The chunk of 16 at 288 grown to 32 (the bin of 32 is empty, the large list fits), to 1056 (made at BUMP), and past the bound. -/
theorem witness_ReallocMovesAndKeepsContent :
    let cs : List Chunk := [⟨16, 256, false⟩, ⟨288, 16, true⟩, ⟨320, 1040, false⟩]
    let ls := listsOf [(.bin 3, [16]), (.large, [320])]
    let c : Chunk := ⟨288, 16, true⟩
    let r := fun (s : State) => max 16 (((s.regInt 2).toNat + 15) / 16 * 16)
    let need := fun (s : State) => s.bump.toNat + 16 + r s
    (∀ n ∈ [17, 1041, 2705], Represents (twoFree [0, 288, n]) cs ls) ∧ c ∈ cs ∧ c.used = true ∧
      (∀ n ∈ [17, 1041, 2705], (twoFree [0, 288, n]).fault = false ∧ (twoFree [0, 288, n]).reg 1 = c.addr ∧
        0 ≤ (twoFree [0, 288, n]).regInt 2 ∧ c.size < r (twoFree [0, 288, n])) ∧
      searchFit cs ls (r (twoFree [0, 288, 17])) = some ⟨320, 1040, false⟩ ∧
      (searchFit cs ls (r (twoFree [0, 288, 1041])) = none ∧ need (twoFree [0, 288, 1041]) ≤ 4096) ∧
      (searchFit cs ls (r (twoFree [0, 288, 2705])) = none ∧ 4096 < need (twoFree [0, 288, 2705])) :=
  ⟨by
    intro n hn
    simp only [List.mem_cons, List.not_mem_nil, or_false] at hn
    rcases hn with rfl | rfl | rfl <;> exact twoFree_represents _ (by decide +kernel), by decide +kernel⟩

/-- A store inside the payload of the chunk at 16, FREE and REALLOC of it, and HINIT at both ends of its range. -/
theorem witness_CommandsKeepHeapTiled :
    let cs : List Chunk := [⟨16, 16, true⟩]
    let s := chunks [0, 16, 24] cs 40 [] []
    Represents s cs (listsOf []) ∧ s.fault = false ∧ isNext (exec (.st64 2 1) s) = true ∧ isNext (exec (.free 1) s) = true ∧
      isNext (exec (.realloc 3 1 2) s) = true ∧ s.storesTo (.st64 2 1) = some (2, 8) ∧ s.InRange 2 8 ∧
      (∀ k < 8, Chunk.hasPayloadAt ⟨16, 16, true⟩ (s.addr 2 + k)) ∧ s.reg 1 ∈ s.live ∧
      ((block [0, 8]).fault = false ∧ (block [0, 8]).init = false ∧ (block [0, 8]).heapMax < 2 ^ 62 ∧ 8 ≤ (block [0, 8]).regInt 1 ∧
        isNext (exec (.hinit 1) (block [0, 8])) = true) ∧
      ((block [0, 65536]).regInt 1 ≤ (block [0, 65536]).heapMax ∧ isNext (exec (.hinit 1) (block [0, 65536])) = true) :=
  ⟨represents_of_check (by decide +kernel), by decide +kernel⟩

/-- The count of a shift of `W` bits in x2, a multiple of 8 where `aligned`. -/
def countRow (W : Nat) (aligned : Bool) (s : State) : List Bool :=
  [!s.fault, decide (0 ≤ s.regInt 2 ∧ s.regInt 2 ≤ W ∧ (aligned = true → s.regInt 2 % 8 = 0))]

theorem witness_LeftShiftsKeepTheCarry :
    countRow 32 false (engine 5 0) = [true, true] ∧ countRow 32 false (engine 5 32) = [true, true] ∧
      countRow 32 false (engine 5 33) = [true, false] ∧ countRow 32 false (engine 5 minusOne) = [true, false] ∧
      countRow 64 true (engine 5 64) = [true, true] ∧ countRow 64 true (engine 5 60) = [true, false] := by
  decide +kernel

theorem witness_SignedRightShiftsFloor :
    countRow 8 false (engine 0x80 0) = [true, true] ∧ countRow 8 false (engine 0x80 8) = [true, true] ∧
      countRow 8 false (engine 0x80 9) = [true, false] ∧ countRow 8 false (engine 0x80 minusOne) = [true, false] ∧
      countRow 8 true (engine 0x80 8) = [true, true] ∧ countRow 8 true (engine 0x80 7) = [true, false] := by
  decide +kernel

theorem witness_UnsignedRightShiftsDivide :
    countRow 16 false (engine 0x8001 0) = [true, true] ∧ countRow 16 false (engine 0x8001 16) = [true, true] ∧
      countRow 16 false (engine 0x8001 17) = [true, false] ∧ countRow 16 false (engine 0x8001 minusOne) = [true, false] ∧
      countRow 16 true (engine 0x8001 16) = [true, true] ∧ countRow 16 true (engine 0x8001 12) = [true, false] := by
  decide +kernel

theorem witness_BitwiseLogicByBits : (engine 0xCC 0xAA).fault = false := by decide +kernel

theorem witness_SingleBitOperations :
    let row := fun (W : Int) (s : State) => [!s.fault, decide (0 ≤ s.regInt 2 ∧ s.regInt 2 ≤ W - 1)]
    row 8 (engine 0x80 0) = [true, true] ∧ row 8 (engine 0x80 7) = [true, true] ∧ row 8 (engine 0x80 8) = [true, false] ∧
      row 8 (engine 0x80 minusOne) = [true, false] := by
  decide +kernel

theorem witness_CountAndMask :
    let row := fun (W : Int) (s : State) => [!s.fault, decide (0 ≤ s.regInt 1 ∧ s.regInt 1 ≤ W)]
    row 64 (engine 0 0) = [true, true] ∧ row 64 (engine 64 0) = [true, true] ∧ row 64 (engine 65 0) = [true, false] ∧
      row 64 (engine minusOne 0) = [true, false] := by
  decide +kernel

theorem witness_ExtensionsStopAtTheWidth :
    let row := fun (W : Int) (s : State) => [!s.fault, decide (1 ≤ s.regInt 2 ∧ s.regInt 2 ≤ W)]
    row 32 (engine 0x80 1) = [true, true] ∧ row 32 (engine 0x80 32) = [true, true] ∧ row 32 (engine 0x80 33) = [true, false] ∧
      row 32 (engine 0x80 0) = [true, false] ∧ row 32 (engine 0x80 minusOne) = [true, false] := by
  decide +kernel

theorem witness_BytePackIsStoreAndLoad :
    access 1 (heap [0, 4095, 5] []) = [true, true, true] ∧ access 4 (heap [0, 4092, 5] []) = [true, true, true] ∧
      access 8 (heap [0, 4088, 5] []) = [true, true, true] ∧ access 8 (heap [0, 4089, 5] []) = [true, true, false] ∧
      access 1 (heap [0, minusOne, 5] []) = [true, true, false] ∧ (access 4 (block [])).take 2 = [true, false] := by
  decide +kernel

theorem witness_LimbLoopsHaveClosedForms : (2 ^ 128 - 1 < 2 ^ 128 ∧ 0 < 2 ^ 128) ∧ (128 : Nat) ≤ 128 ∧ (0 : Nat) ≤ 128 := by decide

/-- The tests of a command on A at x2, B at x3 and a destination of 16 bytes at x1. -/
def wideRow (s : State) : List Bool :=
  [!s.fault, s.init, decide (s.InRange 2 16), decide (s.InRange 3 16), decide (s.InRange 1 16)]

theorem witness_AddhSubhReportTheCarry :
    wideRow (heap [0, 4080, 16, 4080] []) = [true, true, true, true, true] ∧
      wideRow (heap [0, 4081, 16, 48] []) = [true, true, true, true, false] ∧
      (wideRow (heap [0, 80, 16, 4081] [])).take 4 = [true, true, true, false] ∧
      (wideRow (heap [0, 80, minusOne, 48] [])).take 3 = [true, true, false] ∧ (wideRow (block [])).take 2 = [true, false] := by
  decide +kernel

theorem witness_ComparisonsGiveTheOrder :
    let row := fun s : State => [!s.fault, s.init, decide (s.InRange 1 16), decide (s.InRange 2 16)]
    row (heap [0, 4080, 4080] []) = [true, true, true, true] ∧ row (heap [0, 16, 4081] []) = [true, true, true, false] ∧
      (row (heap [0, minusOne, 16] [])).take 3 = [true, true, false] ∧ (row (block [])).take 2 = [true, false] := by
  decide +kernel

/-- The tests of a command on A at x2 with a count in x3. -/
def wideCountRow (s : State) : List Bool :=
  [!s.fault, s.init, decide (0 ≤ s.regInt 3 ∧ s.regInt 3 ≤ 128), decide (s.InRange 2 16), decide (s.InRange 1 16)]

theorem witness_LimbShiftsKeepTheSpill :
    wideCountRow (counted 1 0) = [true, true, true, true, true] ∧ wideCountRow (counted 1 128) = [true, true, true, true, true] ∧
      (wideCountRow (counted 1 129)).take 3 = [true, true, false] ∧ (wideCountRow (counted 1 minusOne)).take 3 = [true, true, false] ∧
      wideCountRow (heap [0, 4081, 16, 4] []) = [true, true, true, true, false] ∧
      (wideCountRow (heap [0, 16, 4081, 4] [])).take 4 = [true, true, true, false] ∧
      (wideCountRow (block [])).take 2 = [true, false] := by
  decide +kernel

theorem witness_WideInitialisers :
    access 16 (heap [0, 4080, 5] []) = [true, true, true] ∧ access 16 (heap [0, 4081, 5] []) = [true, true, false] ∧
      (access 16 (block [])).take 2 = [true, false] := by
  decide +kernel

theorem witness_HexhWritesText :
    let row := fun s : State => [!s.fault, s.init, decide (s.InRange 2 16), decide (s.InRange 1 32)]
    row (heap [0, 4064, 4080] []) = [true, true, true, true] ∧ row (heap [0, 4065, 16] []) = [true, true, true, false] ∧
      (row (heap [0, 0, 4081] [])).take 3 = [true, true, false] ∧ (row (block [])).take 2 = [true, false] := by
  decide +kernel

/-- (a) A + B = 2^128 - 1, the largest sum that fits; (b) 2^127 shifted by 0, and 1 by 127. -/
theorem witness_LimbRoundTrips :
    let s := { pair (2 ^ 128 - 2) 1 with x := regs [0, 80, 16, 48, 112] }
    let t := { counted 1 127 with x := regs [0, 80, 16, 127, 112] }
    s.fault = false ∧ s.init = true ∧ s.InRange 1 16 ∧ s.InRange 2 16 ∧ s.InRange 4 16 ∧ s.InRange 3 16 ∧ (5 : Reg) ≠ 1 ∧
      (5 : Reg) ≠ 2 ∧ (5 : Reg) ≠ 4 ∧ s.addr 2 + 16 ≤ s.addr 1 ∧ s.val128 2 + s.val128 3 < 2 ^ 128 ∧
      (t.fault = false ∧ t.init = true ∧ t.InRange 1 16 ∧ t.InRange 2 16 ∧ t.InRange 4 16 ∧ 0 ≤ t.regInt 3 ∧ t.regInt 3 ≤ 128 ∧
        t.val128 2 * 2 ^ (t.regInt 3).toNat < 2 ^ 128) := by
  decide +kernel

theorem witness_UnsignedAddSubtractExact :
    (wideRow (pair (2 ^ 128 - 2) 1) = [true, true, true, true, true] ∧ (pair (2 ^ 128 - 2) 1).val128 2 + 1 < 2 ^ 128) ∧
      (wideRow (pair (2 ^ 128 - 1) 1) = [true, true, true, true, true] ∧ ¬(pair (2 ^ 128 - 1) 1).val128 2 + 1 < 2 ^ 128) ∧
      ((pair 7 7).val128 3 ≤ (pair 7 7).val128 2 ∧ ¬(pair 7 8).val128 3 ≤ (pair 7 8).val128 2) ∧
      wideRow (heap [0, 4081, 16, 48] []) = [true, true, true, true, false] ∧
      (wideRow (heap [0, 80, 16, 4081] [])).take 4 = [true, true, true, false] ∧
      (wideRow (heap [0, 80, 4081, 48] [])).take 3 = [true, true, false] ∧ (wideRow (block [])).take 2 = [true, false] := by
  decide +kernel

theorem witness_UnsignedShiftsExact :
    (wideCountRow (counted 1 127) = [true, true, true, true, true] ∧ (counted 1 127).val128 2 * 2 ^ 127 < 2 ^ 128) ∧
      (wideCountRow (counted 1 128) = [true, true, true, true, true] ∧ ¬(counted 1 128).val128 2 * 2 ^ 128 < 2 ^ 128) ∧
      (wideCountRow (counted 1 129)).take 3 = [true, true, false] ∧ (wideCountRow (counted 1 minusOne)).take 3 = [true, true, false] ∧
      wideCountRow (heap [0, 4081, 16, 4] []) = [true, true, true, true, false] ∧
      (wideCountRow (heap [0, 16, 4081, 4] [])).take 4 = [true, true, true, false] ∧
      (wideCountRow (block [])).take 2 = [true, false] := by
  decide +kernel

theorem witness_SignedNegation :
    let row := fun s : State => [!s.fault, s.init, decide (s.InRange 2 16), decide (s.val128 2 ≠ 2 ^ 127), decide (s.InRange 1 16)]
    row (pair (2 ^ 127 - 1) 0) = [true, true, true, true, true] ∧ row (pair (2 ^ 127 + 1) 0) = [true, true, true, true, true] ∧
      row (pair (2 ^ 127) 0) = [true, true, true, false, true] ∧ row (heap [0, 4081, 16] []) = [true, true, true, true, false] ∧
      (row (heap [0, 16, 4081] [])).take 3 = [true, true, false] ∧ (row (block [])).take 2 = [true, false] := by
  decide +kernel

/-- Whether an exact signed result fits. -/
abbrev fits (v : Int) : Bool := decide (-2 ^ 127 ≤ v ∧ v ≤ 2 ^ 127 - 1)

theorem witness_SignedAddSubtractExact :
    let v := fun (f : Int → Int → Int) (s : State) => fits (f (signed128 (s.val128 2)) (signed128 (s.val128 3)))
    (wideRow (pair (2 ^ 127 - 2) 1) = [true, true, true, true, true] ∧ v (· + ·) (pair (2 ^ 127 - 2) 1) = true) ∧
      v (· + ·) (pair (2 ^ 127 - 1) 1) = false ∧ v (· + ·) (pair (2 ^ 127) (2 ^ 128 - 1)) = false ∧
      v (· - ·) (pair (2 ^ 128 - 1) (2 ^ 127)) = true ∧ v (· - ·) (pair 0 (2 ^ 127)) = false ∧
      v (· - ·) (pair (2 ^ 127) 1) = false ∧ wideRow (heap [0, 4081, 16, 48] []) = [true, true, true, true, false] ∧
      (wideRow (heap [0, 80, 16, 4081] [])).take 4 = [true, true, true, false] ∧
      (wideRow (heap [0, 80, 4081, 48] [])).take 3 = [true, true, false] ∧ (wideRow (block [])).take 2 = [true, false] := by
  decide +kernel

theorem witness_SignedLeftShiftExact :
    let v := fun (s : State) => fits (signed128 (s.val128 2) * 2 ^ (s.regInt 3).toNat)
    (wideCountRow (counted 1 126) = [true, true, true, true, true] ∧ v (counted 1 126) = true) ∧
      (wideCountRow (counted 1 127) = [true, true, true, true, true] ∧ v (counted 1 127) = false) ∧
      v (counted (2 ^ 128 - 1) 127) = true ∧ v (counted (2 ^ 128 - 1) 128) = false ∧
      (wideCountRow (counted 1 129)).take 3 = [true, true, false] ∧ (wideCountRow (counted 1 minusOne)).take 3 = [true, true, false] ∧
      wideCountRow (heap [0, 4081, 16, 4] []) = [true, true, true, true, false] ∧
      (wideCountRow (heap [0, 16, 4081, 4] [])).take 4 = [true, true, true, false] ∧
      (wideCountRow (block [])).take 2 = [true, false] := by
  decide +kernel

theorem witness_SignedRightShiftFloor :
    wideCountRow (counted (2 ^ 127) 0) = [true, true, true, true, true] ∧
      wideCountRow (counted (2 ^ 127 - 1) 128) = [true, true, true, true, true] ∧
      (wideCountRow (counted 1 129)).take 3 = [true, true, false] ∧ (wideCountRow (counted 1 minusOne)).take 3 = [true, true, false] ∧
      wideCountRow (heap [0, 4081, 16, 4] []) = [true, true, true, true, false] ∧
      (wideCountRow (heap [0, 16, 4081, 4] [])).take 4 = [true, true, true, false] ∧
      (wideCountRow (block [])).take 2 = [true, false] := by
  decide +kernel

theorem witness_EveryCommandCompletesOrLatches : (block []).fault = false := by decide +kernel

theorem witness_FaultsAreThoseOfTheTable :
    Inv (block [0, 7]) ∧ (block [0, 7]).fault = false ∧
      exec (.hinit 1) (block [0, 7]) = .next (leaves (exec (.hinit 1) (block [0, 7]))) ∧
      (leaves (exec (.hinit 1) (block [0, 7]))).fault = true :=
  ⟨inv_of_check (by decide +kernel), rfl, next_of_isNext (by decide +kernel), by decide +kernel⟩

theorem witness_HaltedBlockDropsWords :
    let s := { halted with host := [.issue 0xFFFFFFFF] }
    s.fault = true ∧ s.host = .issue 0xFFFFFFFF :: [] := by
  decide +kernel

theorem witness_FaultClearReturns :
    let s := { halted with host := [.faultClear] }
    s.fault = true ∧ s.host = .faultClear :: [] := by
  decide +kernel

/-- The three readings R330 names while a fault is latched among them; the last numbers of a BIN and of the table. -/
theorem witness_HostReadsAndWritesRegisters :
    let asks := fun (s : State) (m : HostMove) => { s with host := [m] }
    (asks halted (.readReg 4)).host = .readReg 4 :: [] ∧
      (asks halted (.writeReg 4 (2 ^ 64 + 1))).host = .writeReg 4 (2 ^ 64 + 1) :: [] ∧ halted.fault = true ∧
      (asks halted (.readSysReg .status)).host = .readSysReg .status :: [] ∧
      (halted.fault.toNat + 2 * halted.init.toNat + 2 ^ 8 * halted.code.toNat, halted.faultCmd.toNat, halted.faultInfo.toNat) =
        (0x603, 0x1412, 4096) ∧
      (asks halted (.readSysReg .heapMax)).heapMax = 65536 ∧
      (asks (block []) (.readSysReg (.bin 15))).host = .readSysReg (.bin 15) :: [] ∧ (block []).fault = false ∧
      sysRegOf (31 : BitVec 20).toNat = some (.bin 15) ∧ sysRegOf (10 : BitVec 20).toNat = some .heapMax := by
  decide +kernel

theorem witness_ResetFromAnyState : { halted with host := [.reset, .readReg 1] }.host = .reset :: [.readReg 1] := by decide +kernel

theorem witness_WordsMatchingNoRowAreIllegal :
    let s := fun w => { block [] with host := [.issue w] }
    (s 0x00321153).fault = false ∧ (s 0x00321153).host = .issue 0x00321153 :: [] ∧
      (opcodeMap.any fun row => (0x00321153 : CmdWord) &&& row.1 == row.2) = false ∧
      (opcodeMap.any fun row => (0x00321053 : CmdWord) &&& row.1 == row.2) = true := by
  decide +kernel

theorem witness_DecodeOfEncode : Instr.wellFormed (.ldis 15 65535) = true ∧ Instr.wellFormed (.shl .arithmetic .w64 15 15 15) = true := by
  decide

theorem witness_EncodeOfDecode : decode 0x0FFFFF03 = .ok (.ldis 15 65535) := by decide +kernel

theorem witness_StepRunsTheDecodedCommand :
    { block [] with host := [.issue 0x00000001] }.host = .issue 0x00000001 :: [] ∧ decode 0x00000001 = .ok .nop := by
  decide +kernel

theorem witness_InvariantKeptByEveryStep :
    let s := { heap [0, 16] [] with host := [.issue 0x00001220] }
    Inv s ∧ step s = .next (leaves (step s)) :=
  ⟨inv_of_check (by decide +kernel), next_of_isNext (by decide +kernel)⟩

theorem witness_OnlyShiftsAndLimbsWriteFlags :
    (isNext (exec .nop (engine 1 1)) = true ∧ Instr.writesFlags .nop = false) ∧
      (isNext (exec (.shl .native .w8 3 1 2) (engine 0x1FF 1)) = true ∧ Instr.writesFlags (.shl .native .w8 3 1 2) = true ∧
        (leaves (exec (.shl .native .w8 3 1 2) (engine 0x1FF 1))).fault = false) := by
  decide +kernel

theorem witness_AtMostOneRegisterWritten :
    (isNext (exec .nop (block [])) = true ∧ Instr.dest .nop = none) ∧
      (isNext (exec (.mov 7 3) (block [])) = true ∧ Instr.dest (.mov 7 3) = some 7 ∧ (6 : Reg) ≠ 7) ∧
      (leaves (exec (.ld8 4 1) (block []))).fault = true := by
  decide +kernel

theorem witness_HeapOnlyGrows :
    Inv (heap [0, 5000] []) ∧
      (isNext (exec (.hensure 1) (heap [0, 5000] [])) = true ∧ isNext (exec (.malloc 2 1) (heap [0, 5000] [])) = true ∧
        isNext (exec .nop (heap [0, 5000] [])) = true ∧ (heap [0, 5000] []).init = true) :=
  ⟨inv_of_check (by decide +kernel), by decide +kernel⟩

theorem witness_PseudoInstructionsExpand :
    (heap [0, 4080] []).fault = false ∧ (1 : Reg) ≠ 2 ∧ (heap [0, 4080] []).init = true ∧ (heap [0, 4080] []).InRange 1 16 := by
  decide +kernel

end Sys2Proof.Tests
end

section
/-! PROOFS. How large a carry, a borrow or a spill of the two datapaths can be, so that CARRYHI:CARRYLO holds it whole (10_state.md R29). -/

namespace Sys2Proof.Machine

/-! ### How large a carry can be (R201, R251, R252) -/

theorem limb_le (v i : Nat) : limb v i ≤ 65535 := Nat.le_of_lt_succ (Nat.mod_lt _ (by decide))

/-- The low `n` bits of a value, as the NATIVE datapath takes them, are below 2^n. -/
theorem and_mask_lt (v n : Nat) : v &&& (1 <<< n - 1) < 2 ^ n := by
  refine Nat.and_lt_two_pow v ?_
  rw [Nat.one_shiftLeft]
  exact Nat.sub_lt (Nat.two_pow_pos n) Nat.one_pos

/-- What leaves the top of `w` bits in a left shift by `n` is below 2^n. -/
theorem shl_spill_lt {w v n : Nat} (hv : v < 2 ^ w) : v * 2 ^ n / 2 ^ w < 2 ^ n :=
  Nat.div_lt_of_lt_mul (Nat.mul_lt_mul_of_pos_right hv (Nat.two_pow_pos n))

theorem Engine.shl_carry_lt (m : Mode) {w v : Nat} (n : Nat) (hv : v < 2 ^ w) : (Engine.shl m w v n).2 < 2 ^ n := by
  cases m with
  | native =>
    show v <<< n >>> w < 2 ^ n
    rw [Nat.shiftLeft_eq, Nat.shiftRight_eq_div_pow]
    exact shl_spill_lt hv
  | arithmetic => exact shl_spill_lt hv

theorem Engine.ushr_carry_lt (m : Mode) (w v n : Nat) : (Engine.ushr m w v n).2 < 2 ^ n := by
  cases m with
  | native => exact and_mask_lt v n
  | arithmetic => exact Nat.mod_lt _ (Nat.two_pow_pos n)

theorem Engine.sar_carry_lt (m : Mode) (w v n : Nat) : (Engine.sar m w v n).2 < 2 ^ n := by
  cases m with
  | native => exact and_mask_lt v n
  | arithmetic => exact Nat.mod_lt _ (Nat.two_pow_pos n)

theorem Engine.add128_carry_le (m : Mode) {a b : Nat} (ha : a < 2 ^ 128) (hb : b < 2 ^ 128) : (Engine.add128 m a b).2 ≤ 1 := by
  cases m with
  | native =>
    show (a + b) / 2 ^ 128 ≤ 1
    omega
  | arithmetic =>
    refine List.foldlRecOn (motive := fun acc : Nat × Nat => acc.2 ≤ 1) _ _ (Nat.zero_le 1) fun acc hacc i _ => ?_
    have := limb_le a i
    have := limb_le b i
    show (limb a i + limb b i + acc.2) / 65536 ≤ 1
    omega

theorem Engine.sub128_borrow_le (m : Mode) (a b : Nat) : (Engine.sub128 m a b).2 ≤ 1 := by
  cases m with
  | native =>
    show (if a < b then 1 else 0) ≤ 1
    split <;> decide
  | arithmetic =>
    refine List.foldlRecOn (motive := fun acc : Nat × Nat => acc.2 ≤ 1) _ _ (Nat.zero_le 1) fun acc _ i _ => ?_
    dsimp only
    split
    · exact Nat.le_refl 1
    · exact Nat.zero_le 1

/-- `n` limbs side by side make a number of `16 * n` bits. -/
theorem sumTo_limbs_lt (a n : Nat) (i : Nat → Nat) : sumTo n (fun j => limb a (i j) * 2 ^ (16 * j)) < 2 ^ (16 * n) := by
  induction n with
  | zero => exact Nat.one_pos
  | succ n ih =>
    have top := Nat.mul_le_mul_right (2 ^ (16 * n)) (limb_le a (i n))
    have width : 2 ^ (16 * (n + 1)) = 65536 * 2 ^ (16 * n) := by rw [Nat.mul_succ, Nat.pow_add, Nat.mul_comm]
    rw [sumTo]
    omega

/-- A number of `b` bits above one of `c` bits makes one of `c + b` bits. -/
theorem mul_pow_add_lt {x y b c : Nat} (hx : x < 2 ^ b) (hy : y < 2 ^ c) : x * 2 ^ c + y < 2 ^ (b + c) :=
  calc x * 2 ^ c + y < (x + 1) * 2 ^ c := by rw [Nat.add_mul, Nat.one_mul]; omega
    _ ≤ 2 ^ b * 2 ^ c := Nat.mul_le_mul_right _ hx
    _ = 2 ^ (b + c) := (Nat.pow_add 2 b c).symm

theorem Engine.shiftLeft128_spill_lt (m : Mode) {a : Nat} (n : Nat) (ha : a < 2 ^ 128) : (Engine.shiftLeft128 m a n).2 < 2 ^ n := by
  cases m with
  | native =>
    show a <<< n >>> 128 < 2 ^ n
    rw [Nat.shiftLeft_eq, Nat.shiftRight_eq_div_pow]
    exact shl_spill_lt ha
  | arithmetic =>
    have split : 16 * (n / 16) + n % 16 = n := Nat.div_add_mod n 16
    conv_rhs => rw [← split]
    refine mul_pow_add_lt (sumTo_limbs_lt ..) ?_
    refine List.foldlRecOn (motive := fun acc : Nat × Nat => acc.2 < 2 ^ (n % 16)) _ _ (Nat.two_pow_pos _) fun acc hacc i _ => ?_
    have moved : (if n / 16 ≤ i then limb a (i - n / 16) else 0) ≤ 65535 := by
      split
      · exact limb_le ..
      · exact Nat.zero_le _
    have := Nat.mul_le_mul_right (2 ^ (n % 16)) moved
    refine Nat.div_lt_of_lt_mul ?_
    dsimp only
    omega

theorem Engine.shiftRight128_spill_lt (m : Mode) (a n : Nat) : (Engine.shiftRight128 m a n).2 < 2 ^ n := by
  cases m with
  | native => exact Nat.mod_lt _ (Nat.two_pow_pos n)
  | arithmetic =>
    have split : n % 16 + 16 * (n / 16) = n := Nat.mod_add_div n 16
    conv_rhs => rw [← split]
    refine mul_pow_add_lt ?_ (sumTo_limbs_lt a (n / 16) id)
    exact List.foldlRecOn (motive := fun acc : Nat × Nat => acc.2 < 2 ^ (n % 16)) _ _ (Nat.two_pow_pos _)
      fun _ _ _ _ => Nat.mod_lt _ (Nat.two_pow_pos _)

end Sys2Proof.Machine
end


section
/-! PROOFS. The invariant through each named update of the state, one lemma for each update, and at reset. -/

namespace Sys2Proof.Machine

/-! ### Cells below the capacity -/

theorem Memory.below_clear {m : Memory} {lo hi cap : Nat} (h : ∀ c ∈ m, c.1 < cap) : ∀ c ∈ m.clear lo hi, c.1 < cap :=
  fun c hc => h c (List.mem_filter.1 hc).1

theorem Memory.below_store {m : Memory} {a cap : Nat} {bs : List Byte} (h : ∀ c ∈ m, c.1 < cap) (ha : a + bs.length ≤ cap) :
    ∀ c ∈ m.store a bs, c.1 < cap := fun c hc => by
  rcases Memory.mem_store m a bs c hc with hc | ⟨-, hc⟩
  · exact h c hc
  · exact Nat.lt_of_lt_of_le hc ha

theorem Memory.below_copyUp {m : Memory} {d a n cap : Nat} (h : ∀ c ∈ m, c.1 < cap) (hd : d + n ≤ cap) :
    ∀ c ∈ m.copyUp d a n, c.1 < cap := by
  induction n with
  | zero => exact h
  | succ n ih => exact Memory.below_store (ih (by omega)) (by simpa [Nat.add_assoc] using hd)

/-! ### The invariant through each named update -/

/-- Every fault has a code of R310. -/
theorem FaultKind.number_range (k : FaultKind) : 1 ≤ k.number.toNat ∧ k.number.toNat ≤ 8 := by
  cases k <;> decide

theorem ofNat64_ne_zero_iff {c : Nat} (h : c < 2 ^ 64) : BitVec.ofNat 64 c ≠ 0 ↔ c ≠ 0 := by
  rw [ne_eq, BitVec.toNat_eq, BitVec.toNat_ofNat, Nat.mod_eq_of_lt h]
  rfl

namespace Inv

variable {s : State}

theorem setReg (h : Inv s) (r : Reg) (v : Nat) : Inv (s.setReg r v) := { h with }
theorem complete (h : Inv s) : Inv s.complete := { h with }
theorem observe (h : Inv s) (m : HostMove) (v : Option Word) : Inv (s.observe m v) := { h with }
theorem withHost (h : Inv s) (ms : List HostMove) : Inv { s with host := ms } := { h with }

theorem clearFault (h : Inv s) : Inv s.clearFault :=
  { h with latchClear := fun _ => ⟨rfl, rfl, rfl⟩, latchSet := nofun }

theorem enterFault (h : Inv s) (w : CmdWord) (r : Raise) : Inv (s.enterFault w r) :=
  { h with latchClear := nofun, latchSet := fun _ => r.kind.number_range }

theorem setShiftCarry (h : Inv s) {c : Nat} (hc : c < 2 ^ 64) : Inv (s.setShiftCarry c) :=
  { h with
    carry := by
      rw [State.setShiftCarry_flagV, State.setShiftCarry_carryLo, State.setShiftCarry_carryHi, ofNat64_ne_zero_iff hc]
      simp }

theorem setLimbCarry (h : Inv s) {c : Nat} (hc : c ≤ 1) : Inv (s.setLimbCarry c) :=
  { h with carry := by rcases Nat.le_one_iff_eq_zero_or_eq_one.1 hc with rfl | rfl <;> simp }

theorem setSpill (h : Inv s) {sp : Nat} (hsp : sp < 2 ^ 128) : Inv (s.setSpill sp) :=
  { h with
    carry := by
      rw [State.setSpill_flagV, State.setSpill_carryLo, State.setSpill_carryHi, decide_eq_true_iff,
        ofNat64_ne_zero_iff (Nat.mod_lt _ (by decide)), ofNat64_ne_zero_iff (by omega)]
      omega }

/-- New bytes in canonical form below CAP, where there is a heap. -/
theorem withMem (h : Inv s) (hi : s.init = true) {m : Memory} (hw : m.wf) (hb : ∀ c ∈ m, c.1 < s.cap) : Inv { s with mem := m } :=
  { h with memWf := hw, memBelow := hb, noHeap := fun hn => absurd (hi.symm.trans hn) nofun }

/-- A larger capacity within HEAPMAX, where there is a heap. -/
theorem withCap (h : Inv s) (hi : s.init = true) {cap : Nat} (hc : s.cap ≤ cap) (hm : cap ≤ s.heapMax) : Inv { s with cap := cap } :=
  { h with
    memBelow := fun c hc' => Nat.lt_of_lt_of_le (h.memBelow c hc') hc
    noHeap := fun hn => absurd (hi.symm.trans hn) nofun
    heap := fun _ => by
      obtain ⟨hb, hmod, hcap, -⟩ := h.heap hi
      exact ⟨hb, hmod, Nat.le_trans hcap hc, hm⟩ }

/-- BUMP moved up by a multiple of 16 within CAP. -/
theorem withBump (h : Inv s) (hi : s.init = true) {b : Nat} (h8 : 8 ≤ b) (hmod : b % 16 = 8) (hb : b ≤ s.cap) :
    Inv { s with bump := BitVec.ofNat 64 b } :=
  { h with
    noHeap := fun hn => absurd (hi.symm.trans hn) nofun
    heap := fun _ => by
      obtain ⟨-, -, -, hcap⟩ := h.heap hi
      have hmax := h.heapMax
      have e : (BitVec.ofNat 64 b).toNat = b := by rw [BitVec.toNat_ofNat, Nat.mod_eq_of_lt (by omega)]
      exact e.symm ▸ ⟨h8, hmod, hb, hcap⟩ }

theorem setHead (h : Inv s) (hi : s.init = true) (l : FreeList) (p : Nat) : Inv (s.setHead l p) := by
  cases l <;> exact { h with noHeap := fun hn => absurd (hi.symm.trans hn) nofun }

theorem addLive (h : Inv s) (hi : s.init = true) (p : Nat) : Inv (s.addLive p) :=
  { h with live := insertAddr_sorted p _ h.live, noHeap := fun hn => absurd (hi.symm.trans hn) nofun }

theorem removeLive (h : Inv s) (hi : s.init = true) (p : Nat) : Inv (s.removeLive p) :=
  { h with live := h.live.sublist List.filter_sublist, noHeap := fun hn => absurd (hi.symm.trans hn) nofun }

/-- The state after reset meets the invariant, whatever HEAPMAX in its range and the host's side are (R50). -/
theorem atReset {heapMax : Nat} (h : 24 ≤ heapMax ∧ heapMax < 2 ^ 62) (host : List HostMove) (trace : List Observation) :
    Inv { State.reset with heapMax := heapMax, host := host, trace := trace } where
  memWf := reset_mem_wf
  memBelow := nofun
  latchClear _ := ⟨rfl, rfl, rfl⟩
  latchSet := nofun
  noHeap _ := ⟨rfl, rfl, rfl, rfl, rfl, rfl⟩
  heap := nofun
  heapMax := h
  live := List.Pairwise.nil
  carry := by simp [State.reset]

theorem blockReset (h : Inv s) : Inv s.blockReset := atReset h.heapMax s.host s.trace

end Inv

theorem Config.heapMaxBytes_range : 24 ≤ Config.heapMaxBytes ∧ Config.heapMaxBytes < 2 ^ 62 := by
  have := Config.heapMaxChoice.isLt
  unfold Config.heapMaxBytes
  omega

/-- Settles O55: HEAP_MAX_BYTES is the larger of 24 and a number of 62 bits. -/
theorem invariantAtReset : Obligations.InvariantAtReset := Inv.atReset Config.heapMaxBytes_range [] []

end Sys2Proof.Machine
end


section
/-! PROOFS. What the pseudocode of a command keeps, with the rules that carry it through tests, reads and writes, and that every shared
operation and every allocator procedure keeps it. -/

namespace Sys2Proof.Machine

/-! ### What a pseudocode keeps -/

/-- What the pseudocode of a command may leave when it answers `t` from `s`, CMDSEQ not yet advanced (R10, R27): the latch, HEAPMAX and
the host's side as they were, a heap that exists still there, and the invariant met if it was. -/
structure Kept (s t : State) : Prop where
  same : t = { s with
    x := t.x, flagV := t.flagV, carryLo := t.carryLo, carryHi := t.carryHi, init := t.init, cap := t.cap, mem := t.mem,
    bin := t.bin, large := t.large, bump := t.bump, live := t.live }
  init : s.init = true → t.init = true
  inv : Inv s → Inv t

namespace Kept

variable {s t u : State}

theorem refl (s : State) : Kept s s := ⟨rfl, id, id⟩

theorem trans (h : Kept s t) (k : Kept t u) : Kept s u := by
  refine ⟨?_, k.init ∘ h.init, k.inv ∘ h.inv⟩
  rw [k.same, h.same]

theorem of_heapFrame (h : HeapFrame s t) (inv : Inv s → Inv t) : Kept s t :=
  ⟨by rw [h.same], h.init.trans, inv⟩

theorem cmdseq (h : Kept s t) : t.cmdseq = s.cmdseq := by rw [h.same]
theorem fault (h : Kept s t) : t.fault = s.fault := by rw [h.same]
theorem code (h : Kept s t) : t.code = s.code := by rw [h.same]
theorem faultCmd (h : Kept s t) : t.faultCmd = s.faultCmd := by rw [h.same]
theorem faultInfo (h : Kept s t) : t.faultInfo = s.faultInfo := by rw [h.same]
theorem heapMax (h : Kept s t) : t.heapMax = s.heapMax := by rw [h.same]
theorem host (h : Kept s t) : t.host = s.host := by rw [h.same]
theorem trace (h : Kept s t) : t.trace = s.trace := by rw [h.same]

theorem setReg (s : State) (r : Reg) (v : Nat) : Kept s (s.setReg r v) := ⟨rfl, id, fun h => h.setReg r v⟩

theorem setHead (hi : s.init = true) (l : FreeList) (p : Nat) : Kept s (s.setHead l p) :=
  of_heapFrame (setHead_frame s l p) fun h => h.setHead hi l p

theorem addLive (hi : s.init = true) (p : Nat) : Kept s (s.addLive p) := ⟨rfl, id, fun h => h.addLive hi p⟩

theorem removeLive (hi : s.init = true) (p : Nat) : Kept s (s.removeLive p) := ⟨rfl, id, fun h => h.removeLive hi p⟩

/-- Bytes set to 0. -/
theorem clear (hi : s.init = true) (lo top : Nat) : Kept s { s with mem := s.mem.clear lo top } :=
  ⟨rfl, id, fun h => h.withMem hi (Memory.wf_clear _ _ _ h.memWf) (Memory.below_clear h.memBelow)⟩

/-- Bytes stored below CAP. -/
theorem store (hi : s.init = true) {a : Nat} {bs : List Byte} (ha : a + bs.length ≤ s.cap) :
    Kept s { s with mem := s.mem.store a bs } :=
  ⟨rfl, id, fun h => h.withMem hi (Memory.wf_store _ _ _ h.memWf) (Memory.below_store h.memBelow ha)⟩

/-- Bytes copied upwards after what is kept already, to a place that the invariant before it all puts below CAP. -/
theorem copyUp (h : Kept s t) (hi : t.init = true) {d a n : Nat} (hd : Inv s → d + n ≤ t.cap) :
    Kept s { t with mem := t.mem.copyUp d a n } :=
  ⟨by rw [h.same], h.init, fun hs =>
    (h.inv hs).withMem hi (Memory.wf_copyUp _ _ _ _ (h.inv hs).memWf) (Memory.below_copyUp (h.inv hs).memBelow (hd hs))⟩

end Kept

/-- Whatever state `body` answers, it is kept from `s`. -/
def Keeps (s : State) (body : Except Raise State) : Prop := ∀ t, body = .ok t → Kept s t

namespace Keeps

variable {s u : State} {α : Type} {x : Except Raise α} {f : α → Except Raise State} {body body' : Except Raise State}

theorem ok (h : Kept s u) : Keeps s (.ok u) := fun _ e => Except.ok.inj e ▸ h

theorem error (r : Raise) : Keeps s (.error r) := nofun

theorem bind (h : ∀ a, x = .ok a → Keeps s (f a)) : Keeps s (x >>= f) := fun t e => by
  obtain ⟨a, hx, hf⟩ := bind_eq_ok.1 e
  exact h a hx t hf

/-- A test or a read whose answer does not matter for what is kept. -/
theorem pass (h : ∀ a, Keeps s (f a)) : Keeps s (x >>= f) := bind fun a _ => h a

theorem require {c : Prop} [Decidable c] {kind : FaultKind} {info : Nat} {f : Unit → Except Raise State} (h : c → Keeps s (f ())) :
    Keeps s (Machine.require c kind info >>= f) := bind fun _ hc => h (require_eq_ok.1 hc)

theorem ite {c : Prop} [Decidable c] (h : c → Keeps s body) (h' : ¬c → Keeps s body') : Keeps s (if c then body else body') := by
  split
  · exact h ‹_›
  · exact h' ‹_›

end Keeps

/-! ### The shared operations -/

theorem memWrite_kept {s t : State} {a n v : Nat} (h : memWrite s a n v = .ok t) : Kept s t := by
  obtain ⟨hi, h0, hcap, rfl⟩ := memWrite_ok h
  exact Kept.store hi (by rw [leBytes_length]; omega)

theorem memWrite_init {s t : State} {a n v : Nat} (h : memWrite s a n v = .ok t) : t.init = true :=
  (memWrite_frame h).init.trans (memWrite_ok h).1

theorem memWrite_keeps (s : State) (a n v : Nat) : Keeps s (memWrite s a n v) := fun _ => memWrite_kept

theorem ensureCapacity_kept {s t : State} {m : Nat} (hi : s.init = true) (h : ensureCapacity s m = .ok t) : Kept s t := by
  rw [ensureCapacity_eq] at h
  split at h
  · cases h
    exact .refl s
  · split at h
    · cases h
      refine (Kept.clear hi _ _).trans ⟨rfl, id, fun hs => hs.withCap hi ?_ (Nat.min_le_left ..)⟩
      have : s.cap ≤ s.heapMax := (hs.heap hi).2.2.2
      show s.cap ≤ min s.heapMax _
      omega
    · cases h

/-! ### The allocator -/

theorem writeTags_kept {s t : State} {p size u : Nat} (h : writeTags s p size u = .ok t) : Kept s t := by
  obtain ⟨s', h1, h2⟩ := writeTags_ok h
  exact (memWrite_kept h1).trans (memWrite_kept h2)

theorem take_kept {s t : State} {l : FreeList} {prev p : Nat} (h : take s l prev p = .ok t) : Kept s t := by
  obtain ⟨next, hr, h⟩ := bind_eq_ok.1 h
  split at h
  · cases h
    exact .setHead (memRead_ok hr).1 l next
  · exact memWrite_kept h

theorem unlink_kept {s t : State} {l : FreeList} {p : Nat} (h : unlink s l p = .ok t) : Kept s t := by
  obtain ⟨prev, -, h⟩ := bind_eq_ok.1 h
  exact take_kept h

theorem insertChunk_kept {s t : State} {p size : Nat} (h : insertChunk s p size = .ok t) : Kept s t := by
  obtain ⟨s', hw, h⟩ := bind_eq_ok.1 h
  cases h
  exact (memWrite_kept hw).trans (.setHead (memWrite_init hw) _ p)

theorem place_kept {s t : State} {p size r : Nat} (h : place s p size r = .ok t) : Kept s t := by
  unfold place at h
  split at h
  · obtain ⟨s1, h1, h⟩ := bind_eq_ok.1 h
    obtain ⟨s2, h2, h⟩ := bind_eq_ok.1 h
    exact ((writeTags_kept h1).trans (writeTags_kept h2)).trans (insertChunk_kept h)
  · exact writeTags_kept h

theorem claim_kept {s t : State} {l : FreeList} {f : Fit} {r p : Nat} (h : claim s l f r = .ok (p, t)) : Kept s t := by
  obtain ⟨-, s', h1, h2⟩ := claim_ok h
  exact (take_kept h1).trans (place_kept h2)

theorem requestSize_mod (n : Nat) : requestSize n % 16 = 0 := by
  unfold requestSize roundUp16
  omega

theorem ensureCapacity_bump {s t : State} {m : Nat} (h : ensureCapacity s m = .ok t) : t.bump = s.bump := by
  rw [ensureCapacity_eq] at h
  split at h
  · cases h; rfl
  · split at h <;> cases h
    rfl

theorem bumpAlloc_kept {s t : State} {n p : Nat} (hi : s.init = true) (h : bumpAlloc s (requestSize n) = .ok (p, t)) : Kept s t := by
  obtain ⟨-, s1, s2, h1, h2, rfl⟩ := bumpAlloc_ok h
  have kept := (ensureCapacity_kept hi h1).trans (writeTags_kept h2)
  refine kept.trans ⟨rfl, id, fun hs2 => ?_⟩
  obtain ⟨tagBump, tagCap⟩ := writeTags_bump_cap h2
  have bump : s2.bump.toNat = s.bumpNat := by rw [tagBump, ensureCapacity_bump h1]; rfl
  have room := ensureCapacity_cap h1
  have size := requestSize_mod n
  obtain ⟨h8, hmod, -, -⟩ := hs2.heap (kept.init hi)
  exact hs2.withBump (kept.init hi) (by omega) (by omega) (by omega)

theorem alloc_kept {s t : State} {n p : Nat} (hi : s.init = true) (h : alloc s n = .ok (p, t)) : Kept s t := by
  rcases alloc_ok h with ⟨_, -, -, h⟩ | ⟨_, -, h⟩ | h
  · exact claim_kept h
  · exact claim_kept h
  · exact bumpAlloc_kept hi h

/-- A chunk that a search found lies below BUMP and has room for the request. -/
theorem findFit_room {s : State} (hb : HeapBounds s) {l : FreeList} {r : Nat} {f : Fit} (h : findFit s l r = .ok (some f)) :
    f.addr + r + 8 ≤ s.bump.toNat := by
  obtain ⟨hr, hf⟩ := findFit_ok h
  rcases readChunk_cases hb f.addr with ⟨c, haddr, hc, e⟩ | ⟨-, e⟩
  · rw [hf, Except.ok.injEq, Prod.mk.injEq] at e
    have := hc.2.2.2.2.1
    omega
  · cases hf.symm.trans e

/-- The payload an allocation answers lies below CAP. -/
theorem alloc_room {s t : State} {n p : Nat} (hs : Inv s) (hi : s.init = true) (h : alloc s n = .ok (p, t)) :
    p + requestSize n ≤ t.cap := by
  obtain ⟨-, hmod, hbump, hcap⟩ := hs.heap hi
  have hb := hs.heapBounds hi
  have frame := (alloc_bounds hb hs.heapMax.2 hcap h).2.1
  have found : ∀ {l f}, findFit s l (requestSize n) = .ok (some f) → claim s l f (requestSize n) = .ok (p, t) →
      p + requestSize n ≤ t.cap := by
    intro l f hf hc
    have := findFit_room hb hf
    have := frame.cap
    rw [(claim_ok hc).1]
    omega
  rcases alloc_ok h with ⟨_, -, hf, hc⟩ | ⟨_, hf, hc⟩ | h
  · exact found hf hc
  · exact found hf hc
  · obtain ⟨rfl, s1, s2, h1, h2, rfl⟩ := bumpAlloc_ok h
    have room := ensureCapacity_cap h1
    have tagCap := (writeTags_bump_cap h2).2
    show _ ≤ s2.cap
    omega

theorem mergePreceding_kept {s t : State} {p size start merged : Nat}
    (h : mergePreceding s p size = .ok (start, merged, t)) : Kept s t := by
  rcases mergePreceding_ok h with ⟨-, -, rfl, -⟩ | ⟨_, -, -, -, -, -, -, -, -, hu⟩
  · exact .refl _
  · exact unlink_kept hu

theorem mergeFollowing_kept {s t : State} {n size merged : Nat} (h : mergeFollowing s n size = .ok (merged, t)) : Kept s t := by
  rcases mergeFollowing_ok h with ⟨-, rfl, -⟩ | ⟨_, -, -, -, hu⟩
  · exact .refl _
  · exact unlink_kept hu

theorem freeChunk_kept {s t : State} {p size : Nat} (h : freeChunk s p size = .ok t) : Kept s t := by
  obtain ⟨_, _, s1, _, s2, s3, h1, h2, h3, h4⟩ := freeChunk_ok h
  exact (((mergePreceding_kept h1).trans (mergeFollowing_kept h2)).trans (writeTags_kept h3)).trans (insertChunk_kept h4)

theorem shrinkChunk_kept {s t : State} {a size r : Nat} (h : shrinkChunk s a size r = .ok t) : Kept s t := by
  unfold shrinkChunk at h
  split at h
  · obtain ⟨s1, h1, h⟩ := bind_eq_ok.1 h
    obtain ⟨s2, h2, h⟩ := bind_eq_ok.1 h
    exact ((writeTags_kept h1).trans (writeTags_kept h2)).trans (freeChunk_kept h)
  · cases h
    exact .refl s

/-- The payload moved is smaller than the new chunk, so the copy stays below CAP. -/
theorem moveChunk_kept {s t : State} {a size n p : Nat} (hi : s.init = true) (hsize : size ≤ requestSize n)
    (h : moveChunk s a size n = .ok (p, t)) : Kept s t := by
  obtain ⟨⟨q, s1⟩, h1, h⟩ := bind_eq_ok.1 h
  obtain ⟨s2, h2, h⟩ := bind_eq_ok.1 h
  obtain ⟨rfl, rfl⟩ := Prod.mk.inj (Except.ok.inj h)
  have allocated := alloc_kept hi h1
  have copied : Kept s { s1 with mem := s1.mem.copyUp q a size } :=
    allocated.copyUp (allocated.init hi) fun hs => Nat.le_trans (Nat.add_le_add_left hsize q) (alloc_room hs hi h1)
  have freed := copied.trans (freeChunk_kept h2)
  have removed := freed.trans (.removeLive (freed.init hi) a)
  exact removed.trans (.addLive (removed.init hi) q)

end Sys2Proof.Machine
end


section
/-! PROOFS. That every command and every move of the host keeps the invariant (00_scope.md R6, 60_exceptions.md R320), and that every
command completes or latches one fault (00_scope.md R10). -/

namespace Sys2Proof.Machine

/-- `o` is the outcome of command `i` from `s` by a pseudocode that keeps the invariant and what is not its own. -/
def RunsKeeping (i : Instr) (s : State) (o : Host.Outcome State Fault Refusal) : Prop := ∃ body, o = command i s body ∧ Keeps s body

theorem Keeps.runs {i : Instr} {s : State} {body : Except Raise State} (h : Keeps s body) : RunsKeeping i s (command i s body) :=
  ⟨body, rfl, h⟩

section

variable (s : State) (rd rs1 rs2 rs3 : Reg) (m : Mode) (w : Width)

/-! ### Heap commands -/

theorem setReg_keeps (v : Nat) : Keeps s (.ok (s.setReg rd v)) := .ok (.setReg s rd v)

theorem loadInto_keeps (n : Nat) : Keeps s (loadInto s rd rs1 n) := .pass fun v => setReg_keeps s rd v

/-- HINIT makes a heap with no chunk: BUMP is 8 and CAP between that and HEAPMAX. -/
theorem execHinit_keeping : RunsKeeping (.hinit rs1) s (execHinit rs1 s) :=
  Keeps.runs <| .pass fun _ => .require fun h8 => .require fun hmax => .ok ⟨rfl, fun _ => rfl, fun h =>
    have cap8 : 8 ≤ (s.regInt rs1).toNat := by omega
    have capMax : (s.regInt rs1).toNat ≤ s.heapMax := by omega
    { h with
      memWf := reset_mem_wf
      memBelow := nofun
      noHeap := nofun
      heap := fun _ => ⟨Nat.le_refl 8, rfl, cap8, capMax⟩
      live := List.Pairwise.nil }⟩

theorem execHensure_keeping : RunsKeeping (.hensure rs1) s (execHensure rs1 s) :=
  Keeps.runs <| .require fun hi => .pass fun _ _ => ensureCapacity_kept hi

theorem requireRange_ok {len : Int} {u : Unit} (h : requireRange s rs1 len = .ok u) : 0 ≤ s.regInt rs1 ∧ s.regInt rs1 + len ≤ s.cap :=
  require_eq_ok.1 h

theorem execMemcpy_keeping : RunsKeeping (.memcpy rs1 rs2 rs3) s (execMemcpy rs1 rs2 rs3 s) :=
  Keeps.runs <| .require fun hi => .require fun hlen => .ite (fun _ => .ok (.refl s)) fun _ =>
    .bind fun _ hd => .pass fun _ => .pass fun _ => .ok <| (Kept.refl s).copyUp hi fun _ => by
      have := requireRange_ok s rs1 hd
      omega

theorem execMemmove_keeping : RunsKeeping (.memmove rs1 rs2 rs3) s (execMemmove rs1 rs2 rs3 s) :=
  Keeps.runs <| .require fun hi => .require fun hlen => .ite (fun _ => .ok (.refl s)) fun _ =>
    .bind fun _ hd => .pass fun _ => .ok <| .store hi <| by
      have := requireRange_ok s rs1 hd
      simp only [Memory.load, List.length_map, List.length_range]
      omega

theorem execMemset_keeping : RunsKeeping (.memset rs1 rs2 rs3) s (execMemset rs1 rs2 rs3 s) :=
  Keeps.runs <| .require fun hi => .require fun hlen => .ite (fun _ => .ok (.refl s)) fun _ =>
    .bind fun _ hd => .ok <| .store hi <| by
      have := requireRange_ok s rs1 hd
      rw [List.length_replicate]
      omega

/-! ### Allocator commands -/

theorem execMalloc_keeping : RunsKeeping (.malloc rd rs1) s (execMalloc rd rs1 s) :=
  Keeps.runs <| .require fun hi => .pass fun _ => .bind fun ⟨p, _⟩ h =>
    have allocated := alloc_kept hi h
    .ok <| (allocated.trans (.addLive (allocated.init hi) p)).trans (.setReg ..)

theorem execCalloc_keeping : RunsKeeping (.calloc rd rs1 rs2) s (execCalloc rd rs1 rs2 s) :=
  Keeps.runs <| .require fun hi => .pass fun _ => .pass fun _ => .pass fun _ => .bind fun ⟨p, _⟩ h =>
    have allocated := alloc_kept hi h
    have cleared := allocated.trans (.clear (allocated.init hi) p _)
    .ok <| (cleared.trans (.addLive (cleared.init hi) p)).trans (.setReg ..)

theorem execFree_keeping : RunsKeeping (.free rs1) s (execFree rs1 s) :=
  Keeps.runs <| .require fun hi => .ite (fun _ => .ok (.refl s)) fun _ => .pass fun _ => .pass fun _ => .pass fun _ => .bind fun _ h =>
    have freed := freeChunk_kept h
    .ok <| freed.trans (.removeLive (freed.init hi) _)

theorem execRealloc_keeping : RunsKeeping (.realloc rd rs1 rs2) s (execRealloc rd rs1 rs2 s) :=
  Keeps.runs <| .require fun hi => .pass fun _ => .ite
    (fun _ => .bind fun ⟨p, _⟩ h =>
      have allocated := alloc_kept hi h
      .ok <| (allocated.trans (.addLive (allocated.init hi) p)).trans (.setReg ..))
    fun _ => .pass fun _ => .pass fun _ => .pass fun _ => .ite
      (fun _ => .bind fun _ h => .ok <| (shrinkChunk_kept h).trans (.setReg ..))
      fun hsize => .bind fun ⟨_, _⟩ h => .ok <| (moveChunk_kept hi (Nat.le_of_not_le hsize) h).trans (.setReg ..)

/-! ### Engine commands -/

theorem Width.bits_le (w : Width) : w.bits ≤ 64 := by cases w <;> decide

theorem shiftBy_keeps {op : Nat → Nat → Nat × Nat} (hop : ∀ v n, v < 2 ^ w.bits → (op v n).2 < 2 ^ n) (byteAligned : Bool) :
    Keeps s (shiftBy op byteAligned w rd rs1 rs2 s) :=
  .require fun hn => .ok <|
    have carry : (op (s.engineValue w rs1) (s.regInt rs2).toNat).2 < 2 ^ 64 :=
      Nat.lt_of_lt_of_le (hop _ _ (Nat.mod_lt _ (Nat.two_pow_pos _)))
        (Nat.pow_le_pow_right (by decide) (by have := Width.bits_le w; omega))
    have carried : Kept s (s.setShiftCarry _) := ⟨rfl, id, fun h => h.setShiftCarry carry⟩
    carried.trans (.setReg ..)

theorem bitAt_keeps (op : Nat → Nat → Nat) : Keeps s (bitAt op w rd rs1 rs2 s) := .pass fun _ => setReg_keeps s rd _

theorem extendFrom_keeps (op : Nat → Nat → Nat) : Keeps s (extendFrom op w rd rs1 rs2 s) := .pass fun _ => setReg_keeps s rd _

/-! ### Limb commands -/

theorem readVal_lt {v : Nat} (h : readVal s rs1 = .ok v) : v < 2 ^ 128 := by
  rw [(memRead_ok h).2.2.2]
  exact Memory.natAt_lt _ _ 16

theorem execAddh_keeping : RunsKeeping (.addh m rd rs1 rs2 rs3) s (execAddh m rd rs1 rs2 rs3 s) :=
  Keeps.runs <| .pass fun _ => .bind fun _ ha => .bind fun _ hb => .bind fun u h => .ok <|
    have carried : Kept u (u.setLimbCarry _) :=
      ⟨rfl, id, fun hu => hu.setLimbCarry (Engine.add128_carry_le m (readVal_lt s rs2 ha) (readVal_lt s rs3 hb))⟩
    ((memWrite_kept h).trans carried).trans (.setReg ..)

theorem execSubh_keeping : RunsKeeping (.subh m rd rs1 rs2 rs3) s (execSubh m rd rs1 rs2 rs3 s) :=
  Keeps.runs <| .pass fun _ => .pass fun a => .pass fun b => .bind fun u h => .ok <|
    have carried : Kept u (u.setLimbCarry _) := ⟨rfl, id, fun hu => hu.setLimbCarry (Engine.sub128_borrow_le m a b)⟩
    ((memWrite_kept h).trans carried).trans (.setReg ..)

/-- A valid count is at most 128 (R253). -/
theorem shiftCount_le {n : Nat} (h : shiftCount s rs1 = .ok n) : n ≤ 128 := by
  obtain ⟨_, hn, h⟩ := bind_eq_ok.1 h
  rw [require_eq_ok] at hn
  cases h
  omega

theorem setSpill_kept {n sp : Nat} (hn : n ≤ 128) (h : sp < 2 ^ n) : Kept s (s.setSpill sp) :=
  ⟨rfl, id, fun hs => hs.setSpill (Nat.lt_of_lt_of_le h (Nat.pow_le_pow_right (by decide) hn))⟩

theorem execShlh_keeping : RunsKeeping (.shlh m rs1 rs2 rs3) s (execShlh m rs1 rs2 rs3 s) :=
  Keeps.runs <| .pass fun _ => .bind fun n hn => .bind fun _ ha => .bind fun u h => .ok <|
    (memWrite_kept h).trans <|
      setSpill_kept u (shiftCount_le s rs3 hn) (Engine.shiftLeft128_spill_lt m n (readVal_lt s rs2 ha))

theorem execShrh_keeping : RunsKeeping (.shrh m rs1 rs2 rs3) s (execShrh m rs1 rs2 rs3 s) :=
  Keeps.runs <| .pass fun _ => .bind fun n hn => .pass fun a => .bind fun u h => .ok <|
    (memWrite_kept h).trans <| setSpill_kept u (shiftCount_le s rs3 hn) (Engine.shiftRight128_spill_lt m a n)

end

/-- What every command does: its pseudocode keeps the invariant and what is not a command's to write. -/
theorem exec_keeping (i : Instr) (s : State) : RunsKeeping i s (exec i s) := by
  have store (r : Reg) (n v : Nat) := memWrite_keeps s (s.reg r) n v
  cases i with
  -- System and register commands
  | nop => exact Keeps.runs (.ok (.refl s))
  | ldi rd imm => exact (setReg_keeps s rd _).runs
  | ldis rd imm => exact (setReg_keeps s rd _).runs
  | mov rd rs1 => exact (setReg_keeps s rd _).runs
  | rdsr rd imm =>
    refine Keeps.runs ?_
    split
    · exact setReg_keeps s rd _
    · exact .error _
  -- Heap commands
  | hinit rs1 => exact execHinit_keeping s rs1
  | hensure rs1 => exact execHensure_keeping s rs1
  | ld8 rd rs1 | ld16 rd rs1 | ld32 rd rs1 | ld64 rd rs1 => exact (loadInto_keeps s rd rs1 _).runs
  | st8 rs1 rs2 | st16 rs1 rs2 | st32 rs1 rs2 | st64 rs1 rs2 => exact (store rs1 _ _).runs
  | memcpy rs1 rs2 rs3 => exact execMemcpy_keeping s rs1 rs2 rs3
  | memmove rs1 rs2 rs3 => exact execMemmove_keeping s rs1 rs2 rs3
  | memset rs1 rs2 rs3 => exact execMemset_keeping s rs1 rs2 rs3
  -- Allocator commands
  | malloc rd rs1 => exact execMalloc_keeping s rd rs1
  | calloc rd rs1 rs2 => exact execCalloc_keeping s rd rs1 rs2
  | free rs1 => exact execFree_keeping s rs1
  | realloc rd rs1 rs2 => exact execRealloc_keeping s rd rs1 rs2
  -- Engine commands: shifts
  | shl m w rd rs1 rs2 | bshl m w rd rs1 rs2 =>
    exact (shiftBy_keeps s rd rs1 rs2 w (fun _ n hv => Engine.shl_carry_lt m n hv) _).runs
  | shr m w rd rs1 rs2 | bshr m w rd rs1 rs2 =>
    exact (shiftBy_keeps s rd rs1 rs2 w (fun v n _ => Engine.sar_carry_lt m w.bits v n) _).runs
  | ushr m w rd rs1 rs2 | bushr m w rd rs1 rs2 =>
    exact (shiftBy_keeps s rd rs1 rs2 w (fun v n _ => Engine.ushr_carry_lt m w.bits v n) _).runs
  -- Engine commands: the others
  | and m w rd rs1 rs2 | or m w rd rs1 rs2 | xor m w rd rs1 rs2 => exact (setReg_keeps s rd _).runs
  | not m w rd rs1 | popcnt m w rd rs1 => exact (setReg_keeps s rd _).runs
  | btest m w rd rs1 rs2 | bset m w rd rs1 rs2 | bclr m w rd rs1 rs2 | btgl m w rd rs1 rs2 =>
    exact (bitAt_keeps s rd rs1 rs2 w _).runs
  | mask m w rd rs1 => exact Keeps.runs (.pass fun _ => setReg_keeps s rd _)
  | sext m w rd rs1 rs2 | zext m w rd rs1 rs2 => exact (extendFrom_keeps s rd rs1 rs2 w _).runs
  | bdec m w rs1 rs2 => exact (store rs1 _ _).runs
  | bcomp m w rd rs1 => exact Keeps.runs (.pass fun _ => setReg_keeps s rd _)
  -- Limb commands
  | addh m rd rs1 rs2 rs3 => exact execAddh_keeping s rd rs1 rs2 rs3 m
  | subh m rd rs1 rs2 rs3 => exact execSubh_keeping s rd rs1 rs2 rs3 m
  | shlh m rs1 rs2 rs3 => exact execShlh_keeping s rs1 rs2 rs3 m
  | shrh m rs1 rs2 rs3 => exact execShrh_keeping s rs1 rs2 rs3 m
  | cmph rd rs1 rs2 | scmp rd rs1 rs2 => exact Keeps.runs (.pass fun _ => .pass fun _ => .pass fun _ => setReg_keeps s rd _)
  | zeroh rs1 | wru64h rs1 rs2 | wrs64h rs1 rs2 => exact Keeps.runs (.pass fun _ => store rs1 _ _)
  | hexh rs1 rs2 => exact Keeps.runs (.pass fun _ => .pass fun _ => store rs1 _ _)
  -- 128-bit typed commands: what is tested and read before the one write
  | uadd m rs1 rs2 rs3 | usub m rs1 rs2 rs3 | ushl m rs1 rs2 rs3 | sadd m rs1 rs2 rs3 | ssub m rs1 rs2 rs3 | sshl m rs1 rs2 rs3 =>
    exact Keeps.runs (.pass fun _ => .pass fun _ => .pass fun _ => .pass fun _ => store rs1 _ _)
  | usrl m rs1 rs2 rs3 | ssar m rs1 rs2 rs3 | sneg m rs1 rs2 =>
    exact Keeps.runs (.pass fun _ => .pass fun _ => .pass fun _ => store rs1 _ _)

/-! ### Commands and moves of the host -/

theorem execute_inv {word : CmdWord} {body : Except Raise State} {s t : State} (hs : Inv s) (hb : ∀ u, body = .ok u → Inv u)
    (h : execute word body s = .next t) : Inv t := by
  unfold execute at h
  split at h
  · cases h
    exact hs
  · cases body with
    | ok u =>
      cases h
      exact (hb u rfl).complete
    | error r =>
      cases h
      exact hs.enterFault word r

theorem exec_inv {i : Instr} {s t : State} (hs : Inv s) (h : exec i s = .next t) : Inv t := by
  obtain ⟨body, e, keeps⟩ := exec_keeping i s
  exact execute_inv hs (fun u hu => (keeps u hu).inv hs) (e.symm.trans h)

theorem issueWord_inv {w : CmdWord} {s t : State} (hs : Inv s) (h : issueWord w s = .next t) : Inv t := by
  unfold issueWord at h
  split at h
  · exact exec_inv hs h
  · refine execute_inv hs ?_ h
    nofun

theorem hostMove_inv {m : HostMove} {s t : State} (hs : Inv s) (h : hostMove m s = .next t) : Inv t := by
  cases m with
  | reset => cases h; exact hs.blockReset.observe ..
  | issue w => exact issueWord_inv (hs.observe ..) h
  | readReg r => cases h; exact hs.observe ..
  | writeReg r v => cases h; exact (hs.setReg r v).observe ..
  | readSysReg r => cases h; exact hs.observe ..
  | faultClear =>
    simp only [hostMove] at h
    split at h <;> cases h
    exact hs.clearFault.observe ..

/-- Settles O54: a step is the host's next move, every command's pseudocode keeps the invariant, and so do completion, fault entry and
the moves that are no command. -/
theorem invariantKeptByEveryStep : Obligations.InvariantKeptByEveryStep := by
  intro s t hs h
  unfold step nextMove at h
  split at h
  · cases h
    exact hs
  · exact hostMove_inv (hs.withHost _) h

/-- Settles O43, by the case whether the command's pseudocode answers a state or raises. -/
theorem everyCommandCompletesOrLatches : Obligations.EveryCommandCompletesOrLatches := by
  intro i s hF
  obtain ⟨body, e, keeps⟩ := exec_keeping i s
  rw [e]
  cases body with
  | ok u =>
    have kept := keeps u rfl
    exact .inl ⟨_, command_ok hF, congrArg (· + 1) kept.cmdseq, kept.fault.trans hF, kept.code, kept.faultCmd, kept.faultInfo,
      kept.heapMax, kept.host, kept.trace⟩
  | error r =>
    obtain ⟨h1, h8⟩ := r.kind.number_range
    exact .inr ⟨_, r.info, h1, h8, command_error hF⟩

end Sys2Proof.Machine
end


section
/-! PROOFS. Chunks that tile the heap and links that run through a list (10_state.md R43): where the chunks lie, that no two overlap, and
what a change of bytes leaves of a tiling and of a list. -/

namespace Sys2Proof.Machine

/-- The bytes of a chunk: header, payload and footer (R160). -/
abbrev Chunk.spans (c : Chunk) (a : Nat) : Prop := c.addr ≤ a + 8 ∧ a < c.addr + c.size + 8

theorem Chunk.tag_lt {c : Chunk} (h : c.size < 2 ^ 62) : c.tag < 2 ^ 64 := by
  have := c.used.toNat_lt
  unfold Chunk.tag
  omega

/-! ### Tilings -/

namespace Memory.Tiled

variable {m m' : Memory} {cs ds : List Chunk} {h b : Nat} {c d : Chunk}

theorem append : m.Tiled h (cs ++ ds) b ↔ ∃ k, m.Tiled h cs k ∧ m.Tiled k ds b := by
  induction cs generalizing h with
  | nil => simp [Memory.Tiled]
  | cons c cs ih => simp only [List.cons_append, Memory.Tiled, ih]; tauto

/-- Each chunk takes at least 32 bytes. -/
theorem length_le (ht : m.Tiled h cs b) : h + 32 * cs.length ≤ b := by
  induction cs generalizing h with
  | nil => exact Nat.le_of_eq ht
  | cons c cs ih =>
    obtain ⟨-, hsize, -, -, -, ht⟩ := ht
    have := ih ht
    rw [List.length_cons]
    omega

theorem le (ht : m.Tiled h cs b) : h ≤ b := by
  have := ht.length_le
  omega

theorem bounds (ht : m.Tiled h cs b) (hc : c ∈ cs) :
    h + 8 ≤ c.addr ∧ c.addr + c.size + 8 ≤ b ∧ 16 ≤ c.size ∧ c.size % 16 = 0 := by
  obtain ⟨us, vs, rfl⟩ := List.append_of_mem hc
  obtain ⟨k, hu, ht⟩ := append.1 ht
  obtain ⟨haddr, hsize, hmod, -, -, hv⟩ := ht
  have := hu.le
  have := hv.le
  omega

theorem tags (ht : m.Tiled h cs b) (hc : c ∈ cs) : m.natAt (c.addr - 8) 8 = c.tag ∧ m.natAt (c.addr + c.size) 8 = c.tag := by
  obtain ⟨us, vs, rfl⟩ := List.append_of_mem hc
  obtain ⟨k, -, haddr, -, -, hhead, hfoot, -⟩ := append.1 ht
  rw [haddr]
  exact ⟨hhead, hfoot⟩

theorem end_aligned (ht : m.Tiled h cs b) (hh : h % 16 = 8) : b % 16 = 8 := by
  induction cs generalizing h with
  | nil => exact ht ▸ hh
  | cons c cs ih => exact ih ht.2.2.2.2.2 (by have := ht.2.2.1; omega)

theorem aligned (ht : m.Tiled h cs b) (hh : h % 16 = 8) (hc : c ∈ cs) : c.addr % 16 = 0 := by
  obtain ⟨us, vs, rfl⟩ := List.append_of_mem hc
  obtain ⟨k, hu, haddr, -⟩ := append.1 ht
  have := hu.end_aligned hh
  omega

/-- The chunks stand in address order and do not overlap. -/
theorem pairwise (ht : m.Tiled h cs b) : cs.Pairwise fun c d => c.addr + c.size + 16 ≤ d.addr := by
  induction cs generalizing h with
  | nil => exact List.Pairwise.nil
  | cons c cs ih =>
    obtain ⟨haddr, -, -, -, -, ht⟩ := ht
    refine List.pairwise_cons.2 ⟨fun d hd => ?_, ih ht⟩
    have := (ht.bounds hd).1
    omega

/-- A byte lies in one chunk. -/
theorem eq_of_spans (ht : m.Tiled h cs b) (hc : c ∈ cs) (hd : d ∈ cs) {a : Nat} (hca : c.spans a) (hda : d.spans a) : c = d := by
  obtain ⟨us, vs, rfl⟩ := List.append_of_mem hc
  obtain ⟨-, after, before⟩ := List.pairwise_append.1 ht.pairwise
  rcases List.mem_append.1 hd with hd | hd
  · have := before d hd c (List.mem_cons_self ..)
    omega
  · rcases List.mem_cons.1 hd with rfl | hd
    · rfl
    · have := (List.pairwise_cons.1 after).1 d hd
      omega

theorem eq_of_addr (ht : m.Tiled h cs b) (hc : c ∈ cs) (hd : d ∈ cs) (e : c.addr = d.addr) : c = d :=
  ht.eq_of_spans hc hd (a := c.addr) (by omega) (by omega)

/-- A tiling looks at the bytes of its tags only. -/
theorem congr (ht : m.Tiled h cs b) (hm : ∀ c ∈ cs, ∀ a, c.hasTagAt a → m'.read a = m.read a) : m'.Tiled h cs b := by
  induction cs generalizing h with
  | nil => exact ht
  | cons c cs ih =>
    obtain ⟨haddr, hsize, hmod, hhead, hfoot, ht⟩ := ht
    have same := hm c (List.mem_cons_self ..)
    refine ⟨haddr, hsize, hmod, ?_, ?_, ih ht fun d hd => hm d (List.mem_cons_of_mem _ hd)⟩
    · rw [← hhead]
      exact Memory.natAt_congr fun k hk => same _ (by omega)
    · rw [← hfoot]
      exact Memory.natAt_congr fun k hk => same _ (by omega)

/-- The chunk found by its address. -/
theorem find?_addr (ht : m.Tiled h cs b) (hc : c ∈ cs) : (cs.find? fun d => d.addr = c.addr) = some c := by
  cases hf : cs.find? fun d => d.addr = c.addr with
  | none => exact absurd (List.find?_eq_none.1 hf c hc) (by simp)
  | some d =>
    have hd := List.mem_of_find?_eq_some hf
    have e := List.find?_some hf
    rw [ht.eq_of_addr hd hc (by simpa using e)]

end Memory.Tiled

/-! ### Lists -/

namespace Memory.Linked

variable {m m' : Memory} {p q d : Nat} {us vs ps : List Nat}

/-- A list looks at the links of its members only. -/
theorem congr (h : m.Linked p ps) (hm : ∀ q ∈ ps, m'.natAt q 8 = m.natAt q 8) : m'.Linked p ps := by
  induction ps generalizing p with
  | nil => exact h
  | cons q ps ih =>
    obtain ⟨hp, hq, h⟩ := h
    refine ⟨hp, hq, ?_⟩
    rw [hm q (List.mem_cons_self ..)]
    exact ih h fun r hr => hm r (List.mem_cons_of_mem _ hr)

/-- A member in the middle is taken out by giving the member before it its link. -/
theorem unlink (h : m.Linked q (us ++ d :: p :: vs)) (hd : m'.natAt d 8 = m.natAt p 8)
    (hm : ∀ r ∈ us ++ vs, m'.natAt r 8 = m.natAt r 8) : m'.Linked q (us ++ d :: vs) := by
  induction us generalizing q with
  | nil =>
    obtain ⟨hq, hd0, -, -, h⟩ := h
    refine ⟨hq, hd0, ?_⟩
    rw [hd]
    exact h.congr hm
  | cons r us ih =>
    obtain ⟨hq, hr, h⟩ := h
    refine ⟨hq, hr, ?_⟩
    rw [hm r (List.mem_cons_self ..)]
    exact ih h fun x hx => hm x (List.mem_cons_of_mem _ hx)

theorem head_eq (h : m.Linked q (p :: vs)) : q = p := h.1

theorem tail (h : m.Linked q (p :: vs)) : m.Linked (m.natAt p 8) vs := h.2.2

end Memory.Linked

end Sys2Proof.Machine
end


section
/-! PROOFS. The heap between the steps of an allocator procedure: chunks that tile it and lists that run through free chunks, where a free
chunk may be off its list; and the rules for tags, links, list heads and payloads (42_allocator.md R160 to R168). -/

namespace Sys2Proof.Machine

/-! ### The heap between the steps of a procedure -/

/-- The heap of `s` holds the chunks `cs` and the lists `ls` as R43 says, but that a free chunk may be on no list; LIVE is left aside. -/
structure Holds (s : State) (cs : List Chunk) (ls : FreeList → List Nat) : Prop where
  init : s.init = true
  bound : s.bump.toNat ≤ s.cap ∧ s.cap ≤ s.heapMax ∧ s.heapMax < 2 ^ 62
  beyond : ∀ a, s.cap ≤ a → s.mem.read a = 0
  tiled : s.mem.Tiled 8 cs s.bump.toNat
  linked : ∀ l, s.mem.Linked (s.head l) (ls l)
  nodup : ∀ l, (ls l).Nodup
  listed : ∀ l p, p ∈ ls l → ∃ c ∈ cs, c.addr = p ∧ c.used = false ∧ listFor c.size = l

/-- No two free chunks are neighbours, and every free chunk is on the list of its size (I4, I5). -/
structure Settled (cs : List Chunk) (ls : FreeList → List Nat) : Prop where
  apart : cs.IsChain fun c d => c.used = true ∨ d.used = true
  complete : ∀ c ∈ cs, c.used = false → c.addr ∈ ls (listFor c.size)

theorem represents_iff {s : State} {cs : List Chunk} {ls : FreeList → List Nat} :
    Represents s cs ls ↔ Holds s cs ls ∧ Settled cs ls ∧ ∀ p, p ∈ s.live ↔ ∃ c ∈ cs, c.addr = p ∧ c.used = true := by
  constructor
  · exact fun h => ⟨⟨h.init, h.bound, h.beyond, h.tiled, h.linked, h.nodup, fun l p hp => (h.member l p).1 hp⟩,
      ⟨h.apart, fun c hc hu => (h.member _ _).2 ⟨c, hc, rfl, hu, rfl⟩⟩, h.live⟩
  · rintro ⟨h, k, hl⟩
    refine ⟨h.init, h.bound, h.beyond, h.tiled, k.apart, h.linked, h.nodup, fun l p => ⟨h.listed l p, ?_⟩, hl⟩
    rintro ⟨c, hc, rfl, hu, rfl⟩
    exact k.complete c hc hu

/-- What a procedure on tags and lists may change: the heads, and the bytes where `writes` holds. -/
structure ListFrame (s t : State) (writes : Nat → Prop) : Prop where
  same : t = { s with mem := t.mem, bin := t.bin, large := t.large }
  read : ∀ a, ¬writes a → t.mem.read a = s.mem.read a

namespace ListFrame

variable {s t u : State} {W V : Nat → Prop}

theorem refl (s : State) (W : Nat → Prop) : ListFrame s s W := ⟨rfl, fun _ _ => rfl⟩

theorem trans (h : ListFrame s t W) (k : ListFrame t u V) : ListFrame s u fun a => W a ∨ V a := by
  refine ⟨?_, fun a ha => ?_⟩
  · rw [k.same, h.same]
  · rw [k.read a fun hv => ha (.inr hv), h.read a fun hw => ha (.inl hw)]

theorem mono (h : ListFrame s t W) (hW : ∀ a, W a → V a) : ListFrame s t V := ⟨h.same, fun a ha => h.read a fun hw => ha (hW a hw)⟩

theorem eq_with (h : ListFrame s t W) : ∃ m bin large, t = { s with mem := m, bin := bin, large := large } := ⟨_, _, _, h.same⟩

theorem init (h : ListFrame s t W) : t.init = s.init := by rw [h.same]
theorem cap (h : ListFrame s t W) : t.cap = s.cap := by rw [h.same]
theorem heapMax (h : ListFrame s t W) : t.heapMax = s.heapMax := by rw [h.same]
theorem bump (h : ListFrame s t W) : t.bump = s.bump := by rw [h.same]
theorem live (h : ListFrame s t W) : t.live = s.live := by rw [h.same]

theorem withMem {m : Memory} (h : ∀ a, ¬W a → m.read a = s.mem.read a) : ListFrame s { s with mem := m } W := ⟨rfl, h⟩

theorem setHead (s : State) (l : FreeList) (p : Nat) (W : Nat → Prop) : ListFrame s (s.setHead l p) W := by
  cases l <;> exact ⟨rfl, fun _ _ => rfl⟩

end ListFrame

/-- A byte of the link of a free chunk that is on a list. -/
def OnLink (cs : List Chunk) (ls : FreeList → List Nat) (a : Nat) : Prop :=
  ∃ d ∈ cs, d.used = false ∧ d.hasLinkAt a ∧ ∃ l, d.addr ∈ ls l

theorem head_congr {s t : State} (hbin : t.bin = s.bin) (hlarge : t.large = s.large) (l : FreeList) : t.head l = s.head l := by
  cases l
  · simp only [State.head, hbin]
  · simp only [State.head, hlarge]

@[simp] theorem head_withMem (s : State) (m : Memory) (l : FreeList) : ({ s with mem := m } : State).head l = s.head l :=
  head_congr rfl rfl l

theorem mem_without {ls : FreeList → List Nat} (h : ∀ l, (ls l).Nodup) {p q : Nat} {l : FreeList} :
    q ∈ without ls p l ↔ q ≠ p ∧ q ∈ ls l := (h l).mem_erase_iff

theorem mem_withHead {ls : FreeList → List Nat} {p q size : Nat} {l : FreeList} :
    q ∈ withHead ls p size l ↔ q = p ∧ l = listFor size ∨ q ∈ ls l := by
  unfold withHead
  split <;> simp [*]

namespace Holds

variable {s t : State} {cs : List Chunk} {ls : FreeList → List Nat} {c d : Chunk}

theorem heapBounds (h : Holds s cs ls) : HeapBounds s :=
  ⟨h.init, h.bound.1, by have := h.bound; omega⟩

theorem hasChunk (h : Holds s cs ls) (hc : c ∈ cs) : s.HasChunk c := by
  obtain ⟨hlo, hhi, hsize, hmod⟩ := h.tiled.bounds hc
  exact ⟨by omega, h.tiled.aligned (by decide) hc, hsize, hmod, hhi, h.tiled.tags hc⟩

theorem eq_of_addr (h : Holds s cs ls) (hc : c ∈ cs) (hd : d ∈ cs) (e : c.addr = d.addr) : c = d := h.tiled.eq_of_addr hc hd e

/-- The chunk at an address that is on a list is free and belongs to that list. -/
theorem listed_at (h : Holds s cs ls) (hc : c ∈ cs) {l : FreeList} (hl : c.addr ∈ ls l) : c.used = false ∧ listFor c.size = l := by
  obtain ⟨d, hd, e, hu, hf⟩ := h.listed l _ hl
  obtain rfl := h.eq_of_addr hd hc e
  exact ⟨hu, hf⟩

theorem size_lt (h : Holds s cs ls) (hc : c ∈ cs) : c.addr + c.size < 2 ^ 62 := by
  have := (h.tiled.bounds hc).2.1
  have := h.bound
  omega

/-- A list is no longer than the walk's bound (R165). -/
theorem length_le (h : Holds s cs ls) (l : FreeList) : (ls l).length ≤ s.walkLimit := by
  have sub : ls l ⊆ cs.map Chunk.addr := fun p hp => by
    obtain ⟨c, hc, e, -⟩ := h.listed l p hp
    exact List.mem_map.2 ⟨c, hc, e⟩
  have few := (List.subperm_of_subset (h.nodup l) sub).length_le
  have := h.tiled.length_le
  rw [List.length_map] at few
  show _ ≤ s.bump.toNat / 32
  omega

/-! ### What a change of bytes leaves -/

/-- Bytes changed off the tags of chunks and the links of listed chunks, and a capacity that may have grown. -/
theorem congr (h : Holds s cs ls) (hinit : t.init = s.init) (hbump : t.bump = s.bump) (hmax : t.heapMax = s.heapMax)
    (hhead : ∀ l, t.head l = s.head l) (hcap : s.cap ≤ t.cap ∧ t.cap ≤ t.heapMax) (hbeyond : ∀ a, t.cap ≤ a → t.mem.read a = 0)
    (htag : ∀ c ∈ cs, ∀ a, c.hasTagAt a → t.mem.read a = s.mem.read a)
    (hlink : ∀ a, OnLink cs ls a → t.mem.read a = s.mem.read a) : Holds t cs ls where
  init := hinit.trans h.init
  bound := by
    have := h.bound
    rw [hbump]
    omega
  beyond := hbeyond
  tiled := hbump ▸ h.tiled.congr htag
  linked l := by
    rw [hhead]
    refine (h.linked l).congr fun q hq => Memory.natAt_congr fun k hk => hlink _ ?_
    obtain ⟨c, hc, rfl, hu, -⟩ := h.listed l q hq
    exact ⟨c, hc, hu, by omega, l, hq⟩
  nodup := h.nodup
  listed := h.listed

/-- What has no part in the heap may change: registers, flags, LIVE, CMDSEQ and the latch. -/
theorem of_same (h : Holds s cs ls) (hinit : t.init = s.init) (hcap : t.cap = s.cap) (hmax : t.heapMax = s.heapMax)
    (hmem : t.mem = s.mem) (hbin : t.bin = s.bin) (hlarge : t.large = s.large) (hbump : t.bump = s.bump) : Holds t cs ls :=
  h.congr hinit hbump hmax (head_congr hbin hlarge) ⟨Nat.le_of_eq hcap.symm, by rw [hcap, hmax]; exact h.bound.2.1⟩
    (fun a ha => by rw [hmem]; exact h.beyond a (hcap ▸ ha)) (fun _ _ _ _ => by rw [hmem]) fun _ _ => by rw [hmem]

/-- Chunks in the middle become other chunks of the same bytes, none of them listed before or after. -/
theorem retile {pre mid post mid' : List Chunk} {m : Memory} {lo hi : Nat} (h : Holds s (pre ++ mid ++ post) ls)
    (hlo : s.mem.Tiled 8 pre lo) (hmid : m.Tiled lo mid' hi) (hhi : s.mem.Tiled hi post s.bump.toNat)
    (hoff : ∀ c ∈ mid, ∀ l, c.addr ∉ ls l) (hm : ∀ a, a < lo ∨ hi ≤ a → m.read a = s.mem.read a) :
    Holds { s with mem := m } (pre ++ mid' ++ post) ls := by
  have hle := hmid.le
  have hend := hhi.le
  have listed : ∀ l p, p ∈ ls l → ∃ c ∈ pre ++ post, c.addr = p ∧ c.used = false ∧ listFor c.size = l := by
    intro l p hp
    obtain ⟨c, hc, rfl, hu⟩ := h.listed l p hp
    simp only [List.mem_append] at hc ⊢
    refine ⟨c, ?_, rfl, hu⟩
    rcases hc with (hc | hc) | hc
    · exact .inl hc
    · exact absurd hp (hoff c hc l)
    · exact .inr hc
  have kept : ∀ c ∈ pre ++ post, ∀ a, c.spans a → m.read a = s.mem.read a := by
    intro c hc a ha
    rcases List.mem_append.1 hc with hc | hc
    · have := hlo.bounds hc
      exact hm a (.inl (by omega))
    · have := hhi.bounds hc
      exact hm a (.inr (by omega))
  refine ⟨h.init, h.bound, fun a ha => ?_, ?_, fun l => ?_, h.nodup, fun l p hp => ?_⟩
  · have := h.bound.1
    exact (hm a (.inr (by exact Nat.le_trans hend (Nat.le_trans this ha)))).trans (h.beyond a ha)
  · refine Memory.Tiled.append.2 ⟨hi, Memory.Tiled.append.2 ⟨lo, hlo.congr fun c hc a ha => ?_, hmid⟩, hhi.congr fun c hc a ha => ?_⟩
    · exact kept c (List.mem_append_left _ hc) a (by omega)
    · exact kept c (List.mem_append_right _ hc) a (by omega)
  · rw [head_withMem]
    refine (h.linked l).congr fun q hq => Memory.natAt_congr fun k hk => ?_
    obtain ⟨c, hc, rfl, -⟩ := listed l q hq
    exact kept c hc _ (by omega)
  · obtain ⟨c, hc, hp⟩ := listed l p hp
    refine ⟨c, ?_, hp⟩
    simp only [List.mem_append] at hc ⊢
    tauto

end Holds

end Sys2Proof.Machine
end


section
/-! PROOFS. What the tag and list procedures do to a heap held as chunks and lists: the tags written, a chunk found, taken off its list and
put at the head of one (42_allocator.md R160 to R167). None of them raises. -/

namespace Sys2Proof.Machine

/-- The tags of a chunk inside the heap are written, and no other byte. -/
theorem writeTags_holds {s : State} (c : Chunk) (hi : s.init = true) (hcap : s.cap < 2 ^ 62) (h8 : 8 ≤ c.addr)
    (hc : c.addr + c.size + 8 ≤ s.cap) :
    ∃ m : Memory, writeTags s c.addr c.size c.used.toNat = .ok { s with mem := m } ∧
      m.natAt (c.addr - 8) 8 = c.tag ∧ m.natAt (c.addr + c.size) 8 = c.tag ∧ ∀ a, ¬c.hasTagAt a → m.read a = s.mem.read a := by
  have htag : c.tag % 256 ^ 8 = c.tag := Nat.mod_eq_of_lt (Chunk.tag_lt (by omega))
  have header := Memory.wrote_store s.mem (c.addr - 8) 8 c.tag
  have footer := Memory.wrote_store (s.mem.store (c.addr - 8) (leBytes 8 c.tag)) (c.addr + c.size) 8 c.tag
  refine ⟨(s.mem.store (c.addr - 8) (leBytes 8 c.tag)).store (c.addr + c.size) (leBytes 8 c.tag), ?_, ?_, ?_, fun a ha => ?_⟩
  · unfold writeTags
    rw [memWrite_of hi (by omega) (by omega), ok_bind, memWrite_of (by exact hi) (by omega) (by exact hc)]
    rfl
  · rw [footer.natAt_other (by omega), header.natAt_same, htag]
  · rw [footer.natAt_same, htag]
  · rw [footer.read_other (by omega), header.read_other (by omega)]

/-- The tags a chunk was given make it a tile. -/
theorem Memory.Tiled.cons {m : Memory} {c : Chunk} {cs : List Chunk} {h b : Nat} (haddr : c.addr = h + 8) (hsize : 16 ≤ c.size)
    (hmod : c.size % 16 = 0) (hhead : m.natAt (c.addr - 8) 8 = c.tag) (hfoot : m.natAt (c.addr + c.size) 8 = c.tag)
    (ht : m.Tiled (h + 16 + c.size) cs b) : m.Tiled h (c :: cs) b := by
  rw [haddr] at hhead hfoot
  exact ⟨haddr, hsize, hmod, hhead, hfoot, ht⟩

/-! ### The members of a list -/

/-- The chunks of a list, in list order. -/
def members (cs : List Chunk) (ps : List Nat) : List Chunk := ps.filterMap fun p => cs.find? fun c => c.addr = p

namespace Holds

variable {s : State} {cs : List Chunk} {ls : FreeList → List Nat} {c : Chunk}

theorem member_of_mem {l : FreeList} (h : Holds s cs ls) (hc : c ∈ members cs (ls l)) :
    c ∈ cs ∧ c.used = false ∧ c.addr ∈ ls l ∧ listFor c.size = l := by
  obtain ⟨p, hp, hf⟩ := List.mem_filterMap.1 hc
  have hmem := List.mem_of_find?_eq_some hf
  have e : c.addr = p := by simpa using List.find?_some hf
  subst e
  obtain ⟨hu, hl⟩ := h.listed_at hmem hp
  exact ⟨hmem, hu, hp, hl⟩

theorem members_addr (h : Holds s cs ls) (l : FreeList) : (members cs (ls l)).map Chunk.addr = ls l := by
  have listed := h.listed l
  revert listed
  generalize ls l = ps
  intro listed
  induction ps with
  | nil => rfl
  | cons p ps ih =>
    obtain ⟨c, hc, rfl, -⟩ := listed p (List.mem_cons_self ..)
    have := ih fun q hq => listed q (List.mem_cons_of_mem _ hq)
    unfold members at this ⊢
    rw [List.filterMap_cons, h.tiled.find?_addr hc]
    simp [this]

/-- The list that a listed chunk splits, as the walk sees it: the chunks before it are passed and the walk stands at it. -/
theorem walks {passes : Chunk → Prop} {ds : List Chunk} {ps : List Nat} {p : Nat} (h : Holds s cs ls)
    (hlink : s.mem.Linked p (ds.map Chunk.addr ++ ps)) (hds : ∀ d ∈ ds, d ∈ cs ∧ d.used = false ∧ passes d) :
    ∃ q, s.Walks passes p ds q ∧ s.mem.Linked q ps := by
  induction ds generalizing p with
  | nil => exact ⟨p, rfl, hlink⟩
  | cons d ds ih =>
    obtain ⟨hd, hu, hp⟩ := hds d (List.mem_cons_self ..)
    obtain ⟨rfl, -, hlink⟩ := hlink
    obtain ⟨q, hw, hq⟩ := ih hlink fun e he => hds e (List.mem_cons_of_mem _ he)
    exact ⟨q, ⟨rfl, h.hasChunk hd, hu, hp, hw⟩, hq⟩

/-- What the first-fit search finds is what `FindFit` answers, with the member before it (R165). -/
theorem findFit_some {l : FreeList} {r : Nat} (h : Holds s cs ls) (hf : firstFit cs (ls l) r = some c) :
    c ∈ cs ∧ r ≤ c.size ∧
      ∃ us vs, ls l = us ++ c.addr :: vs ∧ findFit s l r = .ok (some ⟨us.getLast?.getD 0, c.addr, c.size⟩) := by
  obtain ⟨hr, ds, es, hsplit, hsmall⟩ := List.find?_eq_some_iff_append.1 hf
  have hr : r ≤ c.size := by simpa using hr
  have hsplit : members cs (ls l) = ds ++ c :: es := hsplit
  have hmem : ∀ d ∈ ds ++ c :: es, d ∈ cs ∧ d.used = false ∧ d.addr ∈ ls l ∧ listFor d.size = l :=
    fun d hd => h.member_of_mem (hsplit ▸ hd)
  obtain ⟨hc, hu, -⟩ := hmem c (List.mem_append_right _ (List.mem_cons_self ..))
  have hls : ls l = ds.map Chunk.addr ++ c.addr :: es.map Chunk.addr := by
    rw [← h.members_addr l, hsplit, List.map_append, List.map_cons]
  refine ⟨hc, hr, _, _, hls, ?_⟩
  obtain ⟨q, hw, hq⟩ := h.walks (passes := fun c => c.size < r) (hls ▸ h.linked l) fun d hd => by
    obtain ⟨hd1, hd2, -⟩ := hmem d (List.mem_append_left _ hd)
    exact ⟨hd1, hd2, by simpa using hsmall d hd⟩
  obtain rfl := hq.head_eq
  have few := h.length_le l
  rw [hls, List.length_append, List.length_map, List.length_cons] at few
  obtain ⟨k, hk⟩ := Nat.le.dest (show ds.length + 1 ≤ s.walkLimit by omega)
  unfold findFit
  rw [show s.walkLimit = k + 1 + ds.length by omega, findFitFrom_walk h.heapBounds (k + 1) 0 hw, findFitFrom,
    if_neg (by have := (h.hasChunk hc).1; omega), readChunk_of h.heapBounds (h.hasChunk hc), ok_bind, hu]
  simp [require_of, hr, List.getLast?_map]

/-- Where first fit finds nothing, `FindFit` comes to the end of the list. -/
theorem findFit_none {l : FreeList} {r : Nat} (h : Holds s cs ls) (hf : firstFit cs (ls l) r = none) : findFit s l r = .ok none := by
  have hls : ls l = (members cs (ls l)).map Chunk.addr ++ [] := by rw [h.members_addr, List.append_nil]
  obtain ⟨q, hw, hq⟩ := h.walks (passes := fun c => c.size < r) (hls ▸ h.linked l) fun d hd => by
    obtain ⟨hd1, hd2, -⟩ := h.member_of_mem hd
    exact ⟨hd1, hd2, by simpa using List.find?_eq_none.1 hf d hd⟩
  cases hq
  have few := h.length_le l
  rw [hls, List.append_nil, List.length_map] at few
  exact findFit_ends h.heapBounds ⟨_, hw, few⟩

/-- A listed chunk is found from the head of its list, with the member before it (R166). -/
theorem findPrev_of {l : FreeList} (h : Holds s cs ls) {us vs : List Nat} (hls : ls l = us ++ c.addr :: vs) :
    findPrevFrom s c.addr s.walkLimit 0 (s.head l) = .ok (us.getLast?.getD 0) := by
  obtain ⟨ds, es, hsplit, hds, -⟩ := List.map_eq_append_iff.1 ((h.members_addr l).trans hls)
  subst hds
  have hmem : ∀ d ∈ ds, d ∈ cs ∧ d.used = false ∧ d.addr ≠ c.addr := fun d hd => by
    obtain ⟨hd1, hd2, -⟩ := h.member_of_mem (l := l) (hsplit ▸ List.mem_append_left _ hd)
    refine ⟨hd1, hd2, fun e => ?_⟩
    have nodup := hls ▸ h.nodup l
    exact (List.nodup_append.1 nodup).2.2 _ (List.mem_map_of_mem hd) _ (List.mem_cons_self ..) e
  obtain ⟨q, hw, hq⟩ := h.walks (passes := fun d => d.addr ≠ c.addr) (hls ▸ h.linked l) hmem
  obtain rfl := hq.head_eq
  have few := h.length_le l
  rw [hls, List.length_append, List.length_map, List.length_cons] at few
  obtain ⟨k, hk⟩ := Nat.le.dest (show ds.length + 1 ≤ s.walkLimit by omega)
  rw [show s.walkLimit = k + 1 + ds.length by omega, findPrevFrom_walk h.heapBounds (k + 1) 0 hw, findPrevFrom,
    if_pos (.inr rfl), require_of rfl, ok_bind, pure_eq_ok, List.getLast?_map]

/-! ### Links and heads written -/

/-- Links and heads changed so that new lists run through free chunks: the tags and the rest of the heap stay. -/
theorem relist {t : State} {W : Nat → Prop} {ls' : FreeList → List Nat} (h : Holds s cs ls) (hf : ListFrame s t W)
    (hW : ∀ a, W a → ∃ d ∈ cs, d.hasLinkAt a) (hlinked : ∀ l, t.mem.Linked (t.head l) (ls' l)) (hnodup : ∀ l, (ls' l).Nodup)
    (hlisted : ∀ l p, p ∈ ls' l → ∃ c ∈ cs, c.addr = p ∧ c.used = false ∧ listFor c.size = l) : Holds t cs ls' where
  init := hf.init.trans h.init
  bound := by rw [hf.bump, hf.cap, hf.heapMax]; exact h.bound
  beyond a ha := by
    rw [hf.cap] at ha
    refine (hf.read a fun hw => ?_).trans (h.beyond a ha)
    obtain ⟨d, hd, hin⟩ := hW a hw
    have := h.tiled.bounds hd
    have := h.bound
    omega
  tiled := by
    rw [hf.bump]
    refine h.tiled.congr fun c hc a ha => hf.read a fun hw => ?_
    obtain ⟨d, hd, hin⟩ := hW a hw
    have := h.tiled.bounds hc
    have := h.tiled.bounds hd
    obtain rfl := h.tiled.eq_of_spans hc hd (a := a) (by omega) (by omega)
    omega
  linked := hlinked
  nodup := hnodup
  listed := hlisted

/-- The link of a chunk is written, and no other byte. -/
theorem writeLink (h : Holds s cs ls) (hc : c ∈ cs) {v : Nat} (hv : v < 2 ^ 64) :
    ∃ m : Memory, memWrite s c.addr 8 v = .ok { s with mem := m } ∧ m.natAt c.addr 8 = v ∧
      ∀ a, ¬c.hasLinkAt a → m.read a = s.mem.read a := by
  have := h.tiled.bounds hc
  have := h.bound
  have wrote := Memory.wrote_store s.mem c.addr 8 v
  exact ⟨_, memWrite_of h.init (by omega) (by omega), by rw [wrote.natAt_same]; exact Nat.mod_eq_of_lt hv,
    fun a ha => wrote.read_other (by omega)⟩

/-- The links of the other members are as they were when the link of one chunk is written. -/
theorem link_other {m : Memory} (h : Holds s cs ls) (hc : c ∈ cs) (hm : ∀ a, ¬c.hasLinkAt a → m.read a = s.mem.read a)
    {l : FreeList} {p : Nat} (hp : p ∈ ls l) (hne : p ≠ c.addr) : m.natAt p 8 = s.mem.natAt p 8 := by
  obtain ⟨d, hd, rfl, -⟩ := h.listed l p hp
  have := h.tiled.bounds hc
  have := h.tiled.bounds hd
  refine Memory.natAt_congr fun j hj => hm _ fun hin => ?_
  exact hne (congrArg Chunk.addr (h.tiled.eq_of_spans hd hc (a := d.addr + j) (by omega) (by omega)))

/-! ### Taking a chunk off its list -/

theorem without_eq {l : FreeList} {p : Nat} {us vs : List Nat} (h : Holds s cs ls) (hls : ls l = us ++ p :: vs) (k : FreeList) :
    without ls p k = if k = l then us ++ vs else ls k := by
  obtain ⟨c, hc, rfl, -, hl⟩ := h.listed l p (by rw [hls]; simp)
  unfold without
  split
  · subst k
    have nodup := hls ▸ h.nodup l
    rw [hls, List.erase_append_right _ fun hu => (List.nodup_append.1 nodup).2.2 _ hu _ (List.mem_cons_self ..) rfl,
      List.erase_cons_head]
  · rename_i hk
    exact List.erase_of_not_mem fun hp => hk ((h.listed_at hc hp).2.symm.trans hl)

/-- Links and heads changed so that the lists without one member are linked. -/
theorem relist_without {t : State} {p : Nat} (h : Holds s cs ls) (hf : ListFrame s t (OnLink cs (without ls p)))
    (hlinked : ∀ l, t.mem.Linked (t.head l) (without ls p l)) : Holds t cs (without ls p) :=
  h.relist hf (fun _ ⟨d, hd, _, ha, _⟩ => ⟨d, hd, ha⟩) hlinked (fun l => (h.nodup l).erase p)
    fun l q hq => h.listed l q ((mem_without h.nodup).1 hq).2

/-- The first member of a list is taken off it: its link goes into the head. -/
theorem take_first {l : FreeList} {vs : List Nat} (h : Holds s cs ls) (hls : ls l = c.addr :: vs) :
    Holds (s.setHead l (s.mem.natAt c.addr 8)) cs (without ls c.addr) := by
  refine h.relist_without (.setHead ..) fun k => ?_
  rw [h.without_eq (us := []) hls, State.setHead_mem]
  split
  · subst k
    rw [State.head_setHead_same _ _ _ (Memory.natAt_lt _ _ 8)]
    exact (hls ▸ h.linked l).tail
  · rw [State.head_setHead_other _ _ _ _ ‹_›]
    exact h.linked k

/-- A later member is taken off its list: its link goes into the member before it. -/
theorem take_later {l : FreeList} {d : Chunk} {us vs : List Nat} {m : Memory} (h : Holds s cs ls) (hd : d ∈ cs)
    (hls : ls l = us ++ d.addr :: c.addr :: vs) (hlink : m.natAt d.addr 8 = s.mem.natAt c.addr 8)
    (hm : ∀ a, ¬d.hasLinkAt a → m.read a = s.mem.read a) :
    Holds { s with mem := m } cs (without ls c.addr) ∧ ListFrame s { s with mem := m } (OnLink cs (without ls c.addr)) := by
  have hls' : ls l = (us ++ [d.addr]) ++ c.addr :: vs := by simp [hls]
  obtain ⟨hdu, hdl⟩ := h.listed_at hd (l := l) (by simp [hls])
  have frame : ListFrame s { s with mem := m } (OnLink cs (without ls c.addr)) := .withMem fun a ha => hm a fun hin =>
    ha ⟨d, hd, hdu, hin, l, by rw [h.without_eq hls']; simp⟩
  refine ⟨h.relist_without frame fun k => ?_, frame⟩
  rw [h.without_eq hls', head_withMem]
  split
  · subst k
    rw [List.append_assoc]
    refine (hls ▸ h.linked l).unlink hlink fun p hp => h.link_other hd hm (l := l) ?_ ?_
    · rw [hls]
      simp only [List.mem_append, List.mem_cons] at hp ⊢
      tauto
    · rintro rfl
      have nodup := hls ▸ h.nodup l
      simp only [List.nodup_append, List.nodup_cons, List.mem_cons, List.mem_append] at nodup hp
      grind
  · rename_i hk
    refine (h.linked k).congr fun p hp => h.link_other hd hm hp ?_
    rintro rfl
    exact hk ((h.listed_at hd hp).2.symm.trans hdl)

/-- A member is taken off its list, given the member before it (R165, R166). -/
theorem take_of {l : FreeList} (h : Holds s cs ls) (hc : c ∈ cs) {us vs : List Nat} (hls : ls l = us ++ c.addr :: vs) :
    ∃ t, take s l (us.getLast?.getD 0) c.addr = .ok t ∧ Holds t cs (without ls c.addr) ∧
      ListFrame s t (OnLink cs (without ls c.addr)) := by
  unfold take
  rw [memRead_link h.heapBounds (h.hasChunk hc), ok_bind]
  rcases List.eq_nil_or_concat us with rfl | ⟨us, q, rfl⟩
  · exact ⟨_, rfl, h.take_first hls, .setHead ..⟩
  · rw [List.concat_eq_append] at hls ⊢
    obtain ⟨d, hd, rfl, -⟩ := h.listed l q (by simp [hls])
    obtain ⟨m, hw, hlink, hm⟩ := h.writeLink hd (v := s.mem.natAt c.addr 8) (Memory.natAt_lt _ _ 8)
    have hne := (h.hasChunk hd).1
    refine ⟨{ s with mem := m }, ?_, h.take_later (l := l) (us := us) (vs := vs) hd (by simp [hls]) hlink hm⟩
    rw [List.getLast?_concat, Option.getD_some, if_neg (by omega), hw]

/-- A listed chunk is unlinked (R166). -/
theorem unlink_of {l : FreeList} (h : Holds s cs ls) (hc : c ∈ cs) (hl : c.addr ∈ ls l) :
    ∃ t, unlink s l c.addr = .ok t ∧ Holds t cs (without ls c.addr) ∧ ListFrame s t (OnLink cs (without ls c.addr)) := by
  obtain ⟨us, vs, hls⟩ := List.append_of_mem hl
  obtain ⟨t, ht, rest⟩ := h.take_of hc hls
  refine ⟨t, ?_, rest⟩
  unfold unlink
  rw [h.findPrev_of hls, ok_bind, ht]

/-! ### Putting a chunk on a list -/

/-- A free chunk that is on no list is put at the head of the list of its size (R167). -/
theorem insert_of (h : Holds s cs ls) (hc : c ∈ cs) (hu : c.used = false) (hoff : ∀ l, c.addr ∉ ls l) :
    ∃ t, insertChunk s c.addr c.size = .ok t ∧ Holds t cs (withHead ls c.addr c.size) ∧ ListFrame s t c.hasLinkAt := by
  have hsize := h.size_lt hc
  have h16 := (h.hasChunk hc).1
  have head_lt : s.head (listFor c.size) < 2 ^ 64 := by
    unfold State.head
    split <;> exact BitVec.isLt _
  obtain ⟨m, hw, hlink, hm⟩ := h.writeLink hc head_lt
  have lists : ∀ l, m.Linked (s.head l) (ls l) := fun l =>
    (h.linked l).congr fun p hp => h.link_other hc hm hp fun e => hoff l (e ▸ hp)
  have frame : ListFrame s (({ s with mem := m } : State).setHead (listFor c.size) c.addr) c.hasLinkAt :=
    ((ListFrame.withMem hm).trans (.setHead _ _ _ c.hasLinkAt)).mono fun a ha => ha.elim id id
  refine ⟨_, ?_, h.relist frame (fun a ha => ⟨c, hc, ha⟩) (fun l => ?_) (fun l => ?_) fun l p hp => ?_, frame⟩
  · unfold insertChunk
    rw [hw]
    rfl
  · rw [State.setHead_mem]
    unfold withHead
    split
    · subst l
      rw [State.head_setHead_same _ _ _ (by omega)]
      refine ⟨rfl, by omega, ?_⟩
      rw [hlink]
      exact lists _
    · rw [State.head_setHead_other _ _ _ _ ‹_›, head_withMem]
      exact lists l
  · unfold withHead
    split
    · exact List.nodup_cons.2 ⟨hoff l, h.nodup l⟩
    · exact h.nodup l
  · rcases mem_withHead.1 hp with ⟨rfl, rfl⟩ | hp
    · exact ⟨c, hc, rfl, hu, rfl⟩
    · exact h.listed l p hp

end Holds

end Sys2Proof.Machine
end


section
/-! PROOFS. Allocation on a heap held as chunks and lists: tags rewritten over the bytes of old chunks, a found chunk cut, a new chunk at
BUMP, and the search that chooses (42_allocator.md R168, R172, R174, R175). -/

namespace Sys2Proof.Machine

/-- A byte of a tag of one of the chunks, or of the link of a free one. -/
def OnMark (cs : List Chunk) (a : Nat) : Prop := ∃ d ∈ cs, d.hasTagAt a ∨ d.used = false ∧ d.hasLinkAt a

theorem OnMark.mono {cs ds : List Chunk} {a : Nat} (h : OnMark cs a) (hsub : ∀ c ∈ cs, c ∈ ds) : OnMark ds a := by
  obtain ⟨d, hd, h⟩ := h
  exact ⟨d, hsub d hd, h⟩

theorem OnLink.onMark {cs ds : List Chunk} {ls : FreeList → List Nat} {a : Nat} (h : OnLink cs ls a)
    (hsub : ∀ d ∈ cs, ∀ l, d.addr ∈ ls l → d ∈ ds) : OnMark ds a := by
  obtain ⟨d, hd, hu, ha, l, hl⟩ := h
  exact ⟨d, hsub d hd l hl, .inr ⟨hu, ha⟩⟩

theorem sameBut_of_read {m m' : Memory} {cs : List Chunk} (h : ∀ a, ¬OnMark cs a → m'.read a = m.read a) : m.SameBut m' cs := by
  refine fun a ha => h a ?_
  rintro ⟨d, hd, ht | ⟨hu, hl⟩⟩
  · exact (ha d hd).1 ht
  · exact (ha d hd).2 hu hl

theorem requestSize_range (n : Nat) : 16 ≤ requestSize n ∧ requestSize n % 16 = 0 := ⟨Nat.le_max_left .., requestSize_mod n⟩

namespace Holds

variable {s : State} {pre mid post cs : List Chunk} {ls : FreeList → List Nat} {c d : Chunk} {r : Nat}

/-- Where the chunks in the middle begin and end. -/
theorem split (h : Holds s (pre ++ mid ++ post) ls) :
    ∃ lo hi, s.mem.Tiled 8 pre lo ∧ s.mem.Tiled lo mid hi ∧ s.mem.Tiled hi post s.bump.toNat := by
  obtain ⟨hi, hpm, hpost⟩ := Memory.Tiled.append.1 h.tiled
  obtain ⟨lo, hpre, hmid⟩ := Memory.Tiled.append.1 hpm
  exact ⟨lo, hi, hpre, hmid, hpost⟩

/-- The chunks on either side have other addresses. -/
theorem addr_ne (h : Holds s (pre ++ mid ++ post) ls) (hd : d ∈ pre ++ post) (hc : c ∈ mid) : d.addr ≠ c.addr := by
  obtain ⟨lo, hi, hpre, hmid, hpost⟩ := h.split
  have := hmid.bounds hc
  rcases List.mem_append.1 hd with hd | hd
  · have := hpre.bounds hd
    omega
  · have := hpost.bounds hd
    omega

/-! ### Tags rewritten -/

/-- The tags of one chunk written over the bytes of unlisted chunks. -/
theorem retag (h : Holds s (pre ++ mid ++ post) ls) {lo hi : Nat} (hpre : s.mem.Tiled 8 pre lo)
    (hpost : s.mem.Tiled hi post s.bump.toNat) (hoff : ∀ e ∈ mid, ∀ l, e.addr ∉ ls l) (haddr : c.addr = lo + 8)
    (hend : c.addr + c.size + 8 = hi) (hsize : 16 ≤ c.size) (hmod : c.size % 16 = 0) :
    ∃ m : Memory, writeTags s c.addr c.size c.used.toNat = .ok { s with mem := m } ∧
      Holds { s with mem := m } (pre ++ [c] ++ post) ls ∧ ∀ a, ¬c.hasTagAt a → m.read a = s.mem.read a := by
  have := hpost.le
  have := h.bound
  obtain ⟨m, hw, hhead, hfoot, hm⟩ := writeTags_holds (s := s) c h.init (by omega) (by omega) (by omega)
  have tile : m.Tiled lo [c] hi := .cons haddr hsize hmod hhead hfoot (show _ = hi by omega)
  exact ⟨m, hw, h.retile hpre tile hpost hoff fun a ha => hm a (by omega), hm⟩

/-- The tags of two neighbours written over the bytes of unlisted chunks. -/
theorem retagBoth (h : Holds s (pre ++ mid ++ post) ls) {lo hi : Nat} (hpre : s.mem.Tiled 8 pre lo)
    (hpost : s.mem.Tiled hi post s.bump.toNat) (hoff : ∀ e ∈ mid, ∀ l, e.addr ∉ ls l) (haddr : c.addr = lo + 8)
    (hnext : d.addr = c.addr + c.size + 16) (hend : d.addr + d.size + 8 = hi) (hc : 16 ≤ c.size ∧ c.size % 16 = 0)
    (hd : 16 ≤ d.size ∧ d.size % 16 = 0) :
    ∃ m m' : Memory, writeTags s c.addr c.size c.used.toNat = .ok { s with mem := m } ∧
      writeTags { s with mem := m } d.addr d.size d.used.toNat = .ok { s with mem := m' } ∧
      Holds { s with mem := m' } (pre ++ [c, d] ++ post) ls ∧ ∀ a, ¬c.hasTagAt a → ¬d.hasTagAt a → m'.read a = s.mem.read a := by
  have := hpost.le
  have := h.bound
  obtain ⟨m, hw, hhead, hfoot, hm⟩ := writeTags_holds (s := s) c h.init (by omega) (by omega) (by omega)
  obtain ⟨m', hw', hhead', hfoot', hm'⟩ := writeTags_holds (s := { s with mem := m }) d h.init (by show s.cap < _; omega) (by omega)
    (by show _ ≤ s.cap; omega)
  have first : m.Tiled lo [c] (d.addr - 8) := .cons haddr hc.1 hc.2 hhead hfoot (show _ = d.addr - 8 by omega)
  have second : m'.Tiled (d.addr - 8) [d] hi := .cons (by omega) hd.1 hd.2 hhead' hfoot' (show _ = hi by omega)
  have both : m'.Tiled lo [c, d] hi := Memory.Tiled.append (cs := [c]).2 ⟨_, first.congr fun e he a ha => hm' a (by
    obtain rfl := List.mem_singleton.1 he
    omega), second⟩
  refine ⟨m, m', hw, hw', h.retile hpre both hpost hoff fun a ha => ?_, fun a hca hda => (hm' a hda).trans (hm a hca)⟩
  exact (hm' a (by omega)).trans (hm a (by omega))

/-! ### A found chunk (R168, R174) -/

/-- The chunk at the place of `c` is cut, the tail put on its list. -/
theorem place_of (h : Holds s (pre ++ [c] ++ post) ls) (hoff : ∀ l, c.addr ∉ ls l) (hr : 16 ≤ r ∧ r % 16 = 0) (hrc : r ≤ c.size) :
    ∃ t, place s c.addr c.size r = .ok t ∧
      Holds t (pre ++ c.cut r ++ post) (if 16 < c.size - r then withHead ls (c.addr + r + 16) (c.size - r - 16) else ls) ∧
      ListFrame s t (OnMark (c.cut r)) := by
  obtain ⟨lo, hi, hpre, hmid, hpost⟩ := h.split
  obtain ⟨haddr, hsize, hmod, -, -, hend⟩ := hmid
  have hend : lo + 16 + c.size = hi := hend
  have off : ∀ e ∈ [c], ∀ l, e.addr ∉ ls l := by simpa using hoff
  unfold place Chunk.cut
  by_cases hcut : 16 < c.size - r
  · rw [if_pos hcut, if_pos hcut, if_pos hcut]
    obtain ⟨m, m', hw, hw', h', hm⟩ := h.retagBoth (c := ⟨c.addr, r, true⟩) (d := ⟨c.addr + r + 16, c.size - r - 16, false⟩) hpre hpost off
      haddr rfl (by simp only; omega) hr (by simp only; omega)
    obtain ⟨t, hi, ht, frame⟩ := h'.insert_of (c := ⟨c.addr + r + 16, c.size - r - 16, false⟩) (by simp) rfl fun l hl => by
      obtain ⟨e, he, hea, -⟩ := h.listed l _ hl
      obtain rfl := h.tiled.eq_of_spans he (List.mem_append_left _ (List.mem_append_right _ (List.mem_singleton_self c)))
        (a := c.addr + r + 16) (by simp only at hea; have := h.tiled.bounds he; omega) (by omega)
      simp only at hea
      omega
    have tagged : ListFrame s { s with mem := m' } (OnMark [⟨c.addr, r, true⟩, ⟨c.addr + r + 16, c.size - r - 16, false⟩]) :=
      .withMem fun a ha => hm a (fun hin => ha ⟨_, by simp, .inl hin⟩) fun hin => ha ⟨_, List.mem_cons_of_mem _ (by simp), .inl hin⟩
    refine ⟨t, ?_, ht, (tagged.trans frame).mono fun a ha => ha.elim id fun hin => ⟨_, List.mem_cons_of_mem _ (by simp), .inr ⟨rfl, hin⟩⟩⟩
    rw [show writeTags s c.addr r 1 = _ from hw, ok_bind, show writeTags _ (c.addr + r + 16) _ 0 = _ from hw', ok_bind]
    exact hi
  · rw [if_neg hcut, if_neg hcut, if_neg hcut]
    obtain ⟨m, hw, h', hm⟩ := h.retag (c := ⟨c.addr, c.size, true⟩) hpre hpost off haddr (by simp only; omega) hsize hmod
    exact ⟨_, hw, h', .withMem fun a ha => hm a fun hin => ha ⟨_, by simp, .inl hin⟩⟩

/-- A chunk that first fit found in a list is taken off it and cut (R174). -/
theorem claim_of (h : Holds s cs ls) {l : FreeList} (hf : firstFit cs (ls l) r = some c) (hr : 16 ≤ r ∧ r % 16 = 0) :
    ∃ f t pre post, findFit s l r = .ok (some f) ∧ claim s l f r = .ok (c.addr, t) ∧ cs = pre ++ c :: post ∧ c.used = false ∧
      c.addr ∈ ls l ∧ r ≤ c.size ∧ Holds t (pre ++ c.cut r ++ post) (listsAfterCut ls c r) ∧
      ListFrame s t (OnMark (pre ++ c.cut r ++ post)) := by
  obtain ⟨hc, hrc, us, vs, hls, hfind⟩ := h.findFit_some hf
  obtain ⟨pre, post, rfl⟩ := List.append_of_mem hc
  have hl : c.addr ∈ ls l := by rw [hls]; simp
  obtain ⟨s', htake, h', frame⟩ := h.take_of hc hls
  rw [List.append_cons] at h'
  obtain ⟨t, hplace, ht, frame'⟩ := h'.place_of (fun k hk => ((mem_without h.nodup).1 hk).1 rfl) hr hrc
  refine ⟨_, t, pre, post, hfind, ?_, rfl, (h.listed_at hc hl).1, hl, hrc, ?_, (frame.trans frame').mono fun a ha => ?_⟩
  · unfold claim
    rw [htake, ok_bind, hplace]
    rfl
  · unfold listsAfterCut
    split <;> rename_i hcut
    · rw [if_pos hcut] at ht; exact ht
    · rw [if_neg hcut] at ht; exact ht
  · rcases ha with ha | ha
    · refine ha.onMark fun d hd k hk => ?_
      have hne := ((mem_without h.nodup).1 hk).1
      simp only [List.mem_append, List.mem_cons] at hd ⊢
      rcases hd with hd | rfl | hd
      · exact .inl (.inl hd)
      · exact absurd rfl hne
      · exact .inr hd
    · exact ha.mono fun d hd => List.mem_append_left _ (List.mem_append_right _ hd)

/-! ### A chunk at BUMP (R172) -/

/-- CAP grown when it must be: the new bytes read 0 as they did. -/
theorem grow (h : Holds s cs ls) {need : Nat} (hn : need ≤ s.heapMax) :
    ∃ m : Memory, ensureCapacity s need =
        .ok { s with mem := m, cap := if s.cap < need then min s.heapMax (max need (2 * s.cap)) else s.cap } ∧
      ∀ a, m.read a = s.mem.read a := by
  rw [ensureCapacity_eq]
  by_cases hcap : s.cap < need
  · rw [if_neg (by omega), if_pos hn, if_pos hcap]
    refine ⟨_, rfl, fun a => ?_⟩
    rw [Memory.read_clear]
    split
    · rw [h.beyond a (by omega)]
    · rfl
  · rw [if_pos (by omega), if_neg hcap]
    exact ⟨s.mem, rfl, fun _ => rfl⟩

/-- A chunk tiled on at BUMP, with BUMP past it and the capacity raised for it. -/
theorem extend {m : Memory} {b cap : Nat} (h : Holds s cs ls) (hnew : m.Tiled s.bump.toNat [c] b) (hb : b ≤ cap)
    (hcap : s.cap ≤ cap ∧ cap ≤ s.heapMax) (hm : ∀ a, a < s.bump.toNat ∨ b ≤ a → m.read a = s.mem.read a) :
    Holds { s with mem := m, cap := cap, bump := BitVec.ofNat 64 b } (cs ++ [c]) ls := by
  have hbound := h.bound
  have bump : (BitVec.ofNat 64 b).toNat = b := by rw [BitVec.toNat_ofNat, Nat.mod_eq_of_lt (by omega)]
  constructor
  case init => exact h.init
  case bound => exact ⟨bump.symm ▸ hb, hcap.2, hbound.2.2⟩
  case beyond =>
    intro a ha
    exact (hm a (.inr (Nat.le_trans hb ha))).trans (h.beyond a (Nat.le_trans hcap.1 ha))
  case tiled =>
    have old : m.Tiled 8 cs s.bump.toNat := h.tiled.congr fun e he a ha => hm a (by have := h.tiled.bounds he; omega)
    exact bump.symm ▸ Memory.Tiled.append.2 ⟨_, old, hnew⟩
  case linked =>
    intro l
    rw [head_congr (s := s) (t := { s with mem := m, cap := cap, bump := BitVec.ofNat 64 b }) rfl rfl]
    refine (h.linked l).congr fun p hp => Memory.natAt_congr fun k hk => hm _ ?_
    obtain ⟨e, he, rfl, -⟩ := h.listed l p hp
    have := h.tiled.bounds he
    omega
  case nodup => exact h.nodup
  case listed =>
    intro l p hp
    obtain ⟨e, he, rest⟩ := h.listed l p hp
    exact ⟨e, List.mem_append_left _ he, rest⟩

/-- A new chunk at the end of the heap. -/
theorem bumpAlloc_of (h : Holds s cs ls) (hr : 16 ≤ r ∧ r % 16 = 0) (hn : s.bump.toNat + 16 + r ≤ s.heapMax) :
    ∃ t, bumpAlloc s r = .ok (s.bump.toNat + 8, t) ∧ Holds t (cs ++ [⟨s.bump.toNat + 8, r, true⟩]) ls ∧
      (∀ a, ¬OnMark [⟨s.bump.toNat + 8, r, true⟩] a → t.mem.read a = s.mem.read a) ∧
      t = { s with
        mem := t.mem, bump := BitVec.ofNat 64 (s.bump.toNat + 16 + r)
        cap := if s.cap < s.bump.toNat + 16 + r then min s.heapMax (max (s.bump.toNat + 16 + r) (2 * s.cap)) else s.cap } := by
  obtain ⟨m, hgrow, hm⟩ := h.grow hn
  generalize hcap : (if s.cap < s.bump.toNat + 16 + r then min s.heapMax (max (s.bump.toNat + 16 + r) (2 * s.cap)) else s.cap) = cap
    at hgrow ⊢
  have hb := h.bound
  have hroom : s.bump.toNat + 16 + r ≤ cap ∧ s.cap ≤ cap ∧ cap ≤ s.heapMax := by rw [← hcap]; split <;> omega
  obtain ⟨m', hw, hhead, hfoot, hm'⟩ := writeTags_holds (s := { s with mem := m, cap := cap }) ⟨s.bump.toNat + 8, r, true⟩ h.init
    (show cap < _ by omega) (Nat.le_add_left ..) (show s.bump.toNat + 8 + r + 8 ≤ cap by omega)
  have off : ∀ a, ¬Chunk.hasTagAt ⟨s.bump.toNat + 8, r, true⟩ a → m'.read a = s.mem.read a := fun a ha => (hm' a ha).trans (hm a)
  have tile : m'.Tiled s.bump.toNat [⟨s.bump.toNat + 8, r, true⟩] (s.bump.toNat + 16 + r) := .cons rfl hr.1 hr.2 hhead hfoot rfl
  refine ⟨_, ?_, h.extend tile hroom.1 hroom.2 fun a ha => off a ?_, fun a ha => off a fun hin => ha ⟨_, List.mem_singleton_self _, .inl hin⟩,
    rfl⟩
  · unfold bumpAlloc State.bumpNat
    simp only
    rw [hgrow, ok_bind, show writeTags _ (s.bump.toNat + 8) r 1 = _ from hw]
    rfl
  · show ¬(s.bump.toNat + 8 ≤ a + 8 ∧ a < s.bump.toNat + 8 ∨ s.bump.toNat + 8 + r ≤ a ∧ a < s.bump.toNat + 8 + r + 8)
    omega

/-- Beyond HEAP_MAX_BYTES no chunk is made. -/
theorem bumpAlloc_none (h : Holds s cs ls) (hn : s.heapMax < s.bump.toNat + 16 + r) :
    bumpAlloc s r = .error ⟨.outOfMemory, s.bump.toNat + 16 + r⟩ := by
  have := h.bound
  unfold bumpAlloc State.bumpNat
  simp only
  rw [ensureCapacity_eq, if_neg (by omega), if_neg (by omega)]
  rfl

/-! ### The search (R174) -/

/-- The list in which the search finds its chunk is the one the allocation claims it from. -/
theorem search_list {n : Nat} (h : Holds s cs ls) (hs : searchFit cs ls (requestSize n) = some c) :
    ∃ l, firstFit cs (ls l) (requestSize n) = some c ∧
      ∀ f, findFit s l (requestSize n) = .ok (some f) → alloc s n = claim s l f (requestSize n) := by
  rcases Option.or_eq_some_iff.1 hs with hbin | ⟨hnone, hlarge⟩
  · obtain ⟨hsmall, hbin⟩ := Option.ite_none_right_eq_some.1 hbin
    refine ⟨_, hbin, fun f hf => ?_⟩
    unfold alloc
    simp only
    rw [if_pos hsmall, hf, ok_bind]
  · refine ⟨_, hlarge, fun f hf => ?_⟩
    have large : allocLarge s (requestSize n) = claim s .large f (requestSize n) := by
      unfold allocLarge
      rw [hf, ok_bind]
    unfold alloc
    simp only
    split <;> rename_i hsmall
    · rw [if_pos hsmall] at hnone
      rw [h.findFit_none hnone, ok_bind]
      exact large
    · exact large

/-- Where the search finds a chunk, the allocation answers it, taken and cut. -/
theorem alloc_of_some {n : Nat} (h : Holds s cs ls) (hs : searchFit cs ls (requestSize n) = some c) :
    ∃ t pre post, alloc s n = .ok (c.addr, t) ∧ cs = pre ++ c :: post ∧ c.used = false ∧ requestSize n ≤ c.size ∧
      Holds t (pre ++ c.cut (requestSize n) ++ post) (listsAfterCut ls c (requestSize n)) ∧
      ListFrame s t (OnMark (pre ++ c.cut (requestSize n) ++ post)) := by
  obtain ⟨l, hfit, hrun⟩ := h.search_list hs
  obtain ⟨f, t, pre, post, hf, hc, hcs, hu, -, hr, rest⟩ := h.claim_of hfit (requestSize_range n)
  exact ⟨t, pre, post, (hrun f hf).trans hc, hcs, hu, hr, rest⟩

/-- Where the search finds no chunk, the allocation goes on to BUMP. -/
theorem alloc_of_none {n : Nat} (h : Holds s cs ls) (hs : searchFit cs ls (requestSize n) = none) :
    alloc s n = bumpAlloc s (requestSize n) := by
  obtain ⟨hbin, hlarge⟩ := Option.or_eq_none_iff.1 hs
  have large : allocLarge s (requestSize n) = bumpAlloc s (requestSize n) := by
    unfold allocLarge
    rw [h.findFit_none hlarge, ok_bind]
  unfold alloc
  simp only
  split <;> rename_i hsmall
  · rw [if_pos hsmall] at hbin
    rw [h.findFit_none hbin, ok_bind]
    exact large
  · exact large

end Holds

end Sys2Proof.Machine
end


section
/-! PROOFS. MALLOC on a represented heap: the chunks and lists it leaves are again settled, and LIVE is the set of chunks in use (10_state.md
R43, R45, 42_allocator.md R175). -/

namespace Sys2Proof.Machine

/-- LIVE is the set of payload addresses of the chunks in use (R45). -/
def LiveIs (cs : List Chunk) (live : List Nat) : Prop := ∀ p, p ∈ live ↔ ∃ c ∈ cs, c.addr = p ∧ c.used = true

theorem Represents.holds {s : State} {cs : List Chunk} {ls : FreeList → List Nat} (h : Represents s cs ls) : Holds s cs ls :=
  (represents_iff.1 h).1

theorem Represents.settled {s : State} {cs : List Chunk} {ls : FreeList → List Nat} (h : Represents s cs ls) : Settled cs ls :=
  (represents_iff.1 h).2.1

theorem Represents.liveIs {s : State} {cs : List Chunk} {ls : FreeList → List Nat} (h : Represents s cs ls) : LiveIs cs s.live :=
  (represents_iff.1 h).2.2

/-! ### Neighbours -/

section

variable {pre post mid mid' : List Chunk} {c : Chunk}

/-- The neighbours of a free chunk are in use. -/
theorem used_beside_free (h : (pre ++ c :: post).IsChain fun c d => c.used = true ∨ d.used = true) (hu : c.used = false) :
    (∀ a ∈ pre.getLast?, a.used = true) ∧ ∀ b ∈ post.head?, b.used = true := by
  obtain ⟨-, hpost, hpre⟩ := List.isChain_append.1 h
  refine ⟨fun a ha => ?_, fun b hb => ?_⟩
  · simpa [hu] using hpre a ha c rfl
  · simpa [hu] using (List.isChain_cons.1 hpost).1 b hb

/-- Chunks put between two that are in use. -/
theorem apart_between (h : (pre ++ mid ++ post).IsChain fun c d => c.used = true ∨ d.used = true)
    (hmid : mid'.IsChain fun c d => c.used = true ∨ d.used = true) (hne : mid' ≠ [])
    (hpre : ∀ a ∈ pre.getLast?, ∀ b ∈ mid'.head?, a.used = true ∨ b.used = true)
    (hpost : ∀ a ∈ mid'.getLast?, ∀ b ∈ post.head?, a.used = true ∨ b.used = true) :
    (pre ++ mid' ++ post).IsChain fun c d => c.used = true ∨ d.used = true := by
  obtain ⟨hpm, hp, -⟩ := List.isChain_append.1 h
  refine List.isChain_append.2 ⟨List.isChain_append.2 ⟨(List.isChain_append.1 hpm).1, hmid, hpre⟩, hp, ?_⟩
  rw [List.getLast?_append_of_ne_nil _ hne]
  exact hpost

end

/-! ### What a cut leaves -/

theorem mem_listsAfterCut {ls : FreeList → List Nat} {c : Chunk} {r p : Nat} {l : FreeList} (h : p ∈ ls l) (hnodup : (ls l).Nodup)
    (hne : p ≠ c.addr) : p ∈ listsAfterCut ls c r l := by
  have hw : p ∈ without ls c.addr l := (hnodup.mem_erase_iff).2 ⟨hne, h⟩
  unfold listsAfterCut
  split
  · exact mem_withHead.2 (.inr hw)
  · exact hw

/-- The front of a cut chunk is an allocation at its address and large enough. -/
theorem Chunk.cut_front (c : Chunk) {r : Nat} (hr : r ≤ c.size) :
    ∃ p rest, c.cut r = p :: rest ∧ p.addr = c.addr ∧ p.used = true ∧ r ≤ p.size ∧ ∀ d ∈ rest, d.used = false := by
  unfold Chunk.cut
  split
  · exact ⟨_, _, rfl, rfl, rfl, Nat.le_refl r, by simp⟩
  · exact ⟨_, _, rfl, rfl, rfl, hr, by simp⟩

namespace Holds

variable {s : State} {cs pre post : List Chunk} {ls : FreeList → List Nat} {c d : Chunk} {r : Nat}

theorem settled_cut (h : Holds s (pre ++ c :: post) ls) (k : Settled (pre ++ c :: post) ls) (hu : c.used = false) (hr : r ≤ c.size) :
    Settled (pre ++ c.cut r ++ post) (listsAfterCut ls c r) := by
  rw [List.append_cons] at h
  obtain ⟨hpre, hpost⟩ := used_beside_free k.apart hu
  obtain ⟨p, rest, hcut, -, hpu, -, -⟩ := c.cut_front hr
  constructor
  case apart =>
    refine apart_between (mid := [c]) (by simpa using k.apart) ?_ (by simp [hcut]) (fun a ha _ _ => .inl (hpre a ha))
      fun _ _ b hb => .inr (hpost b hb)
    unfold Chunk.cut
    split <;> simp
  case complete =>
    intro d hd hdu
    by_cases hcd : d ∈ c.cut r
    · unfold Chunk.cut at hcd
      unfold listsAfterCut
      split at hcd <;> rename_i hsurplus
      · rw [if_pos hsurplus]
        simp only [List.mem_cons, List.not_mem_nil, or_false] at hcd
        rcases hcd with rfl | rfl
        · cases hdu
        · exact mem_withHead.2 (.inl ⟨rfl, rfl⟩)
      · simp only [List.mem_singleton] at hcd
        cases hcd ▸ hdu
    · have hside : d ∈ pre ++ post := by
        simp only [List.mem_append] at hd ⊢
        tauto
      refine mem_listsAfterCut (k.complete d ?_ hdu) (h.nodup _) (h.addr_ne hside (List.mem_singleton_self c))
      simp only [List.mem_append, List.mem_cons] at hside ⊢
      tauto

theorem liveIs_cut {live : List Nat} (hlive : LiveIs (pre ++ c :: post) live) (hu : c.used = false) (hr : r ≤ c.size) :
    LiveIs (pre ++ c.cut r ++ post) (insertAddr c.addr live) := by
  intro a
  obtain ⟨p, rest, hcut, hp, hpu, -, hrest⟩ := c.cut_front hr
  rw [mem_insertAddr, hlive a, hcut]
  constructor
  · rintro (rfl | ⟨d, hd, hda⟩)
    · exact ⟨p, by simp, hp, hpu⟩
    · refine ⟨d, ?_, hda⟩
      have : d ≠ c := fun e => by rw [e, hu] at hda; simp at hda
      simp only [List.mem_append, List.mem_cons] at hd ⊢
      tauto
  · rintro ⟨d, hd, rfl, hdu⟩
    simp only [List.mem_append, List.mem_cons] at hd
    rcases hd with (hd | rfl | hd) | hd
    · exact .inr ⟨d, by simp [hd], rfl, hdu⟩
    · exact .inl hp
    · rw [hrest d hd] at hdu
      cases hdu
    · exact .inr ⟨d, by simp [hd], rfl, hdu⟩

theorem settled_append (k : Settled cs ls) (hu : c.used = true) : Settled (cs ++ [c]) ls := by
  refine ⟨List.isChain_append.2 ⟨k.apart, by simp, fun a _ b hb => .inr ?_⟩, fun d hd hdu => ?_⟩
  · simp only [List.head?_cons, Option.mem_def, Option.some.injEq] at hb
    exact hb ▸ hu
  · rcases List.mem_append.1 hd with hd | hd
    · exact k.complete d hd hdu
    · rw [List.mem_singleton.1 hd, hu] at hdu
      cases hdu

theorem liveIs_append {live : List Nat} (hlive : LiveIs cs live) (hu : c.used = true) : LiveIs (cs ++ [c]) (insertAddr c.addr live) := by
  intro a
  rw [mem_insertAddr, hlive a]
  constructor
  · rintro (rfl | ⟨d, hd, hda⟩)
    · exact ⟨c, by simp, rfl, hu⟩
    · exact ⟨d, by simp [hd], hda⟩
  · rintro ⟨d, hd, rfl, hdu⟩
    rcases List.mem_append.1 hd with hd | hd
    · exact .inr ⟨d, hd, rfl, hdu⟩
    · exact .inl (congrArg Chunk.addr (List.mem_singleton.1 hd))

end Holds

/-! ### The command -/

/-- MALLOC of a request that is not negative, where there is a heap, answers what the allocation answers (R175). -/
theorem exec_malloc_ok {s t : State} {rd rs1 : Reg} {p : Nat} (hF : s.fault = false) (hi : s.init = true) (h0 : 0 ≤ s.regInt rs1)
    (h : alloc s (s.regInt rs1).toNat = .ok (p, t)) :
    exec (.malloc rd rs1) s = .next { (t.addLive p).setReg rd p with cmdseq := t.cmdseq + 1 } := by
  show execMalloc rd rs1 s = _
  unfold execMalloc
  rw [require_of hi, ok_bind, require_of h0, ok_bind, h]
  exact command_ok hF

/-- MALLOC of a request that is not negative, where there is a heap, raises what the allocation raises (R175). -/
theorem exec_malloc_error {s : State} {rd rs1 : Reg} {e : Raise} (hF : s.fault = false) (hi : s.init = true) (h0 : 0 ≤ s.regInt rs1)
    (h : alloc s (s.regInt rs1).toNat = .error e) :
    exec (.malloc rd rs1) s = .next (s.latched (encode (.malloc rd rs1)) e.kind.number.toNat e.info) := by
  show execMalloc rd rs1 s = _
  unfold execMalloc
  rw [require_of hi, ok_bind, require_of h0, ok_bind, h]
  exact command_error hF

/-- Settles O16: the allocation's answer, with the chunks and lists it leaves settled and LIVE extended. -/
theorem mallocTakesFirstFit : Obligations.MallocTakesFirstFit := by
  intro s cs ls rd rs1 h hF h0 i r p need
  refine ⟨fun c hs => ?_, fun hs hn => ?_, fun hs hn => ?_⟩
  · obtain ⟨t, pre, post, ha, rfl, hu, hrc, ht, frame⟩ := h.holds.alloc_of_some hs
    refine ⟨_, pre, post, exec_malloc_ok hF h.init h0 ha, rfl,
      represents_iff.2 ⟨ht.of_same rfl rfl rfl rfl rfl rfl rfl, h.holds.settled_cut h.settled hu hrc, ?_⟩, sameBut_of_read frame.read, ?_⟩
    · show LiveIs _ (insertAddr c.addr t.live)
      rw [frame.live]
      exact Holds.liveIs_cut h.liveIs hu hrc
    · obtain ⟨m, bin, large, rfl⟩ := frame.eq_with
      rfl
  · exact exec_malloc_error hF h.init h0 ((h.holds.alloc_of_none hs).trans (h.holds.bumpAlloc_none hn))
  · obtain ⟨t, ha, ht, hread, heq⟩ := h.holds.bumpAlloc_of (requestSize_range _) hn
    refine ⟨_, exec_malloc_ok hF h.init h0 ((h.holds.alloc_of_none hs).trans ha),
      represents_iff.2 ⟨ht.of_same rfl rfl rfl rfl rfl rfl rfl, Holds.settled_append h.settled rfl, ?_⟩,
      sameBut_of_read fun a ha => hread a fun hin => ha (hin.mono fun d hd => List.mem_append_right _ hd), ?_⟩
    · show LiveIs _ (insertAddr (s.bump.toNat + 8) t.live)
      rw [show t.live = s.live by rw [heq]]
      exact Holds.liveIs_append (c := ⟨s.bump.toNat + 8, r, true⟩) h.liveIs rfl
    · obtain ⟨m, rfl⟩ : ∃ m, t = { s with mem := m, bump := _, cap := _ } := ⟨_, heq⟩
      rfl

end Sys2Proof.Machine
end


section
/-! PROOFS. FREE on a represented heap: a free neighbour on either side is taken off its list and merged, and the merged chunk goes to the
head of the list of its size (42_allocator.md R173, R177). -/

namespace Sys2Proof.Machine

theorem Chunk.tag_mod_two (c : Chunk) : c.tag % 2 = c.used.toNat := by
  have := c.used.toNat_lt
  unfold Chunk.tag
  omega

theorem Chunk.tag_of_free {c : Chunk} (h : c.used = false) : c.tag = 2 * c.size := by
  unfold Chunk.tag
  rw [h]
  rfl

/-- The free chunk that `c` becomes with a free neighbour `l` before it and `f` after it, where they are (R173). -/
def Chunk.merged (c : Chunk) (l f : Option Chunk) : Chunk := ⟨l.elim c.addr Chunk.addr, absorbed l + c.size + absorbed f, false⟩

/-- The lists without a free neighbour that may be there are the lists with no member at its address. -/
theorem mem_withoutOption {ls : FreeList → List Nat} (h : ∀ l, (ls l).Nodup) {c : Option Chunk} {q : Nat} {l : FreeList} :
    q ∈ withoutOption ls c l ↔ (∀ d ∈ c, q ≠ d.addr) ∧ q ∈ ls l := by
  cases c with
  | none => simp [withoutOption]
  | some d => simpa [withoutOption] using mem_without h

theorem withoutOption_none (ls : FreeList → List Nat) : withoutOption ls none = ls := rfl

theorem nodup_withoutOption {ls : FreeList → List Nat} (h : ∀ l, (ls l).Nodup) {c : Option Chunk} (l : FreeList) :
    (withoutOption ls c l).Nodup := by
  cases c with
  | none => exact h l
  | some d => exact (h l).erase _

namespace Holds

variable {s : State} {cs pre post rest : List Chunk} {ls : FreeList → List Nat} {c d : Chunk} {l f : Option Chunk}

/-- The next chunk begins where one ends. -/
theorem addr_next (h : Holds s (pre ++ d :: c :: rest) ls) : c.addr = d.addr + d.size + 16 := by
  obtain ⟨k, -, hd, -, -, -, -, hc, -⟩ := Memory.Tiled.append.1 h.tiled
  omega

/-- The first chunk's header is at address 8. -/
theorem addr_first (h : Holds s (c :: rest) ls) : c.addr = 16 := h.tiled.1

/-- The last chunk ends at BUMP. -/
theorem end_last (h : Holds s (pre ++ [c]) ls) : c.addr + c.size + 8 = s.bump.toNat := by
  obtain ⟨k, -, hc, -, -, -, -, hend⟩ := Memory.Tiled.append.1 h.tiled
  have hend : k + 16 + c.size = s.bump.toNat := hend
  omega

/-- A chunk's footer is read. -/
theorem memRead_footer (h : Holds s cs ls) (hc : c ∈ cs) : memRead s (c.addr + c.size) 8 = .ok c.tag := by
  have := h.size_lt hc
  have := h.tiled.bounds hc
  have := h.bound
  rw [memRead_of h.init (by omega) (by omega), (h.tiled.tags hc).2]

/-- The preceding chunk: none, in use, or free and merged (R173). -/
theorem mergePreceding_of (h : Holds s (pre ++ l.toList ++ c :: rest) ls)
    (hl : ∀ a ∈ l, a.used = false ∧ a.addr ∈ ls (listFor a.size)) (hpre : l = none → ∀ a ∈ pre.getLast?, a.used = true) (size : Nat) :
    ∃ t, mergePreceding s c.addr size = .ok (l.elim c.addr Chunk.addr, size + absorbed l, t) ∧
      Holds t (pre ++ l.toList ++ c :: rest) (withoutOption ls l) ∧
      ListFrame s t fun a => l.isSome = true ∧ OnLink (pre ++ l.toList ++ c :: rest) (withoutOption ls l) a := by
  unfold mergePreceding
  cases l with
  | none =>
    refine ⟨s, ?_, h, .refl ..⟩
    rw [Option.toList_none, List.append_nil] at h
    rcases List.eq_nil_or_concat pre with rfl | ⟨pre, d, rfl⟩
    · rw [if_neg (by have := h.addr_first; omega)]
      rfl
    · rw [List.concat_eq_append] at h hpre
      have hd : d.used = true := hpre rfl d (by simp)
      have hfoot := h.memRead_footer (c := d) (by simp)
      rw [List.append_assoc, List.singleton_append] at h
      have := h.addr_next
      have := h.tiled.bounds (c := d) (by simp)
      rw [if_pos (by omega), show c.addr - 16 = d.addr + d.size by omega, hfoot, ok_bind,
        if_neg (by rw [d.tag_mod_two, hd]; decide)]
      rfl
  | some d =>
    obtain ⟨hdu, hdl⟩ := hl d rfl
    have hd : d ∈ pre ++ (some d).toList ++ c :: rest := by simp
    have haddr := (show Holds s (pre ++ d :: c :: rest) ls by simpa using h).addr_next
    have hb := h.tiled.bounds hd
    obtain ⟨t, hu, ht, frame⟩ := h.unlink_of hd hdl
    refine ⟨t, ?_, ht, frame.mono fun a ha => ⟨rfl, ha⟩⟩
    rw [if_pos (by omega), show c.addr - 16 = d.addr + d.size by omega, h.memRead_footer hd, ok_bind, Chunk.tag_of_free hdu,
      if_pos (by omega)]
    simp only [Nat.mul_div_cancel_left _ (show 0 < 2 by omega)]
    rw [require_of (by omega), ok_bind, show d.addr + d.size - d.size = d.addr by omega, readChunk_of h.heapBounds (h.hasChunk hd),
      ok_bind]
    simp only [hdu]
    rw [require_of (by simp), ok_bind, hu]
    rfl

/-- The following chunk: none, in use, or free and merged (R173). -/
theorem mergeFollowing_of (h : Holds s (pre ++ c :: f.toList ++ post) ls)
    (hf : ∀ b ∈ f, b.used = false ∧ b.addr ∈ ls (listFor b.size)) (hpost : f = none → ∀ b ∈ post.head?, b.used = true) (size : Nat) :
    ∃ t, mergeFollowing s (c.addr + c.size + 16) size = .ok (size + absorbed f, t) ∧
      Holds t (pre ++ c :: f.toList ++ post) (withoutOption ls f) ∧
      ListFrame s t (OnLink (pre ++ c :: f.toList ++ post) (withoutOption ls f)) := by
  have follows : ∀ d tail, f.toList ++ post = d :: tail →
      d ∈ pre ++ c :: f.toList ++ post ∧ d.addr = c.addr + c.size + 16 ∧ d.addr - 8 < s.bumpNat := fun d tail e => by
    have hd : d ∈ pre ++ c :: f.toList ++ post := by rw [List.append_assoc, List.cons_append, e]; simp
    rw [List.append_assoc, List.cons_append, e] at h
    have := h.tiled.bounds (c := d) (by simp)
    exact ⟨hd, h.addr_next, by unfold State.bumpNat; omega⟩
  unfold mergeFollowing
  cases f with
  | none =>
    refine ⟨s, ?_, h, .refl ..⟩
    cases post with
    | nil =>
      have := (show Holds s (pre ++ [c]) ls by simpa using h).end_last
      rw [if_neg (by unfold State.bumpNat; omega)]
      rfl
    | cons d post =>
      obtain ⟨hd, haddr, hlt⟩ := follows d post rfl
      have hdu : d.used = true := hpost rfl d rfl
      rw [← haddr, if_pos hlt, readChunk_of h.heapBounds (h.hasChunk hd), ok_bind, hdu]
      rfl
  | some d =>
    obtain ⟨hd, haddr, hlt⟩ := follows d post rfl
    obtain ⟨hdu, hdl⟩ := hf d rfl
    obtain ⟨t, hu, rest⟩ := h.unlink_of hd hdl
    refine ⟨t, ?_, rest⟩
    rw [← haddr, if_pos hlt, readChunk_of h.heapBounds (h.hasChunk hd), ok_bind, hdu]
    simp only [Bool.toNat_false, if_true]
    rw [hu]
    rfl

/-- The merged chunk begins with the first and ends with the last of what is merged. -/
theorem merged_span {m : Memory} {lo hi : Nat} (h : m.Tiled lo (l.toList ++ [c] ++ f.toList) hi) :
    (c.merged l f).addr = lo + 8 ∧ (c.merged l f).addr + (c.merged l f).size + 8 = hi ∧ 16 ≤ (c.merged l f).size ∧
      (c.merged l f).size % 16 = 0 := by
  unfold Chunk.merged
  cases l <;> cases f <;>
    simp only [Option.toList_none, Option.toList_some, List.nil_append, List.append_nil, List.cons_append, Memory.Tiled, Option.elim_none,
      Option.elim_some, absorbed] at h ⊢ <;>
    omega

/-- A chunk in use and its unlinked neighbours are on no list. -/
theorem off_lists (h : Holds s (pre ++ l.toList ++ [c] ++ f.toList ++ post) ls) (hu : c.used = true) :
    ∀ e ∈ l.toList ++ [c] ++ f.toList, ∀ k, e.addr ∉ withoutOption (withoutOption ls l) f k := by
  intro e he k hk
  obtain ⟨hf, hk⟩ := (mem_withoutOption (nodup_withoutOption h.nodup)).1 hk
  obtain ⟨hl, hk⟩ := (mem_withoutOption h.nodup).1 hk
  simp only [List.mem_append, Option.mem_toList, List.mem_singleton] at he
  rcases he with (he | rfl) | he
  · exact hl e he rfl
  · rw [(h.listed_at (by simp) hk).1] at hu
    cases hu
  · exact hf e he rfl

/-- The two neighbours taken off their lists, where they are (R173). -/
theorem mergeNeighbours_of (h : Holds s (pre ++ l.toList ++ [c] ++ f.toList ++ post) ls)
    (hl : ∀ a ∈ l, a.used = false ∧ a.addr ∈ ls (listFor a.size)) (hf : ∀ b ∈ f, b.used = false ∧ b.addr ∈ ls (listFor b.size))
    (hpre : l = none → ∀ a ∈ pre.getLast?, a.used = true) (hpost : f = none → ∀ b ∈ post.head?, b.used = true) :
    ∃ s1 s2, mergePreceding s c.addr c.size = .ok ((c.merged l f).addr, c.size + absorbed l, s1) ∧
      mergeFollowing s1 (c.addr + c.size + 16) (c.size + absorbed l) = .ok ((c.merged l f).size, s2) ∧
      Holds s2 (pre ++ l.toList ++ [c] ++ f.toList ++ post) (withoutOption (withoutOption ls l) f) ∧
      ListFrame s s2 fun a => OnLink (pre ++ l.toList ++ [c] ++ f.toList ++ post) (withoutOption (withoutOption ls l) f) a ∨
        l.isSome = true ∧ OnLink (pre ++ l.toList ++ [c] ++ f.toList ++ post) (withoutOption ls l) a := by
  have e1 : pre ++ l.toList ++ [c] ++ f.toList ++ post = pre ++ l.toList ++ c :: (f.toList ++ post) := by simp
  have e2 : pre ++ l.toList ++ [c] ++ f.toList ++ post = (pre ++ l.toList) ++ c :: f.toList ++ post := by simp
  have hne : ∀ b ∈ f, ∀ a ∈ l, b.addr ≠ a.addr := fun b hb a ha e => by
    rw [Option.mem_def.1 ha, Option.mem_def.1 hb] at h
    have := h.tiled.pairwise
    simp [List.pairwise_append] at this
    omega
  obtain ⟨s1, hrun1, h1, frame1⟩ := (e1 ▸ h).mergePreceding_of hl hpre c.size
  rw [← e1] at h1 frame1
  obtain ⟨s2, hrun2, h2, frame2⟩ := (e2 ▸ h1).mergeFollowing_of
    (fun b hb => ⟨(hf b hb).1, (mem_withoutOption h.nodup).2 ⟨hne b hb, (hf b hb).2⟩⟩) hpost (c.size + absorbed l)
  rw [← e2] at h2 frame2
  refine ⟨s1, s2, hrun1, ?_, h2, (frame1.trans frame2).mono fun a ha => ha.symm⟩
  rw [hrun2, show c.size + absorbed l + absorbed f = (c.merged l f).size by simp only [Chunk.merged]; omega]

/-- Freeing a chunk (R173). -/
theorem freeChunk_of (h : Holds s (pre ++ l.toList ++ [c] ++ f.toList ++ post) ls) (hu : c.used = true)
    (hl : ∀ a ∈ l, a.used = false ∧ a.addr ∈ ls (listFor a.size)) (hf : ∀ b ∈ f, b.used = false ∧ b.addr ∈ ls (listFor b.size))
    (hpre : l = none → ∀ a ∈ pre.getLast?, a.used = true) (hpost : f = none → ∀ b ∈ post.head?, b.used = true) :
    ∃ t, freeChunk s c.addr c.size = .ok t ∧
      Holds t (pre ++ [c.merged l f] ++ post)
        (withHead (withoutOption (withoutOption ls l) f) (c.merged l f).addr (c.merged l f).size) ∧
      ListFrame s t fun a => OnMark (pre ++ [c.merged l f] ++ post) a ∨ l.isSome = true ∧ ∃ b ∈ f, b.hasLinkAt a := by
  have off := h.off_lists hu
  obtain ⟨s1, s2, hrun1, hrun2, h2, frame2⟩ := h.mergeNeighbours_of hl hf hpre hpost
  rw [show pre ++ l.toList ++ [c] ++ f.toList ++ post = pre ++ (l.toList ++ [c] ++ f.toList) ++ post by simp] at h2
  obtain ⟨lo, hi, htpre, htmid, htpost⟩ := h2.split
  obtain ⟨hstart, hend, hsize, hmod⟩ := merged_span htmid
  obtain ⟨m, hrun3, h3, hm⟩ := h2.retag (c := c.merged l f) htpre htpost off hstart hend hsize hmod
  obtain ⟨first, first_mem, first_addr⟩ : ∃ e ∈ l.toList ++ [c] ++ f.toList, e.addr = (c.merged l f).addr := by
    cases l with
    | none => exact ⟨c, by simp, rfl⟩
    | some d => exact ⟨d, by simp, rfl⟩
  obtain ⟨t, hrun4, h4, frame4⟩ := h3.insert_of (c := c.merged l f) (by simp) rfl fun k => first_addr ▸ off first first_mem k
  refine ⟨t, ?_, h4, ((frame2.trans (.withMem hm)).trans frame4).mono fun a ha => ?_⟩
  · unfold freeChunk
    rw [hrun1, ok_bind]
    simp only
    rw [hrun2, ok_bind]
    simp only
    rw [show writeTags s2 (c.merged l f).addr (c.merged l f).size 0 = _ from hrun3, ok_bind, hrun4]
  · have member : ∀ d ∈ pre ++ l.toList ++ [c] ++ f.toList ++ post, d.used = false → (∀ e ∈ l, d.addr ≠ e.addr) → d.hasLinkAt a →
        OnMark (pre ++ [c.merged l f] ++ post) a ∨ d ∈ f := by
      intro d hd hdu hdl hda
      simp only [List.mem_append, Option.mem_toList, List.mem_singleton] at hd
      rcases hd with (((hd | hd) | rfl) | hd) | hd
      · exact .inl ⟨d, by simp [hd], .inr ⟨hdu, hda⟩⟩
      · exact absurd rfl (hdl d hd)
      · cases hu.symm.trans hdu
      · exact .inr hd
      · exact .inl ⟨d, by simp [hd], .inr ⟨hdu, hda⟩⟩
    rcases ha with ((⟨d, hd, hdu, hda, k, hk⟩ | ⟨hsome, d, hd, hdu, hda, k, hk⟩) | ha) | ha
    · obtain ⟨hdf, hk⟩ := (mem_withoutOption (nodup_withoutOption h.nodup)).1 hk
      exact (member d hd hdu ((mem_withoutOption h.nodup).1 hk).1 hda).imp_right fun hmem => absurd rfl (hdf d hmem)
    · exact (member d hd hdu ((mem_withoutOption h.nodup).1 hk).1 hda).imp_right fun hmem => ⟨hsome, d, hmem, hda⟩
    · exact .inl ⟨_, by simp, .inl ha⟩
    · exact .inl ⟨_, by simp, .inr ⟨rfl, ha⟩⟩

/-! ### What merging leaves settled -/

/-- The chunks with a merged one are settled when the others were and the neighbours were taken off their lists. -/
theorem settled_merged (h : Holds s (pre ++ l.toList ++ [c] ++ f.toList ++ post) ls)
    (k : Settled (pre ++ l.toList ++ [c] ++ f.toList ++ post) ls) (hl : ∀ a ∈ l, a.used = false) (hf : ∀ b ∈ f, b.used = false)
    (hpre : l = none → ∀ a ∈ pre.getLast?, a.used = true) (hpost : f = none → ∀ b ∈ post.head?, b.used = true) :
    Settled (pre ++ [c.merged l f] ++ post)
      (withHead (withoutOption (withoutOption ls l) f) (c.merged l f).addr (c.merged l f).size) := by
  have before : ∀ a ∈ pre.getLast?, a.used = true := by
    cases l with
    | none => exact hpre rfl
    | some d => exact (used_beside_free (post := c :: (f.toList ++ post)) (by simpa using k.apart) (hl d rfl)).1
  have after : ∀ b ∈ post.head?, b.used = true := by
    cases f with
    | none => exact hpost rfl
    | some d => exact (used_beside_free (pre := pre ++ l.toList ++ [c]) (by simpa using k.apart) (hf d rfl)).2
  have kept : ∀ d ∈ pre ++ post, d ∈ pre ++ l.toList ++ [c] ++ f.toList ++ post → d.used = false →
      d.addr ∈ withHead (withoutOption (withoutOption ls l) f) (c.merged l f).addr (c.merged l f).size (listFor d.size) := by
    intro d hd hmem hdu
    have listed := k.complete d hmem hdu
    rw [show pre ++ l.toList ++ [c] ++ f.toList ++ post = pre ++ (l.toList ++ [c] ++ f.toList) ++ post by simp] at h
    exact mem_withHead.2 (.inr ((mem_withoutOption (nodup_withoutOption h.nodup)).2 ⟨fun b hb => h.addr_ne hd (by simp [Option.mem_def.1 hb]),
      (mem_withoutOption h.nodup).2 ⟨fun a ha => h.addr_ne hd (by simp [Option.mem_def.1 ha]), listed⟩⟩))
  constructor
  case apart =>
    exact apart_between (mid := l.toList ++ [c] ++ f.toList) (by simpa using k.apart) (List.isChain_singleton _) (by simp)
      (fun a ha _ _ => .inl (before a ha)) fun _ _ b hb => .inr (after b hb)
  case complete =>
    intro d hd hdu
    simp only [List.mem_append, List.mem_singleton] at hd
    rcases hd with (hd | rfl) | hd
    · exact kept d (by simp [hd]) (by simp [hd]) hdu
    · exact mem_withHead.2 (.inl ⟨rfl, rfl⟩)
    · exact kept d (by simp [hd]) (by simp [hd]) hdu

/-- LIVE without the freed chunk is the set of the chunks still in use. -/
theorem liveIs_merged {live : List Nat} (h : Holds s (pre ++ l.toList ++ [c] ++ f.toList ++ post) ls)
    (hlive : LiveIs (pre ++ l.toList ++ [c] ++ f.toList ++ post) live) (hl : ∀ a ∈ l, a.used = false) (hf : ∀ b ∈ f, b.used = false) :
    LiveIs (pre ++ [c.merged l f] ++ post) (live.filter fun q => q ≠ c.addr) := by
  rw [show pre ++ l.toList ++ [c] ++ f.toList ++ post = pre ++ (l.toList ++ [c] ++ f.toList) ++ post by simp] at h
  intro p
  simp only [List.mem_filter, hlive p, decide_eq_true_eq]
  constructor
  · rintro ⟨⟨d, hd, rfl, hdu⟩, hne⟩
    refine ⟨d, ?_, rfl, hdu⟩
    simp only [List.mem_append, Option.mem_toList, List.mem_singleton] at hd ⊢
    rcases hd with (((hd | hd) | rfl) | hd) | hd
    · exact .inl (.inl hd)
    · cases (hl d hd).symm.trans hdu
    · exact absurd rfl hne
    · cases (hf d hd).symm.trans hdu
    · exact .inr hd
  · rintro ⟨d, hd, rfl, hdu⟩
    simp only [List.mem_append, List.mem_singleton] at hd
    rcases hd with (hd | rfl) | hd
    · exact ⟨⟨d, by simp [hd], rfl, hdu⟩, h.addr_ne (by simp [hd]) (by simp)⟩
    · cases hdu
    · exact ⟨⟨d, by simp [hd], rfl, hdu⟩, h.addr_ne (by simp [hd]) (by simp)⟩

/-! ### The command -/

theorem checkArg_of (h : Holds s cs ls) (hc : c ∈ cs) : checkArg s c.addr = .ok () := by
  have := h.size_lt hc
  obtain ⟨h16, hmod, hsize, -, hend, -⟩ := h.hasChunk hc
  refine require_of ⟨?_, hmod, ?_⟩ _ _
  · rw [sgn64_of_lt (by omega)]
    omega
  · unfold State.bumpNat
    omega

/-- FREE of a chunk in use is its freeing (R177). -/
theorem exec_free_ok {t : State} {rs1 : Reg} (h : Holds s cs ls) (hF : s.fault = false) (hc : c ∈ cs) (hu : c.used = true)
    (hreg : s.reg rs1 = c.addr) (hfree : freeChunk s c.addr c.size = .ok t) :
    exec (.free rs1) s = .next { t.removeLive c.addr with cmdseq := t.cmdseq + 1 } := by
  have := (h.hasChunk hc).1
  show execFree rs1 s = _
  unfold execFree
  simp only [hreg]
  rw [require_of h.init, ok_bind, if_neg (by omega), h.checkArg_of hc, ok_bind, readChunk_of h.heapBounds (h.hasChunk hc), ok_bind, hu]
  simp only
  rw [require_of (by rfl), ok_bind, hfree]
  exact command_ok hF

end Holds

/-- The free chunks beside one, where they are, are on their lists. -/
theorem Settled.listed {cs : List Chunk} {ls : FreeList → List Nat} (k : Settled cs ls) {o : Option Chunk} (hmem : ∀ a ∈ o, a ∈ cs)
    (hu : ∀ a ∈ o, a.used = false) : ∀ a ∈ o, a.used = false ∧ a.addr ∈ ls (listFor a.size) :=
  fun a ha => ⟨hu a ha, k.complete a (hmem a ha) (hu a ha)⟩

/-- Settles O17: the freeing's answer, with the chunks and lists it leaves settled and LIVE without the freed chunk. -/
theorem freeCoalesces : Obligations.FreeCoalesces := by
  intro s rs1 pre post l f c ls h hF hreg hu hl hf hpre hpost start size cs
  obtain ⟨t, hfree, ht, frame⟩ := h.holds.freeChunk_of hu (h.settled.listed (fun a ha => by simp [Option.mem_def.1 ha]) hl)
    (h.settled.listed (fun b hb => by simp [Option.mem_def.1 hb]) hf) hpre hpost
  refine ⟨_, h.holds.exec_free_ok hF (by simp) hu hreg hfree,
    represents_iff.2 ⟨ht.of_same rfl rfl rfl rfl rfl rfl rfl, h.holds.settled_merged h.settled hl hf hpre hpost, ?_⟩, fun a ha hfa => ?_, ?_⟩
  · show LiveIs _ (t.live.filter fun q => q ≠ c.addr)
    rw [frame.live]
    exact h.holds.liveIs_merged h.liveIs hl hf
  · refine frame.read a ?_
    rintro (⟨d, hd, hin | ⟨hdu, hin⟩⟩ | ⟨-, b, hb, hin⟩)
    · exact (ha d hd).1 hin
    · exact (ha d hd).2 hdu hin
    · exact hfa b hb hin
  · obtain ⟨m, bin, large, rfl⟩ := frame.eq_with
    rfl

end Sys2Proof.Machine
end


section
/-! PROOFS. REALLOC on a represented heap: a tail split off and freed, or a new chunk, the payload copied and the old chunk freed; and what an
allocation and a freeing keep of every other chunk in use (42_allocator.md R178, R180). -/

namespace Sys2Proof.Machine

/-! ### The byte-by-byte copy -/

theorem Memory.read_copyByte (m : Memory) (d a k : Nat) : (m.copyByte d a).read k = if k = d then m.read a else m.read k := by
  rw [Memory.copyByte, Memory.read_store]
  split <;> rename_i h
  · rw [List.length_singleton] at h
    rw [if_pos (by omega), List.getElem_singleton]
  · rw [List.length_singleton] at h
    rw [if_neg (by omega)]

/-- A copy between ranges that do not overlap moves the old bytes. -/
theorem Memory.read_copyUp {m : Memory} {d a n : Nat} (h : d + n ≤ a ∨ a + n ≤ d) (k : Nat) :
    (m.copyUp d a n).read k = if d ≤ k ∧ k < d + n then m.read (a + (k - d)) else m.read k := by
  induction n generalizing k with
  | zero => rw [if_neg (by omega)]; rfl
  | succ n ih =>
    have ih := ih (by omega)
    rw [Memory.copyUp, Memory.read_copyByte]
    by_cases hk : k = d + n
    · rw [if_pos hk, ih, if_neg (by omega), if_pos (by omega), hk, Nat.add_sub_cancel_left]
    · rw [if_neg hk, ih]
      by_cases hin : d ≤ k ∧ k < d + n
      · rw [if_pos hin, if_pos (by omega)]
      · rw [if_neg hin, if_neg (by omega)]

/-! ### The payloads of chunks in use -/

namespace Holds

variable {s t : State} {cs pre post : List Chunk} {ls : FreeList → List Nat} {c d p : Chunk} {l f : Option Chunk}

/-- No tag and no link of a free chunk lies in the payload of a chunk in use. -/
theorem not_onMark_of_payload (h : Holds s cs ls) (hd : d ∈ cs) (hu : d.used = true) {a : Nat} (ha : d.hasPayloadAt a) : ¬OnMark cs a := by
  rintro ⟨e, he, hin⟩
  have := h.tiled.bounds he
  obtain rfl := h.tiled.eq_of_spans hd he (a := a) (by omega) (by omega)
  rcases hin with hin | ⟨heu, -⟩
  · omega
  · cases hu.symm.trans heu

/-- A byte lies in the payload of one chunk. -/
theorem payload_ne (h : Holds s cs ls) (hc : c ∈ cs) (hd : d ∈ cs) (hne : c ≠ d) {a : Nat} (ha : c.hasPayloadAt a) : ¬d.hasPayloadAt a :=
  fun hda => hne (h.tiled.eq_of_spans hc hd (a := a) (by omega) (by omega))

/-- Bytes changed in payloads of chunks in use leave chunks and lists as they are. -/
theorem write_payload {m : Memory} (h : Holds s cs ls) (hm : ∀ a, m.read a = s.mem.read a ∨ ∃ c ∈ cs, c.used = true ∧ c.hasPayloadAt a) :
    Holds { s with mem := m } cs ls := by
  have marked : ∀ a, OnMark cs a → m.read a = s.mem.read a := fun a ha => (hm a).resolve_right fun ⟨c, hc, hu, hca⟩ =>
    h.not_onMark_of_payload hc hu hca ha
  refine h.congr rfl rfl rfl (head_withMem s m) ⟨Nat.le_refl _, h.bound.2.1⟩ (fun a ha => ?_) (fun c hc a ha => marked a ⟨c, hc, .inl ha⟩)
    fun a ha => marked a (ha.onMark fun d hd _ _ => hd)
  rw [(hm a).resolve_right, h.beyond a ha]
  rintro ⟨c, hc, -, hca⟩
  have := h.tiled.bounds hc
  have := h.bound
  have : s.cap ≤ a := ha
  omega

/-! ### An allocation -/

/-- What an allocation of `n` bytes leaves: the chunk `p` is new, and every chunk in use is where it was with its payload. -/
structure Allocated (s t : State) (cs cs' : List Chunk) (ls' : FreeList → List Nat) (p : Chunk) (n : Nat) : Prop where
  holds : Holds t cs' ls'
  settled : Settled cs' ls'
  mem : p ∈ cs'
  used : p.used = true
  room : requestSize n ≤ p.size
  fresh : ∀ d ∈ cs, d.used = true → d.addr ≠ p.addr
  live : ∀ live, LiveIs cs live → LiveIs cs' (insertAddr p.addr live)
  kept : ∀ d ∈ cs, d.used = true → d ∈ cs' ∧ ∀ a, d.hasPayloadAt a → t.mem.read a = s.mem.read a
  same : t = { s with mem := t.mem, bin := t.bin, large := t.large, bump := t.bump, cap := t.cap }

/-- An allocation that finds a chunk or has room for one at BUMP. -/
theorem alloc_answers {n : Nat} (h : Holds s cs ls) (k : Settled cs ls)
    (hn : (searchFit cs ls (requestSize n)).isSome = true ∨ s.bump.toNat + 16 + requestSize n ≤ s.heapMax) :
    ∃ t cs' ls' p, alloc s n = .ok (p.addr, t) ∧ p.addr = (searchFit cs ls (requestSize n)).elim (s.bump.toNat + 8) Chunk.addr ∧
      Allocated s t cs cs' ls' p n := by
  cases hs : searchFit cs ls (requestSize n) with
  | some c =>
    obtain ⟨t, pre, post, ha, rfl, hu, hr, ht, frame⟩ := h.alloc_of_some hs
    obtain ⟨p, rest, hcut, hp, hpu, hpr, -⟩ := c.cut_front hr
    have hne : ∀ d ∈ pre ++ c :: post, d.used = true → d ≠ c := fun d _ hdu e => by rw [e, hu] at hdu; cases hdu
    have kept : ∀ d ∈ pre ++ c :: post, d.used = true → d ∈ pre ++ c.cut (requestSize n) ++ post := fun d hd hdu => by
      have := hne d hd hdu
      simp only [List.mem_append, List.mem_cons] at hd ⊢
      tauto
    refine ⟨t, _, _, p, hp ▸ ha, hp, ht, h.settled_cut k hu hr, by simp [hcut], hpu, hpr, fun d hd hdu e => ?_, fun live hl => ?_,
      fun d hd hdu => ⟨kept d hd hdu, fun a hin => frame.read a (ht.not_onMark_of_payload (kept d hd hdu) hdu hin)⟩, ?_⟩
    · exact hne d hd hdu (h.eq_of_addr hd (by simp) (e.trans hp))
    · rw [hp]
      exact liveIs_cut hl hu hr
    · obtain ⟨m, bin, large, rfl⟩ := frame.eq_with
      rfl
  | none =>
    obtain ⟨t, ha, ht, hread, heq⟩ := h.bumpAlloc_of (requestSize_range n) (hn.resolve_left (by simp [hs]))
    refine ⟨t, _, _, ⟨s.bump.toNat + 8, requestSize n, true⟩, (h.alloc_of_none hs).trans ha, rfl, ht, settled_append k rfl, by simp, rfl,
      Nat.le_refl _, fun d hd _ => ?_, fun live hl => liveIs_append (c := ⟨_, _, true⟩) hl rfl,
      fun d hd hdu => ⟨List.mem_append_left _ hd, fun a hin => hread a fun hm => ?_⟩, ?_⟩
    · have := h.tiled.bounds hd
      show d.addr ≠ s.bump.toNat + 8
      omega
    · exact ht.not_onMark_of_payload (List.mem_append_left _ hd) hdu hin (hm.mono fun e he => List.mem_append_right _ he)
    · obtain ⟨m, rfl⟩ : ∃ m, t = { s with mem := m, bump := _, cap := _ } := ⟨_, heq⟩
      rfl

/-- An allocation that finds no chunk and cannot move BUMP raises OutOfMemory with the capacity needed. -/
theorem alloc_raises {n : Nat} (h : Holds s cs ls) (hs : searchFit cs ls (requestSize n) = none)
    (hn : s.heapMax < s.bump.toNat + 16 + requestSize n) : alloc s n = .error ⟨.outOfMemory, s.bump.toNat + 16 + requestSize n⟩ :=
  (h.alloc_of_none hs).trans (h.bumpAlloc_none hn)

/-! ### A freeing -/

/-- A chunk in use stands between its free neighbours, where it has them. -/
theorem exists_neighbours (hc : c ∈ cs) :
    ∃ pre l f post, cs = pre ++ l.toList ++ [c] ++ f.toList ++ post ∧ (∀ a ∈ l, a.used = false) ∧ (∀ b ∈ f, b.used = false) ∧
      (l = none → ∀ a ∈ pre.getLast?, a.used = true) ∧ (f = none → ∀ b ∈ post.head?, b.used = true) := by
  have before : ∀ us : List Chunk, ∃ pre l, us = pre ++ Option.toList l ∧ (∀ a ∈ l, a.used = false) ∧
      (l = none → ∀ a ∈ pre.getLast?, a.used = true) := by
    intro us
    rcases List.eq_nil_or_concat us with rfl | ⟨us, d, rfl⟩
    · exact ⟨[], none, rfl, by simp, by simp⟩
    · cases hd : d.used with
      | false => exact ⟨us, some d, by simp, by simp [hd], by simp⟩
      | true => exact ⟨us ++ [d], none, by simp, by simp, by simp [hd]⟩
  have after : ∀ vs : List Chunk, ∃ f post, vs = Option.toList f ++ post ∧ (∀ b ∈ f, b.used = false) ∧
      (f = none → ∀ b ∈ post.head?, b.used = true) := by
    intro vs
    cases vs with
    | nil => exact ⟨none, [], rfl, by simp, by simp⟩
    | cons d vs =>
      cases hd : d.used with
      | false => exact ⟨some d, vs, rfl, by simp [hd], by simp⟩
      | true => exact ⟨none, d :: vs, rfl, by simp, by simp [hd]⟩
  obtain ⟨us, vs, rfl⟩ := List.append_of_mem hc
  obtain ⟨pre, l, rfl, hl, hpre⟩ := before us
  obtain ⟨f, post, rfl, hf, hpost⟩ := after vs
  exact ⟨pre, l, f, post, by simp, hl, hf, hpre, hpost⟩

/-- What freeing the chunk `c` leaves: every other chunk in use is where it was with its payload. -/
structure Freed (s t : State) (cs cs' : List Chunk) (ls' : FreeList → List Nat) (c : Chunk) : Prop where
  holds : Holds t cs' ls'
  settled : Settled cs' ls'
  live : ∀ live, LiveIs cs live → LiveIs cs' (live.filter fun q => q ≠ c.addr)
  kept : ∀ d ∈ cs, d.used = true → d ≠ c → d ∈ cs' ∧ ∀ a, d.hasPayloadAt a → t.mem.read a = s.mem.read a
  same : t = { s with mem := t.mem, bin := t.bin, large := t.large }

/-- Freeing a chunk in use never raises. -/
theorem free_answers (h : Holds s cs ls) (k : Settled cs ls) (hc : c ∈ cs) (hu : c.used = true) :
    ∃ t cs' ls', freeChunk s c.addr c.size = .ok t ∧ Freed s t cs cs' ls' c := by
  obtain ⟨pre, l, f, post, rfl, hl, hf, hpre, hpost⟩ := exists_neighbours hc
  obtain ⟨t, hrun, ht, frame⟩ := h.freeChunk_of hu (k.listed (fun a ha => by simp [Option.mem_def.1 ha]) hl)
    (k.listed (fun b hb => by simp [Option.mem_def.1 hb]) hf) hpre hpost
  have kept : ∀ d ∈ pre ++ l.toList ++ [c] ++ f.toList ++ post, d.used = true → d ≠ c → d ∈ pre ++ [c.merged l f] ++ post := by
    intro d hd hdu hne
    simp only [List.mem_append, Option.mem_toList, List.mem_singleton] at hd ⊢
    rcases hd with (((hd | hd) | rfl) | hd) | hd
    · exact .inl (.inl hd)
    · cases (hl d hd).symm.trans hdu
    · exact absurd rfl hne
    · cases (hf d hd).symm.trans hdu
    · exact .inr hd
  refine ⟨t, _, _, hrun, ht, h.settled_merged k hl hf hpre hpost, fun live hlive => h.liveIs_merged hlive hl hf,
    fun d hd hdu hne => ⟨kept d hd hdu hne, fun a hin => frame.read a ?_⟩, frame.same⟩
  rintro (hm | ⟨-, b, hb, hin'⟩)
  · exact ht.not_onMark_of_payload (kept d hd hdu hne) hdu hin hm
  · have hbmem : b ∈ pre ++ l.toList ++ [c] ++ f.toList ++ post := by simp [Option.mem_def.1 hb]
    have := h.tiled.bounds hbmem
    obtain rfl := h.tiled.eq_of_spans hd hbmem (a := a) (by omega) (by omega)
    cases (hf d hb).symm.trans hdu

/-! ### The commands -/

/-- REALLOC of a chunk in use, its tests passed (R178). -/
theorem exec_realloc_eq {rd rs1 rs2 : Reg} (h : Holds s cs ls) (hc : c ∈ cs) (hu : c.used = true) (hreg : s.reg rs1 = c.addr)
    (h0 : 0 ≤ s.regInt rs2) :
    exec (.realloc rd rs1 rs2) s = command (.realloc rd rs1 rs2) s
      (if requestSize (s.regInt rs2).toNat ≤ c.size then do
        let s ← shrinkChunk s c.addr c.size (requestSize (s.regInt rs2).toNat)
        pure (s.setReg rd c.addr)
      else do
        let (p, s) ← moveChunk s c.addr c.size (s.regInt rs2).toNat
        pure (s.setReg rd p)) := by
  have := (h.hasChunk hc).1
  show execRealloc rd rs1 rs2 s = _
  unfold execRealloc
  simp only [hreg]
  rw [require_of h.init, ok_bind, require_of h0, ok_bind, if_neg (by omega), h.checkArg_of hc, ok_bind,
    readChunk_of h.heapBounds (h.hasChunk hc), ok_bind, hu]
  simp only
  rw [require_of (by rfl), ok_bind]

/-! ### Shrinking -/

/-- A chunk in use split into two leaves the chunks and lists settled. -/
theorem settled_split {u v : Chunk} (k : Settled (pre ++ [c] ++ post) ls) (hu : u.used = true) (hv : v.used = true) :
    Settled (pre ++ [u, v] ++ post) ls := by
  refine ⟨apart_between (mid := [c]) k.apart (by simp [hu]) (by simp) (fun _ _ b hb => .inr ?_) (fun a ha _ _ => .inl ?_), fun d hd hdu => ?_⟩
  · simp only [List.head?_cons, Option.mem_def, Option.some.injEq] at hb
    exact hb ▸ hu
  · simp only [List.getLast?_cons_cons, List.getLast?_singleton, Option.mem_def, Option.some.injEq] at ha
    exact ha ▸ hv
  · simp only [List.mem_append, List.mem_cons, List.not_mem_nil, or_false] at hd
    rcases hd with (hd | rfl | rfl) | hd
    · exact k.complete d (by simp [hd]) hdu
    · cases hu.symm.trans hdu
    · cases hv.symm.trans hdu
    · exact k.complete d (by simp [hd]) hdu

/-- The tail of a chunk with a surplus is split off and freed (R178). -/
theorem shrinkChunk_of {r : Nat} (h : Holds s (pre ++ [c] ++ f.toList ++ post) ls) (k : Settled (pre ++ [c] ++ f.toList ++ post) ls)
    (hu : c.used = true) (hf : ∀ b ∈ f, b.used = false) (hpost : f = none → ∀ b ∈ post.head?, b.used = true) (hr : 16 ≤ r ∧ r % 16 = 0)
    (hsurplus : 16 < c.size - r) :
    ∃ t, shrinkChunk s c.addr c.size r = .ok t ∧
      Holds t (pre ++ [⟨c.addr, r, true⟩, ⟨c.addr + r + 16, c.size - r - 16 + absorbed f, false⟩] ++ post)
        (withHead (withoutOption ls f) (c.addr + r + 16) (c.size - r - 16 + absorbed f)) ∧
      Settled (pre ++ [⟨c.addr, r, true⟩, ⟨c.addr + r + 16, c.size - r - 16 + absorbed f, false⟩] ++ post)
        (withHead (withoutOption ls f) (c.addr + r + 16) (c.size - r - 16 + absorbed f)) ∧
      ListFrame s t
        (OnMark (c :: (pre ++ [⟨c.addr, r, true⟩, ⟨c.addr + r + 16, c.size - r - 16 + absorbed f, false⟩] ++ post))) := by
  have e : pre ++ [c] ++ f.toList ++ post = pre ++ [c] ++ (f.toList ++ post) := by simp
  rw [e] at h k
  obtain ⟨lo, hi, hpre, ⟨haddr, hsize, hmod, -, -, hend⟩, hrest⟩ := h.split
  have hend : lo + 16 + c.size = hi := hend
  have off : ∀ e ∈ [c], ∀ l, e.addr ∉ ls l := fun e he l hl => by
    obtain rfl := List.mem_singleton.1 he
    cases hu.symm.trans (h.listed_at (by simp) hl).1
  obtain ⟨m, m', hw, hw', h', hm⟩ := h.retagBoth (c := ⟨c.addr, r, true⟩) (d := ⟨c.addr + r + 16, c.size - r - 16, true⟩) hpre hrest off
    haddr rfl (by simp only; omega) hr (by simp only; omega)
  have k' := settled_split (u := ⟨c.addr, r, true⟩) (v := ⟨c.addr + r + 16, c.size - r - 16, true⟩) k rfl rfl
  have front : pre ++ [⟨c.addr, r, true⟩, ⟨c.addr + r + 16, c.size - r - 16, true⟩] ++ (f.toList ++ post) =
    (pre ++ [⟨c.addr, r, true⟩]) ++ (none : Option Chunk).toList ++ [⟨c.addr + r + 16, c.size - r - 16, true⟩] ++ f.toList ++ post := by simp
  have merged : (⟨c.addr + r + 16, c.size - r - 16, true⟩ : Chunk).merged none f =
      ⟨c.addr + r + 16, c.size - r - 16 + absorbed f, false⟩ := by simp [Chunk.merged, absorbed]
  rw [front] at h' k'
  have hlast : ∀ a ∈ (pre ++ [(⟨c.addr, r, true⟩ : Chunk)]).getLast?, a.used = true := by simp
  obtain ⟨t, hrun, ht, frame⟩ := h'.freeChunk_of rfl (by simp) (k'.listed (fun b hb => by simp [Option.mem_def.1 hb]) hf)
    (fun _ => hlast) hpost
  have settled := h'.settled_merged k' (by simp) hf (fun _ => hlast) hpost
  rw [merged] at ht frame settled
  have tagged : ListFrame s { s with mem := m' } fun a =>
      Chunk.hasTagAt ⟨c.addr, r, true⟩ a ∨ Chunk.hasTagAt ⟨c.addr + r + 16, c.size - r - 16, true⟩ a :=
    .withMem fun a ha => hm a (fun hin => ha (.inl hin)) fun hin => ha (.inr hin)
  refine ⟨t, ?_, by simpa [withoutOption_none] using ht, by simpa [withoutOption_none] using settled, (tagged.trans frame).mono fun a ha => ?_⟩
  · unfold shrinkChunk
    rw [if_pos hsurplus, show writeTags s c.addr r 1 = _ from hw, ok_bind, show writeTags _ (c.addr + r + 16) _ 1 = _ from hw', ok_bind]
    exact hrun
  · rcases ha with (ha | ha | ha) | (ha | ⟨hnone, -⟩)
    · exact ⟨_, by simp, .inl ha⟩
    · exact ⟨⟨c.addr + r + 16, c.size - r - 16 + absorbed f, false⟩, by simp, .inl (.inl ha)⟩
    · have ha : c.addr + r + 16 + (c.size - r - 16) ≤ a ∧ a < c.addr + r + 16 + (c.size - r - 16) + 8 := ha
      exact ⟨c, List.mem_cons_self .., .inl (.inr (by omega))⟩
    · exact ha.mono fun d hd => List.mem_cons_of_mem _ (by simpa using hd)
    · cases hnone

/-- The front of a chunk cut by REALLOC stays in LIVE, and nothing joins. -/
theorem liveIs_shrunk {live : List Nat} {u v : Chunk} (hlive : LiveIs (pre ++ [c] ++ f.toList ++ post) live) (hc : c.used = true)
    (hf : ∀ b ∈ f, b.used = false) (hu : u.used = true) (haddr : u.addr = c.addr) (hv : v.used = false) :
    LiveIs (pre ++ [u, v] ++ post) live := by
  intro p
  rw [hlive p]
  constructor
  · rintro ⟨d, hd, rfl, hdu⟩
    simp only [List.mem_append, Option.mem_toList, List.mem_singleton] at hd
    rcases hd with ((hd | rfl) | hd) | hd
    · exact ⟨d, by simp [hd], rfl, hdu⟩
    · exact ⟨u, by simp, haddr, hu⟩
    · cases (hf d hd).symm.trans hdu
    · exact ⟨d, by simp [hd], rfl, hdu⟩
  · rintro ⟨d, hd, rfl, hdu⟩
    simp only [List.mem_append, List.mem_cons, List.not_mem_nil, or_false] at hd
    rcases hd with (hd | rfl | rfl) | hd
    · exact ⟨d, by simp [hd], rfl, hdu⟩
    · exact ⟨c, by simp, haddr.symm, hc⟩
    · cases hv.symm.trans hdu
    · exact ⟨d, by simp [hd], rfl, hdu⟩

/-! ### Growing -/

/-- What moving the chunk `c` to a new chunk `p` of at least `n` bytes leaves: the payload is copied, and every other chunk in use is where
it was with its payload. -/
structure Moved (s t : State) (cs cs' : List Chunk) (ls' : FreeList → List Nat) (c p : Chunk) (n : Nat) : Prop where
  holds : Holds t cs' ls'
  settled : Settled cs' ls'
  mem : p ∈ cs'
  used : p.used = true
  room : requestSize n ≤ p.size
  fresh : ∀ d ∈ cs, d.used = true → d.addr ≠ p.addr
  live : t.live = insertAddr p.addr (s.live.filter fun q => q ≠ c.addr)
  liveIs : LiveIs cs s.live → LiveIs cs' t.live
  copied : ∀ k < c.size, t.mem.read (p.addr + k) = s.mem.read (c.addr + k)
  kept : ∀ d ∈ cs, d.used = true → d ≠ c → d ∈ cs' ∧ ∀ a, d.hasPayloadAt a → t.mem.read a = s.mem.read a
  same : t = { s with mem := t.mem, bin := t.bin, large := t.large, bump := t.bump, cap := t.cap, live := t.live }

/-- Moving a chunk in use to a larger one: the allocation, the copy, the freeing (R178). -/
theorem moveChunk_of {n : Nat} (h : Holds s cs ls) (k : Settled cs ls) (hc : c ∈ cs) (hu : c.used = true) (hsize : c.size < requestSize n)
    (hn : (searchFit cs ls (requestSize n)).isSome = true ∨ s.bump.toNat + 16 + requestSize n ≤ s.heapMax) :
    ∃ t cs' ls' p, moveChunk s c.addr c.size n = .ok (p.addr, t) ∧
      p.addr = (searchFit cs ls (requestSize n)).elim (s.bump.toNat + 8) Chunk.addr ∧ Moved s t cs cs' ls' c p n := by
  obtain ⟨s1, cs1, ls1, p, halloc, hp, a⟩ := h.alloc_answers k hn
  obtain ⟨hc1, hpayload⟩ := a.kept c hc hu
  have hne : ∀ d ∈ cs, d.used = true → p ≠ d := fun d hd hdu e => a.fresh d hd hdu (congrArg Chunk.addr e.symm)
  have hroom := a.room
  have apart : p.addr + c.size ≤ c.addr ∨ c.addr + c.size ≤ p.addr := by
    by_contra hover
    exact a.holds.payload_ne a.mem hc1 (hne c hc hu) (a := max p.addr c.addr) (by omega) (by omega)
  have copy := Memory.read_copyUp (m := s1.mem) apart
  have h1 : Holds { s1 with mem := s1.mem.copyUp p.addr c.addr c.size } cs1 ls1 := a.holds.write_payload fun x => by
    rw [copy]
    split
    · exact .inr ⟨p, a.mem, a.used, by omega⟩
    · exact .inl rfl
  obtain ⟨s2, cs2, ls2, hfree, b⟩ := h1.free_answers a.settled hc1 hu
  obtain ⟨hp2, hpkept⟩ := b.kept p a.mem a.used (hne c hc hu)
  have hlive1 : s1.live = s.live := by rw [a.same]
  have hlive2 : s2.live = s.live := by rw [b.same]; exact hlive1
  refine ⟨(s2.removeLive c.addr).addLive p.addr, cs2, ls2, p, ?_, hp, b.holds.of_same rfl rfl rfl rfl rfl rfl rfl, b.settled, hp2, a.used,
    hroom, a.fresh, by simp [hlive2], fun hl q => ?_, fun j hj => ?_, fun d hd hdu hdc => ?_, ?_⟩
  · unfold moveChunk
    rw [halloc, ok_bind]
    simp only
    rw [hfree, ok_bind]
    rfl
  · rw [← b.live _ (a.live _ hl) q]
    simp only [State.addLive_live, State.removeLive_live, hlive2, mem_insertAddr, List.mem_filter, decide_eq_true_eq]
    have := a.fresh c hc hu
    grind
  · show s2.mem.read _ = _
    rw [hpkept _ (by omega)]
    show Memory.read (s1.mem.copyUp p.addr c.addr c.size) _ = _
    rw [copy, if_pos (by omega), Nat.add_sub_cancel_left, hpayload _ (by omega)]
  · obtain ⟨hd1, hread1⟩ := a.kept d hd hdu
    obtain ⟨hd2, hread2⟩ := b.kept d hd1 hdu hdc
    refine ⟨hd2, fun x hx => ?_⟩
    have hnp := a.holds.payload_ne hd1 a.mem (hne d hd hdu).symm hx
    show s2.mem.read x = _
    rw [hread2 x hx]
    show Memory.read (s1.mem.copyUp p.addr c.addr c.size) x = _
    rw [copy, if_neg (by omega), hread1 x hx]
  · obtain ⟨m, bin, large, bump, cap, rfl⟩ : ∃ m bin large bump cap,
      s1 = { s with mem := m, bin := bin, large := large, bump := bump, cap := cap } := ⟨_, _, _, _, _, a.same⟩
    obtain ⟨m', bin', large', rfl⟩ : ∃ m' bin' large', s2 = { s with mem := m', bin := bin', large := large', bump := bump, cap := cap } :=
      ⟨_, _, _, b.same⟩
    rfl

end Holds

/-- Settles O18: the front stays, and the tail's freeing answers with chunks and lists settled. -/
theorem reallocSplitsTail : Obligations.ReallocSplitsTail := by
  intro s rd rs1 rs2 pre post c f ls h hF hreg hu h0 hf hpost r q size cs hr hsurplus
  obtain ⟨t, hrun, ht, settled, frame⟩ := h.holds.shrinkChunk_of h.settled hu hf hpost (requestSize_range (s.regInt rs2).toNat) hsurplus
  have run := h.holds.exec_realloc_eq (rd := rd) (by simp) hu hreg h0
  rw [if_pos (show requestSize _ ≤ c.size from hr), hrun, ok_bind, pure_eq_ok, command_ok hF] at run
  refine ⟨_, run, represents_iff.2 ⟨ht.of_same rfl rfl rfl rfl rfl rfl rfl, settled, ?_⟩, sameBut_of_read frame.read, ?_⟩
  · show LiveIs _ t.live
    rw [frame.live]
    exact Holds.liveIs_shrunk h.liveIs hu hf rfl rfl rfl
  · obtain ⟨m, bin, large, rfl⟩ := frame.eq_with
    rfl

/-- Settles O19: the allocation fails and nothing changes, or it answers a new chunk, the payload is copied and the old chunk freed. -/
theorem reallocMovesAndKeepsContent : Obligations.ReallocMovesAndKeepsContent := by
  intro s cs ls rd rs1 rs2 c h hF hc hu hreg h0 i r need hsize
  have run := h.holds.exec_realloc_eq (rd := rd) hc hu hreg h0
  rw [if_neg (show ¬requestSize _ ≤ c.size from Nat.not_le_of_lt hsize)] at run
  refine ⟨fun hs hn => ?_, fun hn => ?_⟩
  · unfold moveChunk at run
    rw [h.holds.alloc_raises hs hn, error_bind, error_bind, command_error hF] at run
    exact run
  · obtain ⟨t, cs', ls', p, hrun, hp, m⟩ := h.holds.moveChunk_of h.settled hc hu hsize hn
    rw [hrun, ok_bind] at run
    refine ⟨_, cs', ls', p, run.trans (command_ok hF), represents_iff.2 ⟨m.holds.of_same rfl rfl rfl rfl rfl rfl rfl, m.settled,
      m.liveIs h.liveIs⟩, m.mem, m.used, m.room, hp, fun hlive => ?_, fun a => ?_, m.copied, m.kept, ?_⟩
    · obtain ⟨d, hd, e, hdu⟩ := (h.live _).1 hlive
      exact m.fresh d hd hdu e
    · show a ∈ t.live ↔ _
      rw [m.live, mem_insertAddr, List.mem_filter, decide_eq_true_eq]
    · obtain ⟨mem, bin, large, bump, cap, live, rfl⟩ : ∃ mem bin large bump cap live,
        t = { s with mem := mem, bin := bin, large := large, bump := bump, cap := cap, live := live } := ⟨_, _, _, _, _, _, m.same⟩
      rfl

end Sys2Proof.Machine
end


section
/-! PROOFS. What every command may write: the register of its rd field, the flags if it is one of the ten that have them, bytes at its address
operand; only HINIT, HENSURE and the allocator do more to the heap (10_state.md R21, R28, R29, R31, R34, R41). -/

namespace Sys2Proof

/-- HINIT, HENSURE and the allocator's commands: they change more of the heap than bytes at an address operand. -/
def Instr.shapesHeap : Instr → Bool
  | .hinit _ | .hensure _ | .malloc _ _ | .calloc _ _ _ | .free _ | .realloc _ _ _ => true
  | _ => false

end Sys2Proof

namespace Sys2Proof.Machine

/-- V tells whether CARRYHI:CARRYLO is 0 (R28, R29). -/
def State.CarryTold (s : State) : Prop := s.flagV = true ↔ s.carryLo ≠ 0 ∨ s.carryHi ≠ 0

theorem State.setShiftCarry_told (s : State) {c : Nat} (hc : c < 2 ^ 64) : (s.setShiftCarry c).CarryTold := by
  unfold State.CarryTold
  rw [State.setShiftCarry_flagV, State.setShiftCarry_carryLo, State.setShiftCarry_carryHi, ofNat64_ne_zero_iff hc]
  simp

theorem State.setLimbCarry_told (s : State) {c : Nat} (hc : c ≤ 1) : (s.setLimbCarry c).CarryTold := by
  unfold State.CarryTold
  rcases Nat.le_one_iff_eq_zero_or_eq_one.1 hc with rfl | rfl <;> simp

theorem State.setSpill_told (s : State) {n sp : Nat} (hn : n ≤ 128) (h : sp < 2 ^ n) : (s.setSpill sp).CarryTold := by
  have hsp : sp < 2 ^ 128 := Nat.lt_of_lt_of_le h (Nat.pow_le_pow_right (by decide) hn)
  unfold State.CarryTold
  rw [State.setSpill_flagV, State.setSpill_carryLo, State.setSpill_carryHi, decide_eq_true_iff,
    ofNat64_ne_zero_iff (Nat.mod_lt _ (by decide)), ofNat64_ne_zero_iff (by omega)]
  omega

/-! ### The effect of a command that completes -/

/-- What command `i` may do to CAP, BUMP and INIT when it leads from `s` to `t` (R31, R34, R41). -/
structure Grows (i : Instr) (s t : State) : Prop where
  cap : s.cap ≤ t.cap
  bump : s.bump.toNat ≤ t.bump.toNat
  heapMax : t.heapMax = s.heapMax
  init : s.init = true → t.init = true
  created : (∀ r, i ≠ .hinit r) → t.init = s.init
  moved : (∀ r, i ≠ .hinit r) → (∀ rd r, i ≠ .malloc rd r) → (∀ rd r q, i ≠ .calloc rd r q) → (∀ rd r q, i ≠ .realloc rd r q) →
    t.bump = s.bump ∧ ((∀ r, i ≠ .hensure r) → t.cap = s.cap)

theorem Grows.same {i : Instr} {s t : State} (hcap : t.cap = s.cap) (hbump : t.bump = s.bump) (hmax : t.heapMax = s.heapMax)
    (hinit : t.init = s.init) : Grows i s t :=
  ⟨Nat.le_of_eq hcap.symm, by rw [hbump], hmax, hinit.trans, fun _ => hinit, fun _ _ _ _ => ⟨hbump, fun _ => hcap⟩⟩

/-- What command `i` may leave when its pseudocode answers `t` from `s`. -/
structure Effect (i : Instr) (s t : State) : Prop where
  regs : ∀ q, i.dest ≠ some q → t.x[q] = s.x[q]
  flags : i.writesFlags = false → t.flagV = s.flagV ∧ t.carryLo = s.carryLo ∧ t.carryHi = s.carryHi
  carry : i.writesFlags = true → t.CarryTold
  heap : i.shapesHeap = false →
    t = { s with x := t.x, flagV := t.flagV, carryLo := t.carryLo, carryHi := t.carryHi, mem := t.mem }
  bytes : i.shapesHeap = false → ∀ a, t.mem.read a = s.mem.read a ∨
    ∃ r n, s.storesTo i = some (r, n) ∧ s.InRange r n ∧ s.addr r ≤ a ∧ a < s.addr r + n.toNat
  grows : Inv s → Grows i s t
  fault : t.fault = s.fault

/-- Bytes changed at the address operand of a command at most. -/
def Stored (i : Instr) (s t : State) : Prop :=
  ∃ m : Memory, t = { s with mem := m } ∧ ∀ a, m.read a = s.mem.read a ∨
    ∃ r n, s.storesTo i = some (r, n) ∧ s.InRange r n ∧ s.addr r ≤ a ∧ a < s.addr r + n.toNat

theorem Stored.refl (i : Instr) (s : State) : Stored i s s := ⟨s.mem, rfl, fun _ => .inl rfl⟩

theorem Memory.read_store_other (m : Memory) {d a : Nat} {bs : List Byte} (h : a < d ∨ d + bs.length ≤ a) :
    (m.store d bs).read a = m.read a := by
  rw [Memory.read_store, dif_neg (by omega)]

theorem stored_in_range {i : Instr} {s : State} {r : Reg} {n : Int} {m : Memory} (hi : s.storesTo i = some (r, n)) (hr : s.InRange r n)
    (hm : ∀ a, a < s.addr r ∨ s.addr r + n.toNat ≤ a → m.read a = s.mem.read a) : Stored i s { s with mem := m } := by
  refine ⟨m, rfl, fun a => ?_⟩
  by_cases hin : s.addr r ≤ a ∧ a < s.addr r + n.toNat
  · exact .inr ⟨r, n, hi, hr, hin⟩
  · exact .inl (hm a (by omega))

/-- A write at the address operand. -/
theorem memWrite_stored {i : Instr} {s t : State} {r : Reg} {n v : Nat} (hi : s.storesTo i = some (r, (n : Int)))
    (h : memWrite s (s.reg r) n v = .ok t) : Stored i s t := by
  obtain ⟨-, h0, hcap, rfl⟩ := memWrite_ok h
  rw [sgn64_reg] at h0 hcap ⊢
  exact stored_in_range hi ⟨h0, hcap⟩ fun a ha => Memory.read_store_other _ (by rw [leBytes_length]; exact ha)

namespace Effect

variable {i : Instr} {s t u : State} {rd : Reg} {v c : Nat}

theorem setReg_regs (hrd : i.dest = some rd) (q : Reg) (hq : i.dest ≠ some q) : (s.setReg rd v).x[q] = s.x[q] :=
  s.setReg_other rd q v fun e => hq (by rw [hrd, e])

/-- Only the register of the rd field is written. -/
theorem reg (hrd : i.dest = some rd) (hflags : i.writesFlags = false) : Effect i s (s.setReg rd v) :=
  ⟨setReg_regs hrd, fun _ => ⟨rfl, rfl, rfl⟩, fun h => absurd (hflags.symm.trans h) nofun, fun _ => rfl, fun _ _ => .inl rfl,
    fun _ => .same rfl rfl rfl rfl, rfl⟩

/-- Only bytes at the address operand are written. -/
theorem stored (h : Stored i s t) (hflags : i.writesFlags = false) : Effect i s t := by
  obtain ⟨m, rfl, hm⟩ := h
  exact ⟨fun _ _ => rfl, fun _ => ⟨rfl, rfl, rfl⟩, fun h => absurd (hflags.symm.trans h) nofun, fun _ => rfl, fun _ => hm,
    fun _ => .same rfl rfl rfl rfl, rfl⟩

/-- Bytes at the address operand, then the flags. -/
theorem flagged (h : Stored i s t) (hflags : i.writesFlags = true) (hu : u = { t with flagV := u.flagV, carryLo := u.carryLo, carryHi := u.carryHi })
    (told : u.CarryTold) : Effect i s u := by
  obtain ⟨m, rfl, hm⟩ := h
  refine ⟨fun _ _ => by rw [hu], fun h => absurd (hflags.symm.trans h) nofun, fun _ => told, fun _ => ?_, fun _ => ?_, fun _ => ?_, by rw [hu]⟩
  · conv_lhs => rw [hu]
    rw [hu]
  · rw [hu]
    exact hm
  · rw [hu]
    exact .same rfl rfl rfl rfl

/-- Bytes at the address operand, then the flags, then the register of the rd field. -/
theorem flaggedReg (h : Stored i s t) (hflags : i.writesFlags = true)
    (hu : u = { t with flagV := u.flagV, carryLo := u.carryLo, carryHi := u.carryHi }) (told : u.CarryTold) (hrd : i.dest = some rd) :
    Effect i s (u.setReg rd v) := by
  have e := flagged h hflags hu told
  refine ⟨fun q hq => (setReg_regs hrd q hq).trans (e.regs q hq), fun h => absurd (hflags.symm.trans h) nofun, fun _ => told,
    fun hs => ?_, e.bytes, fun hs => { e.grows hs with }, e.fault⟩
  rw [e.heap hs]
  rfl

/-- The commands that shape the heap write beside it the register of the rd field at most. -/
theorem shaping (hi : i.shapesHeap = true) (hflags : i.writesFlags = false) (hx : ∀ q, i.dest ≠ some q → t.x[q] = s.x[q])
    (h : t.flagV = s.flagV ∧ t.carryLo = s.carryLo ∧ t.carryHi = s.carryHi) (hg : Inv s → Grows i s t)
    (hfault : t.fault = s.fault) : Effect i s t :=
  ⟨hx, fun _ => h, fun h => absurd (hflags.symm.trans h) nofun, fun h => absurd (hi.symm.trans h) nofun,
    fun h => absurd (hi.symm.trans h) nofun, hg, hfault⟩

end Effect

/-! ### The effect of a pseudocode -/

/-- `x` never raises CorruptionDetected. -/
def NoCorruption {α : Type} (x : Except Raise α) : Prop := ∀ r, x = .error r → r.kind ≠ .corruptionDetected

theorem NoCorruption.ok {α : Type} (a : α) : NoCorruption (.ok a : Except Raise α) := nofun

theorem NoCorruption.bind {α β : Type} {x : Except Raise α} {f : α → Except Raise β} (hx : NoCorruption x) (hf : ∀ a, NoCorruption (f a)) :
    NoCorruption (x >>= f) := fun r h => by
  rcases bind_eq_error.1 h with h | ⟨a, -, h⟩
  · exact hx r h
  · exact hf a r h

theorem NoCorruption.require {c : Prop} [Decidable c] {kind : FaultKind} (info : Nat) (h : kind ≠ .corruptionDetected) :
    NoCorruption (Machine.require c kind info) := fun r e => by
  rw [(require_eq_error.1 e).2]
  exact h

theorem NoCorruption.memRead (s : State) (a n : Nat) : NoCorruption (memRead s a n) :=
  .bind (.require _ nofun) fun _ => .bind (.require _ nofun) fun _ => .ok _

theorem NoCorruption.memWrite (s : State) (a n v : Nat) : NoCorruption (memWrite s a n v) :=
  .bind (.require _ nofun) fun _ => .bind (.require _ nofun) fun _ => .ok _

theorem NoCorruption.shiftCount (s : State) (r : Reg) : NoCorruption (shiftCount s r) := .bind (.require _ nofun) fun _ => .ok _

/-- What the pseudocode of command `i` does from `s`: its effect when it answers, and no CorruptionDetected outside the allocator. -/
structure Does (i : Instr) (s : State) (body : Except Raise State) : Prop where
  answers : ∀ t, body = .ok t → Effect i s t
  raises : i.shapesHeap = false → NoCorruption body

/-- `o` is the outcome of command `i` from `s` by a pseudocode that has the command's effect and no other. -/
def Runs (i : Instr) (s : State) (o : Host.Outcome State Fault Refusal) : Prop := ∃ body, o = command i s body ∧ Does i s body

namespace Does

variable {i : Instr} {s t : State} {α : Type} {x : Except Raise α} {f : α → Except Raise State} {body : Except Raise State}

theorem runs (h : Does i s body) : Runs i s (command i s body) := ⟨body, rfl, h⟩

theorem ok (h : Effect i s t) : Does i s (.ok t) := ⟨fun _ e => Except.ok.inj e ▸ h, fun _ => .ok t⟩

theorem bind (hx : NoCorruption x) (h : ∀ a, x = .ok a → Does i s (f a)) : Does i s (x >>= f) := by
  refine ⟨fun t e => ?_, fun hs r e => ?_⟩
  · obtain ⟨a, ha, ht⟩ := bind_eq_ok.1 e
    exact (h a ha).answers t ht
  · rcases bind_eq_error.1 e with e | ⟨a, ha, e⟩
    · exact hx r e
    · exact (h a ha).raises hs r e

theorem require {c : Prop} [Decidable c] {kind : FaultKind} {info : Nat} {f : Unit → Except Raise State} (hk : kind ≠ .corruptionDetected)
    (h : c → Does i s (f ())) : Does i s (Machine.require c kind info >>= f) :=
  bind (.require _ hk) fun _ hc => h (require_eq_ok.1 hc)

theorem ite {c : Prop} [Decidable c] {body' : Except Raise State} (h : Does i s body) (h' : Does i s body') :
    Does i s (if c then body else body') := by
  split
  · exact h
  · exact h'

theorem memRead {a n : Nat} {f : Nat → Except Raise State} (h : ∀ v, Does i s (f v)) : Does i s (Machine.memRead s a n >>= f) :=
  bind (.memRead s a n) fun v _ => h v

theorem reg {rd : Reg} {v : Nat} (hrd : i.dest = some rd) (hflags : i.writesFlags = false) : Does i s (.ok (s.setReg rd v)) :=
  ok (.reg hrd hflags)

theorem nothing (hflags : i.writesFlags = false) : Does i s (.ok s) := ok (.stored (.refl i s) hflags)

/-- A write at the address operand ends the pseudocode. -/
theorem memWrite {r : Reg} {n v : Nat} (hi : s.storesTo i = some (r, (n : Int))) (hflags : i.writesFlags = false) :
    Does i s (Machine.memWrite s (s.reg r) n v) :=
  ⟨fun _ h => .stored (memWrite_stored hi h) hflags, fun _ => NoCorruption.memWrite s _ n v⟩

/-- Of a command that shapes the heap the answers matter only. -/
theorem shaping (hi : i.shapesHeap = true) (h : ∀ t, body = .ok t → Effect i s t) : Does i s body :=
  ⟨h, fun hn => absurd (hi.symm.trans hn) nofun⟩

end Does

end Sys2Proof.Machine
end


section
/-! PROOFS. That every command has its effect and no other, and so: which registers, flags and heap fields a command can change (10_state.md
R21, R28, R29). -/

namespace Sys2Proof.Machine

/-! ### The commands with a shape of their own -/

section

variable (s : State) (rd rs1 rs2 rs3 : Reg) (m : Mode) (w : Width)

theorem shiftBy_does {i : Instr} {op : Nat → Nat → Nat × Nat} (hop : ∀ v n, v < 2 ^ w.bits → (op v n).2 < 2 ^ n) (byteAligned : Bool)
    (hrd : i.dest = some rd) (hflags : i.writesFlags = true) : Does i s (shiftBy op byteAligned w rd rs1 rs2 s) :=
  .require nofun fun hn =>
    have carry : (op (s.engineValue w rs1) (s.regInt rs2).toNat).2 < 2 ^ 64 :=
      Nat.lt_of_lt_of_le (hop _ _ (Nat.mod_lt _ (Nat.two_pow_pos _)))
        (Nat.pow_le_pow_right (by decide) (by have := Width.bits_le w; omega))
    .ok (.flaggedReg (.refl i s) hflags rfl (s.setShiftCarry_told carry) hrd)

theorem bitAt_does {i : Instr} (op : Nat → Nat → Nat) (hrd : i.dest = some rd) (hflags : i.writesFlags = false) :
    Does i s (bitAt op w rd rs1 rs2 s) := .require nofun fun _ => .reg hrd hflags

theorem extendFrom_does {i : Instr} (op : Nat → Nat → Nat) (hrd : i.dest = some rd) (hflags : i.writesFlags = false) :
    Does i s (extendFrom op w rd rs1 rs2 s) := .require nofun fun _ => .reg hrd hflags

theorem loadInto_does {i : Instr} (n : Nat) (hrd : i.dest = some rd) (hflags : i.writesFlags = false) :
    Does i s (loadInto s rd rs1 n) := .memRead fun _ => .reg hrd hflags

theorem addh_runs : Runs (.addh m rd rs1 rs2 rs3) s (execAddh m rd rs1 rs2 rs3 s) :=
  Does.runs <| .require nofun fun _ => .bind (.memRead _ _ _) fun _ ha => .bind (.memRead _ _ _) fun _ hb => .bind (.memWrite _ _ _ _) fun u h =>
    .ok (.flaggedReg (memWrite_stored rfl h) rfl rfl
      (u.setLimbCarry_told (Engine.add128_carry_le m (readVal_lt s rs2 ha) (readVal_lt s rs3 hb))) rfl)

theorem subh_runs : Runs (.subh m rd rs1 rs2 rs3) s (execSubh m rd rs1 rs2 rs3 s) :=
  Does.runs <| .require nofun fun _ => .memRead fun a => .memRead fun b => .bind (.memWrite _ _ _ _) fun u h =>
    .ok (.flaggedReg (memWrite_stored rfl h) rfl rfl (u.setLimbCarry_told (Engine.sub128_borrow_le m a b)) rfl)

theorem shlh_runs : Runs (.shlh m rs1 rs2 rs3) s (execShlh m rs1 rs2 rs3 s) :=
  Does.runs <| .require nofun fun _ => .bind (.shiftCount _ _) fun n hn => .bind (.memRead _ _ _) fun _ ha =>
    .bind (.memWrite _ _ _ _) fun u h => .ok (.flagged (memWrite_stored rfl h) rfl rfl
      (u.setSpill_told (shiftCount_le s rs3 hn) (Engine.shiftLeft128_spill_lt m n (readVal_lt s rs2 ha))))

theorem shrh_runs : Runs (.shrh m rs1 rs2 rs3) s (execShrh m rs1 rs2 rs3 s) :=
  Does.runs <| .require nofun fun _ => .bind (.shiftCount _ _) fun n hn => .memRead fun a => .bind (.memWrite _ _ _ _) fun u h =>
    .ok (.flagged (memWrite_stored rfl h) rfl rfl (u.setSpill_told (shiftCount_le s rs3 hn) (Engine.shiftRight128_spill_lt m a n)))

/-! ### Bulk operations -/

theorem requireRange_noCorruption (len : Int) : NoCorruption (requireRange s rs1 len) := .require _ nofun

/-- A range that passed its test, for a length that is not negative. -/
theorem requireRange_inRange {len : Int} {u : Unit} (h : requireRange s rs1 len = .ok u) : s.InRange rs1 len := requireRange_ok s rs1 h

/-- A byte-by-byte copy leaves the bytes outside its destination. -/
theorem Memory.read_copyUp_other {m : Memory} {d a n k : Nat} (h : k < d ∨ d + n ≤ k) : (m.copyUp d a n).read k = m.read k := by
  induction n with
  | zero => rfl
  | succ n ih => rw [Memory.copyUp, Memory.read_copyByte, if_neg (by omega), ih (by omega)]

theorem memcpy_runs : Runs (.memcpy rs1 rs2 rs3) s (execMemcpy rs1 rs2 rs3 s) :=
  Does.runs <| .require nofun fun _ => .require nofun fun _ => .ite (.nothing rfl) <|
    .bind (requireRange_noCorruption _ _ _) fun _ hd => .bind (requireRange_noCorruption _ _ _) fun _ _ => .require nofun fun _ =>
      .ok (.stored (stored_in_range rfl (requireRange_inRange s rs1 hd) fun _ ha => Memory.read_copyUp_other ha) rfl)

theorem memmove_runs : Runs (.memmove rs1 rs2 rs3) s (execMemmove rs1 rs2 rs3 s) :=
  Does.runs <| .require nofun fun _ => .require nofun fun _ => .ite (.nothing rfl) <|
    .bind (requireRange_noCorruption _ _ _) fun _ hd => .bind (requireRange_noCorruption _ _ _) fun _ _ =>
      .ok (.stored (stored_in_range rfl (requireRange_inRange s rs1 hd) fun _ ha =>
        Memory.read_store_other _ (by rw [Memory.load, List.length_map, List.length_range]; exact ha)) rfl)

theorem memset_runs : Runs (.memset rs1 rs2 rs3) s (execMemset rs1 rs2 rs3 s) :=
  Does.runs <| .require nofun fun _ => .require nofun fun _ => .ite (.nothing rfl) <|
    .bind (requireRange_noCorruption _ _ _) fun _ hd =>
      .ok (.stored (stored_in_range rfl (requireRange_inRange s rs1 hd) fun _ ha =>
        Memory.read_store_other _ (by rw [List.length_replicate]; exact ha)) rfl)

end

/-! ### The commands that shape the heap -/

/-- The two states differ in the heap, the allocator's registers and LIVE at most. -/
def DifferInHeap (s t : State) : Prop :=
  t = { s with
    init := t.init, mem := t.mem, bin := t.bin, large := t.large, bump := t.bump, cap := t.cap, live := t.live }

namespace DifferInHeap

variable {s t u : State}

theorem trans (h : DifferInHeap s t) (k : DifferInHeap t u) : DifferInHeap s u := by
  unfold DifferInHeap at h k ⊢
  rw [k, h]

theorem of_frame (h : HeapFrame s t) : DifferInHeap s t := by
  have := h.same
  unfold DifferInHeap
  rw [this]

theorem addLive (s : State) (p : Nat) : DifferInHeap s (s.addLive p) := rfl

theorem removeLive (s : State) (p : Nat) : DifferInHeap s (s.removeLive p) := rfl

theorem withMem (s : State) (m : Memory) : DifferInHeap s { s with mem := m } := rfl

/-- Of a command that shapes the heap and writes no register. -/
theorem effect {i : Instr} (h : DifferInHeap s t) (hi : i.shapesHeap = true) (hflags : i.writesFlags = false)
    (hg : Inv s → Grows i s t) : Effect i s t :=
  .shaping hi hflags (fun q _ => by rw [h]) ⟨by rw [h], by rw [h], by rw [h]⟩ hg (by rw [h])

/-- Of a command that shapes the heap and writes the register of its rd field. -/
theorem effectReg {i : Instr} {rd : Reg} {v : Nat} (h : DifferInHeap s t) (hi : i.shapesHeap = true) (hflags : i.writesFlags = false)
    (hrd : i.dest = some rd) (hg : Inv s → Grows i s t) : Effect i s (t.setReg rd v) := by
  have e := h.effect hi hflags hg
  exact .shaping hi hflags (fun q hq => (Effect.setReg_regs hrd q hq).trans (e.regs q hq)) (e.flags hflags)
    (fun hs => { e.grows hs with }) e.fault

end DifferInHeap

/-- A procedure of the allocator that keeps the frame, in one of the three commands that may move BUMP. -/
theorem Grows.of_frame {i : Instr} {s t : State} (h : HeapFrame s t)
    (hi : (∃ rd r, i = .malloc rd r) ∨ (∃ rd r q, i = .calloc rd r q) ∨ ∃ rd r q, i = .realloc rd r q) : Grows i s t := by
  refine ⟨h.cap, h.bump, h.heapMax, h.init.trans, fun _ => h.init, fun _ hm hc hr => ?_⟩
  rcases hi with ⟨rd, r, e⟩ | ⟨rd, r, q, e⟩ | ⟨rd, r, q, e⟩
  · exact absurd e (hm rd r)
  · exact absurd e (hc rd r q)
  · exact absurd e (hr rd r q)

theorem claim_differ {s t : State} {l : FreeList} {f : Fit} {r p : Nat} (h : claim s l f r = .ok (p, t)) : DifferInHeap s t := by
  obtain ⟨-, s', h1, h2⟩ := claim_ok h
  exact .of_frame ((take_frame h1).trans (place_frame h2))

theorem alloc_differ {s t : State} {n p : Nat} (h : alloc s n = .ok (p, t)) : DifferInHeap s t := by
  rcases alloc_ok h with ⟨_, -, -, h⟩ | ⟨_, -, h⟩ | h
  · exact claim_differ h
  · exact claim_differ h
  · obtain ⟨-, s1, s2, h1, h2, rfl⟩ := bumpAlloc_ok h
    have := DifferInHeap.of_frame ((ensureCapacity_frame h1).trans (writeTags_frame h2))
    exact this.trans rfl

theorem alloc_frame {s t : State} {n p : Nat} (hs : Inv s) (hi : s.init = true) (h : alloc s n = .ok (p, t)) : HeapFrame s t :=
  (alloc_bounds (hs.heapBounds hi) hs.heapMax.2 (hs.heap hi).2.2.2 h).2.1

theorem shrinkChunk_frame {s t : State} {a size r : Nat} (h : shrinkChunk s a size r = .ok t) : HeapFrame s t := by
  unfold shrinkChunk at h
  split at h
  · obtain ⟨s1, h1, h⟩ := bind_eq_ok.1 h
    obtain ⟨s2, h2, h⟩ := bind_eq_ok.1 h
    exact ((writeTags_frame h1).trans (writeTags_frame h2)).trans (freeChunk_frame h)
  · cases h
    exact .refl s

/-- The parts of a move that answers: the allocation, and the freeing after the copy. -/
theorem moveChunk_ok {s t : State} {a size n p : Nat} (h : moveChunk s a size n = .ok (p, t)) :
    ∃ s1 s2, alloc s n = .ok (p, s1) ∧ freeChunk { s1 with mem := s1.mem.copyUp p a size } a size = .ok s2 ∧
      t = (s2.removeLive a).addLive p := by
  obtain ⟨⟨q, s1⟩, h1, h⟩ := bind_eq_ok.1 h
  obtain ⟨s2, h2, h⟩ := bind_eq_ok.1 h
  cases h
  exact ⟨s1, s2, h1, h2, rfl⟩

theorem moveChunk_differ {s t : State} {a size n p : Nat} (h : moveChunk s a size n = .ok (p, t)) : DifferInHeap s t := by
  obtain ⟨s1, s2, h1, h2, rfl⟩ := moveChunk_ok h
  exact ((((alloc_differ h1).trans (.withMem ..)).trans (.of_frame (freeChunk_frame h2))).trans (.removeLive ..)).trans (.addLive ..)

/-! ### BUMP and CAP through a freeing -/

/-- The two states have the same BUMP and CAP. -/
def SameBounds (s t : State) : Prop := t.bump = s.bump ∧ t.cap = s.cap

theorem SameBounds.trans {s t u : State} (h : SameBounds s t) (k : SameBounds t u) : SameBounds s u :=
  ⟨k.1.trans h.1, k.2.trans h.2⟩

theorem memWrite_bounds {s t : State} {a n v : Nat} (h : memWrite s a n v = .ok t) : SameBounds s t := by
  rw [(memWrite_ok h).2.2.2]
  exact ⟨rfl, rfl⟩

theorem unlink_bounds {s t : State} {l : FreeList} {p : Nat} (h : unlink s l p = .ok t) : SameBounds s t := by
  obtain ⟨prev, -, h⟩ := bind_eq_ok.1 h
  obtain ⟨next, -, h⟩ := bind_eq_ok.1 h
  split at h
  · cases h
    exact ⟨State.setHead_bump .., State.setHead_cap ..⟩
  · exact memWrite_bounds h

theorem freeChunk_bounds {s t : State} {p size : Nat} (h : freeChunk s p size = .ok t) : SameBounds s t := by
  obtain ⟨start, _, s1, merged, s2, s3, h1, h2, h3, h4⟩ := freeChunk_ok h
  have preceding : SameBounds s s1 := by
    rcases mergePreceding_ok h1 with ⟨-, -, rfl, -⟩ | ⟨_, -, -, -, -, -, -, -, -, hu⟩
    · exact ⟨rfl, rfl⟩
    · exact unlink_bounds hu
  have following : SameBounds s1 s2 := by
    rcases mergeFollowing_ok h2 with ⟨-, rfl, -⟩ | ⟨_, -, -, -, hu⟩
    · exact ⟨rfl, rfl⟩
    · exact unlink_bounds hu
  obtain ⟨s4, h5, h4⟩ := bind_eq_ok.1 h4
  cases h4
  have headed : SameBounds s4 (s4.setHead (listFor merged) start) := ⟨State.setHead_bump .., State.setHead_cap ..⟩
  exact ((preceding.trans following).trans (writeTags_bump_cap h3)).trans ((memWrite_bounds h5).trans headed)

/-! ### The six commands -/

section

variable (s : State) (rd rs1 rs2 : Reg)

/-- HINIT makes a heap where the invariant says there was none, with CAP and BUMP 0. -/
theorem hinit_runs : Runs (.hinit rs1) s (execHinit rs1 s) :=
  Does.runs <| .shaping rfl fun t h => by
    obtain ⟨_, hi, h⟩ := bind_eq_ok.1 h
    obtain ⟨_, h8, h⟩ := bind_eq_ok.1 h
    obtain ⟨_, hmax, h⟩ := bind_eq_ok.1 h
    cases h
    refine DifferInHeap.effect rfl rfl rfl fun hs => ?_
    obtain ⟨hcap, -, -, -, hbump, -⟩ := hs.noHeap (require_eq_ok.1 hi)
    exact ⟨by rw [hcap]; exact Nat.zero_le _, by rw [hbump]; exact Nat.zero_le _, rfl, fun _ => rfl, fun hne => absurd rfl (hne rs1),
      fun hne => absurd rfl (hne rs1)⟩

theorem hensure_runs : Runs (.hensure rs1) s (execHensure rs1 s) :=
  Does.runs <| .shaping rfl fun t h => by
    obtain ⟨_, -, h⟩ := bind_eq_ok.1 h
    obtain ⟨_, -, h⟩ := bind_eq_ok.1 h
    have frame := ensureCapacity_frame h
    exact (DifferInHeap.of_frame frame).effect rfl rfl fun _ => ⟨frame.cap, frame.bump, frame.heapMax, frame.init.trans, fun _ => frame.init,
      fun _ _ _ _ => ⟨ensureCapacity_bump h, fun hne => absurd rfl (hne rs1)⟩⟩

theorem malloc_runs : Runs (.malloc rd rs1) s (execMalloc rd rs1 s) :=
  Does.runs <| .shaping rfl fun t h => by
    obtain ⟨_, hi, h⟩ := bind_eq_ok.1 h
    obtain ⟨_, -, h⟩ := bind_eq_ok.1 h
    obtain ⟨⟨p, u⟩, ha, h⟩ := bind_eq_ok.1 h
    cases h
    exact ((alloc_differ ha).trans (.addLive u p)).effectReg rfl rfl rfl fun hs =>
      { Grows.of_frame (alloc_frame hs (require_eq_ok.1 hi) ha) (.inl ⟨rd, rs1, rfl⟩) with }

theorem calloc_runs : Runs (.calloc rd rs1 rs2) s (execCalloc rd rs1 rs2 s) :=
  Does.runs <| .shaping rfl fun t h => by
    obtain ⟨_, hi, h⟩ := bind_eq_ok.1 h
    obtain ⟨_, -, h⟩ := bind_eq_ok.1 h
    obtain ⟨_, -, h⟩ := bind_eq_ok.1 h
    obtain ⟨_, -, h⟩ := bind_eq_ok.1 h
    obtain ⟨⟨p, u⟩, ha, h⟩ := bind_eq_ok.1 h
    cases h
    exact (((alloc_differ ha).trans (.withMem u _)).trans (.addLive _ p)).effectReg rfl rfl rfl fun hs =>
      { Grows.of_frame (alloc_frame hs (require_eq_ok.1 hi) ha) (.inr (.inl ⟨rd, rs1, rs2, rfl⟩)) with }

theorem free_runs : Runs (.free rs1) s (execFree rs1 s) :=
  Does.runs <| .shaping rfl fun t h => by
    obtain ⟨_, -, h⟩ := bind_eq_ok.1 h
    split at h
    · cases h
      exact DifferInHeap.effect rfl rfl rfl fun _ => .same rfl rfl rfl rfl
    · obtain ⟨_, -, h⟩ := bind_eq_ok.1 h
      obtain ⟨⟨size, u⟩, -, h⟩ := bind_eq_ok.1 h
      obtain ⟨_, -, h⟩ := bind_eq_ok.1 h
      obtain ⟨v, hf, h⟩ := bind_eq_ok.1 h
      cases h
      have frame := freeChunk_frame hf
      obtain ⟨hbump, hcap⟩ := freeChunk_bounds hf
      exact ((DifferInHeap.of_frame frame).trans (.removeLive ..)).effect rfl rfl fun _ => .same hcap hbump frame.heapMax frame.init

theorem realloc_runs : Runs (.realloc rd rs1 rs2) s (execRealloc rd rs1 rs2 s) :=
  Does.runs <| .shaping rfl fun t h => by
    have allocates {u : State} (frame : HeapFrame s u) : Grows (.realloc rd rs1 rs2) s u :=
      .of_frame frame (.inr (.inr ⟨rd, rs1, rs2, rfl⟩))
    obtain ⟨_, hi, h⟩ := bind_eq_ok.1 h
    obtain ⟨_, -, h⟩ := bind_eq_ok.1 h
    split at h
    · obtain ⟨⟨p, u⟩, ha, h⟩ := bind_eq_ok.1 h
      cases h
      exact ((alloc_differ ha).trans (.addLive u p)).effectReg rfl rfl rfl fun hs =>
        { allocates (alloc_frame hs (require_eq_ok.1 hi) ha) with }
    · obtain ⟨_, -, h⟩ := bind_eq_ok.1 h
      obtain ⟨⟨size, _⟩, -, h⟩ := bind_eq_ok.1 h
      obtain ⟨_, -, h⟩ := bind_eq_ok.1 h
      split at h
      · obtain ⟨u, hshrink, h⟩ := bind_eq_ok.1 h
        cases h
        have frame := shrinkChunk_frame hshrink
        exact (DifferInHeap.of_frame frame).effectReg rfl rfl rfl fun _ => allocates frame
      · obtain ⟨⟨p, u⟩, hmove, h⟩ := bind_eq_ok.1 h
        cases h
        refine (moveChunk_differ hmove).effectReg rfl rfl rfl fun hs => ?_
        obtain ⟨s1, s2, ha, hf, rfl⟩ := moveChunk_ok hmove
        have allocated := alloc_frame hs (require_eq_ok.1 hi) ha
        have copied : HeapFrame s { s1 with mem := s1.mem.copyUp p (s.reg rs1) size } :=
          allocated.trans ⟨rfl, Nat.le_refl _, Nat.le_refl _⟩
        exact { allocates (copied.trans (freeChunk_frame hf)) with }

end

/-! ### Every command -/

/-- Every command has its effect and no other. -/
theorem exec_runs (i : Instr) (s : State) : Runs i s (exec i s) := by
  cases i with
  -- System and register commands
  | nop => exact (Does.nothing rfl).runs
  | ldi rd imm | ldis rd imm | mov rd rs1 => exact (Does.reg rfl rfl).runs
  | rdsr rd imm =>
    refine Does.runs ?_
    split
    · exact .reg rfl rfl
    · exact ⟨nofun, fun _ r h => by cases h; nofun⟩
  -- Heap commands
  | hinit rs1 => exact hinit_runs s rs1
  | hensure rs1 => exact hensure_runs s rs1
  | ld8 rd rs1 | ld16 rd rs1 | ld32 rd rs1 | ld64 rd rs1 => exact (loadInto_does s rd rs1 _ rfl rfl).runs
  | st8 rs1 rs2 | st16 rs1 rs2 | st32 rs1 rs2 | st64 rs1 rs2 => exact (Does.memWrite rfl rfl).runs
  | memcpy rs1 rs2 rs3 => exact memcpy_runs s rs1 rs2 rs3
  | memmove rs1 rs2 rs3 => exact memmove_runs s rs1 rs2 rs3
  | memset rs1 rs2 rs3 => exact memset_runs s rs1 rs2 rs3
  -- Allocator commands
  | malloc rd rs1 => exact malloc_runs s rd rs1
  | calloc rd rs1 rs2 => exact calloc_runs s rd rs1 rs2
  | free rs1 => exact free_runs s rs1
  | realloc rd rs1 rs2 => exact realloc_runs s rd rs1 rs2
  -- Engine commands: shifts
  | shl m w rd rs1 rs2 | bshl m w rd rs1 rs2 =>
    exact (shiftBy_does s rd rs1 rs2 w (fun _ n hv => Engine.shl_carry_lt m n hv) _ rfl rfl).runs
  | shr m w rd rs1 rs2 | bshr m w rd rs1 rs2 =>
    exact (shiftBy_does s rd rs1 rs2 w (fun v n _ => Engine.sar_carry_lt m w.bits v n) _ rfl rfl).runs
  | ushr m w rd rs1 rs2 | bushr m w rd rs1 rs2 =>
    exact (shiftBy_does s rd rs1 rs2 w (fun v n _ => Engine.ushr_carry_lt m w.bits v n) _ rfl rfl).runs
  -- Engine commands: the others
  | and m w rd rs1 rs2 | or m w rd rs1 rs2 | xor m w rd rs1 rs2 | not m w rd rs1 | popcnt m w rd rs1 => exact (Does.reg rfl rfl).runs
  | btest m w rd rs1 rs2 | bset m w rd rs1 rs2 | bclr m w rd rs1 rs2 | btgl m w rd rs1 rs2 =>
    exact (bitAt_does s rd rs1 rs2 w _ rfl rfl).runs
  | mask m w rd rs1 => exact Does.runs (.require nofun fun _ => .reg rfl rfl)
  | sext m w rd rs1 rs2 | zext m w rd rs1 rs2 => exact (extendFrom_does s rd rs1 rs2 w _ rfl rfl).runs
  | bdec m w rs1 rs2 => exact (Does.memWrite rfl rfl).runs
  | bcomp m w rd rs1 => exact Does.runs (.memRead fun _ => .reg rfl rfl)
  -- Limb commands
  | addh m rd rs1 rs2 rs3 => exact addh_runs s rd rs1 rs2 rs3 m
  | subh m rd rs1 rs2 rs3 => exact subh_runs s rd rs1 rs2 rs3 m
  | shlh m rs1 rs2 rs3 => exact shlh_runs s rs1 rs2 rs3 m
  | shrh m rs1 rs2 rs3 => exact shrh_runs s rs1 rs2 rs3 m
  | cmph rd rs1 rs2 | scmp rd rs1 rs2 => exact Does.runs (.require nofun fun _ => .memRead fun _ => .memRead fun _ => .reg rfl rfl)
  | zeroh rs1 | wru64h rs1 rs2 | wrs64h rs1 rs2 => exact Does.runs (.require nofun fun _ => .memWrite rfl rfl)
  | hexh rs1 rs2 => exact Does.runs (.require nofun fun _ => .memRead fun _ => .memWrite rfl rfl)
  -- 128-bit typed commands
  | uadd m rs1 rs2 rs3 | usub m rs1 rs2 rs3 | sadd m rs1 rs2 rs3 | ssub m rs1 rs2 rs3 =>
    exact Does.runs (.require nofun fun _ => .memRead fun _ => .memRead fun _ => .require nofun fun _ => .memWrite rfl rfl)
  | ushl m rs1 rs2 rs3 | sshl m rs1 rs2 rs3 =>
    exact Does.runs (.require nofun fun _ => .bind (.shiftCount _ _) fun _ _ => .memRead fun _ => .require nofun fun _ => .memWrite rfl rfl)
  | usrl m rs1 rs2 rs3 | ssar m rs1 rs2 rs3 =>
    exact Does.runs (.require nofun fun _ => .bind (.shiftCount _ _) fun _ _ => .memRead fun _ => .memWrite rfl rfl)
  | sneg m rs1 rs2 => exact Does.runs (.require nofun fun _ => .memRead fun _ => .require nofun fun _ => .memWrite rfl rfl)

/-- What a command of the host finds: nothing while a fault is latched; else its effect and CMDSEQ counted, or a fault latched. -/
theorem exec_next {i : Instr} {s t : State} (h : exec i s = .next t) :
    (s.fault = true ∧ t = s) ∨
    (s.fault = false ∧ ∃ u, Effect i s u ∧ t = { u with cmdseq := u.cmdseq + 1 }) ∨
    (s.fault = false ∧ ∃ r : Raise, (i.shapesHeap = false → r.kind ≠ .corruptionDetected) ∧
      t = s.latched (encode i) r.kind.number.toNat r.info) := by
  obtain ⟨body, e, does⟩ := exec_runs i s
  rcases command_next (e.symm.trans h) with halted | ⟨hF, u, hu, ht⟩ | ⟨hF, r, hr, ht⟩
  · exact .inl halted
  · exact .inr (.inl ⟨hF, u, does.answers u hu, ht⟩)
  · exact .inr (.inr ⟨hF, r, fun hi => does.raises hi r hr, ht⟩)

/-! ### Registers, flags and the bounds of the heap -/

/-- Settles O56: the effect of a command leaves the flags of all but the ten, and these tell of the carry; a latched fault leaves the
flags, and so does a latch that stops the command. -/
theorem onlyShiftsAndLimbsWriteFlags : Obligations.OnlyShiftsAndLimbsWriteFlags := by
  intro i s t h
  rcases exec_next h with ⟨hF, rfl⟩ | ⟨-, u, e, rfl⟩ | ⟨-, r, -, rfl⟩
  · exact ⟨fun _ => ⟨rfl, rfl, rfl⟩, fun _ ht => absurd (hF.symm.trans ht) nofun⟩
  · exact ⟨e.flags, fun hw _ => e.carry hw⟩
  · exact ⟨fun _ => ⟨rfl, rfl, rfl⟩, nofun⟩

/-- Settles O57: the effect of a command writes the register of its rd field, if it has one; a latched fault writes none. -/
theorem atMostOneRegisterWritten : Obligations.AtMostOneRegisterWritten := by
  intro i s t h
  rcases exec_next h with ⟨-, rfl⟩ | ⟨hF, u, e, rfl⟩ | ⟨-, r, -, rfl⟩
  · exact ⟨fun _ => rfl, fun _ _ _ _ => rfl, fun _ => rfl⟩
  · refine ⟨fun hd => Vector.ext fun k hk => e.regs ⟨k, hk⟩ (by rw [hd]; nofun), fun rd hd q hq => e.regs q fun hrd => ?_, fun ht => ?_⟩
    · exact hq (Option.some.inj (hrd.symm.trans hd))
    · exact absurd (ht.symm.trans (e.fault.trans hF)) nofun
  · exact ⟨fun _ => rfl, fun _ _ _ _ => rfl, fun _ => rfl⟩

/-- Settles O58: the effect of a command lets the heap grow only, and a fault changes nothing of it. -/
theorem heapOnlyGrows : Obligations.HeapOnlyGrows := by
  intro i s t hs h
  have grows : Grows i s t := by
    rcases exec_next h with ⟨-, rfl⟩ | ⟨-, u, e, rfl⟩ | ⟨-, r, -, rfl⟩
    · exact .same rfl rfl rfl rfl
    · exact { e.grows hs with }
    · exact .same rfl rfl rfl rfl
  exact ⟨grows.cap, grows.bump, grows.heapMax, grows.init, fun hne => ⟨grows.created hne, grows.moved hne⟩⟩

end Sys2Proof.Machine
end


section
/-! PROOFS. No command breaks the heap: where chunks and lists are as R43 says and the stored bytes lie in live payloads, every command
leaves such a heap and raises no CorruptionDetected (10_state.md R43, 42_allocator.md R164). -/

namespace Sys2Proof.Machine

/-! ### Pseudocodes that keep the heap -/

/-- The pseudocode answers with the heap as R43 says and no fault latched, and it never raises CorruptionDetected. -/
structure Sound (body : Except Raise State) : Prop where
  answers : ∀ t, body = .ok t → HeapTiled t ∧ t.fault = false
  raises : NoCorruption body

/-- The command leaves the heap as R43 says and latches no CorruptionDetected. -/
def StaysTiled (o : Host.Outcome State Fault Refusal) : Prop := ∀ t, o = .next t → HeapTiled t ∧ (t.fault = true → t.code ≠ 5)

theorem Sound.ok {t : State} (h : HeapTiled t) (hF : t.fault = false) : Sound (.ok t) := ⟨fun _ e => Except.ok.inj e ▸ ⟨h, hF⟩, .ok t⟩

theorem Sound.error {r : Raise} (h : r.kind ≠ .corruptionDetected) : Sound (.error r) := ⟨nofun, fun _ e => Except.error.inj e ▸ h⟩

theorem Sound.require {c : Prop} [Decidable c] {kind : FaultKind} {info : Nat} {f : Unit → Except Raise State}
    (hk : kind ≠ .corruptionDetected) (h : c → Sound (f ())) : Sound (Machine.require c kind info >>= f) := by
  by_cases hc : c
  · rw [require_of hc]
    exact h hc
  · rw [require_of_not hc]
    exact .error hk

/-- Of the kinds of fault only CorruptionDetected has the number 5 (R310). -/
theorem FaultKind.number_ne_five {k : FaultKind} (h : k ≠ .corruptionDetected) : BitVec.ofNat 8 k.number.toNat ≠ 5 := by
  cases k
  case corruptionDetected => exact absurd rfl h
  all_goals decide

variable {s t : State} {cs : List Chunk} {ls : FreeList → List Nat} {i : Instr} {rd rs1 rs2 : Reg}

/-! ### Heaps as R43 says -/

theorem heapTiled_of (h : Holds s cs ls) (k : Settled cs ls) (l : LiveIs cs s.live) : HeapTiled s := ⟨cs, ls, represents_iff.2 ⟨h, k, l⟩⟩

/-- What has no part in the heap may change. -/
theorem HeapTiled.of_same (h : HeapTiled s) (hinit : t.init = s.init) (hcap : t.cap = s.cap) (hmax : t.heapMax = s.heapMax)
    (hmem : t.mem = s.mem) (hbin : t.bin = s.bin) (hlarge : t.large = s.large) (hbump : t.bump = s.bump) (hlive : t.live = s.live) :
    HeapTiled t := by
  obtain ⟨cs, ls, h⟩ := h
  exact heapTiled_of (h.holds.of_same hinit hcap hmax hmem hbin hlarge hbump) h.settled (hlive ▸ h.liveIs)

/-- A sound pseudocode keeps the heap, whether it completes or latches a fault. -/
theorem Sound.stays {body : Except Raise State} (hb : Sound body) (h : HeapTiled s) (hF : s.fault = false) :
    StaysTiled (command i s body) := by
  intro t ht
  rcases command_next ht with ⟨hT, -⟩ | ⟨-, u, hu, rfl⟩ | ⟨-, r, hr, rfl⟩
  · cases hF.symm.trans hT
  · obtain ⟨tiled, hu⟩ := hb.answers u hu
    exact ⟨tiled.of_same rfl rfl rfl rfl rfl rfl rfl rfl, fun hT => absurd (hu.symm.trans hT) nofun⟩
  · exact ⟨h.of_same rfl rfl rfl rfl rfl rfl rfl rfl, fun _ => r.kind.number_ne_five (hb.raises r hr)⟩

/-! ### The commands -/

/-- The commands that do not shape the heap change bytes at their address operand at most. -/
theorem Represents.effect_tiled (h : Represents s cs ls) (hi : i.shapesHeap = false) (e : Effect i s t)
    (hstore : ∀ r n, s.storesTo i = some (r, n) → 0 < n → s.InRange r n →
      ∀ a, s.addr r ≤ a → a < s.addr r + n.toNat → ∃ c ∈ cs, c.used = true ∧ c.hasPayloadAt a) : HeapTiled t := by
  have written : Holds { s with mem := t.mem } cs ls := h.holds.write_payload fun a => (e.bytes hi a).imp_right
    fun ⟨r, n, hr, hin, hlo, hhi⟩ => hstore r n hr (by omega) hin a hlo hhi
  rw [e.heap hi]
  exact heapTiled_of (written.of_same rfl rfl rfl rfl rfl rfl rfl) h.settled h.liveIs

theorem Represents.hensure_sound (h : Represents s cs ls) (hF : s.fault = false) (need : Nat) : Sound (ensureCapacity s need) := by
  by_cases hn : need ≤ s.heapMax
  · obtain ⟨m, hgrow, hm⟩ := h.holds.grow hn
    have hcap := h.bound
    rw [hgrow]
    refine .ok (heapTiled_of (h.holds.congr rfl rfl rfl (head_congr rfl rfl) ?_ (fun a ha => ?_) (fun _ _ a _ => hm a) fun a _ => hm a)
      h.settled h.liveIs) hF
    · show s.cap ≤ ite _ _ _ ∧ ite _ _ _ ≤ s.heapMax
      split <;> omega
    · have ha : ite _ _ _ ≤ a := ha
      rw [show Memory.read m a = _ from hm a, h.beyond]
      split at ha <;> omega
  · have := h.bound
    rw [ensureCapacity_eq, if_neg (by omega), if_neg hn]
    exact .error nofun

/-- What follows an allocation that answered. -/
theorem Represents.alloc_sound {n : Nat} {f : Nat × State → Except Raise State} (h : Represents s cs ls)
    (hf : ∀ t cs' ls' p, Holds.Allocated s t cs cs' ls' p n → Sound (f (p.addr, t))) : Sound (alloc s n >>= f) := by
  by_cases hn : (searchFit cs ls (requestSize n)).isSome = true ∨ s.bump.toNat + 16 + requestSize n ≤ s.heapMax
  · obtain ⟨t, cs', ls', p, halloc, -, a⟩ := h.holds.alloc_answers h.settled hn
    rw [halloc]
    exact hf t cs' ls' p a
  · obtain ⟨hs, hroom⟩ := not_or.1 hn
    rw [h.holds.alloc_raises (by simpa using hs) (by omega)]
    exact .error nofun

/-- After an allocation, bytes of the new payload written, LIVE extended and the address put in a register. -/
theorem Holds.Allocated.sound {m : Memory} {cs' : List Chunk} {ls' : FreeList → List Nat} {p : Chunk} {n : Nat}
    (a : Holds.Allocated s t cs cs' ls' p n) (hF : s.fault = false) (hlive : LiveIs cs s.live) (hm : ∀ k, m.read k = t.mem.read k ∨ p.hasPayloadAt k) :
    Sound (.ok ((({ t with mem := m } : State).addLive p.addr).setReg rd p.addr)) := by
  have written : Holds { t with mem := m } cs' ls' := a.holds.write_payload fun k => (hm k).imp_right fun hk => ⟨p, a.mem, a.used, hk⟩
  refine .ok (heapTiled_of (written.of_same rfl rfl rfl rfl rfl rfl rfl) a.settled ?_) ((by rw [a.same] : t.fault = s.fault).trans hF)
  show LiveIs cs' (insertAddr p.addr t.live)
  rw [show t.live = s.live by rw [a.same]]
  exact a.live _ hlive

/-- An allocation of `n` bytes whose address goes into a register: MALLOC, and REALLOC of the null address. -/
theorem Represents.malloc_sound {n : Nat} (h : Represents s cs ls) (hF : s.fault = false) :
    Sound (do let (p, s) ← alloc s n; pure ((s.addLive p).setReg rd p)) :=
  h.alloc_sound fun t _ _ _ a => a.sound (m := t.mem) hF h.liveIs fun _ => .inl rfl

theorem le_requestSize (n : Nat) : n ≤ requestSize n := by
  unfold requestSize roundUp16
  omega

/-- An allocation of `n` bytes set to 0: CALLOC. -/
theorem Represents.calloc_sound {n : Nat} (h : Represents s cs ls) (hF : s.fault = false) :
    Sound (do let (p, s) ← alloc s n; pure ((({ s with mem := s.mem.clear p (p + n) } : State).addLive p).setReg rd p)) := by
  refine h.alloc_sound fun t _ _ p a => a.sound hF h.liveIs fun k => ?_
  have := le_requestSize n
  have := a.room
  rw [Memory.read_clear]
  split
  · exact .inr (by omega)
  · exact .inl rfl

theorem Represents.free_stays {c : Chunk} (h : Represents s cs ls) (hF : s.fault = false) (hc : c ∈ cs) (hu : c.used = true)
    (hreg : s.reg rs1 = c.addr) : StaysTiled (exec (.free rs1) s) := by
  obtain ⟨t, cs', ls', hfree, freed⟩ := h.holds.free_answers h.settled hc hu
  rw [h.holds.exec_free_ok hF hc hu hreg hfree]
  rintro _ ⟨⟩
  refine ⟨heapTiled_of (freed.holds.of_same rfl rfl rfl rfl rfl rfl rfl) freed.settled ?_, fun hT => ?_⟩
  · show LiveIs cs' (t.live.filter fun q => q ≠ c.addr)
    rw [show t.live = s.live by rw [freed.same]]
    exact freed.live _ h.liveIs
  · cases hF.symm.trans ((by rw [freed.same] : s.fault = t.fault).trans hT)

/-- REALLOC of a chunk with room for the request: the tail is freed, or all stays. -/
theorem Represents.shrink_sound {c : Chunk} {r : Nat} (h : Represents s cs ls) (hF : s.fault = false) (hc : c ∈ cs) (hu : c.used = true)
    (hr : 16 ≤ r ∧ r % 16 = 0) : Sound (do let s ← shrinkChunk s c.addr c.size r; pure (s.setReg rd c.addr)) := by
  by_cases hsurplus : 16 < c.size - r
  · obtain ⟨pre, l, f, post, rfl, -, hf, -, hpost⟩ := Holds.exists_neighbours hc
    obtain ⟨t, hrun, ht, settled, frame⟩ := h.holds.shrinkChunk_of h.settled hu hf hpost hr hsurplus
    rw [hrun]
    refine .ok (heapTiled_of (ht.of_same rfl rfl rfl rfl rfl rfl rfl) settled ?_) ((by rw [frame.same] : t.fault = s.fault).trans hF)
    show LiveIs _ t.live
    rw [frame.live]
    exact Holds.liveIs_shrunk h.liveIs hu hf rfl rfl rfl
  · unfold shrinkChunk
    rw [if_neg hsurplus]
    exact .ok (HeapTiled.of_same ⟨cs, ls, h⟩ rfl rfl rfl rfl rfl rfl rfl rfl) hF

/-- REALLOC of a chunk without room for the request. -/
theorem Represents.move_sound {c : Chunk} {n : Nat} (h : Represents s cs ls) (hF : s.fault = false) (hc : c ∈ cs) (hu : c.used = true)
    (hsize : c.size < requestSize n) : Sound (do let (p, s) ← moveChunk s c.addr c.size n; pure (s.setReg rd p)) := by
  by_cases hn : (searchFit cs ls (requestSize n)).isSome = true ∨ s.bump.toNat + 16 + requestSize n ≤ s.heapMax
  · obtain ⟨t, cs', ls', p, hrun, -, m⟩ := h.holds.moveChunk_of h.settled hc hu hsize hn
    rw [hrun]
    exact .ok (heapTiled_of (m.holds.of_same rfl rfl rfl rfl rfl rfl rfl) m.settled (m.liveIs h.liveIs))
      ((by rw [m.same] : t.fault = s.fault).trans hF)
  · obtain ⟨hs, hroom⟩ := not_or.1 hn
    unfold moveChunk
    rw [h.holds.alloc_raises (by simpa using hs) (by omega)]
    exact .error nofun

theorem Represents.realloc_stays {c : Chunk} (h : Represents s cs ls) (hF : s.fault = false) (hc : c ∈ cs) (hu : c.used = true)
    (hreg : s.reg rs1 = c.addr) (h0 : 0 ≤ s.regInt rs2) : StaysTiled (exec (.realloc rd rs1 rs2) s) := by
  rw [h.holds.exec_realloc_eq hc hu hreg h0]
  refine Sound.stays ?_ ⟨cs, ls, h⟩ hF
  split
  · exact h.shrink_sound hF hc hu (requestSize_range _)
  · exact h.move_sound hF hc hu (by omega)

/-- Every command that shapes the heap keeps it, where what it frees or resizes is null or live. -/
theorem Represents.shaping_stays (h : Represents s cs ls) (hF : s.fault = false) (hi : i.shapesHeap = true)
    (hfree : ∀ r, i = .free r → s.reg r = 0 ∨ s.reg r ∈ s.live)
    (hrealloc : ∀ rd r q, i = .realloc rd r q → s.reg r = 0 ∨ s.reg r ∈ s.live) : StaysTiled (exec i s) := by
  have tiled : HeapTiled s := ⟨cs, ls, h⟩
  cases i with
  | hinit rs1 => exact Sound.stays (.require nofun fun hi => absurd (h.init.symm.trans hi) nofun) tiled hF
  | hensure rs1 => exact Sound.stays (.require nofun fun _ => .require nofun fun _ => h.hensure_sound hF _) tiled hF
  | malloc rd rs1 => exact Sound.stays (.require nofun fun _ => .require nofun fun _ => h.malloc_sound hF) tiled hF
  | calloc rd rs1 rs2 =>
    exact Sound.stays (.require nofun fun _ => .require nofun fun _ => .require nofun fun _ => .require nofun fun _ => h.calloc_sound hF)
      tiled hF
  | free rs1 =>
    rcases hfree rs1 rfl with hnull | hlive
    · refine Sound.stays (.require nofun fun _ => ?_) tiled hF
      rw [if_pos hnull]
      exact .ok tiled hF
    · obtain ⟨c, hc, haddr, hu⟩ := (h.live _).1 hlive
      exact h.free_stays hF hc hu haddr.symm
  | realloc rd rs1 rs2 =>
    by_cases h0 : 0 ≤ s.regInt rs2
    · rcases hrealloc rd rs1 rs2 rfl with hnull | hlive
      · refine Sound.stays (.require nofun fun _ => .require nofun fun _ => ?_) tiled hF
        rw [if_pos hnull]
        exact h.malloc_sound hF
      · obtain ⟨c, hc, haddr, hu⟩ := (h.live _).1 hlive
        exact h.realloc_stays hF hc hu haddr.symm h0
    · exact Sound.stays (.require nofun fun _ => .require nofun fun hn => absurd hn h0) tiled hF
  | _ => cases hi

/-- HINIT makes a heap without chunks (R131). -/
theorem represents_empty (hmax : s.heapMax < 2 ^ 62) {cap : Nat} (h8 : 8 ≤ cap) (hcap : cap ≤ s.heapMax) :
    Represents { s with init := true, cap := cap, mem := [], bin := Vector.replicate 16 0, large := 0, bump := 8, live := [] } []
      fun _ => [] where
  init := rfl
  bound := ⟨h8, hcap, hmax⟩
  beyond _ _ := rfl
  tiled := rfl
  apart := .nil
  linked l := by
    cases l with
    | bin k => simp [Memory.Linked, State.head]
    | large => rfl
  nodup _ := .nil
  member := by simp
  live := by simp

theorem exec_hinit_ok (hF : s.fault = false) (hi : s.init = false) (h8 : 8 ≤ s.regInt rs1) (hcap : s.regInt rs1 ≤ s.heapMax) :
    exec (.hinit rs1) s = .next { s with
      init := true, cap := (s.regInt rs1).toNat, mem := [], bin := Vector.replicate 16 0, large := 0, bump := 8, live := []
      cmdseq := s.cmdseq + 1 } := by
  show execHinit rs1 s = _
  unfold execHinit
  rw [require_of hi, ok_bind, require_of h8, ok_bind, require_of hcap, ok_bind]
  exact command_ok hF

/-- Settles O20: the commands that shape the heap keep it by the rules of the allocator, the others because a byte in a live payload is no
part of a tag or of a link. -/
theorem commandsKeepHeapTiled : Obligations.CommandsKeepHeapTiled := by
  refine ⟨fun i s t cs ls h hF ht hstore hfree hrealloc => ?_, fun s t r hF hi hmax h8 hcap ht => ?_⟩
  · cases hshape : i.shapesHeap with
    | true => exact h.shaping_stays hF hshape hfree hrealloc t ht
    | false =>
      obtain ⟨body, e, does⟩ := exec_runs i s
      have sound : Sound body := ⟨fun u hu => ⟨h.effect_tiled hshape (does.answers u hu) hstore, (does.answers u hu).fault.trans hF⟩,
        does.raises hshape⟩
      exact sound.stays ⟨cs, ls, h⟩ hF t (e.symm.trans ht)
  · cases (exec_hinit_ok hF hi h8 hcap).symm.trans ht
    have empty := represents_empty hmax (cap := (s.regInt r).toNat) (by omega) (by omega)
    exact { empty with }

end Sys2Proof.Machine
end


section
/-! PROOFS. LIVE influences nothing: two runs of a command from states that differ in LIVE alone take the same tests, raise the same faults
and write the same values (10_state.md R45). -/

namespace Sys2Proof.Machine

/-- The state with another LIVE. -/
abbrev State.withLive (s : State) (l : List Nat) : State := { s with live := l }

/-- The second state is the first with another LIVE. -/
def Aside (s t : State) : Prop := ∃ l, t = s.withLive l

/-- The values are the same and the states beside them differ in LIVE alone. -/
def Aside₂ (x y : Nat × State) : Prop := x.1 = y.1 ∧ Aside x.2 y.2

/-- The values are the same and the states beside them differ in LIVE alone. -/
def Aside₃ (x y : Nat × Nat × State) : Prop := x.1 = y.1 ∧ Aside₂ x.2 y.2

/-! ### Two runs of a pseudocode -/

/-- The two runs raise the same fault, or answer what `R` relates. -/
inductive Agree {α : Type} (R : α → α → Prop) : Except Raise α → Except Raise α → Prop
  | ok {a b : α} (h : R a b) : Agree R (.ok a) (.ok b)
  | error (r : Raise) : Agree R (.error r) (.error r)

namespace Agree

variable {α β : Type} {R : α → α → Prop} {Q : β → β → Prop} {s : State} {l : List Nat}

theorem bind {x y : Except Raise α} {f g : α → Except Raise β} (h : Agree R x y) (hf : ∀ a b, R a b → Agree Q (f a) (g b)) :
    Agree Q (x >>= f) (y >>= g) := by
  cases h with
  | ok h => exact hf _ _ h
  | error r => exact .error r

/-- A step that reads and tests: both runs find the same. -/
theorem read {x : Except Raise α} {f g : α → Except Raise β} (hf : ∀ a, Agree Q (f a) (g a)) : Agree Q (x >>= f) (x >>= g) := by
  cases x with
  | ok a => exact hf a
  | error r => exact .error r

theorem ite {c : Prop} [Decidable c] {x x' y y' : Except Raise α} (h : Agree R x y) (h' : Agree R x' y') :
    Agree R (if c then x else x') (if c then y else y') := by
  split
  · exact h
  · exact h'

theorem state (s : State) (l : List Nat) : Agree Aside (.ok s) (.ok (s.withLive l)) := .ok ⟨l, rfl⟩

theorem pair (p : Nat) (s : State) (l : List Nat) : Agree Aside₂ (.ok (p, s)) (.ok (p, s.withLive l)) := .ok ⟨rfl, l, rfl⟩

theorem triple (p q : Nat) (s : State) (l : List Nat) : Agree Aside₃ (.ok (p, q, s)) (.ok (p, q, s.withLive l)) := .ok ⟨rfl, rfl, l, rfl⟩

theorem write {x y : Except Raise State} {f g : State → Except Raise β} (h : Agree Aside x y)
    (hf : ∀ t l, Agree Q (f t) (g (t.withLive l))) : Agree Q (x >>= f) (y >>= g) :=
  h.bind fun t _ ⟨l, e⟩ => e ▸ hf t l

theorem writePair {x y : Except Raise (Nat × State)} {f g : Nat × State → Except Raise β} (h : Agree Aside₂ x y)
    (hf : ∀ p t l, Agree Q (f (p, t)) (g (p, t.withLive l))) : Agree Q (x >>= f) (y >>= g) :=
  by
  refine h.bind fun a b ⟨hp, l, ht⟩ => ?_
  obtain ⟨p, t⟩ := a
  cases b
  cases hp
  cases ht
  exact hf p t l

theorem writeTriple {x y : Except Raise (Nat × Nat × State)} {f g : Nat × Nat × State → Except Raise β} (h : Agree Aside₃ x y)
    (hf : ∀ p q t l, Agree Q (f (p, q, t)) (g (p, q, t.withLive l))) : Agree Q (x >>= f) (y >>= g) :=
  by
  refine h.bind fun a b ⟨hp, hq, l, ht⟩ => ?_
  obtain ⟨p, q, t⟩ := a
  obtain ⟨_, _, _⟩ := b
  cases hp
  cases hq
  cases ht
  exact hf p q t l

end Agree

variable (s : State) (l : List Nat)

/-! ### The procedures -/

theorem memWrite_agree (a n v : Nat) : Agree Aside (memWrite s a n v) (memWrite (s.withLive l) a n v) :=
  .read fun _ => .read fun _ => .state _ l

theorem setHead_withLive (h : FreeList) (p : Nat) : (s.withLive l).setHead h p = (s.setHead h p).withLive l := by
  cases h <;> rfl

theorem head_withLive (h : FreeList) : (s.withLive l).head h = s.head h := head_congr rfl rfl h

theorem writeTags_agree (p size u : Nat) : Agree Aside (writeTags s p size u) (writeTags (s.withLive l) p size u) :=
  .write (memWrite_agree ..) fun t l => memWrite_agree t l ..

theorem findFitFrom_withLive (r steps prev p : Nat) : findFitFrom (s.withLive l) r steps prev p = findFitFrom s r steps prev p := by
  induction steps generalizing prev p with
  | zero => rfl
  | succ steps ih =>
    unfold findFitFrom
    simp only [ih]
    rfl

theorem findFit_withLive (h : FreeList) (r : Nat) : findFit (s.withLive l) h r = findFit s h r := by
  unfold findFit
  rw [findFitFrom_withLive s l, head_withLive s l]
  rfl

theorem findPrevFrom_withLive (t steps prev p : Nat) : findPrevFrom (s.withLive l) t steps prev p = findPrevFrom s t steps prev p := by
  induction steps generalizing prev p with
  | zero => rfl
  | succ steps ih =>
    unfold findPrevFrom
    simp only [ih]
    rfl

theorem take_agree (h : FreeList) (prev p : Nat) : Agree Aside (take s h prev p) (take (s.withLive l) h prev p) :=
  .read fun next => .ite (setHead_withLive s l h next ▸ .state _ l) (memWrite_agree ..)

theorem unlink_agree (h : FreeList) (p : Nat) : Agree Aside (unlink s h p) (unlink (s.withLive l) h p) := by
  unfold unlink
  rw [findPrevFrom_withLive s l, head_withLive s l]
  exact .read fun prev => take_agree s l h prev p

theorem insertChunk_agree (p size : Nat) : Agree Aside (insertChunk s p size) (insertChunk (s.withLive l) p size) := by
  unfold insertChunk
  rw [head_withLive s l]
  exact .write (memWrite_agree ..) fun t l => setHead_withLive t l (listFor size) p ▸ .state _ l

theorem place_agree (p size r : Nat) : Agree Aside (place s p size r) (place (s.withLive l) p size r) :=
  .ite (.write (writeTags_agree ..) fun t l => .write (writeTags_agree t l ..) fun t l => insertChunk_agree t l ..) (writeTags_agree ..)

theorem claim_agree (h : FreeList) (f : Fit) (r : Nat) : Agree Aside₂ (claim s h f r) (claim (s.withLive l) h f r) :=
  .write (take_agree ..) fun t l => .write (place_agree t l ..) fun _ l => .pair _ _ l

theorem ensureCapacity_agree (need : Nat) : Agree Aside (ensureCapacity s need) (ensureCapacity (s.withLive l) need) :=
  .ite (.read fun _ => .state _ l) (.state s l)

theorem bumpAlloc_agree (r : Nat) : Agree Aside₂ (bumpAlloc s r) (bumpAlloc (s.withLive l) r) :=
  .write (ensureCapacity_agree ..) fun t l => .write (writeTags_agree t l ..) fun _ l => .pair _ _ l

theorem allocLarge_agree (r : Nat) : Agree Aside₂ (allocLarge s r) (allocLarge (s.withLive l) r) := by
  unfold allocLarge
  rw [findFit_withLive s l]
  refine .read fun found => ?_
  cases found with
  | some f => exact claim_agree ..
  | none => exact bumpAlloc_agree ..

theorem alloc_agree (n : Nat) : Agree Aside₂ (alloc s n) (alloc (s.withLive l) n) := by
  unfold alloc
  simp only [findFit_withLive s l]
  refine .ite (.read fun found => ?_) (allocLarge_agree ..)
  cases found with
  | some f => exact claim_agree ..
  | none => exact allocLarge_agree ..

theorem mergePreceding_agree (p size : Nat) : Agree Aside₃ (mergePreceding s p size) (mergePreceding (s.withLive l) p size) :=
  .ite (.read fun _ => .ite (.read fun _ => .read fun _ => .read fun _ => .write (unlink_agree ..) fun _ l => .triple _ _ _ l) (.triple _ _ s l))
    (.triple _ _ s l)

theorem mergeFollowing_agree (p size : Nat) : Agree Aside₂ (mergeFollowing s p size) (mergeFollowing (s.withLive l) p size) :=
  .ite (.read fun _ => .ite (.write (unlink_agree ..) fun t l => .pair _ t l) (.pair _ s l)) (.pair _ s l)

theorem freeChunk_agree (p size : Nat) : Agree Aside (freeChunk s p size) (freeChunk (s.withLive l) p size) :=
  .writeTriple (mergePreceding_agree ..) fun _ _ t l => .writePair (mergeFollowing_agree t l ..) fun _ t l =>
    .write (writeTags_agree t l ..) fun t l => insertChunk_agree t l ..

theorem shrinkChunk_agree (a size r : Nat) : Agree Aside (shrinkChunk s a size r) (shrinkChunk (s.withLive l) a size r) :=
  .ite (.write (writeTags_agree ..) fun t l => .write (writeTags_agree t l ..) fun t l => freeChunk_agree t l ..) (.state s l)

theorem moveChunk_agree (a size n : Nat) : Agree Aside₂ (moveChunk s a size n) (moveChunk (s.withLive l) a size n) :=
  .writePair (alloc_agree ..) fun p t l => .write (freeChunk_agree { t with mem := t.mem.copyUp p a size } l a size) fun _ _ => .pair _ _ _

/-! ### The commands -/

/-- The two runs leave the same state but for LIVE. -/
def Blind (o o' : Host.Outcome State Fault Refusal) : Prop := ∃ t l', o = .next t ∧ o' = .next (t.withLive l')

variable {s l}

theorem Agree.command {i : Instr} {body body' : Except Raise State} (h : Agree Aside body body') :
    Blind (command i s body) (command i (s.withLive l) body') := by
  cases hF : s.fault with
  | true => exact ⟨s, l, command_halted hF, command_halted hF⟩
  | false =>
    cases h with
    | @ok t _ h =>
      obtain ⟨l', rfl⟩ := h
      exact ⟨_, l', command_ok hF, command_ok hF⟩
    | error r => exact ⟨_, l, command_error hF, command_error hF⟩

variable (s l)

theorem exec_blind (i : Instr) : Blind (exec i s) (exec i (s.withLive l)) := by
  cases i with
  -- System and register commands
  | nop => exact Agree.command (i := .nop) (.state s l)
  | ldi rd imm => exact Agree.command (i := .ldi rd imm) (.state (s.setReg ..) l)
  | ldis rd imm => exact Agree.command (i := .ldis rd imm) (.state (s.setReg ..) l)
  | mov rd rs1 => exact Agree.command (i := .mov rd rs1) (.state (s.setReg ..) l)
  | rdsr rd imm =>
    refine Agree.command ?_
    cases sysRegOf imm.toNat with
    | some r => cases r <;> exact .state (s.setReg ..) l
    | none => exact .error _
  -- Heap commands
  | hinit rs1 => exact Agree.command (.read fun _ => .read fun _ => .read fun _ => .state _ [])
  | hensure rs1 => exact Agree.command (.read fun _ => .read fun _ => ensureCapacity_agree s l _)
  | ld8 rd rs1 | ld16 rd rs1 | ld32 rd rs1 | ld64 rd rs1 => exact Agree.command (.read fun _ => .state (s.setReg ..) l)
  | st8 rs1 rs2 | st16 rs1 rs2 | st32 rs1 rs2 | st64 rs1 rs2 => exact Agree.command (memWrite_agree s l ..)
  | memcpy rs1 rs2 rs3 =>
    exact Agree.command (.read fun _ => .read fun _ => .ite (.state s l) (.read fun _ => .read fun _ => .read fun _ => .state _ l))
  | memmove rs1 rs2 rs3 =>
    exact Agree.command (.read fun _ => .read fun _ => .ite (.state s l) (.read fun _ => .read fun _ => .state _ l))
  | memset rs1 rs2 rs3 => exact Agree.command (.read fun _ => .read fun _ => .ite (.state s l) (.read fun _ => .state _ l))
  -- Allocator commands
  | malloc rd rs1 =>
    exact Agree.command (.read fun _ => .read fun _ => .writePair (alloc_agree s l _) fun p t l => .state ((t.addLive p).setReg rd p) _)
  | calloc rd rs1 rs2 =>
    exact Agree.command (.read fun _ => .read fun _ => .read fun _ => .read fun _ => .writePair (alloc_agree s l _) fun p t l =>
      .state ((State.addLive { t with mem := t.mem.clear .. } p).setReg rd p) _)
  | free rs1 =>
    exact Agree.command (.read fun _ => .ite (.state s l) (.read fun _ => .read fun _ => .read fun _ => .write (freeChunk_agree s l ..)
      fun t l => .state (t.removeLive _) _))
  | realloc rd rs1 rs2 =>
    exact Agree.command (.read fun _ => .read fun _ => .ite
      (.writePair (alloc_agree s l _) fun p t l => .state ((t.addLive p).setReg rd p) _)
      (.read fun _ => .read fun _ => .read fun _ => .ite
        (.write (shrinkChunk_agree s l ..) fun t l => .state (t.setReg rd _) l)
        (.writePair (moveChunk_agree s l ..) fun p t l => .state (t.setReg rd p) l)))
  -- Engine commands: shifts
  | shl m w rd rs1 rs2 | bshl m w rd rs1 rs2 | shr m w rd rs1 rs2 | bshr m w rd rs1 rs2 | ushr m w rd rs1 rs2 | bushr m w rd rs1 rs2 =>
    exact Agree.command (.read fun _ => .state _ l)
  -- Engine commands: the others
  | and m w rd rs1 rs2 => exact Agree.command (i := .and m w rd rs1 rs2) (.state (s.setReg ..) l)
  | or m w rd rs1 rs2 => exact Agree.command (i := .or m w rd rs1 rs2) (.state (s.setReg ..) l)
  | xor m w rd rs1 rs2 => exact Agree.command (i := .xor m w rd rs1 rs2) (.state (s.setReg ..) l)
  | not m w rd rs1 => exact Agree.command (i := .not m w rd rs1) (.state (s.setReg ..) l)
  | popcnt m w rd rs1 => exact Agree.command (i := .popcnt m w rd rs1) (.state (s.setReg ..) l)
  | btest m w rd rs1 rs2 | bset m w rd rs1 rs2 | bclr m w rd rs1 rs2 | btgl m w rd rs1 rs2 | mask m w rd rs1 | sext m w rd rs1 rs2
  | zext m w rd rs1 rs2 | bcomp m w rd rs1 => exact Agree.command (.read fun _ => .state (s.setReg ..) l)
  | bdec m w rs1 rs2 => exact Agree.command (memWrite_agree s l ..)
  -- Limb commands
  | addh m rd rs1 rs2 rs3 | subh m rd rs1 rs2 rs3 =>
    exact Agree.command (.read fun _ => .read fun _ => .read fun _ => .write (memWrite_agree s l ..) fun t l => .state _ l)
  | shlh m rs1 rs2 rs3 | shrh m rs1 rs2 rs3 =>
    exact Agree.command (.read fun _ => .read fun _ => .read fun _ => .write (memWrite_agree s l ..) fun t l => .state _ l)
  | cmph rd rs1 rs2 | scmp rd rs1 rs2 =>
    exact Agree.command (.read fun _ => .read fun _ => .read fun _ => .state (s.setReg ..) l)
  | zeroh rs1 | wru64h rs1 rs2 | wrs64h rs1 rs2 => exact Agree.command (.read fun _ => memWrite_agree s l ..)
  | hexh rs1 rs2 => exact Agree.command (.read fun _ => .read fun _ => memWrite_agree s l ..)
  -- 128-bit typed commands
  | uadd m rs1 rs2 rs3 | usub m rs1 rs2 rs3 | sadd m rs1 rs2 rs3 | ssub m rs1 rs2 rs3 | ushl m rs1 rs2 rs3 | sshl m rs1 rs2 rs3 =>
    exact Agree.command (.read fun _ => .read fun _ => .read fun _ => .read fun _ => memWrite_agree s l ..)
  | usrl m rs1 rs2 rs3 | ssar m rs1 rs2 rs3 | sneg m rs1 rs2 =>
    exact Agree.command (.read fun _ => .read fun _ => .read fun _ => memWrite_agree s l ..)

/-- Settles O59: the two runs of every command agree, step by step of its pseudocode. -/
theorem liveInfluencesNothing : Obligations.LiveInfluencesNothing := fun i s l => exec_blind s l i

end Sys2Proof.Machine
end


section
/-! PROOFS. What a step does for a move of the host that is pending: a command word runs as the command it decodes to, and registers are
read and written (60_exceptions.md R330, 10_state.md R23 to R27). -/

namespace Sys2Proof.Machine

/-- A step makes the host's next move on the state with that move taken off the list. -/
theorem step_of_host {s : State} {m : HostMove} {rest : List HostMove} (h : s.host = m :: rest) :
    step s = hostMove m { s with host := rest } := by
  unfold step nextMove
  rw [h]

theorem issueWord_of_decode {w : CmdWord} {i : Instr} (h : decode w = .ok i) (s : State) : issueWord w s = exec i s := by
  unfold issueWord
  rw [h]

/-- Settles O53, by the host's move and then the decoder's answer. -/
theorem stepRunsTheDecodedCommand : Obligations.StepRunsTheDecodedCommand := by
  intro s w i rest hhost hdecode
  rw [step_of_host hhost]
  exact issueWord_of_decode hdecode _

/-- RDSR of the number of a system register reads it (R124). -/
theorem exec_rdsr_of_sysRegOf {s : State} {rd : Reg} {imm : BitVec 20} {q : SysReg} (hF : s.fault = false)
    (h : sysRegOf imm.toNat = some q) :
    exec (.rdsr rd imm) s = .next { s with x := s.x.set rd.val (s.sysReg q), cmdseq := s.cmdseq + 1 } := by
  have body : exec (.rdsr rd imm) s = command (.rdsr rd imm) s (.ok (s.setReg rd (s.sysReg q).toNat)) := by
    show execRdsr rd imm s = _
    unfold execRdsr
    rw [h]
  rw [body, command_ok hF]
  simp [State.setReg]

/-- Settles O47: the three moves one by one, R23's table row by row, and RDSR of the same number. -/
theorem hostReadsAndWritesRegisters : Obligations.HostReadsAndWritesRegisters := by
  intro s r v q rest
  refine ⟨fun h => step_of_host h, fun h => ?_, fun h => step_of_host h, fun u hu => ?_, ?_, fun hF rd imm h => exec_rdsr_of_sysRegOf hF h⟩
  · rw [step_of_host h, show BitVec.ofNat 64 (v % 2 ^ 64) = BitVec.ofNat 64 v from BitVec.eq_of_toNat_eq (by simp)]
    rfl
  · simp only [List.mem_cons, Prod.mk.injEq, List.not_mem_nil, or_false] at hu
    rcases hu with ⟨rfl, rfl⟩ | ⟨rfl, rfl⟩ | ⟨rfl, rfl⟩ | ⟨rfl, rfl⟩ | ⟨rfl, rfl⟩ | ⟨rfl, rfl⟩ | ⟨rfl, rfl⟩ | ⟨rfl, rfl⟩ | ⟨rfl, rfl⟩ |
        ⟨rfl, rfl⟩ | ⟨rfl, rfl⟩ <;>
      simp [State.sysReg, State.status]
  · rintro k rfl
    rfl

end Sys2Proof.Machine
end

section
/-! PROOFS. Decoding the encoding of a command gives the command back: the opcode selects the command's own row, the fields the row does not
use are 0, and every operand reads back from its field (30_encoding.md R90 to R96); and the same from the word's bytes (20_memory.md R66). -/

namespace Sys2Proof

/-! ### Words of format R (R91, R93, R94) -/

/-- What each field of a format R word holds when it is built from these operands. -/
def RField.holds (rd rs1 rs2 rs3 : Reg) (ws : Width) (m : Mode) : RField → Nat
  | .rd => rd.val
  | .rs1 => rs1.val
  | .rs2 => rs2.val
  | .rs3 => rs3.val
  | .wsel => ws.select
  | .mode => m.select
  | .zero => 0

/-- The word's opcode and fields are these. -/
structure IsWordR (w : CmdWord) (op : Nat) (rd rs1 rs2 rs3 : Reg) (ws : Width) (m : Mode) : Prop where
  opcode : opcodeOf w = op
  get (f : RField) : f.get w = f.holds rd rs1 rs2 rs3 ws m

theorem isWordR_wordR {op : Nat} (h : op < 256) (rd rs1 rs2 rs3 : Reg) (ws : Width) (m : Mode) :
    IsWordR (wordR op rd rs1 rs2 rs3 ws.select m.select) op rd rs1 rs2 rs3 ws m where
  opcode := opcodeOf_wordR op h rd rs1 rs2 rs3 _ _ ws.select_lt m.select_lt
  get f := by
    obtain ⟨hrd, hrs1, hrs2, hrs3, hwsel, hmode, hzero⟩ := fields_wordR op h rd rs1 rs2 rs3 _ _ ws.select_lt m.select_lt
    cases f <;> assumption

/-- To decode a format R word is to decode any word with its opcode and fields. -/
theorem decode_wordR {op : Nat} (h : op < 256) {rd rs1 rs2 rs3 : Reg} (ws : Width) (m : Mode) {i : Instr}
    (read : ∀ w, IsWordR w op rd rs1 rs2 rs3 ws m → decode w = .ok i) :
    decode (wordR op rd rs1 rs2 rs3 ws.select m.select) = .ok i := read _ (isWordR_wordR h ..)

namespace IsWordR

variable {w : CmdWord} {op : Nat} {rd rs1 rs2 rs3 : Reg} {ws : Width} {m : Mode} (hw : IsWordR w op rd rs1 rs2 rs3 ws m)
include hw

theorem regOf_eq (f : RField) : regOf w f = Fin.ofNat 16 (f.holds rd rs1 rs2 rs3 ws m) := by rw [regOf, hw.get]

theorem modeOf_eq : modeOf w = m := by
  rw [modeOf, hw.get]
  cases m <;> rfl

theorem widthOf_eq : widthOf w = ws := by
  simp only [widthOf, hw.get]
  cases ws <;> rfl

/-- A row answers its command when the fields it does not use hold 0. -/
theorem rowR_eq {unused : List RField} {i j : Instr} (hunused : ∀ f ∈ unused, f.holds rd rs1 rs2 rs3 ws m = 0) (hij : i = j) :
    rowR w unused i = .ok j := by
  rw [rowR, if_pos, hij]
  simpa [hw.get, RField.holds] using hunused

end IsWordR

/-! ### Words of format I (R92, R95) -/

section FormatI

variable {op : Nat} (h : op < 256) (rd : Reg) (imm : BitVec 20)
include h

theorem regOf_wordI : regOf (wordI op rd imm) .rd = rd := by
  have hget : RField.rd.get (wordI op rd imm) = rd.val := by
    simp only [RField.get, field, wordI_toNat op h]
    omega
  simp [regOf, hget]

theorem immOf_wordI : immOf (wordI op rd imm) = imm := by
  have hfield : field (wordI op rd imm) 12 20 = imm.toNat := by
    simp only [field, wordI_toNat op h]
    omega
  simp [immOf, hfield]

/-- Bits 31:28 of a format I word are the high four bits of its immediate. -/
theorem field_high_wordI : field (wordI op rd imm) 28 4 = imm.toNat / 65536 := by
  simp only [field, wordI_toNat op h]
  omega

end FormatI

/-! ### Decoding the encoding -/

/-- By the format of the command's row: a row of format R tests its unused fields and reads its operands, one of format I reads a
register and an immediate, and LDIS tests the immediate's high bits. -/
theorem decode_encode (i : Instr) (hi : i.wellFormed = true) : decode (encode i) = .ok i := by
  cases i with
  | ldi rd imm | rdsr rd imm => simp [decode, encode, opcodeOf_wordI, regOf_wordI, immOf_wordI]
  | ldis rd imm =>
    have hhigh : imm.toNat / 65536 = 0 := Nat.div_eq_of_lt (by simpa [Instr.wellFormed] using hi)
    simp [decode, encode, opcodeOf_wordI, regOf_wordI, immOf_wordI, field_high_wordI, hhigh]
  | nop | mov | hinit | hensure | ld8 | ld16 | ld32 | ld64 | st8 | st16 | st32 | st64 | memcpy | memmove | memset
  | malloc | calloc | free | realloc | cmph | zeroh | wru64h | hexh | wrs64h | scmp =>
    refine decode_wordR (by decide) .w8 .native fun w hw => ?_
    unfold decode
    rw [hw.opcode]
    exact hw.rowR_eq (by simp [RField.holds, Width.select, Mode.select]) (by simp [hw.regOf_eq, RField.holds])
  | addh m | subh m | shlh m | shrh m | uadd m | usub m | ushl m | usrl m | sneg m | sadd m | ssub m | sshl m | ssar m =>
    refine decode_wordR (by decide) .w8 m fun w hw => ?_
    unfold decode
    rw [hw.opcode]
    exact hw.rowR_eq (by simp [RField.holds, Width.select]) (by simp [hw.regOf_eq, hw.modeOf_eq, RField.holds])
  | shl m ws | shr m ws | ushr m ws | bshl m ws | bshr m ws | bushr m ws | and m ws | or m ws | xor m ws | not m ws
  | btest m ws | bset m ws | bclr m ws | btgl m ws | popcnt m ws | mask m ws | sext m ws | zext m ws | bdec m ws | bcomp m ws =>
    refine decode_wordR (by decide) ws m fun w hw => ?_
    unfold decode
    rw [hw.opcode]
    exact hw.rowR_eq (by simp [RField.holds]) (by simp [hw.regOf_eq, hw.modeOf_eq, hw.widthOf_eq, RField.holds])

/-- The byte decoder reads the four little-endian bytes of a word back as the word and leaves the rest of the stream (R66, R99). -/
theorem decodeBytes_of_decode {w : CmdWord} {i : Instr} (h : decode w = .ok i) (rest : List Byte) :
    decodeBytes (leBytes 4 w.toNat ++ rest) = .ok (i, rest) := by
  have hword : BitVec.ofNat 32 (leNat (leBytes 4 w.toNat)) = w := by
    rw [Machine.leNat_leBytes, Nat.mod_eq_of_lt (show w.toNat < 256 ^ 4 from w.isLt), BitVec.ofNat_toNat, BitVec.setWidth_eq]
  simp only [leBytes, List.cons_append, List.nil_append, decodeBytes] at hword ⊢
  rw [hword, h]

/-- Settles O50: the word decodes by the row its opcode selects, and its bytes are read back as the word. -/
theorem decodeOfEncode : Obligations.DecodeOfEncode := fun i rest hi =>
  ⟨decode_encode i hi, decodeBytes_of_decode (decode_encode i hi) rest⟩

end Sys2Proof
end

section
/-! PROOFS. A load inside the bytes a store wrote sees those bytes of the stored value, for all pairs of widths (20_memory.md R62 to R64). -/

namespace Sys2Proof.Machine

/-- Where a natural was written, `k` bytes from offset `off` up read back as those bytes of it: the memory is
as if they had just been written there again. -/
theorem Memory.Wrote.natAt_inside {m m' : Memory} {a n v off k : Nat} (h : m.Wrote m' a n v) (hk : off + k ≤ n) :
    m'.natAt (a + off) k = v / 256 ^ off % 256 ^ k := by
  have hpart : m'.Wrote m' (a + off) k (v / 256 ^ off) := fun b => by
    by_cases hb : a + off ≤ b ∧ b < a + off + k
    · rw [if_pos hb, h, if_pos (by omega), Nat.div_div_eq_div_mul, ← Nat.pow_add, show off + (b - (a + off)) = b - a by omega]
    · rw [if_neg hb]
  exact hpart.natAt_same

/-- A store in range writes the bytes at its address and nothing else. -/
theorem exec_store {st : Reg → Reg → Instr} {n : Nat}
    (hst : (st, n) ∈ [(Instr.st8, 1), (Instr.st16, 2), (Instr.st32, 4), (Instr.st64, 8)]) {s : State} {rs1 rs2 : Reg}
    (hF : s.fault = false) (hi : s.init = true) (hr : s.InRange rs1 n) :
    exec (st rs1 rs2) s =
      .next { s with mem := s.mem.store (s.addr rs1) (leBytes n (s.reg rs2)), cmdseq := s.cmdseq + 1 } := by
  have hbody : exec (st rs1 rs2) s = command (st rs1 rs2) s (memWrite s (s.reg rs1) n (s.reg rs2)) := by
    simp only [List.mem_cons, Prod.mk.injEq, List.not_mem_nil, or_false] at hst
    rcases hst with ⟨rfl, rfl⟩ | ⟨rfl, rfl⟩ | ⟨rfl, rfl⟩ | ⟨rfl, rfl⟩ <;> rfl
  rw [hbody, memWrite_eq, if_pos hi, sgn64_reg, if_pos hr, command_ok hF]
  rfl

/-- A load in range writes the natural in the bytes at its address to its register, zero-extended. -/
theorem exec_load {ld : Reg → Reg → Instr} {k : Nat}
    (hld : (ld, k) ∈ [(Instr.ld8, 1), (Instr.ld16, 2), (Instr.ld32, 4), (Instr.ld64, 8)]) {s : State} {rd r : Reg}
    (hF : s.fault = false) (hi : s.init = true) (hr : s.InRange r k) :
    exec (ld rd r) s =
      .next { s with x := s.x.set rd.val (BitVec.ofNat 64 (s.mem.natAt (s.addr r) k)), cmdseq := s.cmdseq + 1 } := by
  have hbody : exec (ld rd r) s = command (ld rd r) s (loadInto s rd r k) := by
    simp only [List.mem_cons, Prod.mk.injEq, List.not_mem_nil, or_false] at hld
    rcases hld with ⟨rfl, rfl⟩ | ⟨rfl, rfl⟩ | ⟨rfl, rfl⟩ | ⟨rfl, rfl⟩ <;> rfl
  rw [hbody, loadInto, memRead_eq, if_pos hi, sgn64_reg, if_pos hr, ok_bind, pure_eq_ok, command_ok hF]
  rfl

/-- Settles O10: the store's bytes are in the memory it leaves, and the load's range lies inside them. -/
theorem loadAfterStoreSeesItsBytes : Obligations.LoadAfterStoreSeesItsBytes := by
  intro st ld n k hst hld s rs1 rs2 hF hi hr
  refine ⟨_, exec_store hst hF hi hr, fun rd r off hoff hreg => ?_⟩
  generalize ht : ({ s with mem := _, cmdseq := _ } : State) = t at hreg ⊢
  obtain ⟨hpos, htop⟩ := hr
  have haddr : t.addr r = s.addr rs1 + off := by
    unfold State.addr
    omega
  have hval : t.mem.natAt (t.addr r) k = s.reg rs2 / 256 ^ off % 256 ^ k := by
    have hwrote : s.mem.Wrote t.mem (s.addr rs1) n (s.reg rs2) := ht ▸ s.mem.wrote_store _ n _
    rw [haddr, hwrote.natAt_inside hoff]
  have hcap : t.cap = s.cap := ht ▸ rfl
  rw [exec_load hld (ht ▸ hF) (ht ▸ hi) (by omega), hval]

end Sys2Proof.Machine
end

section
/-! PROOFS. The pseudo-instructions LI and ONEH, run as the commands they stand for (30_encoding.md R108): each LDIS of LI's expansion
shifts in the next 16 bits of the constant (40_system.md R122). -/

namespace Sys2Proof.Machine

/-! ### The commands of the expansions -/

/-- LDI leaves the sign-extended immediate (R121). -/
theorem exec_ldi {s : State} (hF : s.fault = false) (rd : Reg) (imm : BitVec 20) :
    exec (.ldi rd imm) s = .next { s with x := s.x.set rd.val (imm.signExtend 64), cmdseq := s.cmdseq + 1 } := by
  have body : exec (.ldi rd imm) s = command (.ldi rd imm) s (.ok (s.setReg rd (ldiValue imm))) := rfl
  rw [body, command_ok hF]
  simp [State.setReg, ldiValue]

/-- LDIS on a register that holds `v` (R122). -/
theorem exec_ldis {s : State} (hF : s.fault = false) (rd : Reg) (v n : Word) (imm : BitVec 20) :
    exec (.ldis rd imm) { s with x := s.x.set rd.val v, cmdseq := n } =
      .next { s with
        x := s.x.set rd.val (BitVec.ofNat 64 (v.toNat * 65536 % 2 ^ 64 + imm.toNat % 65536)), cmdseq := n + 1 } := by
  generalize ht : ({ s with x := s.x.set rd.val v, cmdseq := n } : State) = t
  have body : exec (.ldis rd imm) t = command (.ldis rd imm) t (.ok (t.setReg rd (t.reg rd * 65536 % 2 ^ 64 + ldisValue imm))) := rfl
  rw [body, command_ok (by subst ht; exact hF)]
  subst ht
  simp [State.setReg, State.reg, ldisValue]

/-- WRU64H in range stores its source as a 128-bit value (44_limb.md R261). -/
theorem exec_wru64h {s : State} {rs1 rs2 : Reg} (hF : s.fault = false) (hi : s.init = true) (hr : s.InRange rs1 16) :
    exec (.wru64h rs1 rs2) s =
      .next { s with mem := s.mem.store (s.addr rs1) (leBytes 16 (s.reg rs2)), cmdseq := s.cmdseq + 1 } := by
  have body : exec (.wru64h rs1 rs2) s =
      command (.wru64h rs1 rs2) s (require (s.init = true) .heapState (s.reg rs1) >>= fun _ => memWrite s (s.reg rs1) 16 (s.reg rs2)) := rfl
  rw [body, require_of hi, ok_bind, memWrite_eq, if_pos hi, sgn64_reg,
    if_pos (show 0 ≤ s.regInt rs1 ∧ s.regInt rs1 + (16 : Nat) ≤ s.cap from hr), command_ok hF]
  rfl

/-! ### LI -/

/-- Inside LI's short range the expansion is one LDI. -/
theorem Pseudo.expand_li_short {c : Word} (h : -524288 ≤ c.toInt ∧ c.toInt ≤ 524287) (rd : Reg) :
    (Pseudo.li rd c).expand = [.ldi rd (c.setWidth 20)] := if_pos h

/-- Outside it the expansion takes the constant in four groups of 16 bits, the highest first. -/
theorem Pseudo.expand_li_groups {c : Word} (h : ¬(-524288 ≤ c.toInt ∧ c.toInt ≤ 524287)) (rd : Reg) :
    (Pseudo.li rd c).expand =
      [.ldi rd (liGroup c 48), .ldis rd (liGroup c 32), .ldis rd (liGroup c 16), .ldis rd (liGroup c 0)] := if_neg h

/-- A constant in LDI's range is the sign extension of its low 20 bits. -/
theorem signExtend_low20 {c : Word} (h : -524288 ≤ c.toInt ∧ c.toInt ≤ 524287) : (c.setWidth 20).signExtend 64 = c := by
  apply BitVec.eq_of_toInt_eq
  rw [BitVec.toInt_signExtend_of_le (by decide), BitVec.toInt_setWidth]
  have hmod : c.toInt.bmod (2 ^ 20) = (c.toNat : Int).bmod (2 ^ 20) := by
    rw [BitVec.toInt_eq_toNat_bmod, Int.bmod_bmod_of_dvd (by decide)]
  rw [← hmod]
  exact Int.bmod_eq_of_le (by omega) (by omega)

/-- The top 16 bits of a constant, as LDI takes them, are not negative. -/
theorem signExtend_liGroup (c : Word) : (liGroup c 48).signExtend 64 = BitVec.ofNat 64 (c.toNat / 2 ^ 48) := by
  have hc := c.isLt
  have hmsb : (liGroup c 48).msb = false := by
    rw [BitVec.msb_eq_false_iff_two_mul_lt, liGroup, BitVec.toNat_ofNat]
    omega
  rw [BitVec.signExtend_eq_setWidth_of_msb_false hmsb]
  apply BitVec.eq_of_toNat_eq
  simp only [liGroup, BitVec.toNat_setWidth, BitVec.toNat_ofNat]
  omega

/-- LDIS with the group of 16 bits from bit `lo` up, on a register that holds the bits above the group, leaves the bits from `lo` up. -/
theorem exec_ldis_liGroup {s : State} (hF : s.fault = false) (rd : Reg) (c n : Word) (lo : Nat) :
    exec (.ldis rd (liGroup c lo)) { s with x := s.x.set rd.val (BitVec.ofNat 64 (c.toNat / 2 ^ (lo + 16))), cmdseq := n } =
      .next { s with x := s.x.set rd.val (BitVec.ofNat 64 (c.toNat / 2 ^ lo)), cmdseq := n + 1 } := by
  have hlt : c.toNat / 2 ^ lo < 2 ^ 64 := Nat.lt_of_le_of_lt (Nat.div_le_self ..) c.isLt
  have hval : (BitVec.ofNat 64 (c.toNat / 2 ^ (lo + 16))).toNat * 65536 % 2 ^ 64 + (liGroup c lo).toNat % 65536 = c.toNat / 2 ^ lo := by
    rw [Nat.pow_add, ← Nat.div_div_eq_div_mul, liGroup, BitVec.toNat_ofNat, BitVec.toNat_ofNat]
    generalize c.toNat / 2 ^ lo = q at hlt ⊢
    omega
  rw [exec_ldis hF, hval]

/-- The four commands of LI's expansion for any constant: the bits from 48 up, then one group of 16 after the other. -/
theorem exec_li_groups {s : State} (hF : s.fault = false) (rd : Reg) (c : Word) :
    ∃ t u v, exec (.ldi rd (liGroup c 48)) s = .next t ∧ exec (.ldis rd (liGroup c 32)) t = .next u ∧
      exec (.ldis rd (liGroup c 16)) u = .next v ∧
      exec (.ldis rd (liGroup c 0)) v = .next { s with x := s.x.set rd.val c, cmdseq := s.cmdseq + 4 } := by
  refine ⟨_, _, _, (exec_ldi hF ..).trans (by rw [signExtend_liGroup]), exec_ldis_liGroup hF .., exec_ldis_liGroup hF .., ?_⟩
  rw [exec_ldis_liGroup hF, Nat.pow_zero, Nat.div_one, BitVec.ofNat_toNat, BitVec.setWidth_eq]
  simp only [BitVec.add_assoc]
  rfl

/-! ### ONEH -/

/-- ONEH's second command, on a block whose scratch register holds 1. -/
theorem exec_wru64h_one {s : State} {ra rt : Reg} (hF : s.fault = false) (hne : ra ≠ rt) (hi : s.init = true) (hr : s.InRange ra 16) (n : Word) :
    exec (.wru64h ra rt) { s with x := s.x.set rt.val 1, cmdseq := n } =
      .next { s with x := s.x.set rt.val 1, mem := s.mem.store (s.addr ra) (leBytes 16 1), cmdseq := n + 1 } := by
  generalize ht : ({ s with x := s.x.set rt.val 1, cmdseq := n } : State) = t
  have hra : t.regInt ra = s.regInt ra := by
    have : t.x[ra] = s.x[ra] := by
      subst ht
      exact s.setReg_other rt ra 1 hne
    rw [State.regInt, this, State.regInt]
  have hrt : t.reg rt = 1 := by
    subst ht
    simp [State.reg]
  have hcap : t.cap = s.cap := by subst ht; rfl
  rw [exec_wru64h (by subst ht; exact hF) (by subst ht; exact hi) (by rw [State.InRange, hra, hcap]; exact hr), hrt, State.addr, hra]
  subst ht
  rfl

/-- Settles O60: LI by its two expansions, ONEH by its two commands. -/
theorem pseudoInstructionsExpand : Obligations.PseudoInstructionsExpand := by
  intro s hF
  refine ⟨fun rd c => ?_, fun ra rt hne hi hr => ⟨_, s.mem.wrote_store _ 16 1, ?_⟩⟩
  · by_cases hrange : -524288 ≤ c.toInt ∧ c.toInt ≤ 524287
    · simp only [Pseudo.expand_li_short hrange, List.foldl_cons, List.foldl_nil]
      rw [exec_ldi hF, signExtend_low20 hrange]
      rfl
    · obtain ⟨t, u, v, ht, hu, hv, hlast⟩ := exec_li_groups hF rd c
      simp only [Pseudo.expand_li_groups hrange, List.foldl_cons, List.foldl_nil, ht, hu, hv, hlast]
      rfl
  · simp only [Pseudo.expand, List.foldl_cons, List.foldl_nil]
    rw [exec_ldi hF]
    show exec (.wru64h ra rt) { s with x := s.x.set rt.val 1, cmdseq := s.cmdseq + 1 } = _
    rw [exec_wru64h_one hF hne hi hr, BitVec.add_assoc]
    rfl

end Sys2Proof.Machine
end

section
/-! PROOFS. The decoder row by row: the row of the opcode map the opcode selects, what the word's bits under the row's mask say of its
fields, and the command's word (30_encoding.md R90 to R97). From it, both directions of "a word is a command exactly when it matches a
row", and that a word which decodes is the word of its command. -/

namespace Sys2Proof

/-! ### A word from its fields (R91, R92) -/

theorem Mode.select_modeOf (w : CmdWord) : (modeOf w).select = RField.mode.get w := by
  have : RField.mode.get w < 2 := Nat.mod_lt _ (by decide)
  unfold modeOf
  split
  · simp_all [Mode.select]
  · simp only [Mode.select]
    omega

theorem Width.select_widthOf (w : CmdWord) : (widthOf w).select = RField.wsel.get w := by
  have : RField.wsel.get w < 4 := Nat.mod_lt _ (by decide)
  unfold widthOf
  split
  · simp_all [Width.select]
  split
  · simp_all [Width.select]
  split <;> simp only [Width.select] <;> omega

/-- A word whose bits 31:27 are 0 is the format R word of its fields. -/
theorem wordR_of_fields {w : CmdWord} (hzero : RField.zero.get w = 0) :
    wordR (opcodeOf w) (regOf w .rd) (regOf w .rs1) (regOf w .rs2) (regOf w .rs3) (RField.wsel.get w) (RField.mode.get w) = w := by
  have hw := w.isLt
  apply BitVec.eq_of_toNat_eq
  simp only [wordR, BitVec.toNat_ofNat, opcodeOf, regOf, RField.get, field, Fin.val_ofNat] at hzero ⊢
  omega

/-- Every word is the format I word of its fields. -/
theorem wordI_of_fields (w : CmdWord) : wordI (opcodeOf w) (regOf w .rd) (immOf w) = w := by
  have hw := w.isLt
  apply BitVec.eq_of_toNat_eq
  simp only [wordI, BitVec.toNat_ofNat, opcodeOf, regOf, immOf, RField.get, field, Fin.val_ofNat]
  omega

/-! ### Masks (R94, R96) -/

/-- A word under the mask of `width` bits from bit `lo` up is that field, where it stands. -/
theorem toNat_and_mask {w m : CmdWord} {lo width : Nat} (hm : m.toNat = (2 ^ width - 1) <<< lo) :
    (w &&& m).toNat = field w lo width <<< lo := by
  rw [BitVec.toNat_and, hm, field, ← Nat.shiftRight_eq_div_pow]
  refine Nat.eq_of_testBit_eq fun k => ?_
  by_cases hk : lo ≤ k
  · simp [hk, Bool.and_comm]
  · simp [hk]

/-- The opcode is what the word holds under the mask 0xFF (R90). -/
theorem and_opcodeMask (w : CmdWord) : w &&& 0xFF = BitVec.ofNat 32 (opcodeOf w) := by
  apply BitVec.eq_of_toNat_eq
  have hop : opcodeOf w < 2 ^ 8 := Nat.mod_lt _ (by decide)
  rw [toNat_and_mask (lo := 0) (width := 8) rfl, BitVec.toNat_ofNat, Nat.mod_eq_of_lt (a := opcodeOf w) (by omega)]
  rfl

/-- A mask that also covers a field above the opcode asks that the field be 0. -/
theorem and_or_eq_opcode_iff {w m rest : CmdWord} {lo width : Nat} (hm : m.toNat = (2 ^ width - 1) <<< lo) (hop : 0xFF &&& m = 0) :
    w &&& (m ||| rest) = w &&& 0xFF ↔ field w lo width = 0 ∧ w &&& rest = w &&& 0xFF := by
  have hzero : field w lo width = 0 ↔ w &&& m = 0 := by
    rw [← BitVec.toNat_inj, toNat_and_mask hm]
    simp
  rw [hzero, BitVec.and_or_distrib_left]
  constructor
  · intro h
    have hclear : w &&& m = 0 := by
      calc w &&& m = ((w &&& m) ||| (w &&& rest)) &&& m := by ext k; grind
        _ = 0 := by rw [h, BitVec.and_assoc, hop]; simp
    rw [hclear] at h
    exact ⟨hclear, by simpa using h⟩
  · rintro ⟨hclear, h⟩
    rw [hclear, h]
    simp

/-- The bits of a format R field (R91). -/
def RField.mask : RField → CmdWord
  | .rd => 0x00000F00
  | .rs1 => 0x0000F000
  | .rs2 => 0x000F0000
  | .rs3 => 0x00F00000
  | .wsel => 0x03000000
  | .mode => 0x04000000
  | .zero => 0xF8000000

/-- The mask of a row: the opcode's bits and those of the fields that must be 0 (R96). -/
def maskOf (zeros : List RField) : CmdWord := zeros.foldr (fun f m => f.mask ||| m) 0xFF

theorem maskOf_cons (f : RField) (zeros : List RField) : maskOf (f :: zeros) = f.mask ||| maskOf zeros := rfl

/-- A word matches under a row's mask when the fields the mask covers are 0 (R94). -/
theorem and_maskOf_iff (w : CmdWord) (zeros : List RField) : w &&& maskOf zeros = w &&& 0xFF ↔ ∀ f ∈ zeros, f.get w = 0 := by
  induction zeros with
  | nil => simp [maskOf]
  | cons f zeros ih =>
    rw [maskOf_cons, List.forall_mem_cons, ← ih]
    cases f <;> exact and_or_eq_opcode_iff (by decide) (by decide)

/-! ### What the decoder answers -/

/-- What the decoder answers for a word whose opcode has a row with this mask: under the mask the word matches the row and is the word
of a command, or it does not and is none. -/
structure AnswersRow (w mask : CmdWord) (answer : Except DecodeError Instr) : Prop where
  listed : (mask, w &&& 0xFF) ∈ opcodeMap
  command : w &&& mask = w &&& 0xFF → ∃ i, answer = .ok i ∧ encode i = w ∧ i.wellFormed = true
  noCommand : w &&& mask ≠ w &&& 0xFF → ∃ e, answer = .error e

/-- A row of format R whose command is encoded from the fields the row uses. -/
theorem answersRow_rowR {w : CmdWord} {op : Nat} {unused : List RField} {i : Instr} (hop : opcodeOf w = op)
    (hlisted : (maskOf (.zero :: unused), BitVec.ofNat 32 op) ∈ opcodeMap) (hi : i.wellFormed = true)
    (hword : (∀ f ∈ unused, f.get w = 0) → encode i =
      wordR op (regOf w .rd) (regOf w .rs1) (regOf w .rs2) (regOf w .rs3) (RField.wsel.get w) (RField.mode.get w)) :
    AnswersRow w (maskOf (.zero :: unused)) (rowR w unused i) := by
  subst hop
  have htest : (RField.zero :: unused).all (fun f => f.get w == 0) = true ↔ w &&& maskOf (.zero :: unused) = w &&& 0xFF := by
    rw [and_maskOf_iff]
    simp
  refine ⟨by rwa [and_opcodeMask], fun h => ⟨i, if_pos (htest.2 h), ?_, hi⟩, fun h => ⟨_, if_neg (mt htest.1 h)⟩⟩
  obtain ⟨hzero, hunused⟩ := List.forall_mem_cons.1 ((and_maskOf_iff ..).1 h)
  rw [hword hunused, wordR_of_fields hzero]

/-- A row of format I that uses its whole immediate. -/
theorem answersRow_ok {w : CmdWord} {op : Nat} {i : Instr} (hop : opcodeOf w = op)
    (hlisted : ((0xFF : CmdWord), BitVec.ofNat 32 op) ∈ opcodeMap) (hi : i.wellFormed = true)
    (hword : encode i = wordI op (regOf w .rd) (immOf w)) : AnswersRow w 0xFF (.ok i) := by
  subst hop
  exact ⟨by rwa [and_opcodeMask], fun _ => ⟨i, rfl, hword.trans (wordI_of_fields w), hi⟩, fun h => absurd rfl h⟩

/-- LDIS, whose immediate has its high four bits 0 (R95). -/
theorem answersRow_ldis {w : CmdWord} (hop : opcodeOf w = 0x03) :
    AnswersRow w 0xF00000FF
      (if field w 28 4 = 0 then .ok (.ldis (regOf w .rd) (immOf w)) else .error (.unusedFieldNotZero (opcodeOf w))) := by
  have htest : w &&& 0xF00000FF = w &&& 0xFF ↔ field w 28 4 = 0 := by
    simpa using and_or_eq_opcode_iff (w := w) (m := 0xF0000000) (rest := 0xFF) (lo := 28) (width := 4) rfl rfl
  refine ⟨by rw [and_opcodeMask, hop]; decide, fun h => ⟨_, if_pos (htest.1 h), ?_, ?_⟩, fun h => ⟨_, if_neg (mt htest.2 h)⟩⟩
  · rw [encode, ← hop]
    exact wordI_of_fields w
  · have hw := w.isLt
    have hhigh := htest.1 h
    simp only [Instr.wellFormed, immOf, field, BitVec.toNat_ofNat, decide_eq_true_eq] at hhigh ⊢
    omega

/-- The opcode of a word is among those of the map when a row's match is the word's opcode byte. -/
theorem opcodeOf_mem_of_row {w : CmdWord} {row : CmdWord × CmdWord} (hrow : row ∈ opcodeMap) (h : row.2 = w &&& 0xFF) :
    opcodeOf w ∈ opcodeMap.map fun row => row.2.toNat := by
  have hop : opcodeOf w < 2 ^ 8 := Nat.mod_lt _ (by decide)
  refine List.mem_map.2 ⟨row, hrow, ?_⟩
  rw [h, and_opcodeMask, BitVec.toNat_ofNat, Nat.mod_eq_of_lt (by omega)]

/-- The decoder answers by the row of the opcode, and no command for an opcode that has none (R90, R94, R97). -/
theorem decode_answers (w : CmdWord) :
    (∃ mask, AnswersRow w mask (decode w)) ∨ ((∀ row ∈ opcodeMap, row.2 ≠ w &&& 0xFF) ∧ ∃ e, decode w = .error e) := by
  unfold decode
  split
  case h_2 hop | h_5 hop => exact .inl ⟨_, answersRow_ok hop (by decide) rfl rfl⟩
  case h_3 hop => exact .inl ⟨_, answersRow_ldis hop⟩
  case h_62 =>
    refine .inr ⟨fun row hrow heq => ?_, _, rfl⟩
    refine absurd (opcodeOf_mem_of_row hrow heq) ?_
    simp only [opcodeMap, mapSystem, mapHeap, mapEngine, mapWide, List.cons_append, List.nil_append, List.map_cons, List.map_nil,
      List.mem_cons, List.not_mem_nil, or_false, not_or, BitVec.reduceToNat]
    and_intros <;> assumption
  all_goals
    next hop =>
      exact .inl ⟨_, answersRow_rowR hop (by decide) rfl
        (by simp +contextual [encode, regOf, Width.select_widthOf, Mode.select_modeOf])⟩

/-! ### Rows a word matches (R94) -/

/-- Every row's mask covers the opcode, and its match is the opcode. -/
theorem opcodeMap_covers_opcode : ∀ row ∈ opcodeMap, row.1 &&& 0xFF = 0xFF ∧ row.2 &&& 0xFF = row.2 := by
  have hall : (opcodeMap.all fun row => row.1 &&& 0xFF == 0xFF && row.2 &&& 0xFF == row.2) = true := by decide
  simpa using hall

/-- No two rows have one match. -/
theorem opcodeMap_matches_nodup : (opcodeMap.map Prod.snd).Nodup := by decide

/-- A word that matches a row has the row's match as its opcode byte. -/
theorem row_match_eq_opcode {w : CmdWord} {row : CmdWord × CmdWord} (hrow : row ∈ opcodeMap) (h : w &&& row.1 = row.2) :
    row.2 = w &&& 0xFF := by
  obtain ⟨hmask, hmatch⟩ := opcodeMap_covers_opcode row hrow
  rw [← hmatch, ← h, BitVec.and_assoc, hmask]

/-- A word matches at most one row. -/
theorem length_matching_rows_le_one (w : CmdWord) : (opcodeMap.filter fun row => w &&& row.1 = row.2).length ≤ 1 := by
  calc (opcodeMap.filter fun row => w &&& row.1 = row.2).length
      = opcodeMap.countP fun row => w &&& row.1 = row.2 := List.countP_eq_length_filter.symm
    _ ≤ opcodeMap.countP ((· == w &&& 0xFF) ∘ Prod.snd) :=
        List.countP_mono_left fun row hrow h => by simpa using row_match_eq_opcode hrow (by simpa using h)
    _ = (opcodeMap.map Prod.snd).count (w &&& 0xFF) := List.countP_map.symm
    _ ≤ 1 := List.nodup_iff_count_le_one.1 opcodeMap_matches_nodup _

/-- A word that matches a row is a command. -/
theorem decode_of_row {w : CmdWord} {row : CmdWord × CmdWord} (hrow : row ∈ opcodeMap) (h : w &&& row.1 = row.2) :
    ∃ i, decode w = .ok i := by
  have hop := row_match_eq_opcode hrow h
  rcases decode_answers w with ⟨mask, answers⟩ | ⟨hnone, -⟩
  · have hsame : row = (mask, w &&& 0xFF) :=
      List.inj_on_of_nodup_map opcodeMap_matches_nodup hrow answers.listed hop
    obtain ⟨i, hi, -⟩ := answers.command (by rw [hsame] at h; exact h)
    exact ⟨i, hi⟩
  · exact absurd hop (hnone row hrow)

/-- A word that matches no row is no command. -/
theorem decode_of_no_row {w : CmdWord} (h : ∀ row ∈ opcodeMap, w &&& row.1 ≠ row.2) : ∃ e, decode w = .error e := by
  rcases decode_answers w with ⟨mask, answers⟩ | ⟨-, hnone⟩
  · exact answers.noCommand (h _ answers.listed)
  · exact hnone

/-- Settles O51: the row that answers a command encodes it as the word. -/
theorem encodeOfDecode : Obligations.EncodeOfDecode := by
  intro w i hi
  rcases decode_answers w with ⟨mask, answers⟩ | ⟨-, e, he⟩
  · by_cases hmatch : w &&& mask = w &&& 0xFF
    · obtain ⟨j, hj, hencode, hwf⟩ := answers.command hmatch
      obtain rfl : j = i := Except.ok.inj (hj.symm.trans hi)
      exact ⟨hencode, hwf⟩
    · obtain ⟨e, he⟩ := answers.noCommand hmatch
      exact nomatch he.symm.trans hi
  · exact nomatch he.symm.trans hi

end Sys2Proof

namespace Sys2Proof.Machine

/-- A word that is no command latches IllegalCommand with the word (R97, 60_exceptions.md R318). -/
theorem issueWord_of_error {w : CmdWord} {e : DecodeError} {s : State} (hF : s.fault = false) (h : decode w = .error e) :
    issueWord w s = .next (s.latched w 8 w.toNat) := by
  unfold issueWord
  rw [h]
  simp [illegalWord, execute, hF, State.enterFault, State.latched, FaultKind.number]

/-- Settles O49: by the rows the word matches, none or one. -/
theorem wordsMatchingNoRowAreIllegal : Obligations.WordsMatchingNoRowAreIllegal := by
  intro s w rest hF hhost
  refine ⟨fun hnone => ?_, fun ⟨row, hrow, hmatch⟩ => ⟨?_, ?_⟩⟩
  · obtain ⟨e, he⟩ := decode_of_no_row hnone
    rw [step_of_host hhost]
    exact issueWord_of_error (by exact hF) he
  · have hmem : row ∈ opcodeMap.filter fun row => w &&& row.1 = row.2 := List.mem_filter.2 ⟨hrow, by simpa using hmatch⟩
    exact le_antisymm (length_matching_rows_le_one w) (List.length_pos_of_mem hmem)
  · obtain ⟨i, hi⟩ := decode_of_row hrow hmatch
    exact ⟨i, hi, stepRunsTheDecodedCommand s w i rest hhost hi⟩

end Sys2Proof.Machine
end

section
/-! PROOFS. The system and register commands: the word of each, the one register it writes, and RDSR's numbers, each of which names a
system register or none (40_system.md R120 to R124, 10_state.md R23). -/

namespace Sys2Proof.Machine

variable {s : State}

/-! ### The register commands (R120 to R123) -/

theorem exec_nop (hF : s.fault = false) : exec .nop s = .next { s with cmdseq := s.cmdseq + 1 } :=
  command_ok (i := .nop) hF

theorem exec_mov (hF : s.fault = false) (rd rs1 : Reg) :
    exec (.mov rd rs1) s = .next { s with x := s.x.set rd.val s.x[rs1], cmdseq := s.cmdseq + 1 } := by
  have body : exec (.mov rd rs1) s = command (.mov rd rs1) s (.ok (s.setReg rd (s.reg rs1))) := rfl
  rw [body, command_ok hF]
  simp [State.setReg, State.reg]

/-- LDIS with a 16-bit immediate adds the whole of it to what the register holds (R122). -/
theorem exec_ldis_self (hF : s.fault = false) (rd : Reg) {imm : BitVec 20} (h : imm.toNat < 2 ^ 16) :
    exec (.ldis rd imm) s =
      .next { s with
        x := s.x.set rd.val (BitVec.ofNat 64 (s.x[rd].toNat * 65536 % 2 ^ 64 + imm.toNat)), cmdseq := s.cmdseq + 1 } := by
  have hself : s.x.set rd.val s.x[rd] = s.x := Vector.set_getElem_self _
  have hrun := exec_ldis hF rd s.x[rd] s.cmdseq imm
  rwa [hself, Nat.mod_eq_of_lt (b := 65536) h] at hrun

/-- A word of LDIS whose immediate has a high bit set is no command (R122, 30_encoding.md R95). -/
theorem decode_wide_ldis (rd : Reg) {imm : BitVec 20} (h : 2 ^ 16 ≤ imm.toNat) (i : Instr) : decode (wordI 0x03 rd imm) ≠ .ok i := by
  have hop : opcodeOf (wordI 0x03 rd imm) = 0x03 := opcodeOf_wordI _ (by decide) ..
  have hhigh : field (wordI 0x03 rd imm) 28 4 ≠ 0 := by
    rw [field_high_wordI (by decide)]
    omega
  simp [decode, hop, hhigh]

/-- Settles O1, command by command: the word by its format, the state by the command's own rule. -/
theorem registerCommandResults : Obligations.RegisterCommandResults := by
  intro s rd rs1 imm hF
  have word (op : Nat) (hop : op < 256) : (wordI op rd imm).toNat = op + rd.val * 2 ^ 8 + imm.toNat * 2 ^ 12 := wordI_toNat op hop rd imm
  refine ⟨⟨rfl, exec_nop hF⟩, ⟨word 0x02 (by decide), exec_ldi hF rd imm⟩, fun h => ⟨word 0x03 (by decide), exec_ldis_self hF rd h⟩,
    fun h w hw i => ?_, ?_, exec_mov hF rd rs1⟩
  · have hword : w = wordI 0x03 rd imm := BitVec.eq_of_toNat_eq (hw.trans (word 0x03 (by decide)).symm)
    exact hword ▸ decode_wide_ldis rd h i
  · simpa [encode] using wordR_toNat 0x04 (by decide) rd rs1 0 0 0 0 (by decide) (by decide)

/-! ### RDSR (R124) -/

theorem sysRegOf_bin (k : Fin 16) : sysRegOf (16 + k.val) = some (.bin k) := by
  revert k
  decide

/-- The numbers between the two defined ranges and above them name no system register (10_state.md R23). -/
theorem sysRegOf_undefined {n : Nat} (h : 11 ≤ n ∧ n ≤ 15 ∨ 32 ≤ n) : sysRegOf n = none := by
  unfold sysRegOf
  split
  case h_12 => exact if_neg (by omega)
  all_goals omega

/-- RDSR of a number that names no system register latches IllegalCommand with its own word (R124). -/
theorem exec_rdsr_undefined (hF : s.fault = false) (rd : Reg) {imm : BitVec 20} (h : sysRegOf imm.toNat = none) :
    exec (.rdsr rd imm) s = .next (s.latched (encode (.rdsr rd imm)) 8 (encode (.rdsr rd imm)).toNat) := by
  have body : exec (.rdsr rd imm) s = command (.rdsr rd imm) s (.error ⟨.illegalCommand, (encode (.rdsr rd imm)).toNat⟩) := by
    show execRdsr rd imm s = _
    unfold execRdsr
    rw [h]
  rw [body, command_error hF]
  rfl

/-- RDSR of the number of a system register reads the number that register holds (R124). -/
theorem exec_rdsr_reads (hF : s.fault = false) (rd : Reg) {imm : BitVec 20} {n v : Nat} {q : SysReg} (himm : imm.toNat = n)
    (hq : sysRegOf n = some q) (hv : s.sysReg q = BitVec.ofNat 64 v) :
    exec (.rdsr rd imm) s = .next { s with x := s.x.set rd.val (BitVec.ofNat 64 v), cmdseq := s.cmdseq + 1 } := by
  rw [exec_rdsr_of_sysRegOf hF (himm ▸ hq), hv]

/-- With no fault latched STATUS is the INIT bit alone (R124). -/
theorem status_of_inv (h : Inv s) (hF : s.fault = false) : s.status = BitVec.ofNat 64 (if s.init then 2 else 0) := by
  obtain ⟨hcode, -, -⟩ := h.latchClear hF
  cases hi : s.init <;> simp [State.status, hF, hcode, hi]

/-- Settles O2: each number names its register of R23's table, a BIN, or none. -/
theorem rdsrReadsSystemRegisters : Obligations.RdsrReadsSystemRegisters := by
  intro s rd imm hF
  refine ⟨wordI_toNat 0x05 (by decide) rd imm, fun n v hrow himm => ?_, fun k himm => ?_, fun hinv himm => ?_, fun h => ?_⟩
  · simp only [List.mem_cons, Prod.mk.injEq, List.not_mem_nil, or_false] at hrow
    rcases hrow with ⟨rfl, rfl⟩ | ⟨rfl, rfl⟩ | ⟨rfl, rfl⟩ | ⟨rfl, rfl⟩ | ⟨rfl, rfl⟩ | ⟨rfl, rfl⟩ | ⟨rfl, rfl⟩ | ⟨rfl, rfl⟩ | ⟨rfl, rfl⟩ |
        ⟨rfl, rfl⟩ | ⟨rfl, rfl⟩ <;>
      exact exec_rdsr_reads hF rd himm rfl (by simp [State.sysReg, State.status])
  · exact exec_rdsr_reads hF rd himm (sysRegOf_bin k) (by simp [State.sysReg])
  · exact exec_rdsr_reads hF rd himm rfl (status_of_inv hinv hF)
  · exact exec_rdsr_undefined hF rd (sysRegOf_undefined h)

end Sys2Proof.Machine
end

section
/-! PROOFS. The heap commands: their words, their tests in the written order, and what each leaves of the heap's bytes and of its
capacity (41_heap.md R130 to R143). -/

namespace Sys2Proof

/-- The number of a format R word whose width and mode fields are 0 (30_encoding.md R91). -/
theorem wordR_toNat_of_plain {op : Nat} (h : op < 256) (rd rs1 rs2 rs3 : Reg) :
    (wordR op rd rs1 rs2 rs3).toNat = op + rd.val * 2 ^ 8 + rs1.val * 2 ^ 12 + rs2.val * 2 ^ 16 + rs3.val * 2 ^ 20 := by
  simpa using wordR_toNat op h rd rs1 rs2 rs3 0 0 (by decide) (by decide)

end Sys2Proof

namespace Sys2Proof.Machine

variable {i : Instr} {s : State}

/-! ### Creation and capacity (R130 to R132) -/

/-- Settles O3: the three tests of HINIT, then the state its pseudocode answers, whose memory lists no byte. -/
theorem hinitCreatesHeap : Obligations.HinitCreatesHeap := by
  intro s rs1 hF
  refine ⟨by simpa [encode] using wordR_toNat_of_plain (op := 0x10) (by decide) 0 rs1 0 0, ?_⟩
  refine Tests.require (kind := .heapState) hF rfl fun _ e => ?_
  refine Tests.require (kind := .invalidArgument) hF e fun _ e => ?_
  refine Tests.require (kind := .outOfMemory) hF e fun _ e => ?_
  exact ⟨[], fun _ => rfl, e.trans (command_ok hF)⟩

/-- Settles O4: the two tests of HENSURE, then the three cases of making room. -/
theorem hensureGrowsHeap : Obligations.HensureGrowsHeap := by
  intro s rs1 hF
  refine ⟨by simpa [encode] using wordR_toNat_of_plain (op := 0x11) (by decide) 0 rs1 0 0, ?_⟩
  refine Tests.require (kind := .heapState) hF rfl fun _ e => ?_
  refine Tests.require (kind := .invalidArgument) hF e fun _ (e : _ = command _ s (ensureCapacity s (s.addr rs1))) => ?_
  rw [ensureCapacity_eq] at e
  refine ⟨fun hroom => ?_, fun hcap hmax => ?_, fun hcap hmax => ⟨by omega, _, Memory.read_clear s.mem s.cap _, ?_⟩⟩
  · rw [e, if_pos hroom, command_ok hF]
  · rw [e, if_neg (by omega), if_neg (by omega), command_error hF]
    rfl
  · rw [e, if_neg (by omega), if_pos hmax, command_ok hF]

/-! ### Typed loads and stores (R133 to R140) -/

/-- A pseudocode that begins with an access to bytes tests for the heap and then the range. -/
theorem Tests.access {α : Type} {r : Reg} {n : Nat} {access : Except Raise α} {value : α} {rest : α → Except Raise State} {done : Prop}
    (hF : s.fault = false) (h : exec i s = command i s (access >>= rest))
    (haccess : access = if s.init = true then if s.InRange r n then .ok value else .error ⟨.addressOutOfRange, s.reg r⟩
      else .error ⟨.heapState, s.reg r⟩)
    (next : s.init = true → s.InRange r n → exec i s = command i s (rest value) → done) :
    Tests i s [(s.init = true, 7, s.reg r), (s.InRange r n, 6, s.reg r)] done := by
  rw [haccess] at h
  refine ⟨fun hi => ?_, fun hi => ⟨fun hr => ?_, fun hr => next hi hr ?_⟩⟩
  · rw [h, if_neg hi, error_bind, command_error hF]
    rfl
  · rw [h, if_pos hi, if_neg hr, error_bind, command_error hF]
    rfl
  · rw [h, if_pos hi, if_pos hr, ok_bind]

/-- The tests of a load of `n` bytes and the register it leaves. -/
theorem Tests.loadInto {rd rs1 : Reg} {n : Nat} (hF : s.fault = false) (h : exec i s = command i s (Machine.loadInto s rd rs1 n)) :
    Tests i s [(s.init = true, 7, s.reg rs1), (s.InRange rs1 n, 6, s.reg rs1)]
      (exec i s = .next { s with x := s.x.set rd.val (BitVec.ofNat 64 (s.mem.natAt (s.addr rs1) n)), cmdseq := s.cmdseq + 1 }) := by
  refine .access hF h ?_ fun _ _ e => e.trans (command_ok hF)
  rw [memRead_eq, sgn64_reg]
  rfl

/-- The tests of a store of `n` bytes and the memory it leaves. -/
theorem Tests.store {rs1 : Reg} {n v : Nat} (hF : s.fault = false) (h : exec i s = command i s (Machine.memWrite s (s.reg rs1) n v)) :
    Tests i s [(s.init = true, 7, s.reg rs1), (s.InRange rs1 n, 6, s.reg rs1)]
      (∃ m, s.mem.Wrote m (s.addr rs1) n v ∧ exec i s = .next { s with mem := m, cmdseq := s.cmdseq + 1 }) := by
  rw [← bind_pure (Machine.memWrite ..)] at h
  refine .access (value := { s with mem := s.mem.store (s.addr rs1) (leBytes n v) }) hF h ?_ fun _ _ e =>
    ⟨_, s.mem.wrote_store _ n v, e.trans (command_ok hF)⟩
  rw [memWrite_eq, sgn64_reg]
  rfl

/-- Settles O5: the word and the tests of each of the four loads. -/
theorem loadsReadLittleEndian : Obligations.LoadsReadLittleEndian := by
  intro mk op n hmk s rd rs1 hF
  have bound : s.mem.natAt (s.addr rs1) n < 2 ^ (8 * n) := Nat.pow_mul 2 8 n ▸ s.mem.natAt_lt _ n
  have word (hop : op < 256) := wordR_toNat_of_plain hop rd rs1 0 0
  simp only [List.mem_cons, Prod.mk.injEq, List.not_mem_nil, or_false] at hmk
  rcases hmk with ⟨rfl, rfl, rfl⟩ | ⟨rfl, rfl, rfl⟩ | ⟨rfl, rfl, rfl⟩ | ⟨rfl, rfl, rfl⟩ <;>
    exact ⟨by simpa [encode] using word (by decide), bound, .loadInto hF rfl⟩

/-- Settles O6: the word and the tests of each of the four stores. -/
theorem storesWriteLittleEndian : Obligations.StoresWriteLittleEndian := by
  intro mk op n hmk s rs1 rs2 hF
  have word (hop : op < 256) := wordR_toNat_of_plain hop 0 rs1 rs2 0
  simp only [List.mem_cons, Prod.mk.injEq, List.not_mem_nil, or_false] at hmk
  rcases hmk with ⟨rfl, rfl, rfl⟩ | ⟨rfl, rfl, rfl⟩ | ⟨rfl, rfl, rfl⟩ | ⟨rfl, rfl, rfl⟩ <;>
    exact ⟨by simpa [encode] using word (by decide), .store hF rfl⟩

/-! ### Bulk operations (R141 to R143) -/

/-- What the three bulk operations begin with: the test for the heap, the sign of the length in `r`, and nothing for a length of 0. -/
theorem Tests.bulk {d r : Reg} {body : Except Raise State} {done : Prop} (hF : s.fault = false)
    (h : exec i s = command i s (Machine.require (s.init = true) .heapState (s.reg d) >>= fun _ =>
      Machine.require (0 ≤ s.regInt r) .invalidArgument (s.reg r) >>= fun _ => if s.regInt r = 0 then pure s else body))
    (next : 0 ≤ s.regInt r → exec i s = command i s body → done) :
    Tests i s [(s.init = true, 7, s.reg d), (0 ≤ s.regInt r, 2, s.reg r)]
      ((s.regInt r = 0 → exec i s = .next { s with cmdseq := s.cmdseq + 1 }) ∧ (s.regInt r ≠ 0 → done)) := by
  refine Tests.require (kind := .heapState) hF h fun _ e => ?_
  refine Tests.require (kind := .invalidArgument) hF e fun hlen e => ⟨fun hz => ?_, fun hz => ?_⟩
  · rw [e, if_pos hz]
    exact command_ok hF
  · rw [if_neg hz] at e
    exact next hlen e

/-- A range given by signed addresses, where its ends are not negative, is one of addresses. -/
theorem State.InRange.mem_iff {r : Reg} {n : Int} (h : s.InRange r n) (hn : 0 ≤ n) (k : Nat) :
    s.regInt r ≤ k ∧ (k : Int) < s.regInt r + n ↔ s.addr r ≤ k ∧ k < s.addr r + n.toNat := by
  obtain ⟨hr, -⟩ := h
  unfold State.addr
  omega

/-- Settles O7: the copy between ranges that do not overlap moves the old bytes. -/
theorem memcpyCopiesDisjointRanges : Obligations.MemcpyCopiesDisjointRanges := by
  intro s rs1 rs2 rs3 hF
  refine ⟨by simpa [encode] using wordR_toNat_of_plain (op := 0x1A) (by decide) 0 rs1 rs2 rs3, Tests.bulk hF rfl fun hlen e => ?_⟩
  refine Tests.require (kind := .addressOutOfRange) hF e fun hd e => ?_
  refine Tests.require (kind := .addressOutOfRange) hF e fun ha e => ?_
  refine Tests.require (kind := .invalidArgument) hF e fun hapart e => ⟨_, fun k => ?_, e.trans (command_ok hF)⟩
  have apart : s.addr rs1 + (s.regInt rs3).toNat ≤ s.addr rs2 ∨ s.addr rs2 + (s.regInt rs3).toNat ≤ s.addr rs1 := by
    unfold State.addr
    omega
  simp only [State.InRange.mem_iff hd hlen]
  exact Memory.read_copyUp apart k

/-- A store of bytes loaded beforehand moves them as they were, whatever the overlap. -/
theorem Memory.read_store_load (m : Memory) (d a n k : Nat) :
    (m.store d (m.load a n)).read k = if d ≤ k ∧ k < d + n then m.read (a + (k - d)) else m.read k := by
  rw [Memory.read_store]
  simp [Memory.load]

/-- A fill leaves one byte in its range. -/
theorem Memory.read_store_replicate (m : Memory) (d n k : Nat) (b : Byte) :
    (m.store d (List.replicate n b)).read k = if d ≤ k ∧ k < d + n then b else m.read k := by
  rw [Memory.read_store]
  simp

/-- Settles O8: the source's bytes are read before the first one is written. -/
theorem memmoveCopiesOldBytes : Obligations.MemmoveCopiesOldBytes := by
  intro s rs1 rs2 rs3 hF
  refine ⟨by simpa [encode] using wordR_toNat_of_plain (op := 0x1B) (by decide) 0 rs1 rs2 rs3, Tests.bulk hF rfl fun hlen e => ?_⟩
  refine Tests.require (kind := .addressOutOfRange) hF e fun hd e => ?_
  refine Tests.require (kind := .addressOutOfRange) hF e fun ha e => ⟨_, fun k => ?_, e.trans (command_ok hF)⟩
  simp only [State.InRange.mem_iff hd hlen]
  exact s.mem.read_store_load _ _ _ k

/-- Settles O9: every byte stored is the low byte of the fill register. -/
theorem memsetFillsRange : Obligations.MemsetFillsRange := by
  intro s rs1 rs2 rs3 hF
  refine ⟨by simpa [encode] using wordR_toNat_of_plain (op := 0x1C) (by decide) 0 rs1 rs2 rs3, Tests.bulk hF rfl fun hlen e => ?_⟩
  refine Tests.require (kind := .addressOutOfRange) hF e fun hd e => ⟨_, fun k => ?_, e.trans (command_ok hF)⟩
  have low : BitVec.ofNat 8 (s.reg rs2 % 256) = BitVec.ofNat 8 (s.reg rs2) := by
    apply BitVec.eq_of_toNat_eq
    simp
  simp only [State.InRange.mem_iff hd hlen, low]
  exact s.mem.read_store_replicate _ _ k _

end Sys2Proof.Machine
end

section
/-! PROOFS. An allocation whose lists are empty makes its chunk at BUMP: the search finds nothing, the heap grows if it must, and the two
tags and CALLOC's zero bytes are all that is written (42_allocator.md R172 to R178). -/

namespace Sys2Proof.Machine

variable {i : Instr} {s : State}

/-! ### Clearing bytes that read 0, and no bytes -/

/-- Clearing bytes above all that are listed changes nothing. -/
theorem Memory.clear_of_below {m : Memory} {lo : Nat} (h : ∀ c ∈ m, c.1 < lo) (hi : Nat) : m.clear lo hi = m :=
  List.filter_eq_self.2 fun c hc => by simp [h c hc]

/-- Clearing no byte changes nothing. -/
theorem Memory.clear_empty (m : Memory) (a : Nat) : m.clear a a = m :=
  List.filter_eq_self.2 fun c _ => by simpa using Nat.lt_or_ge c.1 a

/-! ### The search in empty lists (R165, R174) -/

/-- The search of a list with a null head finds nothing. -/
theorem findFit_of_head_zero {l : FreeList} {r : Nat} (hb : HeapBounds s) (h : s.head l = 0) : findFit s l r = .ok none :=
  findFit_ends hb ⟨[], h, Nat.zero_le _⟩

/-- With the lists of the request empty the allocation goes on to BUMP. -/
theorem alloc_of_empty {n : Nat} (hb : HeapBounds s) (hbin : requestSize n ≤ 1024 → s.head (listFor (requestSize n)) = 0)
    (hlarge : s.head .large = 0) : alloc s n = bumpAlloc s (requestSize n) := by
  have large : allocLarge s (requestSize n) = bumpAlloc s (requestSize n) := by
    unfold allocLarge
    rw [findFit_of_head_zero hb hlarge, ok_bind]
  unfold alloc
  simp only
  split
  · rename_i hsmall
    rw [findFit_of_head_zero hb (hbin hsmall), ok_bind]
    exact large
  · exact large

/-- The head of the bin of a small request is null when that BIN register is. -/
theorem head_listFor_eq_zero {r : Nat} (hr : r ≤ 1024) (h : ∀ k : Fin 16, k.val = (r - 1) / 64 → s.bin[k] = 0) : s.head (listFor r) = 0 := by
  have hk : (Fin.ofNat 16 ((r - 1) / 64)).val = (r - 1) / 64 := Nat.mod_eq_of_lt (by omega)
  rw [listFor, if_pos hr, State.head, h _ hk]
  rfl

/-! ### The chunk at BUMP (R172) -/

/-- The capacity after room for `need` bytes was made (41_heap.md R130). -/
abbrev State.capFor (s : State) (need : Nat) : Nat := if s.cap < need then min s.heapMax (max need (2 * s.cap)) else s.cap

/-- Making room below HEAP_MAX_BYTES moves CAP alone: no byte is listed where the new ones come into being. -/
theorem ensureCapacity_of_inv (hs : Inv s) {need : Nat} (hn : need ≤ s.heapMax) :
    ensureCapacity s need = .ok { s with cap := s.capFor need } := by
  rw [ensureCapacity_eq, State.capFor]
  by_cases hcap : s.cap < need
  · rw [if_neg (by omega), if_pos hn, if_pos hcap, Memory.clear_of_below hs.memBelow]
  · rw [if_pos (by omega), if_neg hcap]

/-- The memory with both tags of an allocated chunk of `r` bytes whose header is at `h`. -/
def Memory.tagged (m : Memory) (h r : Nat) : Memory := (m.store h (leBytes 8 (tag r 1))).store (h + 8 + r) (leBytes 8 (tag r 1))

/-- The bytes after a chunk was tagged and the first `z` bytes of its payload set to 0. -/
theorem Memory.read_clear_tagged (m : Memory) {h r z : Nat} (hz : z ≤ r) (a : Nat) :
    ((m.tagged h r).clear (h + 8) (h + 8 + z)).read a =
      if h ≤ a ∧ a < h + 8 then BitVec.ofNat 8 ((2 * r + 1) / 256 ^ (a - h))
      else if h + 8 + r ≤ a ∧ a < h + 16 + r then BitVec.ofNat 8 ((2 * r + 1) / 256 ^ (a - (h + 8 + r)))
      else if h + 8 ≤ a ∧ a < h + 8 + z then 0
      else m.read a := by
  rw [Memory.read_clear, Memory.tagged, Memory.wrote_store, Memory.wrote_store, tag, show h + 8 + r + 8 = h + 16 + r by omega]
  by_cases hhead : h ≤ a ∧ a < h + 8
  · rw [if_neg (by omega), if_neg (by omega), if_pos hhead, if_pos hhead]
  · by_cases hfoot : h + 8 + r ≤ a ∧ a < h + 16 + r
    · rw [if_neg (by omega), if_pos hfoot, if_neg hhead, if_pos hfoot]
    · simp only [if_neg hhead, if_neg hfoot]

/-- Within HEAP_MAX_BYTES a chunk is made at BUMP. -/
theorem bumpAlloc_of_inv (hs : Inv s) (hi : s.init = true) {r : Nat} (hn : s.bump.toNat + 16 + r ≤ s.heapMax) :
    bumpAlloc s r = .ok (s.bump.toNat + 8, { s with
      mem := s.mem.tagged s.bump.toNat r, cap := s.capFor (s.bump.toNat + 16 + r), bump := BitVec.ofNat 64 (s.bump.toNat + 16 + r) }) := by
  have hmax := hs.heapMax
  have room : s.bump.toNat + 16 + r ≤ s.capFor (s.bump.toNat + 16 + r) := by
    unfold State.capFor
    split <;> omega
  unfold bumpAlloc State.bumpNat writeTags
  simp only
  rw [ensureCapacity_of_inv hs hn, ok_bind, Nat.add_sub_cancel, memWrite_of (by exact hi) (by omega) (by show _ ≤ s.capFor _; omega),
    ok_bind, memWrite_of (by exact hi) (by omega) (by show _ ≤ s.capFor _; omega)]
  rfl

/-- Beyond HEAP_MAX_BYTES no chunk is made. -/
theorem bumpAlloc_beyond (hcap : s.cap ≤ s.heapMax) {r : Nat} (hn : s.heapMax < s.bump.toNat + 16 + r) :
    bumpAlloc s r = .error ⟨.outOfMemory, s.bump.toNat + 16 + r⟩ := by
  unfold bumpAlloc State.bumpNat
  simp only
  rw [ensureCapacity_eq, if_neg (by omega), if_neg (by omega), error_bind]

/-! ### The commands that allocate -/

/-- `i` allocates `n` bytes for register `rd`, of which it sets the first `z` to 0: MALLOC, CALLOC with arguments in their range, and
REALLOC of the null address. -/
def Allocates (s : State) (rd : Reg) (i : Instr) (n z : Nat) : Prop :=
  (∃ rs1, i = .malloc rd rs1 ∧ s.regInt rs1 = n ∧ z = 0) ∨
    (∃ rs1 rs2, i = .calloc rd rs1 rs2 ∧ 0 ≤ s.regInt rs1 ∧ 0 ≤ s.regInt rs2 ∧
      s.regInt rs1 * s.regInt rs2 = n ∧ n ≤ 2 ^ 63 - 1 ∧ z = n) ∨
    (∃ rs1 rs2, i = .realloc rd rs1 rs2 ∧ s.reg rs1 = 0 ∧ s.regInt rs2 = n ∧ z = 0)

/-- What the allocating commands do with the answer of the allocation: zero bytes, LIVE and the register (R175, R176, R178). -/
def State.handOut (rd : Reg) (z : Nat) (x : Nat × State) : State :=
  (({ x.2 with mem := x.2.mem.clear x.1 (x.1 + z) } : State).addLive x.1).setReg rd x.1

/-- Setting no byte to 0 is doing nothing. -/
theorem State.handOut_zero (rd : Reg) (x : Nat × State) : State.handOut rd 0 x = (x.2.addLive x.1).setReg rd x.1 := by
  rw [State.handOut, Nat.add_zero, Memory.clear_empty]

/-- No more bytes are set to 0 than were asked for. -/
theorem Allocates.zeroed_le {rd : Reg} {n z : Nat} (h : Allocates s rd i n z) : z ≤ n := by
  rcases h with ⟨-, -, -, rfl⟩ | ⟨-, -, -, -, -, -, -, rfl⟩ | ⟨-, -, -, -, -, rfl⟩ <;> omega

/-- An allocating command whose tests hold is its allocation, handed out. -/
theorem Allocates.exec_eq {rd : Reg} {n z : Nat} (h : Allocates s rd i n z) (hi : s.init = true) :
    exec i s = command i s (alloc s n >>= fun x => .ok (State.handOut rd z x)) := by
  rcases h with ⟨rs1, rfl, hn, rfl⟩ | ⟨rs1, rs2, rfl, h1, h2, hn, hmax, rfl⟩ | ⟨rs1, rs2, rfl, hnull, hn, rfl⟩
  · show execMalloc rd rs1 s = _
    unfold execMalloc
    rw [require_of hi, ok_bind, require_of (by omega), ok_bind, hn, Int.toNat_natCast]
    simp only [State.handOut_zero]
    rfl
  · have product : (s.regInt rs1).toNat * (s.regInt rs2).toNat = z := by
      rw [← Int.toNat_mul h1 h2, hn, Int.toNat_natCast]
    show execCalloc rd rs1 rs2 s = _
    unfold execCalloc
    simp only [product]
    rw [require_of hi, ok_bind, require_of h1, ok_bind, require_of h2, ok_bind, require_of hmax, ok_bind]
    rfl
  · show execRealloc rd rs1 rs2 s = _
    unfold execRealloc
    simp only
    rw [require_of hi, ok_bind, require_of (by omega), ok_bind, if_pos hnull, hn, Int.toNat_natCast]
    simp only [State.handOut_zero]
    rfl

/-- Settles O13: with its lists empty the command is a bump allocation, which HEAP_MAX_BYTES stops or which is handed out. -/
theorem emptyListsBumpAllocate : Obligations.EmptyListsBumpAllocate := by
  intro s rd i n z hs hF hi (h : Allocates s rd i n z) r base need cap hbin hlarge
  have run := h.exec_eq hi
  rw [alloc_of_empty (hs.heapBounds hi) (fun hr => head_listFor_eq_zero hr (hbin hr)) (by rw [State.head, hlarge]; rfl)] at run
  refine ⟨fun hn => ?_, fun hn => ⟨_, _, Memory.read_clear_tagged s.mem ?_, fun q => mem_insertAddr .., ?_⟩⟩
  · obtain ⟨-, -, -, hcap⟩ := hs.heap hi
    rw [run, bumpAlloc_beyond (r := requestSize n) hcap hn, error_bind, command_error hF]
    rfl
  · exact Nat.le_trans h.zeroed_le (le_requestSize n)
  · rw [run, bumpAlloc_of_inv (r := requestSize n) hs hi hn, ok_bind, command_ok (by exact hF)]
    rfl

end Sys2Proof.Machine
end

section
/-! PROOFS. FREE and REALLOC of one chunk: the tests of the address and of the tags, said once for both; then FREE where no neighbour is
free, and REALLOC where the chunk has room (42_allocator.md R163, R164, R173, R177, R178). -/

namespace Sys2Proof.Machine

variable {i : Instr} {s t : State} {a size n r p : Nat}

/-! ### The chunk a command is given (R163, R164) -/

/-- What FREE and REALLOC do with the address of a chunk: CheckArg, ReadChunk, the test that the chunk is in use, then the command's own part
for the size read. -/
def withChunk (s : State) (a : Nat) (rest : Nat → Except Raise State) : Except Raise State := do
  checkArg s a
  let (size, u) ← readChunk s a
  require (u = 1) .corruptionDetected a
  rest size

/-- Where a valid chunk lies. -/
theorem State.HasChunk.bounds {u : Bool} (h : s.HasChunk ⟨a, size, u⟩) :
    16 ≤ a ∧ a % 16 = 0 ∧ 16 ≤ size ∧ size % 16 = 0 ∧ a + size + 8 ≤ s.bump.toNat := by
  obtain ⟨h16, hmod, hsize, hsmod, hend, -⟩ := h
  exact ⟨h16, hmod, hsize, hsmod, hend⟩

/-- A valid chunk in use passes the tests. -/
theorem withChunk_of (hb : HeapBounds s) (hc : s.HasChunk ⟨a, size, true⟩) (rest : Nat → Except Raise State) :
    withChunk s a rest = rest size := by
  have read : readChunk s a = .ok (size, 1) := readChunk_of hb hc
  have := hb.bump
  have := hb.cap
  obtain ⟨h16, hmod, hsize, -, hend⟩ := hc.bounds
  unfold withChunk checkArg State.bumpNat
  rw [sgn64_of_lt (by omega), require_of ⟨by omega, hmod, by omega⟩, ok_bind, read, ok_bind]
  exact congrArg (· >>= _) (require_of rfl _ _)

/-- A command that begins with the tests of a chunk tests the address and then, in a state that meets the invariant, the tags. -/
theorem Tests.withChunk {q : Reg} {rest : Nat → Except Raise State} {done : Prop} (hF : s.fault = false) (hi : s.init = true)
    (h : exec i s = command i s (Machine.withChunk s (s.reg q) rest))
    (next : Inv s → s.HasChunk ⟨s.reg q, s.mem.natAt (s.reg q - 8) 8 / 2, true⟩ →
      exec i s = command i s (rest (s.mem.natAt (s.reg q - 8) 8 / 2)) → done) :
    Tests i s [(16 ≤ s.regInt q ∧ s.reg q % 16 = 0 ∧ s.reg q + 24 ≤ s.bump.toNat, 2, s.reg q)]
      (Inv s → Tests i s
        [(16 ≤ s.mem.natAt (s.reg q - 8) 8 / 2 ∧ s.mem.natAt (s.reg q - 8) 8 / 2 % 16 = 0 ∧
            s.reg q + s.mem.natAt (s.reg q - 8) 8 / 2 + 8 ≤ s.bump.toNat, 5, s.reg q),
          (s.mem.natAt (s.reg q + s.mem.natAt (s.reg q - 8) 8 / 2) 8 = s.mem.natAt (s.reg q - 8) 8, 5, s.reg q),
          (s.mem.natAt (s.reg q - 8) 8 % 2 = 1, 5, s.reg q)]
        done) := by
  unfold Machine.withChunk checkArg at h
  rw [sgn64_reg] at h
  refine Tests.require (kind := .invalidArgument) hF h fun ⟨h16, hmod, _⟩ e hs => ?_
  have := s.regInt_nonneg q (by omega)
  exact Tests.readChunk (rest := fun x _ => rest x.1) hF (hs.heapBounds hi) ⟨by omega, hmod⟩ e (next hs)

/-- FREE of an address that is not null is the freeing of the chunk there (R177). -/
theorem exec_free_eq {rs1 : Reg} (hi : s.init = true) (ha : s.reg rs1 ≠ 0) :
    exec (.free rs1) s = command (.free rs1) s
      (withChunk s (s.reg rs1) fun size => freeChunk s (s.reg rs1) size >>= fun t => pure (t.removeLive (s.reg rs1))) := by
  show execFree rs1 s = _
  unfold execFree
  simp only
  rw [require_of hi, ok_bind, if_neg ha]
  rfl

/-- What REALLOC does with a chunk of `size` bytes when `n` are asked for: it stays, cut or not, or it moves (R178). -/
def resize (s : State) (rd : Reg) (a n size : Nat) : Except Raise State :=
  if requestSize n ≤ size then shrinkChunk s a size (requestSize n) >>= fun t => pure (t.setReg rd a)
  else moveChunk s a size n >>= fun x => pure (x.2.setReg rd x.1)

/-- REALLOC of an address that is not null resizes the chunk there (R178). -/
theorem exec_realloc_chunk {rd rs1 rs2 : Reg} (hi : s.init = true) (h0 : 0 ≤ s.regInt rs2) (ha : s.reg rs1 ≠ 0) :
    exec (.realloc rd rs1 rs2) s = command (.realloc rd rs1 rs2) s
      (withChunk s (s.reg rs1) (resize s rd (s.reg rs1) (s.regInt rs2).toNat)) := by
  show execRealloc rd rs1 rs2 s = _
  unfold execRealloc
  simp only
  rw [require_of hi, ok_bind, require_of h0, ok_bind, if_neg ha]
  rfl

/-! ### REALLOC in place (R178) -/

/-- A chunk with room and a surplus of at most 16 stays as it is. -/
theorem resize_in_place (rd : Reg) (hroom : requestSize n ≤ size) (hsurplus : size ≤ requestSize n + 16) :
    resize s rd a n size = .ok (s.setReg rd a) := by
  rw [resize, if_pos hroom, shrinkChunk, if_neg (by omega)]
  rfl

/-- Settles O15: the chunk passes the tests and stays as it is. -/
theorem reallocStaysInPlace : Obligations.ReallocStaysInPlace := by
  intro s rd rs1 rs2 size hs hF hi a r h16 hmod hsize hsmod hend hhead hfoot h0 hroom hsurplus
  have chunk : s.HasChunk ⟨s.reg rs1, size, true⟩ := ⟨h16, hmod, hsize, hsmod, hend, hhead, hfoot⟩
  rw [exec_realloc_chunk hi h0 (by omega), withChunk_of (hs.heapBounds hi) chunk, resize_in_place rd hroom hsurplus]
  exact command_ok hF

/-! ### FREE without free neighbours (R173, R177) -/

/-- The memory after a chunk was freed without merging: header, footer and link, written in this order. -/
def Memory.freed (m : Memory) (a size link : Nat) : Memory :=
  ((m.store (a - 8) (leBytes 8 (tag size 0))).store (a + size) (leBytes 8 (tag size 0))).store a (leBytes 8 link)

/-- The bytes after a chunk was freed without merging. -/
theorem Memory.read_freed (m : Memory) {a size : Nat} (link : Nat) (h8 : 8 ≤ a) (hsize : 8 ≤ size) (k : Nat) :
    (m.freed a size link).read k =
      if a - 8 ≤ k ∧ k < a then BitVec.ofNat 8 (2 * size / 256 ^ (k - (a - 8)))
      else if a + size ≤ k ∧ k < a + size + 8 then BitVec.ofNat 8 (2 * size / 256 ^ (k - (a + size)))
      else if a ≤ k ∧ k < a + 8 then BitVec.ofNat 8 (link / 256 ^ (k - a))
      else m.read k := by
  rw [Memory.freed, Memory.wrote_store, Memory.wrote_store, Memory.wrote_store, show a - 8 + 8 = a by omega]
  by_cases hhead : a - 8 ≤ k ∧ k < a
  · rw [if_neg (by omega), if_neg (by omega), if_pos hhead, if_pos hhead]
    rfl
  · by_cases hfoot : a + size ≤ k ∧ k < a + size + 8
    · rw [if_neg (by omega), if_pos hfoot, if_neg hhead, if_pos hfoot]
      rfl
    · simp only [if_neg hhead, if_neg hfoot]

/-- A preceding chunk that is absent or in use is left alone. -/
theorem mergePreceding_used (hb : HeapBounds s) (hend : a ≤ s.bump.toNat) (h : a = 16 ∨ s.mem.natAt (a - 16) 8 % 2 = 1) :
    mergePreceding s a size = .ok (a, size, s) := by
  have := hb.bump
  have := hb.cap
  unfold mergePreceding
  split
  · rw [memRead_of hb.init (by omega) (by omega), ok_bind, if_neg (by omega)]
    rfl
  · rfl

/-- A following chunk that is absent or in use is left alone. -/
theorem mergeFollowing_used {z : Nat} (hb : HeapBounds s) (h : s.bump.toNat ≤ a - 8 ∨ ∃ ns, s.HasChunk ⟨a, ns, true⟩) :
    mergeFollowing s a z = .ok (z, s) := by
  unfold mergeFollowing State.bumpNat
  split
  · obtain ⟨ns, hc⟩ := h.resolve_left (by omega)
    rw [show readChunk s a = _ from readChunk_of hb hc, ok_bind]
    rfl
  · rfl

/-- Freeing a chunk whose neighbours are absent or in use (R173). -/
theorem freeChunk_alone (hb : HeapBounds s) (hc : s.HasChunk ⟨a, size, true⟩) (hprev : a = 16 ∨ s.mem.natAt (a - 16) 8 % 2 = 1)
    (hnext : s.bump.toNat ≤ a + size + 8 ∨ ∃ ns, s.HasChunk ⟨a + size + 16, ns, true⟩) :
    freeChunk s a size =
      .ok ({ s with mem := s.mem.freed a size (s.head (listFor size)) }.setHead (listFor size) a) := by
  have := hb.bump
  have := hb.cap
  obtain ⟨h16, -, -, -, hend⟩ := hc.bounds
  unfold freeChunk
  rw [mergePreceding_used hb (by omega) hprev, ok_bind]
  simp only
  rw [mergeFollowing_used hb hnext, ok_bind]
  simp only
  unfold writeTags insertChunk
  rw [memWrite_of hb.init (by omega) (by omega), ok_bind, memWrite_of (by exact hb.init) (by omega) (by show _ ≤ s.cap; omega), ok_bind,
    memWrite_of (by exact hb.init) (by omega) (by show _ ≤ s.cap; omega), ok_bind]
  simp only [head_withMem]
  rfl

/-- Settles O14: the chunk passes the tests, its neighbours are left alone, and the freeing writes the two tags and the link. -/
theorem freeWithoutFreeNeighbours : Obligations.FreeWithoutFreeNeighbours := by
  intro s rs1 size hs hF hi a n h16 hmod hsize hsmod hend hhead hfoot hprev hnext
  have hb := hs.heapBounds hi
  have chunk : s.HasChunk ⟨a, size, true⟩ := ⟨h16, hmod, hsize, hsmod, hend, hhead, hfoot⟩
  have next : s.bump.toNat ≤ a + size + 8 ∨ ∃ ns, s.HasChunk ⟨n, ns, true⟩ :=
    hnext.imp Eq.ge fun ⟨ns, h⟩ => ⟨ns, show 16 ≤ n by omega, show n % 16 = 0 by omega, h⟩
  refine ⟨_, s.live.filter fun q => q ≠ a, Memory.read_freed s.mem (s.head (listFor size)) (by omega) (by omega), fun q => ?_, ?_⟩
  · simp
  · rw [exec_free_eq hi (show s.reg rs1 ≠ 0 by omega), withChunk_of hb chunk, freeChunk_alone hb chunk hprev next, ok_bind]
    cases listFor size <;> exact command_ok hF

end Sys2Proof.Machine
end

section
/-! PROOFS. Where MALLOC, FREE and REALLOC break on a corrupted heap: each command's tests in their written order, then the allocation, the
freeing, the cut and the move that raise CorruptionDetected (42_allocator.md R163 to R166, R173 to R178). -/

namespace Sys2Proof.Machine

variable {i : Instr} {s t : State} {rd rs1 : Reg} {a size n r p : Nat}

/-! ### The cut and the move (R178) -/

/-- Writing bytes moves neither BUMP nor CAP. -/
theorem HeapBounds.withMem (hb : HeapBounds s) (m : Memory) : HeapBounds { s with mem := m } := ⟨hb.init, hb.bump, hb.cap⟩

/-- Where freeing the tail breaks, both pairs of tags written, the cut raises CorruptionDetected. -/
theorem shrinkChunk_breaks {m1 m2 : Memory} (hb : HeapBounds s) (hc : s.HasChunk ⟨a, size, true⟩) (hr : r % 16 = 0) (hsurplus : 16 < size - r)
    (h1 : s.mem.WroteTags m1 ⟨a, r, true⟩) (h2 : m1.WroteTags m2 ⟨a + r + 16, size - r - 16, true⟩)
    (hf : ({ s with mem := m2 } : State).FreeBreaks (a + r + 16) (size - r - 16) p) :
    shrinkChunk s a size r = .error ⟨.corruptionDetected, p⟩ := by
  obtain ⟨h16, hmod, -, -, hend⟩ := hc.bounds
  obtain ⟨t1, front, ht1, hread1⟩ := writeTags_of (c := ⟨a, r, true⟩) hb (show 8 ≤ a by omega)
    (show a + r + 8 ≤ s.bump.toNat by omega) (fun _ => rfl) h1
  obtain ⟨m1', rfl⟩ : ∃ m, t1 = { s with mem := m } := ⟨_, ht1⟩
  obtain ⟨t2, tail, ht2, hread2⟩ := writeTags_of (c := ⟨a + r + 16, size - r - 16, true⟩) (hb.withMem m1') (show 8 ≤ a + r + 16 by omega)
    (show a + r + 16 + (size - r - 16) + 8 ≤ s.bump.toNat by omega) hread1 h2
  obtain ⟨m2', rfl⟩ : ∃ m, t2 = { s with mem := m } := ⟨_, ht2⟩
  have same : SameHeap { s with mem := m2 } { s with mem := m2' } := ⟨fun k => (hread2 k).symm, rfl, rfl, rfl⟩
  rw [shrinkChunk, if_pos hsurplus, show writeTags s a r 1 = _ from front, ok_bind, show writeTags _ (a + r + 16) (size - r - 16) 1 = _ from tail,
    ok_bind]
  exact freeChunk_breaks (hb.withMem m2') (by omega) (by omega) (show a + r + 16 + (size - r - 16) + 8 ≤ s.bump.toNat by omega)
    (same.freeBreaks hf)

/-- Where freeing the old chunk breaks, the allocation made and the payload copied, the move raises CorruptionDetected. -/
theorem moveChunk_breaks {q : Nat} (hs : Inv s) (hi : s.init = true) (hc : s.HasChunk ⟨a, size, true⟩) (h : alloc s n = .ok (q, t))
    (hf : ({ t with mem := t.mem.copyUp q a size } : State).FreeBreaks a size p) :
    moveChunk s a size n = .error ⟨.corruptionDetected, p⟩ := by
  obtain ⟨-, -, -, hmax⟩ := hs.heap hi
  obtain ⟨ht, frame, -⟩ := alloc_bounds (hs.heapBounds hi) hs.heapMax.2 hmax h
  obtain ⟨h16, hmod, -, -, hend⟩ := hc.bounds
  have breaks := freeChunk_breaks (ht.withMem (t.mem.copyUp q a size)) h16 hmod (Nat.le_trans hend frame.bump) hf
  rw [moveChunk, h, ok_bind]
  simp only
  rw [breaks, error_bind]

theorem resize_of_shrink_error {e : Raise} (rd : Reg) (hroom : requestSize n ≤ size) (h : shrinkChunk s a size (requestSize n) = .error e) :
    resize s rd a n size = .error e := by
  rw [resize, if_pos hroom, h, error_bind]

theorem resize_of_move_error {e : Raise} (rd : Reg) (hgrow : size < requestSize n) (h : moveChunk s a size n = .error e) :
    resize s rd a n size = .error e := by
  rw [resize, if_neg (by omega), h, error_bind]

/-! ### The commands that allocate (R175, R178) -/

/-- A fault taken over from another command is that fault raised. -/
theorem latched_again (u v : State) (w w' : CmdWord) (e : Raise) :
    u.latched w (v.latched w' e.kind.number.toNat e.info).code.toNat (v.latched w' e.kind.number.toNat e.info).faultInfo.toNat =
      u.latched w e.kind.number.toNat e.info := by
  simp only [State.latched, BitVec.ofNat_toNat, BitVec.setWidth_eq]

/-- MALLOC that ends without a fault answers what the allocation answers. -/
theorem alloc_of_exec_malloc {u : State} (hF : s.fault = false) (hi : s.init = true) (h0 : 0 ≤ s.regInt rs1)
    (h : exec (.malloc rd rs1) s = .next u) (hu : u.fault = false) :
    ∃ p t, alloc s (s.regInt rs1).toNat = .ok (p, t) ∧ u = { (t.addLive p).setReg rd p with cmdseq := t.cmdseq + 1 } := by
  cases hal : alloc s (s.regInt rs1).toNat with
  | ok x =>
    cases (exec_malloc_ok hF hi h0 hal).symm.trans h
    exact ⟨x.1, x.2, rfl, rfl⟩
  | error e =>
    cases (exec_malloc_error hF hi h0 hal).symm.trans h
    cases hu

/-- The address MALLOC left in its register, and the bytes and registers of the heap its allocation answered. -/
theorem sameHeap_handedOut (rd : Reg) (hq : p < 2 ^ 64) (c : Word) {u : State}
    (hu : u = { (t.addLive p).setReg rd p with cmdseq := c }) (a size : Nat) :
    SameHeap { u with mem := u.mem.copyUp u.x[rd].toNat a size } { t with mem := t.mem.copyUp p a size } := by
  have addr : u.x[rd].toNat = p := by
    rw [hu]
    show ((t.addLive p).setReg rd p).x[rd].toNat = p
    rw [State.setReg_same, BitVec.toNat_ofNat, Nat.mod_eq_of_lt hq]
  rw [addr, hu]
  exact ⟨fun _ => rfl, rfl, rfl, rfl⟩

/-- A command that hands out the allocation MALLOC makes does what MALLOC does, its fault included. -/
theorem exec_as_malloc (hF : s.fault = false) (hi : s.init = true) (h0 : 0 ≤ s.regInt rs1)
    (h : exec i s = command i s (alloc s (s.regInt rs1).toNat >>= fun x => .ok ((x.2.addLive x.1).setReg rd x.1))) :
    ∃ u, exec (.malloc rd rs1) s = .next u ∧ (u.fault = false → exec i s = .next u) ∧
      (u.fault = true → exec i s = .next (s.latched (encode i) u.code.toNat u.faultInfo.toNat)) := by
  cases hal : alloc s (s.regInt rs1).toNat with
  | ok x =>
    have hf : x.2.fault = false := (congrArg State.fault (alloc_differ (t := x.2) hal)).trans hF
    rw [hal, ok_bind, command_ok hF] at h
    exact ⟨_, exec_malloc_ok hF hi h0 hal, fun _ => h, fun hu => absurd (hf.symm.trans hu) nofun⟩
  | error e =>
    rw [hal, error_bind, command_error hF] at h
    exact ⟨_, exec_malloc_error hF hi h0 hal, fun hu => absurd hu nofun, fun _ => by rw [latched_again]; exact h⟩

/-! ### The commands' tests -/

/-- A command whose pseudocode raises CorruptionDetected latches it with the address. -/
theorem exec_corrupted {body : Except Raise State} (hF : s.fault = false) (e : exec i s = command i s body)
    (h : body = .error ⟨.corruptionDetected, p⟩) : exec i s = .next (s.latched (encode i) 5 p) := by
  rw [e, h]
  exact command_error hF

/-- MALLOC tests for the heap and the sign, then searches (R175). -/
theorem malloc_tests (rd rs1 : Reg) (hF : s.fault = false) :
    Tests (.malloc rd rs1) s [(s.init = true, 7, s.reg rs1), (0 ≤ s.regInt rs1, 2, s.reg rs1)]
      (Inv s → ∀ p, s.AllocBreaks (s.regInt rs1).toNat p →
        exec (.malloc rd rs1) s = .next (s.latched (encode (.malloc rd rs1)) 5 p)) :=
  .require (kind := .heapState) hF rfl fun hi e => .require (kind := .invalidArgument) hF e fun h0 _ hs _ hp =>
    exec_malloc_error hF hi h0 (alloc_breaks (hs.heapBounds hi) hp)

/-- Settles O11: each command's tests in their order, and for each place where the allocator breaks, the part that raises. -/
theorem allocatorChecksArguments : Obligations.AllocatorChecksArguments := by
  intro s rd rs1 rs2 hF a payload header size tags re n r
  refine ⟨by simpa [encode] using wordR_toNat_of_plain (op := 0x20) (by decide) rd rs1 0 0,
    by simpa [encode] using wordR_toNat_of_plain (op := 0x22) (by decide) 0 rs1 0 0,
    by simpa [re, encode] using wordR_toNat_of_plain (op := 0x23) (by decide) rd rs1 rs2 0, malloc_tests rd rs1 hF, ?free, ?realloc⟩
  case free =>
    refine .require (kind := .heapState) hF rfl fun hi e => ⟨fun ha => ?_, fun ha => ?_⟩
    · rw [e, if_pos ha]
      exact command_ok hF
    · refine .withChunk hF hi (exec_free_eq hi ha) fun hs hc e p hp => exec_corrupted hF e ?_
      obtain ⟨h16, hmod, -, -, hend⟩ := hc.bounds
      rw [freeChunk_breaks (hs.heapBounds hi) h16 hmod hend hp, error_bind]
  case realloc =>
    refine .require (kind := .heapState) hF rfl fun hi e => .require (kind := .invalidArgument) hF e fun h0 e => ⟨fun ha => ?_, fun ha => ?_⟩
    · refine .withChunk hF hi (exec_realloc_chunk hi h0 ha) fun hs hc e => ?_
      have hb := hs.heapBounds hi
      refine ⟨fun hroom hsurplus m1 m2 p h1 h2 hf => ?shrinks, fun hgrow => ⟨fun p hp => ?searches, fun u p hu huF hf => ?moves⟩⟩
      case shrinks =>
        exact exec_corrupted hF e (resize_of_shrink_error rd hroom (shrinkChunk_breaks hb hc (requestSize_mod n) hsurplus h1 h2 hf))
      case searches =>
        refine exec_corrupted hF e (resize_of_move_error rd hgrow ?_)
        rw [moveChunk, alloc_breaks hb hp, error_bind]
      case moves =>
        obtain ⟨q, t, hal, hu⟩ := alloc_of_exec_malloc hF hi h0 hu huF
        obtain ⟨-, -, -, hmax⟩ := hs.heap hi
        obtain ⟨-, -, hq⟩ := alloc_bounds hb hs.heapMax.2 hmax hal
        have same := sameHeap_handedOut rd (by omega) _ hu a size
        exact exec_corrupted hF e (resize_of_move_error rd hgrow (moveChunk_breaks hs hi hc hal (same.freeBreaks hf)))
    · rw [if_pos ha] at e
      exact exec_as_malloc hF hi h0 e

end Sys2Proof.Machine
end

section
/-! PROOFS. CALLOC is MALLOC of the exact product and a zero fill: the allocation looks at the heap and at its own registers only, so it is
the same from a state that holds the product in a register (42_allocator.md R174 to R176). -/

namespace Sys2Proof.Machine

/-! ### What the allocation looks at -/

/-- The state `o` with the heap and the allocator's registers of `s`. -/
def State.heapIn (s o : State) : State :=
  { o with init := s.init, cap := s.cap, mem := s.mem, bin := s.bin, large := s.large, bump := s.bump, heapMax := s.heapMax }

/-- The second state is `o` with the heap of the first. -/
abbrev InPlaceOf (o s t : State) : Prop := t = s.heapIn o

/-- The values are the same and the states beside them are alike in the heap. -/
abbrev InPlaceOf₂ (o : State) (x y : Nat × State) : Prop := y = (x.1, x.2.heapIn o)

variable {s o : State}

/-- A step that answers a state, run on the two states. -/
theorem Agree.after {β : Type} {Q : β → β → Prop} {x y : Except Raise State} {f g : State → Except Raise β} (h : Agree (InPlaceOf o) x y)
    (hf : ∀ t, Agree Q (f t) (g (t.heapIn o))) : Agree Q (x >>= f) (y >>= g) :=
  h.bind fun t _ e => e ▸ hf t

theorem setHead_heapIn (l : FreeList) (p : Nat) : (s.heapIn o).setHead l p = (s.setHead l p).heapIn o := by
  cases l <;> rfl

theorem head_heapIn (l : FreeList) : (s.heapIn o).head l = s.head l := head_congr rfl rfl l

theorem memWrite_heapIn (a n v : Nat) : Agree (InPlaceOf o) (memWrite s a n v) (memWrite (s.heapIn o) a n v) :=
  .read fun _ => .read fun _ => .ok rfl

theorem writeTags_heapIn (p size u : Nat) : Agree (InPlaceOf o) (writeTags s p size u) (writeTags (s.heapIn o) p size u) :=
  .after (memWrite_heapIn ..) fun _ => memWrite_heapIn ..

theorem findFitFrom_heapIn (r steps prev p : Nat) : findFitFrom (s.heapIn o) r steps prev p = findFitFrom s r steps prev p := by
  induction steps generalizing prev p with
  | zero => rfl
  | succ steps ih =>
    unfold findFitFrom
    simp only [ih]
    rfl

theorem findFit_heapIn (l : FreeList) (r : Nat) : findFit (s.heapIn o) l r = findFit s l r := by
  rw [findFit, head_heapIn]
  exact findFitFrom_heapIn ..

theorem take_heapIn (l : FreeList) (prev p : Nat) : Agree (InPlaceOf o) (take s l prev p) (take (s.heapIn o) l prev p) :=
  .read fun next => .ite (.ok (setHead_heapIn l next)) (memWrite_heapIn ..)

theorem insertChunk_heapIn (p size : Nat) : Agree (InPlaceOf o) (insertChunk s p size) (insertChunk (s.heapIn o) p size) := by
  unfold insertChunk
  rw [head_heapIn]
  exact .after (memWrite_heapIn ..) fun t => .ok (setHead_heapIn ..)

theorem place_heapIn (p size r : Nat) : Agree (InPlaceOf o) (place s p size r) (place (s.heapIn o) p size r) :=
  .ite (.after (writeTags_heapIn ..) fun _ => .after (writeTags_heapIn ..) fun _ => insertChunk_heapIn ..) (writeTags_heapIn ..)

theorem claim_heapIn (l : FreeList) (f : Fit) (r : Nat) : Agree (InPlaceOf₂ o) (claim s l f r) (claim (s.heapIn o) l f r) :=
  .after (take_heapIn ..) fun _ => .after (place_heapIn ..) fun _ => .ok rfl

theorem bumpAlloc_heapIn (r : Nat) : Agree (InPlaceOf₂ o) (bumpAlloc s r) (bumpAlloc (s.heapIn o) r) :=
  .after (.ite (.read fun _ => .ok rfl) (.ok rfl)) fun _ => .after (writeTags_heapIn ..) fun _ => .ok rfl

theorem allocLarge_heapIn (r : Nat) : Agree (InPlaceOf₂ o) (allocLarge s r) (allocLarge (s.heapIn o) r) := by
  unfold allocLarge
  rw [findFit_heapIn]
  refine .read fun found => ?_
  cases found with
  | some f => exact claim_heapIn ..
  | none => exact bumpAlloc_heapIn ..

/-- The allocation does the same wherever the heap is the same (R174). -/
theorem alloc_heapIn (n : Nat) : Agree (InPlaceOf₂ o) (alloc s n) (alloc (s.heapIn o) n) := by
  unfold alloc
  simp only [findFit_heapIn]
  refine .ite (.read fun found => ?_) (allocLarge_heapIn ..)
  cases found with
  | some f => exact claim_heapIn ..
  | none => exact allocLarge_heapIn ..

/-- An allocation that answers leaves everything but the heap: it is the same in place of the state it was made from. -/
theorem alloc_eq_heapIn {t : State} {n p : Nat} (h : alloc s n = .ok (p, t)) : t = t.heapIn s := by
  have same : Agree (InPlaceOf₂ s) (alloc s n) (alloc s n) := alloc_heapIn (o := s) n
  rw [h] at same
  cases same with
  | ok e => exact congrArg Prod.snd e

/-! ### The address an allocation answers -/

theorem State.head_lt (s : State) (l : FreeList) : s.head l < 2 ^ 64 := by
  cases l with
  | bin k => exact s.bin[k].isLt
  | large => exact s.large.isLt

/-- A search answers a member of its list, and a link is a word. -/
theorem findFitFrom_addr_lt {r steps prev p : Nat} {f : Fit} (hp : p < 2 ^ 64) (h : findFitFrom s r steps prev p = .ok (some f)) :
    f.addr < 2 ^ 64 := by
  induction steps generalizing prev p with
  | zero =>
    unfold findFitFrom at h
    split at h <;> cases h
  | succ steps ih =>
    unfold findFitFrom at h
    split at h
    · cases h
    · obtain ⟨⟨size, u⟩, -, h⟩ := bind_eq_ok.1 h
      obtain ⟨_, -, h⟩ := bind_eq_ok.1 h
      split at h
      · cases h
        exact hp
      · obtain ⟨next, hlink, h⟩ := bind_eq_ok.1 h
        obtain ⟨-, -, -, rfl⟩ := memRead_ok hlink
        exact ih (s.mem.natAt_lt _ 8) h

theorem findFit_addr_lt {l : FreeList} {r : Nat} {f : Fit} (h : findFit s l r = .ok (some f)) : f.addr < 2 ^ 64 :=
  findFitFrom_addr_lt (s.head_lt l) h

/-- In every state, an allocation that answers answers a word: a member of a list, or an address after a header that was written. -/
theorem alloc_addr_lt {t : State} {n p : Nat} (h : alloc s n = .ok (p, t)) : p < 2 ^ 64 := by
  rcases alloc_ok h with ⟨f, -, hf, hc⟩ | ⟨f, hf, hc⟩ | hb
  · obtain ⟨rfl, -⟩ := claim_ok hc
    exact findFit_addr_lt hf
  · obtain ⟨rfl, -⟩ := claim_ok hc
    exact findFit_addr_lt hf
  · obtain ⟨rfl, s1, s2, -, hw, -⟩ := bumpAlloc_ok hb
    obtain ⟨s3, hhead, -⟩ := writeTags_ok hw
    obtain ⟨-, h0, -⟩ := memWrite_ok hhead
    rw [Nat.add_sub_cancel] at h0
    have := (sgn64_nonneg s.bump.isLt h0).1
    unfold State.bumpNat
    omega

/-! ### The command -/

/-- A register written with a number below 2^63 holds it, signed too. -/
theorem State.regInt_setReg_same (s : State) (r : Reg) {n : Nat} (hn : n < 2 ^ 63) : (s.setReg r n).regInt r = n := by
  rw [State.regInt, State.setReg_same]
  exact sgn64_of_lt hn

/-- Settles O12: the tests, then the allocation of the product, made from `s` and from the state with the product in its register. -/
theorem callocIsMallocThenZeroFill : Obligations.CallocIsMallocThenZeroFill := by
  intro s rd rs1 rs2 hF i n
  refine ⟨by simpa [i, encode] using wordR_toNat_of_plain (op := 0x21) (by decide) rd rs1 rs2 0, ?_⟩
  refine .require (kind := .heapState) hF rfl fun hi e => .require (kind := .invalidArgument) hF e fun _ e => ?_
  refine .require (kind := .invalidArgument) hF e fun _ e => .require (kind := .invalidArgument) hF e fun hn e => ?_
  have request : (s.setReg rs1 n).regInt rs1 = n := s.regInt_setReg_same rs1 (by omega)
  have positive : 0 ≤ (s.setReg rs1 n).regInt rs1 := by omega
  have same : Agree (InPlaceOf₂ (s.setReg rs1 n)) (alloc s n) (alloc (s.setReg rs1 n) ((s.setReg rs1 n).regInt rs1).toNat) := by
    rw [request, Int.toNat_natCast]
    exact alloc_heapIn (o := s.setReg rs1 n) n
  generalize hcalloc : alloc s n = calloc at same e
  generalize hmalloc : alloc (s.setReg rs1 n) ((s.setReg rs1 n).regInt rs1).toNat = malloc at same
  cases same with
  | error r =>
    refine ⟨_, exec_malloc_error hF hi positive hmalloc, fun _ => ?_, nofun⟩
    rw [latched_again, e]
    exact command_error hF
  | @ok x _ h =>
    obtain ⟨p, t⟩ := x
    cases h
    have kept : t = t.heapIn s := alloc_eq_heapIn hcalloc
    have addr : (BitVec.ofNat 64 p).toNat = p := by
      rw [BitVec.toNat_ofNat, Nat.mod_eq_of_lt (alloc_addr_lt hcalloc)]
    have reg : (((t.heapIn (s.setReg rs1 n)).addLive p).setReg rd p).x[rd].toNat = p := by rw [State.setReg_same, addr]
    refine ⟨_, exec_malloc_ok hF hi positive hmalloc, fun hu => absurd (hF.symm.trans hu) nofun,
      fun _ => ⟨t.mem.clear p (p + n), fun a => ?_, ?_⟩⟩
    · simp only [reg]
      exact t.mem.read_clear p (p + n) a
    · rw [e, ok_bind, kept]
      simp only [State.setReg_same]
      exact command_ok hF

end Sys2Proof.Machine
end

section
/-! PROOFS. The two datapaths of the arithmetic engine give one result (43_engine.md R203): each operation of the engine in closed form,
for both modes, from the sum of a number's bits (R204). -/

namespace Sys2Proof.Machine

/-! ### Numbers as sums of their bits (R204) -/

theorem sumTo_eq_sum (n : Nat) (f : Nat → Nat) : sumTo n f = ∑ k ∈ Finset.range n, f k := by
  induction n with
  | zero => rfl
  | succ n ih => rw [sumTo, ih, Finset.sum_range_succ]

/-- The low `n` bits of a number, summed. -/
theorem sum_bits_eq_mod (v n : Nat) : ∑ k ∈ Finset.range n, v / 2 ^ k % 2 * 2 ^ k = v % 2 ^ n := by
  induction n with
  | zero => simp [Nat.mod_one]
  | succ n ih => rw [Finset.sum_range_succ, ih, Nat.pow_succ, Nat.mod_mul, Nat.mul_comm (2 ^ n) (_ % 2)]

/-- A number below 2^n whose bits are `f` is the sum of `f`. -/
theorem eq_sum_of_bits {v n : Nat} {f : Nat → Nat} (hv : v < 2 ^ n) (hf : ∀ k, v / 2 ^ k % 2 = f k) :
    v = ∑ k ∈ Finset.range n, f k * 2 ^ k := by
  simp only [← hf, sum_bits_eq_mod, Nat.mod_eq_of_lt hv]

theorem bit_le_one (v k : Nat) : v / 2 ^ k % 2 ≤ 1 := Nat.le_of_lt_succ (Nat.mod_lt _ Nat.two_pos)

theorem bit_and (a b k : Nat) : (a &&& b) / 2 ^ k % 2 = a / 2 ^ k % 2 * (b / 2 ^ k % 2) := by
  simp only [← Nat.toNat_testBit, Nat.testBit_and]
  cases a.testBit k <;> cases b.testBit k <;> rfl

theorem bit_or (a b k : Nat) : (a ||| b) / 2 ^ k % 2 = a / 2 ^ k % 2 + b / 2 ^ k % 2 - a / 2 ^ k % 2 * (b / 2 ^ k % 2) := by
  simp only [← Nat.toNat_testBit, Nat.testBit_or]
  cases a.testBit k <;> cases b.testBit k <;> rfl

theorem bit_xor (a b k : Nat) : (a ^^^ b) / 2 ^ k % 2 = a / 2 ^ k % 2 + b / 2 ^ k % 2 - 2 * (a / 2 ^ k % 2) * (b / 2 ^ k % 2) := by
  simp only [← Nat.toNat_testBit, Nat.testBit_xor]
  cases a.testBit k <;> cases b.testBit k <;> rfl

/-- Numbers whose bits add up with weights make a sum with these weights. -/
theorem add_mul_eq_of_bits {a b c d x y : Nat}
    (h : ∀ k, a / 2 ^ k % 2 + x * (b / 2 ^ k % 2) = c / 2 ^ k % 2 + y * (d / 2 ^ k % 2)) : a + x * b = c + y * d := by
  obtain ⟨n, ha, hb, hc, hd⟩ : ∃ n, a < 2 ^ n ∧ b < 2 ^ n ∧ c < 2 ^ n ∧ d < 2 ^ n := by
    have below (v : Nat) (hv : v ≤ a + b + c + d) : v < 2 ^ (a + b + c + d) := Nat.lt_of_le_of_lt hv Nat.lt_two_pow_self
    exact ⟨_, below a (by omega), below b (by omega), below c (by omega), below d (by omega)⟩
  calc a + x * b
    _ = ∑ k ∈ Finset.range n, (a / 2 ^ k % 2 + x * (b / 2 ^ k % 2)) * 2 ^ k := by
      simp only [Nat.add_mul, Finset.sum_add_distrib, Nat.mul_assoc, ← Finset.mul_sum, sum_bits_eq_mod, Nat.mod_eq_of_lt ha,
        Nat.mod_eq_of_lt hb]
    _ = ∑ k ∈ Finset.range n, (c / 2 ^ k % 2 + y * (d / 2 ^ k % 2)) * 2 ^ k := by simp only [h]
    _ = c + y * d := by
      simp only [Nat.add_mul, Finset.sum_add_distrib, Nat.mul_assoc, ← Finset.mul_sum, sum_bits_eq_mod, Nat.mod_eq_of_lt hc,
        Nat.mod_eq_of_lt hd]

theorem or_add_and (a b : Nat) : (a ||| b) + (a &&& b) = a + b := by
  have h := add_mul_eq_of_bits (a := a ||| b) (b := a &&& b) (c := a) (d := b) (x := 1) (y := 1) fun k => by
    rw [bit_or, bit_and]
    rcases Nat.mod_two_eq_zero_or_one (a / 2 ^ k) with ha | ha <;> rw [ha] <;> omega
  simpa using h

theorem xor_add_two_mul_and (a b : Nat) : (a ^^^ b) + 2 * (a &&& b) = a + b := by
  have h := add_mul_eq_of_bits (a := a ^^^ b) (b := a &&& b) (c := a) (d := b) (x := 2) (y := 1) fun k => by
    rw [bit_xor, bit_and]
    rcases Nat.mod_two_eq_zero_or_one (a / 2 ^ k) with ha | ha <;> rw [ha] <;>
      have := bit_le_one b k <;> omega
  simpa using h

/-- One bit of a number, cut out as the NATIVE datapath does. -/
theorem and_two_pow_eq (v i : Nat) : v &&& 2 ^ i = v / 2 ^ i % 2 * 2 ^ i := by rw [Nat.and_two_pow, Nat.toNat_testBit]

/-! ### The host's operators (NATIVE mode) -/

/-- The low `n` bits of a number, as the NATIVE datapath takes them. -/
theorem and_low_mask (v n : Nat) : v &&& (1 <<< n - 1) = v % 2 ^ n := by rw [Nat.one_shiftLeft, Nat.and_two_pow_sub_one_eq_mod]

/-- The top bit of a pattern of `w` bits says whether it is in the upper half. -/
theorem msb_ofNat {w v : Nat} (hv : v < 2 ^ w) : (BitVec.ofNat w v).msb = decide (2 ^ (w - 1) ≤ v) := by
  rw [BitVec.msb_eq_decide, BitVec.toNat_ofNat, Nat.mod_eq_of_lt hv]

/-- Complementing, dividing and complementing again fills the top with ones. -/
theorem complement_div {w v n : Nat} (hv : v < 2 ^ w) (hn : n ≤ w) :
    2 ^ w - 1 - (2 ^ w - 1 - v) / 2 ^ n = v / 2 ^ n + (2 ^ w - 2 ^ (w - n)) := by
  have split : 2 ^ w = 2 ^ n * 2 ^ (w - n) := by rw [← Nat.pow_add, Nat.add_sub_cancel' hn]
  have quotient : (2 ^ w - 1 - v) / 2 ^ n = 2 ^ (w - n) - (v / 2 ^ n + 1) := by
    rw [Nat.sub_sub, Nat.add_comm 1 v, split]
    exact Nat.mul_sub_div v (2 ^ n) _ (split ▸ hv)
  have small : v / 2 ^ n < 2 ^ (w - n) := Nat.div_lt_of_lt_mul (split ▸ hv)
  have bound : 2 ^ (w - n) ≤ 2 ^ w := Nat.pow_le_pow_right Nat.two_pos (Nat.sub_le w n)
  rw [quotient]
  generalize v / 2 ^ n = q at small ⊢
  omega

/-- The host's signed shift of a pattern is `Sar`. -/
theorem toNat_sshiftRight_ofNat {w v n : Nat} (hv : v < 2 ^ w) (hn : n ≤ w) :
    ((BitVec.ofNat w v).sshiftRight n).toNat = if v < 2 ^ (w - 1) then v / 2 ^ n else v / 2 ^ n + (2 ^ w - 2 ^ (w - n)) := by
  rw [BitVec.toNat_sshiftRight, msb_ofNat hv, BitVec.toNat_ofNat, Nat.mod_eq_of_lt hv]
  simp only [Nat.shiftRight_eq_div_pow, complement_div hv hn, decide_eq_true_eq, ← Nat.not_lt, ite_not]

/-! ### The operations of the engine in closed form, for both modes (R203, R204) -/

namespace Engine

variable (m : Mode) {w v : Nat}

theorem shl_eq (w v n : Nat) : shl m w v n = (v * 2 ^ n % 2 ^ w, v * 2 ^ n / 2 ^ w) := by
  cases m with
  | native => simp only [shl, Mode.pick, Native.shl, Nat.shiftLeft_eq, Nat.shiftRight_eq_div_pow]
  | arithmetic => rfl

theorem ushr_eq (w v n : Nat) : ushr m w v n = (v / 2 ^ n, v % 2 ^ n) := by
  cases m with
  | native => simp only [ushr, Mode.pick, Native.ushr, Nat.shiftRight_eq_div_pow, and_low_mask]
  | arithmetic => rfl

theorem sar_eq (hv : v < 2 ^ w) {n : Nat} (hn : n ≤ w) :
    sar m w v n = (if v < 2 ^ (w - 1) then v / 2 ^ n else v / 2 ^ n + (2 ^ w - 2 ^ (w - n)), v % 2 ^ n) := by
  cases m with
  | native => simp only [sar, Mode.pick, Native.sar, toNat_sshiftRight_ofNat hv hn, and_low_mask]
  | arithmetic => rfl

theorem and_eq {a b : Nat} (ha : a < 2 ^ w) :
    and m w a b = ∑ k ∈ Finset.range w, a / 2 ^ k % 2 * (b / 2 ^ k % 2) * 2 ^ k := by
  cases m with
  | native => exact eq_sum_of_bits (Nat.lt_of_le_of_lt Nat.and_le_left ha) (bit_and a b)
  | arithmetic => exact sumTo_eq_sum w _

theorem or_eq {a b : Nat} (ha : a < 2 ^ w) (hb : b < 2 ^ w) :
    or m w a b = ∑ k ∈ Finset.range w, (a / 2 ^ k % 2 + b / 2 ^ k % 2 - a / 2 ^ k % 2 * (b / 2 ^ k % 2)) * 2 ^ k := by
  cases m with
  | native => exact eq_sum_of_bits (Nat.or_lt_two_pow ha hb) (bit_or a b)
  | arithmetic => exact sumTo_eq_sum w _

theorem xor_eq {a b : Nat} (ha : a < 2 ^ w) (hb : b < 2 ^ w) :
    xor m w a b = ∑ k ∈ Finset.range w, (a / 2 ^ k % 2 + b / 2 ^ k % 2 - 2 * (a / 2 ^ k % 2) * (b / 2 ^ k % 2)) * 2 ^ k := by
  cases m with
  | native => exact eq_sum_of_bits (Nat.xor_lt_two_pow ha hb) (bit_xor a b)
  | arithmetic => exact sumTo_eq_sum w _

theorem not_eq (hv : v < 2 ^ w) : not m w v = 2 ^ w - 1 - v := by
  cases m with
  | native => rw [not, Mode.pick, Native.not, BitVec.toNat_not, BitVec.toNat_ofNat, Nat.mod_eq_of_lt hv]
  | arithmetic => rfl

theorem test_eq (w v i : Nat) : test m w v i = v / 2 ^ i % 2 := by
  cases m with
  | native => rw [test, Mode.pick, Native.test, Nat.and_one_is_mod, Nat.shiftRight_eq_div_pow]
  | arithmetic => rfl

theorem set_eq (w v i : Nat) : set m w v i = v + (1 - v / 2 ^ i % 2) * 2 ^ i := by
  cases m with
  | native =>
    have h := or_add_and v (2 ^ i)
    rw [and_two_pow_eq] at h
    rw [set, Mode.pick, Native.set, Nat.one_shiftLeft]
    rcases Nat.mod_two_eq_zero_or_one (v / 2 ^ i) with hb | hb <;> rw [hb] at h ⊢ <;> omega
  | arithmetic => rfl

theorem clr_eq (w v i : Nat) : clr m w v i = v - v / 2 ^ i % 2 * 2 ^ i := by
  cases m with
  | native =>
    have h := xor_add_two_mul_and v (v &&& 2 ^ i)
    rw [← Nat.and_assoc, Nat.and_self, and_two_pow_eq] at h
    rw [clr, Mode.pick, Native.clr, Nat.one_shiftLeft, and_two_pow_eq]
    omega
  | arithmetic => rfl

theorem tgl_eq (w v i : Nat) : tgl m w v i = v + 2 ^ i - 2 * (v / 2 ^ i % 2) * 2 ^ i := by
  cases m with
  | native =>
    have h := xor_add_two_mul_and v (2 ^ i)
    rw [and_two_pow_eq, ← Nat.mul_assoc] at h
    rw [tgl, Mode.pick, Native.tgl, Nat.one_shiftLeft]
    omega
  | arithmetic =>
    rw [tgl, Mode.pick, Arith.tgl, Arith.bit]
    have power : (2 : Int) ^ i = (2 ^ i : Nat) := by push_cast; rfl
    rw [power]
    rcases Nat.mod_two_eq_zero_or_one (v / 2 ^ i) with hb | hb <;> rw [hb] <;> omega

theorem pop_eq (w v : Nat) : pop m w v = ∑ k ∈ Finset.range w, v / 2 ^ k % 2 := by
  cases m with
  | native =>
    simp only [pop, Mode.pick, Native.pop]
    induction w with
    | zero => rfl
    | succ w ih =>
      rw [List.range_succ, List.countP_append, List.countP_singleton, ih, Finset.sum_range_succ, ← Nat.toNat_testBit v w]
      cases v.testBit w <;> rfl
  | arithmetic => exact sumTo_eq_sum w _

theorem mask_eq (w k : Nat) : mask m w k = 2 ^ k - 1 := by
  cases m with
  | native => rw [mask, Mode.pick, Native.mask, Nat.one_shiftLeft]
  | arithmetic => rfl

theorem zext_eq (w v f : Nat) : zext m w v f = v % 2 ^ f := by
  cases m with
  | native => exact and_low_mask v f
  | arithmetic => rfl

theorem sext_eq (w v : Nat) {f : Nat} (h1 : 1 ≤ f) (hf : f ≤ w) :
    sext m w v f = v % 2 ^ f + v / 2 ^ (f - 1) % 2 * (2 ^ w - 2 ^ f) := by
  cases m with
  | native =>
    have low : v % 2 ^ f < 2 ^ w := Nat.lt_of_lt_of_le (Nat.mod_lt _ (Nat.two_pow_pos f)) (Nat.pow_le_pow_right Nat.two_pos hf)
    have sign : (BitVec.ofNat f v).msb = v.testBit (f - 1) := by
      rw [BitVec.msb_eq_getLsbD_last, BitVec.getLsbD_ofNat, decide_eq_true (by omega), Bool.true_and]
    rw [sext, Mode.pick, Native.sext, BitVec.toNat_signExtend, BitVec.toNat_setWidth, BitVec.toNat_ofNat, Nat.mod_eq_of_lt low, sign,
      ← Nat.toNat_testBit]
    cases v.testBit (f - 1) <;> simp
  | arithmetic => rfl

/-- The bytes both modes decompose a number into are those a store of it writes. -/
theorem bytes_eq (w v : Nat) : (bytes m w v).map (BitVec.ofNat 8) = leBytes (w / 8) v := by
  have byte (k : Nat) : v >>> (8 * k) &&& 255 = v / 256 ^ k % 256 := by
    rw [Nat.shiftRight_eq_div_pow, Nat.pow_mul]
    exact Nat.and_two_pow_sub_one_eq_mod _ 8
  have same : bytes m w v = Arith.bytes w v := by
    cases m with
    | native => simp only [bytes, Mode.pick, Native.bytes, Arith.bytes, byte]
    | arithmetic => rfl
  rw [same]
  refine List.ext_getElem (by simp [Arith.bytes]) fun k h1 h2 => ?_
  rw [leBytes_getElem]
  apply BitVec.eq_of_toNat_eq
  simp [Arith.bytes]

/-- Both modes compose bytes as a load of them does. -/
theorem compose_eq (bs : List Byte) : compose m (bs.map BitVec.toNat) = leNat bs := by
  cases m with
  | native =>
    show Native.compose _ = _
    induction bs with
    | nil => rfl
    | cons b bs ih =>
      have step : Native.compose ((b :: bs).map BitVec.toNat) = Native.compose (bs.map BitVec.toNat) <<< 8 ||| b.toNat := rfl
      rw [step, ih, ← Nat.shiftLeft_add_eq_or_of_lt b.isLt, Nat.shiftLeft_eq, leNat]
      omega
  | arithmetic =>
    show Arith.compose _ = _
    simp only [Arith.compose, sumTo_eq_sum]
    induction bs with
    | nil => rfl
    | cons b bs ih =>
      rw [leNat, ← ih, List.map_cons, List.length_cons, Finset.sum_range_succ', Finset.mul_sum, Nat.add_comm]
      congr 1
      · simp
      · refine Finset.sum_congr rfl fun k _ => ?_
        rw [List.getD_cons_succ]
        ring

end Engine

end Sys2Proof.Machine
end

section
/-! PROOFS. The limb loops of the ARITHMETIC datapath in closed form (44_limb.md R251, R252): what each loop has after `j` limbs, and so
that the two datapaths of the limb unit give one result (R254). -/

namespace Sys2Proof.Machine

/-! ### Limbs (10_state.md R46) -/

/-- The low `j + 1` limbs are the low `j` limbs and limb `j` above them. -/
theorem mod_limb_succ (v j : Nat) : v % 2 ^ (16 * (j + 1)) = v % 2 ^ (16 * j) + limb v j * 2 ^ (16 * j) := by
  rw [Nat.mul_succ, Nat.pow_add, Nat.mod_mul, limb, Nat.mul_comm (2 ^ (16 * j))]

/-- The limbs from `j` up are limb `j` and the limbs above it. -/
theorem div_limb_succ (v j : Nat) : v / 2 ^ (16 * j) = v / 2 ^ (16 * (j + 1)) * 65536 + limb v j := by
  have next : v / 2 ^ (16 * (j + 1)) = v / 2 ^ (16 * j) / 65536 := by rw [Nat.mul_succ, Nat.pow_add, Nat.div_div_eq_div_mul]
  rw [next]
  exact (Nat.div_add_mod' _ 65536).symm

theorem two_pow_limb_succ (j : Nat) : 2 ^ (16 * (j + 1)) = 65536 * 2 ^ (16 * j) := by rw [Nat.mul_succ, Nat.pow_add, Nat.mul_comm]

/-- Limbs side by side make the low part of the number they are of. -/
theorem sumTo_limbs (v j : Nat) : sumTo j (fun i => limb v i * 2 ^ (16 * i)) = v % 2 ^ (16 * j) := by
  induction j with
  | zero => simp [sumTo, Nat.mod_one]
  | succ j ih => rw [sumTo, ih, mod_limb_succ]

theorem limb_div (v c j : Nat) : limb (v / 2 ^ (16 * c)) j = limb v (c + j) := by
  rw [limb, limb, Nat.div_div_eq_div_mul, ← Nat.pow_add, Nat.mul_add]

/-- The word shift to the left moves limbs up and brings in 0 (R252). -/
theorem limb_mul (v c j : Nat) : limb (v * 2 ^ (16 * c)) j = if c ≤ j then limb v (j - c) else 0 := by
  split_ifs with h
  · obtain ⟨k, rfl⟩ := Nat.exists_eq_add_of_le h
    rw [← limb_div, Nat.mul_div_cancel _ (Nat.two_pow_pos _), Nat.add_sub_cancel_left]
  · obtain ⟨k, rfl⟩ := Nat.exists_eq_add_of_le (show j + 1 ≤ c by omega)
    have : 2 ^ (16 * (j + 1 + k)) = 65536 * 2 ^ (16 * k) * 2 ^ (16 * j) := by
      rw [← two_pow_limb_succ, ← Nat.pow_add]
      congr 1
      omega
    rw [limb, this, ← Nat.mul_assoc, Nat.mul_div_cancel _ (Nat.two_pow_pos _), Nat.mul_left_comm, Nat.mul_mod_right]

theorem limb_of_lt {v j : Nat} (h : v < 2 ^ (16 * j)) : limb v j = 0 := by rw [limb, Nat.div_eq_of_lt h, Nat.zero_mod]

/-! ### Loops over the limbs -/

/-- A loop from limb 0 up keeps what each turn keeps. -/
theorem foldl_range_induction {β : Type} {f : β → Nat → β} {init : β} {P : Nat → β → Prop} (zero : P 0 init)
    (succ : ∀ j acc, P j acc → P (j + 1) (f acc j)) (n : Nat) : P n ((List.range n).foldl f init) := by
  induction n with
  | zero => exact zero
  | succ n ih =>
    rw [List.range_succ, List.foldl_append]
    exact succ n _ ih

/-- A loop from the limb below `n` down keeps what each turn keeps. -/
theorem foldl_range_reverse_induction {β : Type} {f : β → Nat → β} {P : Nat → β → Prop}
    (pred : ∀ j acc, P (j + 1) acc → P j (f acc j)) (n : Nat) {init : β} (top : P n init) :
    P 0 ((List.range n).reverse.foldl f init) := by
  induction n generalizing init with
  | zero => exact top
  | succ n ih =>
    rw [List.range_succ, List.reverse_append]
    exact ih (pred n _ top)

/-- What a loop from limb 0 up has after `j` limbs when it builds `v`: the low limbs in the result, the rest in the carry. -/
structure Builds (j v : Nat) (acc : Nat × Nat) : Prop where
  total : acc.1 + acc.2 * 2 ^ (16 * j) = v
  low : acc.1 < 2 ^ (16 * j)

namespace Builds

variable {j v : Nat} {acc : Nat × Nat}

theorem start : Builds 0 0 (0, 0) := ⟨rfl, Nat.one_pos⟩

/-- A turn that adds `l` to the carry puts its low limb into the result. -/
theorem turn (h : Builds j v acc) (l : Nat) :
    Builds (j + 1) (v + l * 2 ^ (16 * j)) (acc.1 + (l + acc.2) % 65536 * 2 ^ (16 * j), (l + acc.2) / 65536) where
  total :=
    calc acc.1 + (l + acc.2) % 65536 * 2 ^ (16 * j) + (l + acc.2) / 65536 * 2 ^ (16 * (j + 1))
      _ = acc.1 + ((l + acc.2) % 65536 + (l + acc.2) / 65536 * 65536) * 2 ^ (16 * j) := by rw [two_pow_limb_succ]; ring
      _ = acc.1 + acc.2 * 2 ^ (16 * j) + l * 2 ^ (16 * j) := by rw [Nat.mod_add_div']; ring
      _ = v + l * 2 ^ (16 * j) := by rw [h.total]
  low := by
    have digit : (l + acc.2) % 65536 * 2 ^ (16 * j) ≤ 65535 * 2 ^ (16 * j) :=
      Nat.mul_le_mul_right _ (Nat.le_of_lt_succ (Nat.mod_lt _ (by decide)))
    have := h.low
    rw [two_pow_limb_succ]
    dsimp only
    omega

/-- The loop's answer: the value modulo and divided by the width of its limbs. -/
theorem eq (h : Builds j v acc) : acc = (v % 2 ^ (16 * j), v / 2 ^ (16 * j)) := by
  obtain ⟨rfl, hlow⟩ := h
  rw [Nat.add_mul_mod_self_right, Nat.mod_eq_of_lt hlow, Nat.add_mul_div_right _ _ (Nat.two_pow_pos _), Nat.div_eq_of_lt hlow, Nat.zero_add]

end Builds

/-! ### Addition and subtraction (R251) -/

theorem Arith.add128_builds (a b : Nat) : Builds 8 (a % 2 ^ 128 + b % 2 ^ 128) (Arith.add128 a b) := by
  refine foldl_range_induction (P := fun j => Builds j (a % 2 ^ (16 * j) + b % 2 ^ (16 * j))) ?_ (fun j acc h => ?_) 8
  · simpa [Nat.mod_one] using Builds.start
  · have sum : a % 2 ^ (16 * (j + 1)) + b % 2 ^ (16 * (j + 1)) =
        a % 2 ^ (16 * j) + b % 2 ^ (16 * j) + (limb a j + limb b j) * 2 ^ (16 * j) := by
      rw [mod_limb_succ, mod_limb_succ]
      ring
    exact sum ▸ h.turn (limb a j + limb b j)

theorem Arith.add128_eq {a b : Nat} (ha : a < 2 ^ 128) (hb : b < 2 ^ 128) :
    Arith.add128 a b = ((a + b) % 2 ^ 128, (a + b) / 2 ^ 128) := by
  have h := Arith.add128_builds a b
  rw [Nat.mod_eq_of_lt ha, Nat.mod_eq_of_lt hb] at h
  exact h.eq

/-- What the loop of `Sub128` has after `j` limbs: the difference of the low limbs, with the borrow that makes it one. -/
structure Subtracts (a b j : Nat) (acc : Nat × Nat) : Prop where
  total : acc.1 + b % 2 ^ (16 * j) = a % 2 ^ (16 * j) + acc.2 * 2 ^ (16 * j)
  low : acc.1 < 2 ^ (16 * j)
  borrow : acc.2 ≤ 1

/-- A turn of `Sub128`: `d` is the limb of the difference and `c` the new borrow. -/
theorem Subtracts.turn {a b j d c : Nat} {acc : Nat × Nat} (h : Subtracts a b j acc) (hd : d < 65536) (hc : c ≤ 1)
    (hlimb : d + limb b j + acc.2 = limb a j + c * 65536) : Subtracts a b (j + 1) (acc.1 + d * 2 ^ (16 * j), c) where
  total := by
    have weighed := congrArg (· * 2 ^ (16 * j)) hlimb
    have := h.total
    simp only [Nat.add_mul, Nat.mul_assoc] at weighed
    rw [mod_limb_succ, mod_limb_succ, two_pow_limb_succ]
    dsimp only
    omega
  low := by
    have digit : d * 2 ^ (16 * j) ≤ 65535 * 2 ^ (16 * j) := Nat.mul_le_mul_right _ (Nat.le_of_lt_succ hd)
    have := h.low
    rw [two_pow_limb_succ]
    dsimp only
    omega
  borrow := hc

theorem Arith.sub128_subtracts (a b : Nat) : Subtracts a b 8 (Arith.sub128 a b) := by
  refine foldl_range_induction (P := fun j => Subtracts a b j) ⟨by simp [Nat.mod_one], by simp, by simp⟩ (fun j acc h => ?_) 8
  have := limb_le a j
  have := limb_le b j
  have := h.borrow
  dsimp only
  split
  · exact h.turn (by omega) (by omega) (by omega)
  · exact h.turn (by omega) (by omega) (by omega)

theorem Arith.sub128_eq {a b : Nat} (ha : a < 2 ^ 128) (hb : b < 2 ^ 128) :
    Arith.sub128 a b = ((a + 2 ^ 128 - b) % 2 ^ 128, if a < b then 1 else 0) := by
  obtain ⟨total, low, borrow⟩ := Arith.sub128_subtracts a b
  rw [Nat.mod_eq_of_lt ha, Nat.mod_eq_of_lt hb] at total
  ext
  · dsimp only
    omega
  · dsimp only
    split <;> omega

/-! ### Shifts (R252) -/

/-- A count is a word shift and a bit shift. -/
theorem two_pow_count (n : Nat) : 2 ^ n = 2 ^ (16 * (n / 16)) * 2 ^ (n % 16) := by rw [← Nat.pow_add, Nat.div_add_mod]

/-- What the word shift to the left moves out at the top. -/
theorem sumTo_limbs_out {a ws : Nat} (ha : a < 2 ^ 128) (hws : ws ≤ 8) :
    sumTo ws (fun j => limb a (8 - ws + j) * 2 ^ (16 * j)) = a * 2 ^ (16 * ws) / 2 ^ 128 := by
  have width : 2 ^ 128 = 2 ^ (16 * (8 - ws)) * 2 ^ (16 * ws) := by
    rw [← Nat.pow_add]
    congr 1
    omega
  have out : a / 2 ^ (16 * (8 - ws)) < 2 ^ (16 * ws) := Nat.div_lt_of_lt_mul (width ▸ ha)
  simp only [← limb_div, sumTo_limbs, Nat.mod_eq_of_lt out]
  rw [width, Nat.mul_div_mul_right _ _ (Nat.two_pow_pos _)]

/-- The bit shift of `ShiftLeft128`, from limb 0 up (R252). -/
def bitShiftLeft (bs : Nat) (moved : Nat → Nat) : Nat × Nat :=
  (List.range 8).foldl (fun acc i => (acc.1 + (moved i * 2 ^ bs + acc.2) % 65536 * 2 ^ (16 * i), (moved i * 2 ^ bs + acc.2) / 65536)) (0, 0)

theorem Arith.shiftLeft128_eq_bitShiftLeft (a n : Nat) :
    Arith.shiftLeft128 a n =
      let r := bitShiftLeft (n % 16) fun i => if n / 16 ≤ i then limb a (i - n / 16) else 0
      (r.1, sumTo (n / 16) (fun j => limb a (8 - n / 16 + j) * 2 ^ (16 * j)) * 2 ^ (n % 16) + r.2) := rfl

theorem bitShiftLeft_builds (v bs : Nat) : Builds 8 (v % 2 ^ 128 * 2 ^ bs) (bitShiftLeft bs (limb v)) := by
  refine foldl_range_induction (P := fun j => Builds j (v % 2 ^ (16 * j) * 2 ^ bs)) ?_ (fun j acc h => ?_) 8
  · simpa [Nat.mod_one] using Builds.start
  · have product : v % 2 ^ (16 * (j + 1)) * 2 ^ bs = v % 2 ^ (16 * j) * 2 ^ bs + limb v j * 2 ^ bs * 2 ^ (16 * j) := by
      rw [mod_limb_succ]
      ring
    exact product ▸ h.turn (limb v j * 2 ^ bs)

theorem Arith.shiftLeft128_eq {a n : Nat} (ha : a < 2 ^ 128) (hn : n ≤ 128) :
    Arith.shiftLeft128 a n = (a * 2 ^ n % 2 ^ 128, a * 2 ^ n / 2 ^ 128) := by
  have out := sumTo_limbs_out (ws := n / 16) ha (by omega)
  rw [Arith.shiftLeft128_eq_bitShiftLeft, two_pow_count n, ← Nat.mul_assoc, out]
  simp only [← limb_mul]
  generalize a * 2 ^ (16 * (n / 16)) = v
  obtain ⟨total, low⟩ := bitShiftLeft_builds v (n % 16)
  generalize bitShiftLeft (n % 16) (limb v) = r at total low
  have whole : r.1 + (v / 2 ^ 128 * 2 ^ (n % 16) + r.2) * 2 ^ 128 = v * 2 ^ (n % 16) := by
    conv_rhs => rw [← Nat.mod_add_div v (2 ^ 128), Nat.add_mul, ← total]
    ring
  exact Builds.eq (j := 8) ⟨whole, low⟩

/-- The bit shift of `ShiftRight128`, from limb 7 down (R252). -/
def bitShiftRight (bs : Nat) (moved : Nat → Nat) : Nat × Nat :=
  (List.range 8).reverse.foldl
    (fun acc i => (acc.1 + (acc.2 * 65536 + moved i) / 2 ^ bs * 2 ^ (16 * i), (acc.2 * 65536 + moved i) % 2 ^ bs)) (0, 0)

theorem Arith.shiftRight128_eq_bitShiftRight (a n : Nat) :
    Arith.shiftRight128 a n =
      let r := bitShiftRight (n % 16) fun i => if i + n / 16 ≤ 7 then limb a (i + n / 16) else 0
      (r.1, r.2 * 2 ^ (16 * (n / 16)) + sumTo (n / 16) fun i => limb a i * 2 ^ (16 * i)) := rfl

/-- What the loop of `ShiftRight128` has when `j` limbs are left: the limbs above them, divided by 2^bs, and the remainder. -/
structure Divides (v bs j : Nat) (acc : Nat × Nat) : Prop where
  total : acc.1 * 2 ^ bs + acc.2 * 2 ^ (16 * j) = v / 2 ^ (16 * j) * 2 ^ (16 * j)
  low : acc.2 < 2 ^ bs

theorem Divides.turn {v bs j : Nat} {acc : Nat × Nat} (h : Divides v bs (j + 1) acc) :
    Divides v bs j
      (acc.1 + (acc.2 * 65536 + limb v j) / 2 ^ bs * 2 ^ (16 * j), (acc.2 * 65536 + limb v j) % 2 ^ bs) where
  total := by
    have hu := Nat.div_add_mod' (acc.2 * 65536 + limb v j) (2 ^ bs)
    have total := h.total
    generalize (acc.2 * 65536 + limb v j) / 2 ^ bs = q at hu ⊢
    generalize (acc.2 * 65536 + limb v j) % 2 ^ bs = r at hu ⊢
    rw [two_pow_limb_succ] at total
    rw [div_limb_succ, two_pow_limb_succ]
    calc (acc.1 + q * 2 ^ (16 * j)) * 2 ^ bs + r * 2 ^ (16 * j)
      _ = acc.1 * 2 ^ bs + (q * 2 ^ bs + r) * 2 ^ (16 * j) := by ring
      _ = acc.1 * 2 ^ bs + acc.2 * (65536 * 2 ^ (16 * j)) + limb v j * 2 ^ (16 * j) := by rw [hu]; ring
      _ = (v / (65536 * 2 ^ (16 * j)) * 65536 + limb v j) * 2 ^ (16 * j) := by rw [total]; ring
  low := Nat.mod_lt _ (Nat.two_pow_pos bs)

theorem bitShiftRight_divides {v : Nat} (hv : v < 2 ^ 128) (bs : Nat) : Divides v bs 0 (bitShiftRight bs (limb v)) := by
  have none : v / 2 ^ (16 * 8) = 0 := Nat.div_eq_of_lt hv
  exact foldl_range_reverse_induction (P := fun j => Divides v bs j) (fun _ _ h => h.turn) 8
    ⟨by rw [none, Nat.zero_mul, Nat.zero_mul], Nat.two_pow_pos bs⟩

theorem bitShiftRight_eq {v : Nat} (hv : v < 2 ^ 128) (bs : Nat) : bitShiftRight bs (limb v) = (v / 2 ^ bs, v % 2 ^ bs) := by
  obtain ⟨total, low⟩ := bitShiftRight_divides hv bs
  simp only [Nat.mul_zero, Nat.pow_zero, Nat.mul_one, Nat.div_one] at total
  rw [Nat.add_comm, Nat.mul_comm] at total
  obtain ⟨quotient, remainder⟩ := (Nat.div_mod_unique (Nat.two_pow_pos bs)).2 ⟨total, low⟩
  rw [quotient, remainder]

theorem Arith.shiftRight128_eq {a n : Nat} (ha : a < 2 ^ 128) : Arith.shiftRight128 a n = (a / 2 ^ n, a % 2 ^ n) := by
  have moved (i : Nat) : (if i + n / 16 ≤ 7 then limb a (i + n / 16) else 0) = limb (a / 2 ^ (16 * (n / 16))) i := by
    rw [limb_div, Nat.add_comm i]
    split
    · rfl
    · refine (limb_of_lt (Nat.lt_of_lt_of_le ha (Nat.pow_le_pow_right Nat.two_pos ?_))).symm
      omega
  have small : a / 2 ^ (16 * (n / 16)) < 2 ^ 128 := Nat.lt_of_le_of_lt (Nat.div_le_self ..) ha
  rw [Arith.shiftRight128_eq_bitShiftRight]
  simp only [moved, bitShiftRight_eq small, sumTo_limbs]
  rw [two_pow_count n, Nat.div_div_eq_div_mul, Nat.mod_mul, Nat.add_comm, Nat.mul_comm (_ % _)]

/-! ### The limb unit in both modes (R254) -/

namespace Engine

variable (m : Mode) {a b : Nat}

theorem add128_eq (ha : a < 2 ^ 128) (hb : b < 2 ^ 128) : add128 m a b = ((a + b) % 2 ^ 128, (a + b) / 2 ^ 128) := by
  cases m with
  | native => rfl
  | arithmetic => exact Arith.add128_eq ha hb

theorem sub128_eq (ha : a < 2 ^ 128) (hb : b < 2 ^ 128) : sub128 m a b = ((a + 2 ^ 128 - b) % 2 ^ 128, if a < b then 1 else 0) := by
  cases m with
  | native => rfl
  | arithmetic => exact Arith.sub128_eq ha hb

theorem shiftLeft128_eq (ha : a < 2 ^ 128) {n : Nat} (hn : n ≤ 128) :
    shiftLeft128 m a n = (a * 2 ^ n % 2 ^ 128, a * 2 ^ n / 2 ^ 128) := by
  cases m with
  | native => simp only [shiftLeft128, Mode.pick, Native.shiftLeft128, Nat.shiftLeft_eq, Nat.shiftRight_eq_div_pow]
  | arithmetic => exact Arith.shiftLeft128_eq ha hn

theorem shiftRight128_eq (ha : a < 2 ^ 128) (n : Nat) : shiftRight128 m a n = (a / 2 ^ n, a % 2 ^ n) := by
  cases m with
  | native => simp only [shiftRight128, Mode.pick, Native.shiftRight128, Nat.shiftRight_eq_div_pow]
  | arithmetic => exact Arith.shiftRight128_eq ha

end Engine

end Sys2Proof.Machine
end

section
/-! PROOFS. The engine commands: the word of each, the tests of its count in the written order, and the one register it writes, with the
carry of a shift and the bytes of a decomposition (43_engine.md R200 to R229). -/

namespace Sys2Proof

/-- The number of an engine command's word (30_encoding.md R91, R96). -/
theorem wordR_toNat_of_engine {op : Nat} (h : op < 256) (rd rs1 rs2 : Reg) (w : Width) (m : Mode) :
    (wordR op rd rs1 rs2 0 w.select m.select).toNat =
      op + rd.val * 2 ^ 8 + rs1.val * 2 ^ 12 + rs2.val * 2 ^ 16 + w.select * 2 ^ 24 + m.select * 2 ^ 26 := by
  simpa using wordR_toNat op h rd rs1 rs2 0 _ _ w.select_lt m.select_lt

/-- The width in bits, from the `wsel` field (R91). -/
theorem Width.bits_eq (w : Width) : w.bits = 8 * 2 ^ w.select := by cases w <;> rfl

/-- The bytes of a value of a width hold it whole. -/
theorem Width.pow_bytes (w : Width) : 256 ^ (w.bits / 8) = 2 ^ w.bits := by cases w <;> rfl

end Sys2Proof

namespace Sys2Proof.Machine

variable {i : Instr} {s : State} {w : Width} {rd rs1 rs2 : Reg}

theorem State.engineValue_lt (s : State) (w : Width) (r : Reg) : s.engineValue w r < 2 ^ w.bits := Nat.mod_lt _ (Nat.two_pow_pos _)

/-! ### Shifts (R210 to R215) -/

/-- The test of a shift's count, then its value in the register and its carry in CARRYLO and V. -/
theorem Tests.shift {op : Nat → Nat → Nat × Nat} {aligned : Bool} {val c : Nat} {done : Prop} (hF : s.fault = false)
    (h : exec i s = command i s (shiftBy op aligned w rd rs1 rs2 s))
    (hop : (s.regInt rs2).toNat ≤ w.bits → op (s.engineValue w rs1) (s.regInt rs2).toNat = (val, c))
    (next : (s.regInt rs2).toNat ≤ w.bits →
      exec i s =
        .next
          { s with
            carryLo := BitVec.ofNat 64 c, carryHi := 0, flagV := decide (c ≠ 0)
            x := s.x.set rd.val (BitVec.ofNat 64 val), cmdseq := s.cmdseq + 1 } →
      done) :
    Tests i s [(0 ≤ s.regInt rs2 ∧ s.regInt rs2 ≤ w.bits ∧ (aligned = true → s.regInt rs2 % 8 = 0), 2, s.reg rs2)] done := by
  refine Tests.require (kind := .invalidArgument) hF h fun ⟨_, hn, _⟩ e => ?_
  have inRange : (s.regInt rs2).toNat ≤ w.bits := by omega
  rw [hop inRange] at e
  exact next inRange (e.trans (command_ok hF))

/-- Settles O21: SHL and BSHL by the closed form of the left shift in both modes. -/
theorem leftShiftsKeepTheCarry : Obligations.LeftShiftsKeepTheCarry := by
  intro mk op aligned hmk s m w rd rs1 rs2 hF
  rw [← Width.bits_eq]
  have carry (hn : (s.regInt rs2).toNat ≤ w.bits) :
      s.engineValue w rs1 * 2 ^ (s.regInt rs2).toNat / 2 ^ w.bits < 2 ^ w.bits :=
    Nat.lt_of_lt_of_le (shl_spill_lt (s.engineValue_lt w rs1)) (Nat.pow_le_pow_right Nat.two_pos hn)
  have word (hop : op < 256) := wordR_toNat_of_engine hop rd rs1 rs2 w m
  simp only [List.mem_cons, Prod.mk.injEq, List.not_mem_nil, or_false] at hmk
  rcases hmk with ⟨rfl, rfl, rfl⟩ | ⟨rfl, rfl, rfl⟩ <;>
    exact ⟨word (by decide), .shift hF rfl (fun _ => Engine.shl_eq m _ _ _) fun hn e => ⟨carry hn, e⟩⟩

/-- A pattern is its signed reading modulo 2^w. -/
theorem toNat_eq_toInt_emod {w : Nat} (x : BitVec w) : (x.toNat : Int) = x.toInt % 2 ^ w := by
  conv_lhs => rw [← BitVec.ofInt_toInt (x := x), BitVec.toNat_ofInt]
  rw [Int.toNat_of_nonneg (Int.emod_nonneg _ (by positivity))]
  push_cast
  rfl

/-- `Sar` is the floor of the signed quotient (R204). -/
theorem sar_eq_floor {w v n : Nat} (hv : v < 2 ^ w) (hn : n ≤ w) :
    ((if v < 2 ^ (w - 1) then v / 2 ^ n else v / 2 ^ n + (2 ^ w - 2 ^ (w - n)) : Nat) : Int) =
      (BitVec.ofNat w v).toInt / 2 ^ n % 2 ^ w := by
  rw [← toNat_sshiftRight_ofNat hv hn, toNat_eq_toInt_emod, BitVec.toInt_sshiftRight, Int.shiftRight_eq_div_pow]
  push_cast
  rfl

/-- Settles O22: SHR and BSHR by the closed form of the signed right shift in both modes, which is the floor. -/
theorem signedRightShiftsFloor : Obligations.SignedRightShiftsFloor := by
  intro mk op aligned hmk s m w rd rs1 rs2 hF
  rw [← Width.bits_eq]
  have hv := s.engineValue_lt w rs1
  have word (hop : op < 256) := wordR_toNat_of_engine hop rd rs1 rs2 w m
  simp only [List.mem_cons, Prod.mk.injEq, List.not_mem_nil, or_false] at hmk
  rcases hmk with ⟨rfl, rfl, rfl⟩ | ⟨rfl, rfl, rfl⟩ <;>
    exact ⟨word (by decide), .shift hF rfl (Engine.sar_eq m hv) fun hn e => ⟨sar_eq_floor hv hn, e⟩⟩

/-- Settles O23: USHR and BUSHR by the closed form of the unsigned right shift in both modes. -/
theorem unsignedRightShiftsDivide : Obligations.UnsignedRightShiftsDivide := by
  intro mk op aligned hmk s m w rd rs1 rs2 hF
  rw [← Width.bits_eq]
  have word (hop : op < 256) := wordR_toNat_of_engine hop rd rs1 rs2 w m
  simp only [List.mem_cons, Prod.mk.injEq, List.not_mem_nil, or_false] at hmk
  rcases hmk with ⟨rfl, rfl, rfl⟩ | ⟨rfl, rfl, rfl⟩ <;>
    exact ⟨word (by decide), .shift hF rfl (fun _ => Engine.ushr_eq m _ _ _) fun _ e => e⟩

/-! ### Bitwise logic (R216 to R219) -/

/-- A command that writes one register and raises nothing. -/
theorem exec_of_setReg {v v' : Nat} (hF : s.fault = false) (h : exec i s = command i s (.ok (s.setReg rd v))) (hv : v = v') :
    exec i s = .next { s with x := s.x.set rd.val (BitVec.ofNat 64 v'), cmdseq := s.cmdseq + 1 } := by
  subst hv
  exact h.trans (command_ok hF)

/-- Settles O24: the three operations by their sums over bits in both modes, and NOT by its closed form. -/
theorem bitwiseLogicByBits : Obligations.BitwiseLogicByBits := by
  intro s m w rd rs1 rs2 hF
  rw [← Width.bits_eq]
  have ha := s.engineValue_lt w rs1
  have hb := s.engineValue_lt w rs2
  refine ⟨fun mk op f hmk => ?_, by simpa [encode] using wordR_toNat_of_engine (op := 0x39) (by decide) rd rs1 0 w m,
    exec_of_setReg hF rfl (Engine.not_eq m ha)⟩
  have word (hop : op < 256) := wordR_toNat_of_engine hop rd rs1 rs2 w m
  simp only [List.mem_cons, Prod.mk.injEq, List.not_mem_nil, or_false] at hmk
  rcases hmk with ⟨rfl, rfl, rfl⟩ | ⟨rfl, rfl, rfl⟩ | ⟨rfl, rfl, rfl⟩
  · exact ⟨word (by decide), exec_of_setReg hF rfl (Engine.and_eq m ha)⟩
  · exact ⟨word (by decide), exec_of_setReg hF rfl (Engine.or_eq m ha hb)⟩
  · exact ⟨word (by decide), exec_of_setReg hF rfl (Engine.xor_eq m ha hb)⟩

/-! ### Single bits, count, mask, extensions (R220 to R227) -/

/-- The test of a bit index, then the value in the register. -/
theorem Tests.bit {op : Nat → Nat → Nat} {v : Nat} (hF : s.fault = false) (h : exec i s = command i s (bitAt op w rd rs1 rs2 s))
    (hop : op (s.engineValue w rs1) (s.regInt rs2).toNat = v) :
    Tests i s [(0 ≤ s.regInt rs2 ∧ s.regInt rs2 ≤ (w.bits : Int) - 1, 2, s.reg rs2)]
      (exec i s = .next { s with x := s.x.set rd.val (BitVec.ofNat 64 v), cmdseq := s.cmdseq + 1 }) :=
  .require (kind := .invalidArgument) hF h fun _ e => exec_of_setReg hF e hop

/-- Settles O25: each of the four operations by its formula in both modes. -/
theorem singleBitOperations : Obligations.SingleBitOperations := by
  intro mk op f hmk s m w rd rs1 rs2 hF
  rw [← Width.bits_eq]
  have word (hop : op < 256) := wordR_toNat_of_engine hop rd rs1 rs2 w m
  simp only [List.mem_cons, Prod.mk.injEq, List.not_mem_nil, or_false] at hmk
  rcases hmk with ⟨rfl, rfl, rfl⟩ | ⟨rfl, rfl, rfl⟩ | ⟨rfl, rfl, rfl⟩ | ⟨rfl, rfl, rfl⟩
  · exact ⟨word (by decide), .bit hF rfl (Engine.test_eq m _ _ _)⟩
  · exact ⟨word (by decide), .bit hF rfl (Engine.set_eq m _ _ _)⟩
  · exact ⟨word (by decide), .bit hF rfl (Engine.clr_eq m _ _ _)⟩
  · exact ⟨word (by decide), .bit hF rfl (Engine.tgl_eq m _ _ _)⟩

/-- Settles O26: the count as a sum of bits, and the mask, in both modes. -/
theorem countAndMask : Obligations.CountAndMask := by
  intro s m w rd rs1 hF
  rw [← Width.bits_eq]
  have word {op : Nat} (hop : op < 256) := wordR_toNat_of_engine hop rd rs1 0 w m
  exact ⟨by simpa [encode] using word (op := 0x3E) (by decide), exec_of_setReg hF rfl (Engine.pop_eq m _ _),
    by simpa [encode] using word (op := 0x3F) (by decide),
    .require (kind := .invalidArgument) hF rfl fun _ e => exec_of_setReg hF e (Engine.mask_eq m _ _)⟩

/-- A value of `f` bits with the bits above filled by a sign stays within `w` bits. -/
theorem extension_lt {w f b : Nat} (v : Nat) (hf : f ≤ w) (hb : b ≤ 1) : v % 2 ^ f + b * (2 ^ w - 2 ^ f) < 2 ^ w := by
  have low := Nat.mod_lt v (Nat.two_pow_pos f)
  have bound : 2 ^ f ≤ 2 ^ w := Nat.pow_le_pow_right Nat.two_pos hf
  rcases Nat.le_one_iff_eq_zero_or_eq_one.1 hb with rfl | rfl <;> omega

/-- The test of a from-width, then the extended value, which the width holds, in the register; `sign` is 1 where the sign bit fills. -/
theorem Tests.extension {op : Nat → Nat → Nat} {sign : Nat} (hF : s.fault = false)
    (h : exec i s = command i s (extendFrom op w rd rs1 rs2 s)) (hsign : sign ≤ 1)
    (hop : ∀ v f, 1 ≤ f → f ≤ w.bits → op v f = v % 2 ^ f + sign * (v / 2 ^ (f - 1) % 2) * (2 ^ w.bits - 2 ^ f)) :
    let v := s.engineValue w rs1
    let f := (s.regInt rs2).toNat
    let val := v % 2 ^ f + sign * (v / 2 ^ (f - 1) % 2) * (2 ^ w.bits - 2 ^ f)
    Tests i s [(1 ≤ s.regInt rs2 ∧ s.regInt rs2 ≤ w.bits, 2, s.reg rs2)]
      (val < 2 ^ w.bits ∧ exec i s = .next { s with x := s.x.set rd.val (BitVec.ofNat 64 val), cmdseq := s.cmdseq + 1 }) := by
  refine .require (kind := .invalidArgument) hF h fun hf e => ?_
  exact ⟨extension_lt _ (by omega) (Nat.mul_le_mul hsign (bit_le_one ..)), exec_of_setReg hF e (hop _ _ (by omega) (by omega))⟩

/-- Settles O27: SEXT fills with the sign bit and ZEXT with 0, in both modes. -/
theorem extensionsStopAtTheWidth : Obligations.ExtensionsStopAtTheWidth := by
  intro mk op sign hmk s m w rd rs1 rs2 hF
  rw [← Width.bits_eq]
  have word (hop : op < 256) := wordR_toNat_of_engine hop rd rs1 rs2 w m
  simp only [List.mem_cons, Prod.mk.injEq, List.not_mem_nil, or_false] at hmk
  rcases hmk with ⟨rfl, rfl, rfl⟩ | ⟨rfl, rfl, rfl⟩
  · refine ⟨word (by decide), .extension hF rfl Nat.le.refl fun v f h1 hf => ?_⟩
    rw [Nat.one_mul, Engine.sext_eq m _ _ h1 hf]
  · refine ⟨word (by decide), .extension hF rfl (Nat.zero_le 1) fun v f _ _ => ?_⟩
    rw [Nat.zero_mul, Nat.zero_mul, Nat.add_zero, Engine.zext_eq]

/-! ### Byte decompose and compose (R228, R229) -/

/-- The value BDEC stores is the reduced register. -/
theorem leNat_bytes_engineValue (s : State) (m : Mode) (w : Width) (r : Reg) :
    leNat ((Engine.bytes m w.bits (s.engineValue w r)).map (BitVec.ofNat 8)) = s.engineValue w r := by
  rw [Engine.bytes_eq, leNat_leBytes, w.pow_bytes, Nat.mod_eq_of_lt (s.engineValue_lt w r)]

/-- The value BCOMP composes is the one the bytes hold. -/
theorem compose_leBytes (m : Mode) (n v : Nat) : Engine.compose m ((leBytes n v).map BitVec.toNat) = v % 256 ^ n := by
  rw [Engine.compose_eq, leNat_leBytes]

/-- Settles O28: BDEC as a store of the reduced value and BCOMP as a load, in both modes. -/
theorem bytePackIsStoreAndLoad : Obligations.BytePackIsStoreAndLoad := by
  intro s m w rd rs1 rs2 hF
  rw [← Width.bits_eq]
  refine ⟨by simpa [encode] using wordR_toNat_of_engine (op := 0x42) (by decide) 0 rs1 rs2 w m, .store hF ?_,
    by simpa [encode] using wordR_toNat_of_engine (op := 0x43) (by decide) rd rs1 0 w m,
    .access (value := s.mem.natAt (s.addr rs1) (w.bits / 8)) hF rfl ?_ fun _ _ e => exec_of_setReg hF e ?_⟩
  · show command _ s (memWrite ..) = _
    rw [leNat_bytes_engineValue]
    rfl
  · rw [memRead_eq, sgn64_reg]
    rfl
  · rw [compose_leBytes, Nat.mod_eq_of_lt (s.mem.natAt_lt _ _)]

end Sys2Proof.Machine
end

section
/-! PROOFS. The mode bit changes no result: each command that has one runs the same pseudocode in both modes, because the operations of the
two datapaths have one closed form where the command uses them (43_engine.md R203, 44_limb.md R254). -/

namespace Sys2Proof.Machine

/-! ### Two commands with one pseudocode -/

/-- Both outcomes are next states, equal but for FAULTCMD, and equal throughout unless the command faults. -/
def ModesAgree (s : State) (o o' : Host.Outcome State Fault Refusal) : Prop :=
  ∃ t u, o = .next t ∧ o' = .next u ∧ u = { t with faultCmd := u.faultCmd } ∧ (t.fault = false ∨ s.fault = true → u = t)

theorem ModesAgree.of_pseudocode {i j : Instr} {s : State} {body body' : Except Raise State} (hi : exec i s = command i s body)
    (hj : exec j s = command j s body') (h : body = body') : ModesAgree s (exec i s) (exec j s) := by
  subst h
  rw [hi, hj]
  cases hF : s.fault with
  | true => exact ⟨s, s, command_halted hF, command_halted hF, rfl, fun _ => rfl⟩
  | false =>
    cases body with
    | ok t => exact ⟨_, _, command_ok hF, command_ok hF, rfl, fun _ => rfl⟩
    | error r => exact ⟨_, _, command_error hF, command_error hF, rfl, fun h => absurd h (by simp [State.latched, hF])⟩

theorem ModesAgree.refl (i : Instr) (s : State) : ModesAgree s (exec i s) (exec i s) := by
  obtain ⟨_, e, -⟩ := exec_keeping i s
  exact .of_pseudocode e e rfl

/-! ### Pseudocodes that differ in an operation -/

section

variable {s : State} {w : Width} {rd rs1 rs2 : Reg}

theorem bind_congr_ok {α β : Type} {x : Except Raise α} {f g : α → Except Raise β} (h : ∀ a, x = .ok a → f a = g a) :
    (x >>= f) = (x >>= g) := by
  cases x with
  | ok a => exact h a rfl
  | error e => rfl

theorem shiftBy_congr {op op' : Nat → Nat → Nat × Nat} {aligned : Bool}
    (h : ∀ v n, v < 2 ^ w.bits → n ≤ w.bits → op v n = op' v n) :
    shiftBy op aligned w rd rs1 rs2 s = shiftBy op' aligned w rd rs1 rs2 s :=
  bind_congr_ok fun _ hn => by
    rw [require_eq_ok] at hn
    rw [h _ _ (s.engineValue_lt w rs1) (by omega)]

theorem bitAt_congr {op op' : Nat → Nat → Nat} (h : ∀ v k, op v k = op' v k) : bitAt op w rd rs1 rs2 s = bitAt op' w rd rs1 rs2 s :=
  bind_congr_ok fun _ _ => by rw [h]

theorem extendFrom_congr {op op' : Nat → Nat → Nat} (h : ∀ v f, 1 ≤ f → f ≤ w.bits → op v f = op' v f) :
    extendFrom op w rd rs1 rs2 s = extendFrom op' w rd rs1 rs2 s :=
  bind_congr_ok fun _ hf => by
    rw [require_eq_ok] at hf
    rw [h _ _ (by omega) (by omega)]

theorem setReg_congr {v v' : Nat} (h : v = v') : (.ok (s.setReg rd v) : Except Raise State) = .ok (s.setReg rd v') := by rw [h]

/-- A 128-bit operand that is read is below 2^128. -/
theorem readVal_congr {β : Type} {r : Reg} {f g : Nat → Except Raise β} (h : ∀ a, a < 2 ^ 128 → f a = g a) :
    (readVal s r >>= f) = (readVal s r >>= g) :=
  bind_congr_ok fun a ha => h a (readVal_lt s r ha)

/-- Two 128-bit operands. -/
theorem operands_congr {f g : Nat → Nat → Except Raise State} {r r' r'' : Reg}
    (h : ∀ a b, a < 2 ^ 128 → b < 2 ^ 128 → f a b = g a b) :
    (do requireHeap s r; let a ← readVal s r'; let b ← readVal s r''; f a b) =
      (do requireHeap s r; let a ← readVal s r'; let b ← readVal s r''; g a b) :=
  bind_congr_ok fun _ _ => readVal_congr fun a ha => readVal_congr fun b hb => h a b ha hb

/-- A shift count and a 128-bit operand. -/
theorem shifted_congr {f g : Nat → Nat → Except Raise State} {r r' r'' : Reg}
    (h : ∀ n a, n ≤ 128 → a < 2 ^ 128 → f n a = g n a) :
    (do requireHeap s r; let n ← shiftCount s r''; let a ← readVal s r'; f n a) =
      (do requireHeap s r; let n ← shiftCount s r''; let a ← readVal s r'; g n a) :=
  bind_congr_ok fun _ _ => bind_congr_ok fun n hn => readVal_congr fun a ha => h n a (shiftCount_le s r'' hn) ha

end

theorem negate128_eq (m : Mode) {a : Nat} (ha : a < 2 ^ 128) : negate128 m a = (2 ^ 128 - 1 - a + 1) % 2 ^ 128 := by
  rw [negate128, Engine.not_eq m ha, Engine.add128_eq m (by omega) (by decide)]

/-! ### Every command -/

/-- The two modes of a command agree. -/
theorem exec_modes_agree (i : Instr) (s : State) : ModesAgree s (exec (i.withMode .native) s) (exec (i.withMode .arithmetic) s) := by
  have value := s.engineValue_lt
  cases i with
  -- Engine commands
  | shl | bshl => exact .of_pseudocode rfl rfl (shiftBy_congr fun _ _ _ _ => by simp only [Engine.shl_eq])
  | shr | bshr => exact .of_pseudocode rfl rfl (shiftBy_congr fun _ _ hv hn => by simp only [Engine.sar_eq _ hv hn])
  | ushr | bushr => exact .of_pseudocode rfl rfl (shiftBy_congr fun _ _ _ _ => by simp only [Engine.ushr_eq])
  | and _ w rd rs1 rs2 => exact .of_pseudocode rfl rfl (setReg_congr (by simp only [Engine.and_eq _ (value w rs1)]))
  | or _ w rd rs1 rs2 => exact .of_pseudocode rfl rfl (setReg_congr (by simp only [Engine.or_eq _ (value w rs1) (value w rs2)]))
  | xor _ w rd rs1 rs2 => exact .of_pseudocode rfl rfl (setReg_congr (by simp only [Engine.xor_eq _ (value w rs1) (value w rs2)]))
  | not _ w rd rs1 => exact .of_pseudocode rfl rfl (setReg_congr (by simp only [Engine.not_eq _ (value w rs1)]))
  | btest => exact .of_pseudocode rfl rfl (bitAt_congr fun _ _ => by simp only [Engine.test_eq])
  | bset => exact .of_pseudocode rfl rfl (bitAt_congr fun _ _ => by simp only [Engine.set_eq])
  | bclr => exact .of_pseudocode rfl rfl (bitAt_congr fun _ _ => by simp only [Engine.clr_eq])
  | btgl => exact .of_pseudocode rfl rfl (bitAt_congr fun _ _ => by simp only [Engine.tgl_eq])
  | popcnt => exact .of_pseudocode rfl rfl (setReg_congr (by simp only [Engine.pop_eq]))
  | mask => exact .of_pseudocode rfl rfl (bind_congr_ok fun _ _ => setReg_congr (by simp only [Engine.mask_eq]))
  | sext => exact .of_pseudocode rfl rfl (extendFrom_congr fun _ _ h1 hf => by simp only [Engine.sext_eq _ _ _ h1 hf])
  | zext => exact .of_pseudocode rfl rfl (extendFrom_congr fun _ _ _ _ => by simp only [Engine.zext_eq])
  | bdec => exact .of_pseudocode rfl rfl (by simp only [leNat_bytes_engineValue])
  | bcomp => exact .of_pseudocode rfl rfl (bind_congr_ok fun _ _ => setReg_congr (by simp only [compose_leBytes]))
  -- Limb and 128-bit typed commands
  | addh | uadd | sadd => exact .of_pseudocode rfl rfl (operands_congr fun _ _ ha hb => by simp only [Engine.add128_eq _ ha hb])
  | subh | usub | ssub => exact .of_pseudocode rfl rfl (operands_congr fun _ _ ha hb => by simp only [Engine.sub128_eq _ ha hb])
  | shlh | ushl => exact .of_pseudocode rfl rfl (shifted_congr fun _ _ hn ha => by simp only [Engine.shiftLeft128_eq _ ha hn])
  | shrh | usrl | ssar => exact .of_pseudocode rfl rfl (shifted_congr fun _ _ _ ha => by simp only [Engine.shiftRight128_eq _ ha])
  | sneg => exact .of_pseudocode rfl rfl (bind_congr_ok fun _ _ => readVal_congr fun _ ha => by simp only [negate128_eq _ ha])
  | sshl => exact .of_pseudocode rfl rfl rfl
  -- Commands that have no mode bit
  | _ => exact .refl _ s

/-- Settles O29: the two modes of each command run one pseudocode, which completes or raises in both. -/
theorem modeChangesNoResult : Obligations.ModeChangesNoResult := exec_modes_agree

end Sys2Proof.Machine
end

section
/-! PROOFS. The shapes the limb and 128-bit commands share: the number of their words, the tests of their operands and counts in the
written order, and what a write of a 128-bit value leaves (44_limb.md R250, R253). -/

namespace Sys2Proof

/-- The number of the word of a command with a mode and no width (30_encoding.md R91, R96). -/
theorem wordR_toNat_of_wide {op : Nat} (h : op < 256) (rd rs1 rs2 rs3 : Reg) (m : Mode) :
    (wordR op rd rs1 rs2 rs3 0 m.select).toNat =
      op + rd.val * 2 ^ 8 + rs1.val * 2 ^ 12 + rs2.val * 2 ^ 16 + rs3.val * 2 ^ 20 + m.select * 2 ^ 26 := by
  simpa using wordR_toNat op h rd rs1 rs2 rs3 0 _ (by decide) m.select_lt

end Sys2Proof

namespace Sys2Proof.Machine

theorem State.val128_lt (s : State) (r : Reg) : s.val128 r < 2 ^ 128 := s.mem.natAt_lt (s.addr r) 16

namespace Tests

variable {i : Instr} {s : State} {rs1 rs2 rs3 : Reg} {tests : List (Prop × Nat × Nat)} {done : Prop}

/-- Where every test holds, the command does what it does when all hold. -/
theorem completes (h : Tests i s tests done) (hold : tests.Forall Prod.fst) : done := by
  induction tests with
  | nil => exact h
  | cons t tests ih =>
    obtain ⟨ht, hold⟩ := (List.forall_cons _ _ _).1 hold
    exact ih (h.2 ht) hold

/-- A pseudocode that begins with a read of a 128-bit value. -/
theorem readVal {rest : Nat → Except Raise State} (hF : s.fault = false) (hi : s.init = true)
    (h : exec i s = command i s (Machine.readVal s rs1 >>= rest))
    (next : exec i s = command i s (rest (s.val128 rs1)) → Tests i s tests done) :
    Tests i s ((s.InRange rs1 16, 6, s.reg rs1) :: tests) done :=
  .memRead hF hi h fun _ => next

/-- A pseudocode that tests for the heap and reads two 128-bit values (R250). -/
theorem operands {r : Reg} {rest : Nat → Nat → Except Raise State} (hF : s.fault = false)
    (h : exec i s = command i s do
      requireHeap s r
      let a ← Machine.readVal s rs2
      let b ← Machine.readVal s rs3
      rest a b)
    (next : s.init = true → exec i s = command i s (rest (s.val128 rs2) (s.val128 rs3)) → Tests i s tests done) :
    Tests i s
      ((s.init = true, 7, s.reg r) :: (s.InRange rs2 16, 6, s.reg rs2) :: (s.InRange rs3 16, 6, s.reg rs3) :: tests) done :=
  .require (kind := .heapState) hF h fun hi e => .readVal hF hi e fun e => .readVal hF hi e (next hi)

/-- A pseudocode that tests for the heap, tests a shift count and reads a 128-bit value (R250, R253). -/
theorem countAndOperand {r : Reg} {rest : Nat → Nat → Except Raise State} (hF : s.fault = false)
    (h : exec i s = command i s do
      requireHeap s r
      let n ← shiftCount s rs3
      let a ← Machine.readVal s rs2
      rest n a)
    (next : s.init = true → (s.regInt rs3).toNat ≤ 128 → exec i s = command i s (rest (s.regInt rs3).toNat (s.val128 rs2)) →
      Tests i s tests done) :
    Tests i s
      ((s.init = true, 7, s.reg r) :: (0 ≤ s.regInt rs3 ∧ s.regInt rs3 ≤ 128, 2, s.reg rs3) ::
        (s.InRange rs2 16, 6, s.reg rs2) :: tests) done := by
  refine .require (kind := .heapState) hF h fun hi e => ?_
  rw [shiftCount, bind_assoc] at e
  exact .require (kind := .invalidArgument) hF e fun ⟨_, hn⟩ e => .readVal hF hi e (next hi (by omega))

/-- A pseudocode that ends with a write of `n` bytes and an update of registers: where the heap exists, the range of the write is the
last test. -/
theorem lastWrite {n v : Nat} {f : State → State} (hF : s.fault = false) (hi : s.init = true)
    (h : exec i s = command i s (Machine.memWrite s (s.reg rs1) n v >>= fun t => .ok (f t))) :
    Tests i s [(s.InRange rs1 n, 6, s.reg rs1)]
      (∃ m, s.mem.Wrote m (s.addr rs1) n v ∧ exec i s = .next (f { s with mem := m }).complete) :=
  .memWrite hF hi h rfl fun _ e => ⟨_, s.mem.wrote_store _ n v, e.trans (command_ok hF)⟩

/-- A pseudocode that tests for the heap and writes a 128-bit value. -/
theorem initialise {v : Nat} (hF : s.fault = false) (h : exec i s = command i s (requireHeap s rs1 >>= fun _ => writeVal s rs1 v)) :
    Tests i s [(s.init = true, 7, s.reg rs1), (s.InRange rs1 16, 6, s.reg rs1)]
      (∃ m, s.mem.Wrote m (s.addr rs1) 16 v ∧ exec i s = .next { s with mem := m, cmdseq := s.cmdseq + 1 }) :=
  .require (kind := .heapState) hF h fun hi e => (Tests.store hF e).2 hi

end Tests

end Sys2Proof.Machine
end

section
/-! PROOFS. The limb commands: the tests of each in the written order, and the value, carry, order, spill or text it leaves, by the
closed forms of the limb loops (44_limb.md R250 to R263). -/

namespace Sys2Proof.Machine

variable {i : Instr} {s : State} {rd rs1 rs2 rs3 : Reg}

/-- Settles O30: each loop by what it has after its eight limbs. -/
theorem limbLoopsHaveClosedForms : Obligations.LimbLoopsHaveClosedForms := fun _ _ _ ha hb hn =>
  ⟨Arith.add128_eq ha hb, Arith.sub128_eq ha hb, Arith.shiftLeft128_eq ha hn, Arith.shiftRight128_eq ha⟩

/-! ### Addition and subtraction (R255, R256) -/

/-- The tests of ADDH and SUBH, and the state they leave; `op` answers the value to write and the carry or borrow. -/
theorem Tests.carried {op : Nat → Nat → Nat × Nat} {v c : Nat} (hF : s.fault = false)
    (h : exec i s = command i s do
      requireHeap s rs1
      let a ← Machine.readVal s rs2
      let b ← Machine.readVal s rs3
      let r := op a b
      let t ← writeVal s rs1 r.1
      pure ((t.setLimbCarry r.2).setReg rd r.2))
    (hop : op (s.val128 rs2) (s.val128 rs3) = (v, c)) :
    Tests i s
      [(s.init = true, 7, s.reg rs1), (s.InRange rs2 16, 6, s.reg rs2), (s.InRange rs3 16, 6, s.reg rs3),
        (s.InRange rs1 16, 6, s.reg rs1)]
      (∃ mem', s.mem.Wrote mem' (s.addr rs1) 16 v ∧
        exec i s =
          .next
            { s with
              mem := mem', carryLo := BitVec.ofNat 64 c, carryHi := 0, flagV := decide (c = 1)
              x := s.x.set rd.val (BitVec.ofNat 64 c), cmdseq := s.cmdseq + 1 }) := by
  refine .operands hF h fun hi e => ?_
  simp only [hop] at e
  exact .lastWrite hF hi e

/-- Settles O31: the sum and the difference in closed form in both modes. -/
theorem addhSubhReportTheCarry : Obligations.AddhSubhReportTheCarry := by
  intro mk op res carry hmk s m rd rs1 rs2 rs3 hF
  have ha := s.val128_lt rs2
  have hb := s.val128_lt rs3
  have word (hop : op < 256) := wordR_toNat_of_wide hop rd rs1 rs2 rs3 m
  simp only [List.mem_cons, Prod.mk.injEq, List.not_mem_nil, or_false] at hmk
  rcases hmk with ⟨rfl, rfl, rfl, rfl⟩ | ⟨rfl, rfl, rfl, rfl⟩
  · exact ⟨word (by decide), .carried hF rfl (Engine.add128_eq m ha hb)⟩
  · exact ⟨word (by decide), .carried hF rfl (Engine.sub128_eq m ha hb)⟩

/-! ### Comparison (R257, R292) -/

/-- Comparing the low `n` limbs from the top down orders the numbers they make. -/
theorem compareLimbs_eq_signedOrder (a b n : Nat) :
    compareLimbs a b (List.range n).reverse = signedOrder (a % 2 ^ (16 * n) : Nat) (b % 2 ^ (16 * n) : Nat) := by
  induction n with
  | zero => simp [compareLimbs, signedOrder, Nat.mod_one]
  | succ n ih =>
    have lowA := Nat.mod_lt a (Nat.two_pow_pos (16 * n))
    have lowB := Nat.mod_lt b (Nat.two_pow_pos (16 * n))
    rw [List.range_succ, List.reverse_append, List.reverse_singleton, List.singleton_append, compareLimbs, ih, mod_limb_succ,
      mod_limb_succ]
    unfold signedOrder
    rcases Nat.lt_trichotomy (limb a n) (limb b n) with hlt | heq | hgt
    · have := Nat.mul_le_mul_right (2 ^ (16 * n)) hlt
      rw [Nat.succ_mul] at this
      rw [if_pos hlt, if_pos (by omega)]
    · simp only [heq, Nat.lt_irrefl, if_false, Nat.cast_add, add_lt_add_iff_right, add_left_inj]
    · have := Nat.mul_le_mul_right (2 ^ (16 * n)) hgt
      rw [Nat.succ_mul] at this
      rw [if_neg (Nat.lt_asymm hgt), if_pos hgt, if_neg (by omega), if_neg (by omega)]

/-- The comparison of all eight limbs is the unsigned order. -/
theorem compareLimbs_eq {a b : Nat} (ha : a < 2 ^ 128) (hb : b < 2 ^ 128) :
    compareLimbs a b [7, 6, 5, 4, 3, 2, 1, 0] = signedOrder a b := by
  have h := compareLimbs_eq_signedOrder a b 8
  rwa [Nat.mod_eq_of_lt ha, Nat.mod_eq_of_lt hb] at h

/-- The signed reading of a 128-bit value is that of its pattern (45_int128.md R281). -/
theorem sgn128_eq_signed128 {v : Nat} (hv : v < 2 ^ 128) : sgn128 v = signed128 v := by
  rw [signed128, BitVec.toInt_eq_toNat_cond, BitVec.toNat_ofNat, Nat.mod_eq_of_lt hv, sgn128]
  split <;> split <;> omega

/-- An order as a register holds it. -/
theorem ofNat_wrapInt_signedOrder (a b : Int) :
    BitVec.ofNat 64 (wrapInt 64 (signedOrder a b)) = if a < b then 0xFFFFFFFFFFFFFFFF else if a = b then 0 else 1 := by
  unfold signedOrder
  split_ifs <;> rfl

/-- The tests of CMPH and SCMP, and the register they leave; `order` compares the two values as `reading` reads them. -/
theorem Tests.ordered {order : Nat → Nat → Int} {reading : Nat → Int} (hF : s.fault = false)
    (h : exec i s = command i s do
      requireHeap s rs1
      let a ← Machine.readVal s rs1
      let b ← Machine.readVal s rs2
      pure (s.setReg rd (wrapInt 64 (order a b))))
    (horder : ∀ a b, a < 2 ^ 128 → b < 2 ^ 128 → order a b = signedOrder (reading a) (reading b)) :
    let a := reading (s.val128 rs1)
    let b := reading (s.val128 rs2)
    Tests i s [(s.init = true, 7, s.reg rs1), (s.InRange rs1 16, 6, s.reg rs1), (s.InRange rs2 16, 6, s.reg rs2)]
      (exec i s =
        .next { s with x := s.x.set rd.val (if a < b then 0xFFFFFFFFFFFFFFFF else if a = b then 0 else 1), cmdseq := s.cmdseq + 1 }) := by
  refine .operands hF h fun _ e => e.trans ?_
  rw [horder _ _ (s.val128_lt rs1) (s.val128_lt rs2), ← ofNat_wrapInt_signedOrder]
  exact command_ok hF

/-- Settles O32: the order of the limbs is that of the values, and the signed readings are those of the patterns. -/
theorem comparisonsGiveTheOrder : Obligations.ComparisonsGiveTheOrder := by
  intro mk op reading hmk s rd rs1 rs2 hF
  have word (hop : op < 256) := wordR_toNat_of_plain hop rd rs1 rs2 0
  simp only [List.mem_cons, Prod.mk.injEq, List.not_mem_nil, or_false] at hmk
  rcases hmk with ⟨rfl, rfl, rfl⟩ | ⟨rfl, rfl, rfl⟩
  · exact ⟨by simpa [encode] using word (by decide), .ordered hF rfl fun _ _ => compareLimbs_eq⟩
  · refine ⟨by simpa [encode] using word (by decide), .ordered hF rfl fun a b ha hb => ?_⟩
    rw [sgn128_eq_signed128 ha, sgn128_eq_signed128 hb]

/-! ### Shifts (R258, R259) -/

/-- The tests of SHLH and SHRH, and the state they leave; `op` answers the value to write and the spill. -/
theorem Tests.spilled {op : Nat → Nat → Nat × Nat} {v sp : Nat} (hF : s.fault = false)
    (h : exec i s = command i s do
      requireHeap s rs1
      let n ← shiftCount s rs3
      let a ← Machine.readVal s rs2
      let r := op a n
      let t ← writeVal s rs1 r.1
      pure (t.setSpill r.2))
    (hop : (s.regInt rs3).toNat ≤ 128 → op (s.val128 rs2) (s.regInt rs3).toNat = (v, sp)) (hsp : sp < 2 ^ (s.regInt rs3).toNat) :
    Tests i s
      [(s.init = true, 7, s.reg rs1), (0 ≤ s.regInt rs3 ∧ s.regInt rs3 ≤ 128, 2, s.reg rs3), (s.InRange rs2 16, 6, s.reg rs2),
        (s.InRange rs1 16, 6, s.reg rs1)]
      (sp < 2 ^ 128 ∧
        ∃ mem', s.mem.Wrote mem' (s.addr rs1) 16 v ∧
          exec i s =
            .next
              { s with
                mem := mem', carryLo := BitVec.ofNat 64 (sp % 2 ^ 64), carryHi := BitVec.ofNat 64 (sp / 2 ^ 64)
                flagV := decide (sp ≠ 0), cmdseq := s.cmdseq + 1 }) := by
  refine .countAndOperand hF h fun hi hn e => ?_
  simp only [hop hn] at e
  obtain ⟨outside, inside⟩ := Tests.lastWrite hF hi e
  exact ⟨outside, fun hr => ⟨Nat.lt_of_lt_of_le hsp (Nat.pow_le_pow_right Nat.two_pos hn), inside hr⟩⟩

/-- Settles O33: the shifts in closed form in both modes, with a spill of as many bits as the count says. -/
theorem limbShiftsKeepTheSpill : Obligations.LimbShiftsKeepTheSpill := by
  intro mk op res spill hmk s m rs1 rs2 rs3 hF
  have ha := s.val128_lt rs2
  have word (hop : op < 256) := wordR_toNat_of_wide hop 0 rs1 rs2 rs3 m
  simp only [List.mem_cons, Prod.mk.injEq, List.not_mem_nil, or_false] at hmk
  rcases hmk with ⟨rfl, rfl, rfl, rfl⟩ | ⟨rfl, rfl, rfl, rfl⟩
  · exact ⟨by simpa [encode] using word (by decide),
      .spilled (op := Engine.shiftLeft128 m) hF rfl (Engine.shiftLeft128_eq m ha) (shl_spill_lt ha)⟩
  · exact ⟨by simpa [encode] using word (by decide),
      .spilled (op := Engine.shiftRight128 m) hF rfl (fun _ => Engine.shiftRight128_eq m ha _) (Nat.mod_lt _ (Nat.two_pow_pos _))⟩

/-! ### Initialisation (R260, R261, R286) -/

/-- A register's signed reading, stored in 128 bits, is the register sign-extended. -/
theorem wrapInt_regInt (s : State) (r : Reg) : wrapInt 128 (s.regInt r) = (s.x[r].signExtend 128).toNat := by
  have hsigned : (s.x[r].signExtend 128).toInt = s.regInt r := BitVec.toInt_signExtend_of_le (by decide)
  have hpattern := toNat_eq_toInt_emod (s.x[r].signExtend 128)
  rw [wrapInt, ← hsigned, ← hpattern, Int.toNat_natCast]

/-- Settles O34: each of the three writes its 128-bit value. -/
theorem wideInitialisers : Obligations.WideInitialisers := by
  intro s rs1 rs2 hF
  have word {op : Nat} (hop : op < 256) (rs2 : Reg) := wordR_toNat_of_plain hop 0 rs1 rs2 0
  exact ⟨by simpa [encode] using word (op := 0x55) (by decide) 0, .initialise hF rfl,
    by simpa [encode] using word (op := 0x56) (by decide) rs2, .initialise hF rfl,
    by simpa [encode] using word (op := 0x68) (by decide) rs2, wrapInt_regInt s rs2 ▸ .initialise hF rfl⟩

/-! ### Text (R262) -/

/-- `n` digits to the base 256 make a number of `n` bytes. -/
theorem sumTo_bytes_lt {f : Nat → Nat} (hf : ∀ k, f k < 256) (n : Nat) : sumTo n (fun k => f k * 256 ^ k) < 256 ^ n := by
  induction n with
  | zero => exact Nat.one_pos
  | succ n ih =>
    have top := Nat.mul_le_mul_right (256 ^ n) (Nat.le_of_lt_succ (hf n))
    rw [sumTo, Nat.pow_succ]
    omega

/-- Byte `j` of a sum of digits to the base 256 is digit `j`. -/
theorem sumTo_bytes_digit {f : Nat → Nat} (hf : ∀ k, f k < 256) {n j : Nat} (hj : j < n) :
    sumTo n (fun k => f k * 256 ^ k) / 256 ^ j % 256 = f j := by
  induction n with
  | zero => omega
  | succ n ih =>
    rw [sumTo]
    rcases Nat.lt_succ_iff_lt_or_eq.1 hj with hlt | rfl
    · obtain ⟨d, rfl⟩ := Nat.exists_eq_add_of_lt hlt
      have multiple : f (j + d + 1) * 256 ^ (j + d + 1) = f (j + d + 1) * 256 ^ d * 256 * 256 ^ j := by ring
      rw [multiple, Nat.add_mul_div_right _ _ (by positivity), Nat.add_mul_mod_self_right, ih hlt]
    · rw [Nat.add_mul_div_right _ _ (by positivity), Nat.div_eq_of_lt (sumTo_bytes_lt hf j), Nat.zero_add, Nat.mod_eq_of_lt (hf j)]

/-- The code of a hexadecimal digit is one byte. -/
theorem hexChar_digit_lt (v : Nat) : hexChar (v % 16) < 256 := by
  unfold hexChar
  split <;> omega

/-- Character `j` of the text is that of digit `31 - j`. -/
theorem hexText_byte (a : Nat) {j : Nat} (hj : j < 32) : hexText a / 256 ^ j % 256 = hexChar (a / 16 ^ (31 - j) % 16) :=
  sumTo_bytes_digit (f := fun j => hexChar (a / 16 ^ (31 - j) % 16)) (fun _ => hexChar_digit_lt _) hj

/-- Settles O35: the 32 bytes written are the characters of the text. -/
theorem hexhWritesText : Obligations.HexhWritesText := by
  intro s rs1 rs2 hF
  refine ⟨by simpa [encode] using wordR_toNat_of_plain (op := 0x57) (by decide) 0 rs1 rs2 0, ?_⟩
  refine .require (kind := .heapState) hF rfl fun hi e => .readVal hF hi e fun e => ?_
  obtain ⟨outside, inside⟩ := (Tests.store hF e).2 hi
  refine ⟨outside, fun hr => ?_⟩
  obtain ⟨m, hwrote, hnext⟩ := inside hr
  refine ⟨m, fun j hj => ?_, fun a => hwrote.read_other, hnext⟩
  rw [hwrote, if_pos (by omega), Nat.add_sub_cancel_left, BitVec.toNat_ofNat]
  exact hexText_byte _ hj

/-! ### Round trips (R263) -/

namespace Engine

variable (m : Mode) {a b n : Nat}

/-- A sum that fits has no carry. -/
theorem add128_of_fits (h : a + b < 2 ^ 128) : add128 m a b = (a + b, 0) := by
  rw [add128_eq m (by omega) (by omega), Nat.mod_eq_of_lt h, Nat.div_eq_of_lt h]

/-- A sum that fits, less its first operand, is the second. -/
theorem sub128_sum (h : a + b < 2 ^ 128) : sub128 m (a + b) a = (b, 0) := by
  rw [sub128_eq m h (by omega), if_neg (by omega), show a + b + 2 ^ 128 - a = b + 2 ^ 128 by omega, Nat.add_mod_right,
    Nat.mod_eq_of_lt (by omega)]

/-- A product that fits has no spill. -/
theorem shiftLeft128_of_fits (ha : a < 2 ^ 128) (hn : n ≤ 128) (h : a * 2 ^ n < 2 ^ 128) : shiftLeft128 m a n = (a * 2 ^ n, 0) := by
  rw [shiftLeft128_eq m ha hn, Nat.mod_eq_of_lt h, Nat.div_eq_of_lt h]

/-- A product that fits, shifted back, spills nothing. -/
theorem shiftRight128_product (h : a * 2 ^ n < 2 ^ 128) : shiftRight128 m (a * 2 ^ n) n = (a, 0) := by
  rw [shiftRight128_eq m h, Nat.mul_div_cancel _ (Nat.two_pow_pos n), Nat.mul_mod_left]

end Engine

/-- A write of one register leaves the others. -/
theorem State.regInt_eq_of_set {t : State} {r : Reg} {v : Word} (hx : t.x = s.x.set rd.val v) (hr : rd ≠ r) :
    t.regInt r = s.regInt r := by
  have hne : rd.val ≠ r.val := fun h => hr (Fin.ext h)
  simp [State.regInt, hx, hne]

section

variable {rs4 : Reg} (m m' : Mode) (hF : s.fault = false) (hi : s.init = true) (h1 : s.InRange rs1 16) (h2 : s.InRange rs2 16)
  (h4 : s.InRange rs4 16)

include hF hi h1 h2 h4

/-- ADDH and then SUBH of the sum and the first operand gives the second operand with borrow 0, where the sum was written apart from the
first. -/
theorem addh_subh_roundTrip (rd rd' : Reg) :
    s.InRange rs3 16 → rd ≠ rs1 → rd ≠ rs2 → rd ≠ rs4 → s.addr rs1 + 16 ≤ s.addr rs2 ∨ s.addr rs2 + 16 ≤ s.addr rs1 →
    s.val128 rs2 + s.val128 rs3 < 2 ^ 128 →
    ∃ t u, exec (.addh m rd rs1 rs2 rs3) s = .next t ∧ t.x[rd] = 0 ∧
      exec (.subh m' rd' rs4 rs1 rs2) t = .next u ∧ u.x[rd'] = 0 ∧ u.mem.natAt (s.addr rs4) 16 = s.val128 rs3 := by
  intro h3 hd1 hd2 hd4 apart fits
  have addh := Tests.carried (i := .addh m rd rs1 rs2 rs3) (op := Engine.add128 m) hF rfl (Engine.add128_of_fits m fits)
  obtain ⟨mem, hsum, hnext⟩ := addh.completes ⟨hi, h2, h3, h1⟩
  obtain ⟨t, ht, hFt, hit, hx, hcap, rfl⟩ : ∃ t, exec (.addh m rd rs1 rs2 rs3) s = .next t ∧
      t.fault = false ∧ t.init = true ∧ t.x = s.x.set rd.val 0 rd.isLt ∧ t.cap = s.cap ∧ t.mem = mem :=
    ⟨_, hnext, hF, hi, rfl, rfl, rfl⟩
  have address {r : Reg} (hr : rd ≠ r) : t.addr r = s.addr r := congrArg Int.toNat (State.regInt_eq_of_set hx hr)
  have inRange {r : Reg} (hr : rd ≠ r) (h : s.InRange r 16) : t.InRange r 16 := by
    rwa [State.InRange, State.regInt_eq_of_set hx hr, hcap]
  have sum : t.val128 rs1 = s.val128 rs2 + s.val128 rs3 := by
    rw [State.val128, address hd1, hsum.natAt_same]
    exact Nat.mod_eq_of_lt fits
  have first : t.val128 rs2 = s.val128 rs2 := by
    rw [State.val128, address hd2, hsum.natAt_other apart.symm]
    rfl
  have subh := Tests.carried (i := .subh m' rd' rs4 rs1 rs2) (op := Engine.sub128 m') hFt rfl
    (by rw [sum, first, Engine.sub128_sum m' fits])
  obtain ⟨mem', hdiff, hnext'⟩ := subh.completes ⟨hit, inRange hd1 h1, inRange hd2 h2, inRange hd4 h4⟩
  refine ⟨t, _, ht, by simp [hx], hnext', by simp, ?_⟩
  rw [← address hd4, hdiff.natAt_same]
  exact Nat.mod_eq_of_lt (s.val128_lt rs3)

/-- SHLH that spills nothing and then SHRH of the result gives the old value with spill 0. -/
theorem shlh_shrh_roundTrip :
    0 ≤ s.regInt rs3 → s.regInt rs3 ≤ 128 → s.val128 rs2 * 2 ^ (s.regInt rs3).toNat < 2 ^ 128 →
    ∃ t u, exec (.shlh m rs1 rs2 rs3) s = .next t ∧ t.carryLo = 0 ∧ t.carryHi = 0 ∧
      exec (.shrh m' rs4 rs1 rs3) t = .next u ∧ u.carryLo = 0 ∧ u.carryHi = 0 ∧ u.mem.natAt (s.addr rs4) 16 = s.val128 rs2 := by
  intro h0 hn fits
  have shlh := Tests.spilled (i := .shlh m rs1 rs2 rs3) (op := Engine.shiftLeft128 m) hF rfl
    (fun hn => Engine.shiftLeft128_of_fits m (s.val128_lt rs2) hn fits) (Nat.two_pow_pos _)
  obtain ⟨-, mem, hshifted, hnext⟩ := shlh.completes ⟨hi, ⟨h0, hn⟩, h2, h1⟩
  obtain ⟨t, ht, hFt, hit, hx, hcap, hlo, hhi, rfl⟩ : ∃ t, exec (.shlh m rs1 rs2 rs3) s = .next t ∧
      t.fault = false ∧ t.init = true ∧ t.x = s.x ∧ t.cap = s.cap ∧ t.carryLo = 0 ∧ t.carryHi = 0 ∧ t.mem = mem :=
    ⟨_, hnext, hF, hi, rfl, rfl, rfl, rfl, rfl⟩
  have register (r : Reg) : t.regInt r = s.regInt r := by rw [State.regInt, hx, State.regInt]
  have address (r : Reg) : t.addr r = s.addr r := congrArg Int.toNat (register r)
  have inRange {r : Reg} (h : s.InRange r 16) : t.InRange r 16 := by rwa [State.InRange, register, hcap]
  have product : t.val128 rs1 = s.val128 rs2 * 2 ^ (s.regInt rs3).toNat := by
    rw [State.val128, address, hshifted.natAt_same]
    exact Nat.mod_eq_of_lt fits
  have shrh := Tests.spilled (i := .shrh m' rs4 rs1 rs3) (op := Engine.shiftRight128 m') hFt rfl
    (fun _ => by rw [product, register, Engine.shiftRight128_product m' fits]) (Nat.two_pow_pos _)
  obtain ⟨-, mem', hback, hnext'⟩ := shrh.completes ⟨hit, register rs3 ▸ ⟨h0, hn⟩, inRange h1, inRange h4⟩
  refine ⟨t, _, ht, hlo, hhi, hnext', rfl, rfl, ?_⟩
  rw [← address, hback.natAt_same]
  exact Nat.mod_eq_of_lt (s.val128_lt rs2)

end

/-- Settles O36: (a) by the sum ADDH wrote, (b) by the product SHLH wrote. -/
theorem limbRoundTrips : Obligations.LimbRoundTrips := by
  intro s m m' rd rd' rs1 rs2 rs3 rs4 hF hi h1 h2 h4
  exact ⟨addh_subh_roundTrip m m' hF hi h1 h2 h4 rd rd', shlh_shrh_roundTrip m m' hF hi h1 h2 h4⟩

end Sys2Proof.Machine
end

section
/-! PROOFS. The 128-bit typed commands: the tests of each in the written order, among them that the exact result fits its type, and the
pattern of the exact result that each leaves (45_int128.md R280 to R291). -/

namespace Sys2Proof.Machine

variable {i : Instr} {s : State} {rs1 rs2 rs3 : Reg}

/-! ### Results that must fit -/

/-- A pseudocode that ends with the test that a result fits and the write of it: `c` is the test as the command makes it, `v` the value
as the command computes it. -/
theorem Tests.fitting {c fits : Prop} [Decidable c] {kind : FaultKind} {info v result : Nat} (hF : s.fault = false) (hi : s.init = true)
    (h : exec i s = command i s (Machine.require c kind info >>= fun _ => writeVal s rs1 v)) (hfits : c ↔ fits)
    (hresult : fits → v = result) :
    Tests i s [(fits, kind.number.toNat, info), (s.InRange rs1 16, 6, s.reg rs1)]
      (∃ mem', s.mem.Wrote mem' (s.addr rs1) 16 result ∧ exec i s = .next { s with mem := mem', cmdseq := s.cmdseq + 1 }) := by
  rw [← propext hfits] at hresult ⊢
  exact .require hF h fun hc e => hresult hc ▸ (Tests.store hF e).2 hi

/-- The tests of UADD, USUB, SADD and SSUB, and the value they leave; `op` answers the value to write and `c` is the test on the
operands. -/
theorem Tests.fittingOperands {c : Nat → Nat → Prop} [∀ a b, Decidable (c a b)] {kind : FaultKind} {op : Nat → Nat → Nat} {fits : Prop}
    {result : Nat} (hF : s.fault = false)
    (h : exec i s = command i s do
      requireHeap s rs1
      let a ← Machine.readVal s rs2
      let b ← Machine.readVal s rs3
      Machine.require (c a b) kind (s.reg rs2)
      writeVal s rs1 (op a b))
    (hfits : c (s.val128 rs2) (s.val128 rs3) ↔ fits) (hresult : fits → op (s.val128 rs2) (s.val128 rs3) = result) :
    Tests i s
      [(s.init = true, 7, s.reg rs1), (s.InRange rs2 16, 6, s.reg rs2), (s.InRange rs3 16, 6, s.reg rs3),
        (fits, kind.number.toNat, s.reg rs2), (s.InRange rs1 16, 6, s.reg rs1)]
      (∃ mem', s.mem.Wrote mem' (s.addr rs1) 16 result ∧ exec i s = .next { s with mem := mem', cmdseq := s.cmdseq + 1 }) :=
  .operands hF h fun hi e => .fitting hF hi e hfits hresult

/-- The tests of USHL and SSHL, and the value they leave; `op` answers the value to write and `c` is the test on the count and operand. -/
theorem Tests.fittingShift {c : Nat → Nat → Prop} [∀ n a, Decidable (c n a)] {op : Nat → Nat → Nat} {fits : Prop} {result : Nat}
    (hF : s.fault = false)
    (h : exec i s = command i s do
      requireHeap s rs1
      let n ← shiftCount s rs3
      let a ← Machine.readVal s rs2
      Machine.require (c n a) .arithmeticOverflow (s.reg rs3)
      writeVal s rs1 (op n a))
    (hfits : (s.regInt rs3).toNat ≤ 128 → (c (s.regInt rs3).toNat (s.val128 rs2) ↔ fits))
    (hresult : (s.regInt rs3).toNat ≤ 128 → fits → op (s.regInt rs3).toNat (s.val128 rs2) = result) :
    Tests i s
      [(s.init = true, 7, s.reg rs1), (0 ≤ s.regInt rs3 ∧ s.regInt rs3 ≤ 128, 2, s.reg rs3), (s.InRange rs2 16, 6, s.reg rs2),
        (fits, 3, s.reg rs3), (s.InRange rs1 16, 6, s.reg rs1)]
      (∃ mem', s.mem.Wrote mem' (s.addr rs1) 16 result ∧ exec i s = .next { s with mem := mem', cmdseq := s.cmdseq + 1 }) :=
  .countAndOperand hF h fun hi hn e => .fitting hF hi e (hfits hn) (hresult hn)

/-- The tests of USRL and SSAR, which fit whatever they shift out; `op` answers the value to write. -/
theorem Tests.shiftedRight {op : Nat → Nat → Nat} {v : Nat} {done : Prop} (hF : s.fault = false)
    (h : exec i s = command i s do
      requireHeap s rs1
      let n ← shiftCount s rs3
      let a ← Machine.readVal s rs2
      writeVal s rs1 (op n a))
    (hop : op (s.regInt rs3).toNat (s.val128 rs2) = v)
    (next : (s.regInt rs3).toNat ≤ 128 →
      (∃ mem', s.mem.Wrote mem' (s.addr rs1) 16 v ∧ exec i s = .next { s with mem := mem', cmdseq := s.cmdseq + 1 }) → done) :
    Tests i s
      [(s.init = true, 7, s.reg rs1), (0 ≤ s.regInt rs3 ∧ s.regInt rs3 ≤ 128, 2, s.reg rs3), (s.InRange rs2 16, 6, s.reg rs2),
        (s.InRange rs1 16, 6, s.reg rs1)]
      done := by
  refine .countAndOperand hF h fun hi hn e => ?_
  simp only [hop] at e
  obtain ⟨outside, inside⟩ := (Tests.store hF e).2 hi
  exact ⟨outside, fun hr => next hn (inside hr)⟩

/-! ### Unsigned values (R282 to R285) -/

namespace Engine

variable (m : Mode) {a b n : Nat}

/-- A sum carries exactly when it does not fit. -/
theorem add128_carry_eq_zero (ha : a < 2 ^ 128) (hb : b < 2 ^ 128) : (add128 m a b).2 = 0 ↔ a + b < 2 ^ 128 := by
  rw [add128_eq m ha hb]
  exact Nat.div_eq_zero_iff_lt (by decide)

/-- A difference borrows exactly when it is negative. -/
theorem sub128_borrow_eq_zero (ha : a < 2 ^ 128) (hb : b < 2 ^ 128) : (sub128 m a b).2 = 0 ↔ b ≤ a := by
  rw [sub128_eq m ha hb]
  simp

/-- A difference that is not negative is exact. -/
theorem sub128_of_le (ha : a < 2 ^ 128) (h : b ≤ a) : (sub128 m a b).1 = a - b := by
  rw [sub128_eq m ha (by omega)]
  omega

/-- A left shift spills exactly when the product does not fit. -/
theorem shiftLeft128_spill_eq_zero (ha : a < 2 ^ 128) (hn : n ≤ 128) : (shiftLeft128 m a n).2 = 0 ↔ a * 2 ^ n < 2 ^ 128 := by
  rw [shiftLeft128_eq m ha hn]
  exact Nat.div_eq_zero_iff_lt (by decide)

end Engine

/-- Settles O37: no carry and no borrow is that the exact result fits, and then it is what is written. -/
theorem unsignedAddSubtractExact : Obligations.UnsignedAddSubtractExact := by
  intro s m rs1 rs2 rs3 hF
  have ha := s.val128_lt rs2
  have hb := s.val128_lt rs3
  have word {op : Nat} (hop : op < 256) := wordR_toNat_of_wide hop 0 rs1 rs2 rs3 m
  refine ⟨by simpa [encode, Nat.add_assoc] using word (op := 0x60) (by decide), ?uadd,
    by simpa [encode, Nat.add_assoc] using word (op := 0x61) (by decide), ?usub⟩
  case uadd =>
    exact .fittingOperands (kind := .arithmeticOverflow) (op := fun a b => (Engine.add128 m a b).1) hF rfl
      (Engine.add128_carry_eq_zero m ha hb) fun fits => by rw [Engine.add128_of_fits m fits]
  case usub =>
    exact .fittingOperands (kind := .arithmeticUnderflow) (op := fun a b => (Engine.sub128 m a b).1) hF rfl
      (Engine.sub128_borrow_eq_zero m ha hb) (Engine.sub128_of_le m ha)

/-- Settles O38: no spill is that the product fits; the quotient needs no test. -/
theorem unsignedShiftsExact : Obligations.UnsignedShiftsExact := by
  intro s m rs1 rs2 rs3 hF
  have ha := s.val128_lt rs2
  have word {op : Nat} (hop : op < 256) := wordR_toNat_of_wide hop 0 rs1 rs2 rs3 m
  refine ⟨by simpa [encode, Nat.add_assoc] using word (op := 0x62) (by decide), ?ushl,
    by simpa [encode, Nat.add_assoc] using word (op := 0x63) (by decide), ?usrl⟩
  case ushl =>
    exact .fittingShift (op := fun n a => (Engine.shiftLeft128 m a n).1) hF rfl (Engine.shiftLeft128_spill_eq_zero m ha)
      fun hn fits => by rw [Engine.shiftLeft128_of_fits m ha hn fits]
  case usrl =>
    exact .shiftedRight (op := fun n a => (Engine.shiftRight128 m a n).1) hF rfl (by rw [Engine.shiftRight128_eq m ha]) fun _ wrote => wrote

/-! ### Signed values (R281, R287 to R291) -/

/-- A pattern is its signed reading modulo 2^128. -/
theorem signed128_emod {v : Nat} (hv : v < 2 ^ 128) : signed128 v % 2 ^ 128 = v := by
  rw [← toNat_eq_toInt_emod, BitVec.toNat_ofNat, Nat.mod_eq_of_lt hv]

theorem signed128_bounds (v : Nat) : -2 ^ 127 ≤ signed128 v ∧ signed128 v < 2 ^ 127 := ⟨BitVec.le_toInt _, BitVec.toInt_lt⟩

/-- The sign bit says whether the signed reading is negative (R281). -/
theorem neg128_eq {v : Nat} (hv : v < 2 ^ 128) : neg128 v = decide (signed128 v < 0) := by
  have hmod := signed128_emod hv
  have bounds := signed128_bounds v
  rw [neg128, decide_eq_decide]
  omega

/-- An integer in the signed range is the signed reading of its pattern. -/
theorem signed128_wrapInt {v : Int} (hfits : -2 ^ 127 ≤ v ∧ v ≤ 2 ^ 127 - 1) : signed128 (wrapInt 128 v) = v := by
  have hmod : signed128 (wrapInt 128 v) % 2 ^ 128 = (wrapInt 128 v : Nat) := signed128_emod (by rw [wrapInt]; omega)
  have bounds := signed128_bounds (wrapInt 128 v)
  have pattern : (wrapInt 128 v : Int) = v % 2 ^ 128 := Int.toNat_of_nonneg (Int.emod_nonneg _ (by decide))
  omega

/-- Of the integers a sum or a difference can be, those in the signed range are the ones whose pattern has their own sign. -/
theorem neg128_wrapInt_iff {v : Int} (hlo : -2 ^ 128 ≤ v) (hhi : v < 2 ^ 128) :
    neg128 (wrapInt 128 v) = decide (v < 0) ↔ -2 ^ 127 ≤ v ∧ v ≤ 2 ^ 127 - 1 := by
  rw [neg128, wrapInt, decide_eq_decide]
  omega

/-- Not-plus-one is the pattern of the negation. -/
theorem not_plus_one_eq_wrapInt {a : Nat} (ha : a < 2 ^ 128) : (2 ^ 128 - 1 - a + 1) % 2 ^ 128 = wrapInt 128 (-signed128 a) := by
  have hmod := signed128_emod ha
  rw [wrapInt]
  omega

/-- Settles O39: not-plus-one gives the pattern of the negation, which fits once the minimum is excluded. -/
theorem signedNegation : Obligations.SignedNegation := by
  intro s m rs1 rs2 hF
  have ha := s.val128_lt rs2
  refine ⟨by simpa [encode] using wordR_toNat_of_wide (op := 0x69) (by decide) 0 rs1 rs2 0 m, ?_⟩
  refine .require (kind := .heapState) hF rfl fun hi e => .readVal hF hi e fun e => ?_
  refine .require (kind := .arithmeticOverflow) hF e fun hmin e => ?_
  rw [negate128_eq m ha] at e
  obtain ⟨outside, inside⟩ := (Tests.store hF e).2 hi
  refine ⟨outside, fun hr => ⟨?_, by omega, inside hr⟩⟩
  have hmod := signed128_emod ha
  have bounds := signed128_bounds (s.val128 rs2)
  rw [not_plus_one_eq_wrapInt ha, signed128_wrapInt (by omega)]

/-- An overflow test by signs is exact: where `watched` says that the result should have the sign `sign`, the test finds whether it
has; elsewhere the result fits. -/
theorem sign_test_iff_fits {v : Int} {watched : Prop} {sign : Bool} (hlo : -2 ^ 128 ≤ v) (hhi : v < 2 ^ 128)
    (hsign : watched → sign = decide (v < 0)) (hfits : ¬watched → -2 ^ 127 ≤ v ∧ v ≤ 2 ^ 127 - 1) :
    ¬(watched ∧ neg128 (wrapInt 128 v) ≠ sign) ↔ -2 ^ 127 ≤ v ∧ v ≤ 2 ^ 127 - 1 := by
  by_cases hw : watched
  · rw [← neg128_wrapInt_iff hlo hhi, hsign hw]
    simp [hw]
  · exact iff_of_true (fun h => hw h.1) (hfits hw)

section

variable {a b : Nat} (m : Mode) (ha : a < 2 ^ 128) (hb : b < 2 ^ 128)

include ha hb

/-- The sum of two patterns is the pattern of the signed sum. -/
theorem Engine.add128_eq_wrapInt : (Engine.add128 m a b).1 = wrapInt 128 (signed128 a + signed128 b) := by
  have hmodA := signed128_emod ha
  have hmodB := signed128_emod hb
  rw [Engine.add128_eq m ha hb, wrapInt]
  omega

/-- The difference of two patterns is the pattern of the signed difference. -/
theorem Engine.sub128_eq_wrapInt : (Engine.sub128 m a b).1 = wrapInt 128 (signed128 a - signed128 b) := by
  have hmodA := signed128_emod ha
  have hmodB := signed128_emod hb
  rw [Engine.sub128_eq m ha hb, wrapInt]
  omega

/-- Equal signs are the sign of the sum, and a sum of unequal signs fits (R288). -/
theorem sadd_test_iff_fits :
    ¬(neg128 a = neg128 b ∧ neg128 (Engine.add128 m a b).1 ≠ neg128 a) ↔
      -2 ^ 127 ≤ signed128 a + signed128 b ∧ signed128 a + signed128 b ≤ 2 ^ 127 - 1 := by
  have boundsA := signed128_bounds a
  have boundsB := signed128_bounds b
  rw [Engine.add128_eq_wrapInt m ha hb]
  refine sign_test_iff_fits (by omega) (by omega) (fun same => ?_) (fun differ => ?_)
  · rw [neg128_eq ha, neg128_eq hb, decide_eq_decide] at same
    rw [neg128_eq ha, decide_eq_decide]
    omega
  · rw [neg128_eq ha, neg128_eq hb, decide_eq_decide] at differ
    omega

/-- Where the signs are unequal the first is the sign of the difference, and a difference of equal signs fits (R289). -/
theorem ssub_test_iff_fits :
    ¬(neg128 a ≠ neg128 b ∧ neg128 (Engine.sub128 m a b).1 ≠ neg128 a) ↔
      -2 ^ 127 ≤ signed128 a - signed128 b ∧ signed128 a - signed128 b ≤ 2 ^ 127 - 1 := by
  have boundsA := signed128_bounds a
  have boundsB := signed128_bounds b
  rw [Engine.sub128_eq_wrapInt m ha hb]
  refine sign_test_iff_fits (by omega) (by omega) (fun differ => ?_) (fun same => ?_)
  · rw [neg128_eq ha, neg128_eq hb, ne_eq, decide_eq_decide] at differ
    rw [neg128_eq ha, decide_eq_decide]
    omega
  · rw [neg128_eq ha, neg128_eq hb, ne_eq, decide_eq_decide] at same
    omega

end

/-- Settles O40: the tests by signs are exact, and the patterns are those of the exact results. -/
theorem signedAddSubtractExact : Obligations.SignedAddSubtractExact := by
  intro mk op f hmk s m rs1 rs2 rs3 hF
  have ha := s.val128_lt rs2
  have hb := s.val128_lt rs3
  have word (hop : op < 256) := wordR_toNat_of_wide hop 0 rs1 rs2 rs3 m
  simp only [List.mem_cons, Prod.mk.injEq, List.not_mem_nil, or_false] at hmk
  rcases hmk with ⟨rfl, rfl, rfl⟩ | ⟨rfl, rfl, rfl⟩
  · exact ⟨by simpa [encode] using word (by decide),
      .fittingOperands (kind := .arithmeticOverflow) (op := fun a b => (Engine.add128 m a b).1) hF rfl
        (sadd_test_iff_fits m ha hb) fun _ => Engine.add128_eq_wrapInt m ha hb⟩
  · exact ⟨by simpa [encode] using word (by decide),
      .fittingOperands (kind := .arithmeticOverflow) (op := fun a b => (Engine.sub128 m a b).1) hF rfl
        (ssub_test_iff_fits m ha hb) fun _ => Engine.sub128_eq_wrapInt m ha hb⟩

/-- Settles O41: the command makes the test of the exact product itself. -/
theorem signedLeftShiftExact : Obligations.SignedLeftShiftExact := by
  intro s m rs1 rs2 rs3 hF
  have reading := sgn128_eq_signed128 (s.val128_lt rs2)
  refine ⟨by simpa [encode] using wordR_toNat_of_wide (op := 0x6C) (by decide) 0 rs1 rs2 rs3 m, ?_⟩
  exact .fittingShift (op := fun n a => wrapInt 128 (sgn128 a * 2 ^ n)) hF rfl (fun _ => by rw [reading])
    fun _ _ => by rw [reading, wrapInt]

/-- A quotient with the vacated bits filled with the sign is the floor of the signed quotient (R291). -/
theorem sign_filled_eq_floor {a n : Nat} (ha : a < 2 ^ 128) (hn : n ≤ 128) :
    ((a / 2 ^ n + if 2 ^ 127 ≤ a then 2 ^ 128 - 2 ^ (128 - n) else 0 : Nat) : Int) = signed128 a / 2 ^ n % 2 ^ 128 := by
  rw [← sar_eq_floor ha hn]
  rcases Nat.lt_or_ge a (2 ^ 127) with hlt | hge
  · rw [if_pos hlt, if_neg (Nat.not_le.2 hlt), Nat.add_zero]
  · rw [if_neg (Nat.not_lt.2 hge), if_pos hge]

/-- Settles O42: the quotient in closed form in both modes, with the sign filled in. -/
theorem signedRightShiftFloor : Obligations.SignedRightShiftFloor := by
  intro s m rs1 rs2 rs3 hF
  have ha := s.val128_lt rs2
  refine ⟨by simpa [encode] using wordR_toNat_of_wide (op := 0x6D) (by decide) 0 rs1 rs2 rs3 m, ?_⟩
  refine .shiftedRight (op := fun n a => (Engine.shiftRight128 m a n).1 + if neg128 a then 2 ^ 128 - 2 ^ (128 - n) else 0) hF rfl ?_
    fun hn wrote => ⟨sign_filled_eq_floor ha hn, wrote⟩
  simp only [Engine.shiftRight128_eq m ha, neg128, decide_eq_true_eq]

end Sys2Proof.Machine
end


section
/-! PROOFS. What the block does while a fault is latched: a presented word is dropped, whatever it is, and the fault-clear clears the four
fault fields (60_exceptions.md R321, R325). -/

namespace Sys2Proof.Machine

theorem exec_halted {s : State} (hF : s.fault = true) (i : Instr) : exec i s = .next s := by
  obtain ⟨body, e, -⟩ := exec_runs i s
  rw [e, command_halted hF]

/-- While a fault is latched a word is dropped, whether it is a command or not (R321). -/
theorem issueWord_halted {s : State} (hF : s.fault = true) (w : CmdWord) : issueWord w s = .next s := by
  unfold issueWord
  split
  · exact exec_halted hF _
  · exact if_pos hF

/-- The host sees that it presented the word, and nothing else changes. -/
theorem hostMove_issue_halted {s : State} (hF : s.fault = true) (w : CmdWord) :
    hostMove (.issue w) s = .next (s.observe (.issue w) none) :=
  issueWord_halted (s := s.observe (.issue w) none) hF w

theorem hostMove_faultClear {s : State} (hF : s.fault = true) : hostMove .faultClear s = .next (s.clearFault.observe .faultClear none) :=
  if_pos hF

/-- Settles O45: the step presents the word, and the halted block drops it. -/
theorem haltedBlockDropsWords : Obligations.HaltedBlockDropsWords := by
  intro s w rest hF hhost
  rw [step_of_host hhost]
  exact hostMove_issue_halted (s := { s with host := rest }) hF w

/-- Settles O46: the step makes the fault-clear move, which is legal while a fault is latched. -/
theorem faultClearReturns : Obligations.FaultClearReturns := by
  intro s rest hF hhost
  rw [step_of_host hhost]
  exact hostMove_faultClear hF

end Sys2Proof.Machine
end


section
/-! PROOFS. Which faults a pseudocode can raise: those its command's row of R319 marks; the rules that carry this through tests, reads and
writes, and why the allocator's own accesses, all of them inside the heap, raise none (60_exceptions.md R319, 42_allocator.md R163 to R178). -/

namespace Sys2Proof

/-- The command's row of R319 marks the fault. -/
def Instr.marks (i : Instr) (k : Machine.FaultKind) : Bool := i.raises.contains k.number.toNat

end Sys2Proof

namespace Sys2Proof.Machine

/-! ### Pseudocodes that raise marked faults only -/

/-- Whatever `x` raises is marked in the row of command `i`. -/
def OnlyMarked {α : Type} (i : Instr) (x : Except Raise α) : Prop := ∀ r, x = .error r → i.marks r.kind = true

namespace OnlyMarked

variable {i : Instr} {α β : Type} {x y : Except Raise α} {f : α → Except Raise β} {s : State} {a n v : Nat}

theorem ok (a : α) : OnlyMarked i (.ok a) := nofun

theorem error {r : Raise} (h : i.marks r.kind = true) : OnlyMarked i (.error r : Except Raise α) := fun _ e => Except.error.inj e ▸ h

theorem bind (hx : OnlyMarked i x) (hf : ∀ a, x = .ok a → OnlyMarked i (f a)) : OnlyMarked i (x >>= f) := fun r h => by
  rcases bind_eq_error.1 h with h | ⟨a, ha, h⟩
  · exact hx r h
  · exact hf a ha r h

theorem ite {c : Prop} [Decidable c] (h : c → OnlyMarked i x) (h' : ¬c → OnlyMarked i y) : OnlyMarked i (if c then x else y) := by
  split
  · exact h ‹_›
  · exact h' ‹_›

theorem test {c : Prop} [Decidable c] {kind : FaultKind} (hk : i.marks kind = true) (info : Nat) :
    OnlyMarked i (Machine.require c kind info) := fun r h => by
  rw [(require_eq_error.1 h).2]
  exact hk

theorem require {c : Prop} [Decidable c] {kind : FaultKind} {info : Nat} {f : Unit → Except Raise β} (hk : i.marks kind = true)
    (h : c → OnlyMarked i (f ())) : OnlyMarked i (Machine.require c kind info >>= f) :=
  bind (test hk info) fun _ hc => h (require_eq_ok.1 hc)

/-- An access at an operand can find no heap, or be out of range (R62). -/
theorem memRead (hH : i.marks .heapState = true) (hA : i.marks .addressOutOfRange = true) : OnlyMarked i (Machine.memRead s a n) :=
  .require hH fun _ => .require hA fun _ => .ok _

theorem memWrite (hH : i.marks .heapState = true) (hA : i.marks .addressOutOfRange = true) : OnlyMarked i (Machine.memWrite s a n v) :=
  .require hH fun _ => .require hA fun _ => .ok _

/-- A read inside the heap raises nothing. -/
theorem memRead_inside (hb : HeapBounds s) (h : a + n ≤ s.cap) : OnlyMarked i (Machine.memRead s a n) := by
  have := hb.cap
  rw [memRead_of hb.init (by omega) h]
  exact .ok _

theorem memWrite_inside (hb : HeapBounds s) (h : a + n ≤ s.cap) : OnlyMarked i (Machine.memWrite s a n v) := by
  have := hb.cap
  rw [memWrite_of hb.init (by omega) h]
  exact .ok _

end OnlyMarked

/-! ### Where the heap ends through the procedures -/

variable {i : Instr} {s t : State} {l : FreeList} {p size r steps prev : Nat}

theorem HeapBounds.of_frame (hb : HeapBounds s) (frame : HeapFrame s t) (same : SameBounds s t) : HeapBounds t :=
  ⟨frame.init.trans hb.init, by rw [same.1, same.2]; exact hb.bump, by rw [same.2]; exact hb.cap⟩

theorem take_bounds (h : take s l prev p = .ok t) : SameBounds s t := by
  obtain ⟨next, -, h⟩ := bind_eq_ok.1 h
  split at h
  · cases h
    exact ⟨State.setHead_bump .., State.setHead_cap ..⟩
  · exact memWrite_bounds h

theorem writeTags_heapBounds {u : Nat} (hb : HeapBounds s) (h : writeTags s p size u = .ok t) : HeapBounds t :=
  hb.of_frame (writeTags_frame h) (writeTags_bump_cap h)

theorem unlink_heapBounds (hb : HeapBounds s) (h : unlink s l p = .ok t) : HeapBounds t :=
  hb.of_frame (unlink_frame h) (unlink_bounds h)

/-- The chunk `ReadChunk` answers lies below BUMP, its footer included (R164). -/
theorem readChunk_below {u : Nat} (hb : HeapBounds s) (h : readChunk s p = .ok (size, u)) : p + size + 8 ≤ s.bump.toNat ∧ 16 ≤ size := by
  rcases readChunk_cases hb p with ⟨⟨a, z, used⟩, rfl, hc, e⟩ | ⟨-, e⟩
  · obtain ⟨rfl, -⟩ := Prod.mk.inj (Except.ok.inj (h.symm.trans e))
    obtain ⟨-, -, hsize, -, hend⟩ := hc.bounds
    exact ⟨hend, hsize⟩
  · cases h.symm.trans e

/-- The first bytes of a chunk that `ReadChunk` answers, where a free chunk has its link, exist. -/
theorem readChunk_link {u : Nat} (hb : HeapBounds s) (h : readChunk s p = .ok (size, u)) : p + 8 ≤ s.bump.toNat := by
  have := readChunk_below hb h
  omega

/-! ### Chunks and lists (R164 to R167) -/

theorem writeTags_marked {u : Nat} (hb : HeapBounds s) (h : p + size + 8 ≤ s.cap) : OnlyMarked i (writeTags s p size u) :=
  .bind (.memWrite_inside hb (by omega)) fun _ hw =>
    .memWrite_inside (hb.of_frame (memWrite_frame hw) (memWrite_bounds hw)) ((memWrite_bounds hw).2 ▸ h)

theorem insertChunk_marked (hb : HeapBounds s) (h : p + 8 ≤ s.cap) : OnlyMarked i (insertChunk s p size) :=
  .bind (.memWrite_inside hb h) fun _ _ => .ok _

theorem readChunk_marked (hC : i.marks .corruptionDetected = true) (hb : HeapBounds s) (p : Nat) : OnlyMarked i (readChunk s p) := by
  rcases readChunk_cases hb p with ⟨c, -, -, e⟩ | ⟨-, e⟩
  · rw [e]
    exact .ok _
  · rw [e]
    exact .error hC

theorem findFitFrom_marked (hC : i.marks .corruptionDetected = true) (hb : HeapBounds s) :
    OnlyMarked i (findFitFrom s r steps prev p) := by
  induction steps generalizing prev p with
  | zero => exact .ite (fun _ => .ok _) fun _ => .error hC
  | succ steps ih =>
    refine .ite (fun _ => .ok _) fun _ => .bind (readChunk_marked hC hb p) fun ⟨size, u⟩ hread => .require hC fun _ =>
      .ite (fun _ => .ok _) fun _ => .bind (.memRead_inside hb ?_) fun _ _ => ih
    exact Nat.le_trans (readChunk_link hb hread) hb.bump

theorem findFit_marked (hC : i.marks .corruptionDetected = true) (hb : HeapBounds s) : OnlyMarked i (findFit s l r) :=
  findFitFrom_marked hC hb

/-- The chunk before the one a search found has its link below BUMP. -/
theorem findFitFrom_prev {f : Fit} (hb : HeapBounds s) (hprev : prev + 8 ≤ s.bump.toNat)
    (h : findFitFrom s r steps prev p = .ok (some f)) : f.prev + 8 ≤ s.bump.toNat := by
  induction steps generalizing prev p with
  | zero =>
    unfold findFitFrom at h
    split at h <;> cases h
  | succ steps ih =>
    unfold findFitFrom at h
    split at h
    · cases h
    · obtain ⟨⟨size, u⟩, hread, h⟩ := bind_eq_ok.1 h
      obtain ⟨_, -, h⟩ := bind_eq_ok.1 h
      split at h
      · cases h
        exact hprev
      · obtain ⟨next, -, h⟩ := bind_eq_ok.1 h
        exact ih (readChunk_link hb hread) h

theorem findPrevFrom_marked {q : Nat} (hC : i.marks .corruptionDetected = true) (hb : HeapBounds s) :
    OnlyMarked i (findPrevFrom s q steps prev p) := by
  induction steps generalizing prev p with
  | zero => exact .ite (fun _ => .ok _) fun _ => .error hC
  | succ steps ih =>
    refine .ite (fun _ => .require hC fun _ => .ok _) fun _ => .bind (readChunk_marked hC hb p) fun ⟨size, u⟩ hread => .require hC fun _ =>
      .bind (.memRead_inside hb ?_) fun _ _ => ih
    exact Nat.le_trans (readChunk_link hb hread) hb.bump

/-- The chunk before the one a walk was to find has its link below BUMP. -/
theorem findPrevFrom_prev {q k : Nat} (hb : HeapBounds s) (hprev : prev + 8 ≤ s.bump.toNat)
    (h : findPrevFrom s q steps prev p = .ok k) : k + 8 ≤ s.bump.toNat := by
  induction steps generalizing prev p with
  | zero =>
    unfold findPrevFrom at h
    split at h <;> cases h
    exact hprev
  | succ steps ih =>
    unfold findPrevFrom at h
    split at h
    · obtain ⟨_, -, h⟩ := bind_eq_ok.1 h
      cases h
      exact hprev
    · obtain ⟨⟨size, u⟩, hread, h⟩ := bind_eq_ok.1 h
      obtain ⟨_, -, h⟩ := bind_eq_ok.1 h
      obtain ⟨next, -, h⟩ := bind_eq_ok.1 h
      exact ih (readChunk_link hb hread) h

theorem take_marked (hb : HeapBounds s) (hprev : prev + 8 ≤ s.bump.toNat) (hp : p + 8 ≤ s.bump.toNat) : OnlyMarked i (take s l prev p) :=
  .bind (.memRead_inside hb (Nat.le_trans hp hb.bump)) fun _ _ =>
    .ite (fun _ => .ok _) fun _ => .memWrite_inside hb (Nat.le_trans hprev hb.bump)

theorem unlink_marked (hC : i.marks .corruptionDetected = true) (hb : HeapBounds s) (hp : p + 8 ≤ s.bump.toNat) :
    OnlyMarked i (unlink s l p) :=
  .bind (findPrevFrom_marked hC hb) fun _ h => take_marked hb (findPrevFrom_prev hb (by omega) h) hp

/-! ### Allocation (R168, R172, R174) -/

theorem place_marked (hb : HeapBounds s) (h : p + size + 8 ≤ s.bump.toNat) : OnlyMarked i (place s p size r) := by
  have := hb.bump
  refine .ite (fun _ => ?_) fun _ => writeTags_marked hb (by omega)
  refine .bind (writeTags_marked hb (by omega)) fun s1 h1 => ?_
  have hb1 := writeTags_heapBounds hb h1
  have cap1 := (writeTags_bump_cap h1).2
  refine .bind (writeTags_marked hb1 (by omega)) fun s2 h2 => ?_
  have cap2 := (writeTags_bump_cap h2).2
  exact insertChunk_marked (writeTags_heapBounds hb1 h2) (by omega)

/-- A chunk that a search found is taken and placed without a raise. -/
theorem claim_marked {f : Fit} (hb : HeapBounds s) (h : findFit s l r = .ok (some f)) : OnlyMarked i (claim s l f r) := by
  obtain ⟨hend, -⟩ := readChunk_below hb (findFit_ok h).2
  have hprev := findFitFrom_prev hb (by omega) h
  refine .bind (take_marked hb hprev (by omega)) fun s1 h1 => ?_
  have bump1 := (take_bounds h1).1
  exact .bind (place_marked (hb.of_frame (take_frame h1) (take_bounds h1)) (by rw [bump1]; exact hend)) fun _ _ => .ok _

theorem ensureCapacity_marked (hO : i.marks .outOfMemory = true) (n : Nat) : OnlyMarked i (ensureCapacity s n) :=
  .ite (fun _ => .require hO fun _ => .ok _) fun _ => .ok _

theorem bumpAlloc_marked (hO : i.marks .outOfMemory = true) (hs : Inv s) (hi : s.init = true) : OnlyMarked i (bumpAlloc s r) :=
  .bind (ensureCapacity_marked hO _) fun s1 h1 => by
    have grown := ensureCapacity_kept hi h1
    have room := ensureCapacity_cap h1
    exact .bind (writeTags_marked ((grown.inv hs).heapBounds (grown.init hi)) (by omega)) fun _ _ => .ok _

theorem allocLarge_marked (hC : i.marks .corruptionDetected = true) (hO : i.marks .outOfMemory = true) (hs : Inv s) (hi : s.init = true) :
    OnlyMarked i (allocLarge s r) :=
  .bind (findFit_marked hC (hs.heapBounds hi)) fun
    | some _, h => claim_marked (hs.heapBounds hi) h
    | none, _ => bumpAlloc_marked hO hs hi

theorem alloc_marked (hC : i.marks .corruptionDetected = true) (hO : i.marks .outOfMemory = true) (hs : Inv s) (hi : s.init = true)
    (n : Nat) : OnlyMarked i (alloc s n) :=
  .ite
    (fun _ => .bind (findFit_marked hC (hs.heapBounds hi)) fun
      | some _, h => claim_marked (hs.heapBounds hi) h
      | none, _ => allocLarge_marked hC hO hs hi)
    fun _ => allocLarge_marked hC hO hs hi

/-! ### Freeing (R173) -/

theorem mergePreceding_marked (hC : i.marks .corruptionDetected = true) (hb : HeapBounds s) (h : p + size + 8 ≤ s.bump.toNat) :
    OnlyMarked i (mergePreceding s p size) := by
  have := hb.bump
  refine .ite (fun _ => .bind (.memRead_inside hb (by omega)) fun pf _ => .ite (fun _ => ?_) fun _ => .ok _) fun _ => .ok _
  exact .require hC fun _ => .bind (readChunk_marked hC hb _) fun ⟨_, _⟩ hread => .require hC fun _ =>
    .bind (unlink_marked hC hb (readChunk_link hb hread)) fun _ _ => .ok _

theorem mergeFollowing_marked (hC : i.marks .corruptionDetected = true) (hb : HeapBounds s) : OnlyMarked i (mergeFollowing s p size) :=
  .ite
    (fun _ => .bind (readChunk_marked hC hb p) fun ⟨_, _⟩ hread =>
      .ite (fun _ => .bind (unlink_marked hC hb (readChunk_link hb hread)) fun _ _ => .ok _) fun _ => .ok _)
    fun _ => .ok _

/-- The chunk merged with the preceding one ends where the freed one did, and BUMP and CAP are as they were. -/
theorem mergePreceding_end {start merged : Nat} (hb : HeapBounds s) (h : mergePreceding s p size = .ok (start, merged, t)) :
    start + merged = p + size ∧ HeapBounds t ∧ SameBounds s t := by
  rcases mergePreceding_ok h with ⟨rfl, rfl, rfl, -⟩ | ⟨ps, -, -, -, -, hstart, h16, hmerged, -, hu⟩
  · exact ⟨rfl, hb, rfl, rfl⟩
  · exact ⟨by omega, unlink_heapBounds hb hu, unlink_bounds hu⟩

/-- The chunk merged with the following one, whose payload is 16 bytes after its own, ends below BUMP. -/
theorem mergeFollowing_end {start merged : Nat} (hb : HeapBounds s) (h : mergeFollowing s (start + size + 16) size = .ok (merged, t))
    (hend : start + size + 8 ≤ s.bump.toNat) : start + merged + 8 ≤ t.cap ∧ HeapBounds t := by
  have := hb.bump
  rcases mergeFollowing_ok h with ⟨rfl, rfl, -⟩ | ⟨ns, -, hread, rfl, hu⟩
  · exact ⟨by omega, hb⟩
  · have below := readChunk_below hb hread
    have cap := (unlink_bounds hu).2
    exact ⟨by omega, unlink_heapBounds hb hu⟩

/-- Freeing a chunk below BUMP raises nothing but CorruptionDetected, whatever the bytes of the heap are. -/
theorem freeChunk_marked (hC : i.marks .corruptionDetected = true) (hb : HeapBounds s) (h : p + size + 8 ≤ s.bump.toNat) :
    OnlyMarked i (freeChunk s p size) :=
  .bind (mergePreceding_marked hC hb h) fun ⟨start, merged, s1⟩ h1 => by
    obtain ⟨hend, hb1, hbump, -⟩ := mergePreceding_end hb h1
    refine .bind (mergeFollowing_marked hC hb1) fun ⟨merged', s2⟩ h2 => ?_
    rw [← hend] at h2
    obtain ⟨hend', hb2⟩ := mergeFollowing_end hb1 h2 (by rw [hend, hbump]; exact h)
    refine .bind (writeTags_marked hb2 hend') fun s3 h3 => ?_
    have cap3 := (writeTags_bump_cap h3).2
    exact insertChunk_marked (writeTags_heapBounds hb2 h3) (by omega)

/-! ### Resizing (R178) -/

theorem shrinkChunk_marked (hC : i.marks .corruptionDetected = true) (hb : HeapBounds s) (h : p + size + 8 ≤ s.bump.toNat) :
    OnlyMarked i (shrinkChunk s p size r) := by
  have := hb.bump
  refine .ite (fun _ => ?_) fun _ => .ok _
  refine .bind (writeTags_marked hb (by omega)) fun s1 h1 => ?_
  have hb1 := writeTags_heapBounds hb h1
  obtain ⟨bump1, cap1⟩ := writeTags_bump_cap h1
  refine .bind (writeTags_marked hb1 (by omega)) fun s2 h2 => ?_
  have bump2 := (writeTags_bump_cap h2).1
  exact freeChunk_marked hC (writeTags_heapBounds hb1 h2) (by rw [bump2, bump1]; omega)

theorem moveChunk_marked {n : Nat} (hC : i.marks .corruptionDetected = true) (hO : i.marks .outOfMemory = true) (hs : Inv s)
    (hi : s.init = true) (h : p + size + 8 ≤ s.bump.toNat) : OnlyMarked i (moveChunk s p size n) :=
  .bind (alloc_marked hC hO hs hi n) fun ⟨q, s1⟩ h1 => by
    obtain ⟨-, -, -, hmax⟩ := hs.heap hi
    obtain ⟨hb1, frame, -⟩ := alloc_bounds (hs.heapBounds hi) hs.heapMax.2 hmax h1
    exact .bind (freeChunk_marked hC (hb1.withMem _) (Nat.le_trans h frame.bump)) fun _ _ => .ok _

end Sys2Proof.Machine
end


section
/-! PROOFS. That every command raises only the faults its row of R319 marks, whatever the bytes of the heap are (60_exceptions.md R319). -/

namespace Sys2Proof.Machine

/-! ### The pseudocode of a command -/

/-- The pseudocode of command `i` from `s` leaves the latch alone when it answers and raises only faults the command's row marks. -/
structure EndsMarked (i : Instr) (s : State) (body : Except Raise State) : Prop where
  answers : ∀ t, body = .ok t → t.fault = s.fault
  raises : OnlyMarked i body

/-- `o` is the outcome of command `i` from `s` by a pseudocode that ends as the command's row of R319 says. -/
def RunsMarked (i : Instr) (s : State) (o : Host.Outcome State Fault Refusal) : Prop := ∃ body, o = command i s body ∧ EndsMarked i s body

namespace EndsMarked

variable {i : Instr} {s t : State} {α : Type} {x : Except Raise α} {f : α → Except Raise State} {body body' : Except Raise State}

theorem runs (h : EndsMarked i s body) : RunsMarked i s (command i s body) := ⟨body, rfl, h⟩

theorem ok (h : t.fault = s.fault) : EndsMarked i s (.ok t) := ⟨fun _ e => Except.ok.inj e ▸ h, .ok t⟩

theorem reg {rd : Reg} {v : Nat} : EndsMarked i s (.ok (s.setReg rd v)) := ok rfl

theorem error {r : Raise} (h : i.marks r.kind = true) : EndsMarked i s (.error r) := ⟨nofun, .error h⟩

theorem bind (hx : OnlyMarked i x) (h : ∀ a, x = .ok a → EndsMarked i s (f a)) : EndsMarked i s (x >>= f) :=
  ⟨fun t e => by
    obtain ⟨a, ha, ht⟩ := bind_eq_ok.1 e
    exact (h a ha).answers t ht,
    hx.bind fun a ha => (h a ha).raises⟩

theorem ite {c : Prop} [Decidable c] (h : c → EndsMarked i s body) (h' : ¬c → EndsMarked i s body') :
    EndsMarked i s (if c then body else body') := by
  split
  · exact h ‹_›
  · exact h' ‹_›

theorem require {c : Prop} [Decidable c] {kind : FaultKind} {info : Nat} {f : Unit → Except Raise State} (hk : i.marks kind = true)
    (h : c → EndsMarked i s (f ())) : EndsMarked i s (Machine.require c kind info >>= f) :=
  bind (.test hk info) fun _ hc => h (require_eq_ok.1 hc)

section

variable (hH : i.marks .heapState = true) (hA : i.marks .addressOutOfRange = true)

include hH hA

theorem memRead {a n : Nat} {f : Nat → Except Raise State} (h : ∀ v, EndsMarked i s (f v)) : EndsMarked i s (Machine.memRead s a n >>= f) :=
  bind (.memRead hH hA) fun v _ => h v

theorem memWrite {a n v : Nat} : EndsMarked i s (Machine.memWrite s a n v) := ⟨fun _ h => (memWrite_frame h).fault, .memWrite hH hA⟩

/-- A write, and then what leaves the latch alone. -/
theorem memWriteThen {a n v : Nat} {g : State → State} (hg : ∀ u : State, (g u).fault = u.fault) :
    EndsMarked i s (Machine.memWrite s a n v >>= fun u => .ok (g u)) :=
  bind (.memWrite hH hA) fun u h => ok ((hg u).trans (memWrite_frame h).fault)

end

theorem shiftCount {r : Reg} {f : Nat → Except Raise State} (hk : i.marks .invalidArgument = true) (h : ∀ n, EndsMarked i s (f n)) :
    EndsMarked i s (Machine.shiftCount s r >>= f) :=
  bind (.require hk fun _ => .ok _) fun n _ => h n

end EndsMarked

/-! ### Heap and allocator commands -/

theorem DifferInHeap.fault {s t : State} (h : DifferInHeap s t) : t.fault = s.fault := by rw [h]

/-- The tests of the chunk FREE and REALLOC are given, and then the command's own part, which may rely on the chunk lying below BUMP. -/
theorem withChunk_marked {i : Instr} {s : State} {a : Nat} {rest : Nat → Except Raise State} (hI : i.marks .invalidArgument = true)
    (hC : i.marks .corruptionDetected = true) (hb : HeapBounds s)
    (h : ∀ size, a + size + 8 ≤ s.bump.toNat → EndsMarked i s (rest size)) : EndsMarked i s (withChunk s a rest) :=
  .require hI fun _ => .bind (readChunk_marked hC hb a) fun ⟨size, _⟩ hread => .require hC fun _ => h size (readChunk_below hb hread).1

section

variable {s : State} (rd rs1 rs2 rs3 : Reg)

theorem hensure_marked : RunsMarked (.hensure rs1) s (execHensure rs1 s) :=
  EndsMarked.runs <| .require rfl fun _ => .require rfl fun _ =>
    ⟨fun _ h => (ensureCapacity_frame h).fault, ensureCapacity_marked rfl _⟩

theorem memcpy_marked : RunsMarked (.memcpy rs1 rs2 rs3) s (execMemcpy rs1 rs2 rs3 s) :=
  EndsMarked.runs <| .require rfl fun _ => .require rfl fun _ => .ite (fun _ => .ok rfl) fun _ =>
    .require rfl fun _ => .require rfl fun _ => .require rfl fun _ => .ok rfl

theorem memmove_marked : RunsMarked (.memmove rs1 rs2 rs3) s (execMemmove rs1 rs2 rs3 s) :=
  EndsMarked.runs <| .require rfl fun _ => .require rfl fun _ => .ite (fun _ => .ok rfl) fun _ =>
    .require rfl fun _ => .require rfl fun _ => .ok rfl

theorem memset_marked : RunsMarked (.memset rs1 rs2 rs3) s (execMemset rs1 rs2 rs3 s) :=
  EndsMarked.runs <| .require rfl fun _ => .require rfl fun _ => .ite (fun _ => .ok rfl) fun _ => .require rfl fun _ => .ok rfl

theorem malloc_marked (hs : Inv s) : RunsMarked (.malloc rd rs1) s (execMalloc rd rs1 s) :=
  EndsMarked.runs <| .require rfl fun hi => .require rfl fun _ => .bind (alloc_marked rfl rfl hs hi _) fun _ h =>
    .ok (alloc_differ h).fault

theorem calloc_marked (hs : Inv s) : RunsMarked (.calloc rd rs1 rs2) s (execCalloc rd rs1 rs2 s) :=
  EndsMarked.runs <| .require rfl fun hi => .require rfl fun _ => .require rfl fun _ => .require rfl fun _ =>
    .bind (alloc_marked rfl rfl hs hi _) fun _ h => .ok (alloc_differ h).fault

theorem free_marked (hs : Inv s) : RunsMarked (.free rs1) s (execFree rs1 s) :=
  EndsMarked.runs <| .require rfl fun hi => .ite (fun _ => .ok rfl) fun _ =>
    have hb := hs.heapBounds hi
    withChunk_marked (rest := fun size => freeChunk s (s.reg rs1) size >>= fun t => pure (t.removeLive (s.reg rs1))) rfl rfl hb
      fun _ hend => .bind (freeChunk_marked rfl hb hend) fun _ h => .ok (freeChunk_frame h).fault

theorem resize_marked (hs : Inv s) (hi : s.init = true) {a n size : Nat} (hend : a + size + 8 ≤ s.bump.toNat) :
    EndsMarked (.realloc rd rs1 rs2) s (resize s rd a n size) :=
  .ite
    (fun _ => .bind (shrinkChunk_marked rfl (hs.heapBounds hi) hend) fun _ h => .ok (shrinkChunk_frame h).fault)
    fun _ => .bind (moveChunk_marked rfl rfl hs hi hend) fun _ h => .ok (moveChunk_differ h).fault

theorem realloc_marked (hs : Inv s) : RunsMarked (.realloc rd rs1 rs2) s (execRealloc rd rs1 rs2 s) :=
  EndsMarked.runs <| .require rfl fun hi => .require rfl fun _ => .ite
    (fun _ => .bind (alloc_marked rfl rfl hs hi _) fun _ h => .ok (alloc_differ h).fault)
    fun _ => withChunk_marked rfl rfl (hs.heapBounds hi) fun _ hend => resize_marked rd rs1 rs2 hs hi hend

end

/-! ### Every command -/

/-- Every command raises only what its row of R319 marks: the tests of its pseudocode one by one. -/
theorem exec_marked {s : State} (hs : Inv s) (i : Instr) : RunsMarked i s (exec i s) := by
  cases i with
  -- System and register commands
  | nop => exact EndsMarked.runs (.ok rfl)
  | ldi rd imm | ldis rd imm | mov rd rs1 => exact EndsMarked.reg.runs
  | rdsr rd imm =>
    refine EndsMarked.runs ?_
    split
    · exact .reg
    · exact .error rfl
  -- Heap commands
  | hinit rs1 => exact EndsMarked.runs (.require rfl fun _ => .require rfl fun _ => .require rfl fun _ => .ok rfl)
  | hensure rs1 => exact hensure_marked rs1
  | ld8 rd rs1 | ld16 rd rs1 | ld32 rd rs1 | ld64 rd rs1 => exact EndsMarked.runs (.memRead rfl rfl fun _ => .ok rfl)
  | st8 rs1 rs2 | st16 rs1 rs2 | st32 rs1 rs2 | st64 rs1 rs2 => exact EndsMarked.runs (.memWrite rfl rfl)
  | memcpy rs1 rs2 rs3 => exact memcpy_marked rs1 rs2 rs3
  | memmove rs1 rs2 rs3 => exact memmove_marked rs1 rs2 rs3
  | memset rs1 rs2 rs3 => exact memset_marked rs1 rs2 rs3
  -- Allocator commands
  | malloc rd rs1 => exact malloc_marked rd rs1 hs
  | calloc rd rs1 rs2 => exact calloc_marked rd rs1 rs2 hs
  | free rs1 => exact free_marked rs1 hs
  | realloc rd rs1 rs2 => exact realloc_marked rd rs1 rs2 hs
  -- Engine commands: one test of a count, an index or a width, or none
  | shl m w rd rs1 rs2 | shr m w rd rs1 rs2 | ushr m w rd rs1 rs2 => exact EndsMarked.runs (.require rfl fun _ => .ok rfl)
  | bshl m w rd rs1 rs2 | bshr m w rd rs1 rs2 | bushr m w rd rs1 rs2 => exact EndsMarked.runs (.require rfl fun _ => .ok rfl)
  | and m w rd rs1 rs2 | or m w rd rs1 rs2 | xor m w rd rs1 rs2 | not m w rd rs1 | popcnt m w rd rs1 => exact EndsMarked.reg.runs
  | btest m w rd rs1 rs2 | bset m w rd rs1 rs2 | bclr m w rd rs1 rs2 | btgl m w rd rs1 rs2 =>
    exact EndsMarked.runs (.require rfl fun _ => .ok rfl)
  | mask m w rd rs1 | sext m w rd rs1 rs2 | zext m w rd rs1 rs2 => exact EndsMarked.runs (.require rfl fun _ => .ok rfl)
  | bdec m w rs1 rs2 => exact EndsMarked.runs (.memWrite rfl rfl)
  | bcomp m w rd rs1 => exact EndsMarked.runs (.memRead rfl rfl fun _ => .ok rfl)
  -- Limb commands
  | addh m rd rs1 rs2 rs3 | subh m rd rs1 rs2 rs3 =>
    exact EndsMarked.runs (.require rfl fun _ => .memRead rfl rfl fun _ => .memRead rfl rfl fun _ => .memWriteThen rfl rfl fun _ => rfl)
  | shlh m rs1 rs2 rs3 | shrh m rs1 rs2 rs3 =>
    exact EndsMarked.runs (.require rfl fun _ => .shiftCount rfl fun _ => .memRead rfl rfl fun _ => .memWriteThen rfl rfl fun _ => rfl)
  | cmph rd rs1 rs2 | scmp rd rs1 rs2 =>
    exact EndsMarked.runs (.require rfl fun _ => .memRead rfl rfl fun _ => .memRead rfl rfl fun _ => .ok rfl)
  | zeroh rs1 | wru64h rs1 rs2 | wrs64h rs1 rs2 => exact EndsMarked.runs (.require rfl fun _ => .memWrite rfl rfl)
  | hexh rs1 rs2 => exact EndsMarked.runs (.require rfl fun _ => .memRead rfl rfl fun _ => .memWrite rfl rfl)
  -- 128-bit typed commands
  | uadd m rs1 rs2 rs3 | usub m rs1 rs2 rs3 | sadd m rs1 rs2 rs3 | ssub m rs1 rs2 rs3 =>
    exact EndsMarked.runs (.require rfl fun _ => .memRead rfl rfl fun _ => .memRead rfl rfl fun _ => .require rfl fun _ => .memWrite rfl rfl)
  | ushl m rs1 rs2 rs3 | sshl m rs1 rs2 rs3 =>
    exact EndsMarked.runs (.require rfl fun _ => .shiftCount rfl fun _ => .memRead rfl rfl fun _ => .require rfl fun _ => .memWrite rfl rfl)
  | usrl m rs1 rs2 rs3 | ssar m rs1 rs2 rs3 =>
    exact EndsMarked.runs (.require rfl fun _ => .shiftCount rfl fun _ => .memRead rfl rfl fun _ => .memWrite rfl rfl)
  | sneg m rs1 rs2 => exact EndsMarked.runs (.require rfl fun _ => .memRead rfl rfl fun _ => .require rfl fun _ => .memWrite rfl rfl)

/-- Settles O44: a latched fault is what the command's pseudocode raised, and its row marks that. -/
theorem faultsAreThoseOfTheTable : Obligations.FaultsAreThoseOfTheTable := by
  intro i s t hs hF h ht
  obtain ⟨body, e, ends⟩ := exec_marked hs i
  rcases command_next (e.symm.trans h) with ⟨hT, -⟩ | ⟨-, u, hu, rfl⟩ | ⟨-, r, hr, rfl⟩
  · cases hF.symm.trans hT
  · cases ht.symm.trans ((ends.answers u hu).trans hF)
  · have code : (BitVec.ofNat 8 r.kind.number.toNat).toNat = r.kind.number.toNat := by rw [BitVec.ofNat_toNat, BitVec.setWidth_eq]
    exact code.symm ▸ List.contains_iff_mem.1 (ends.raises r hr)

end Sys2Proof.Machine
end

section
/-! PROOFS. The reset move, which takes the block to the reset state whatever the state was and keeps what is not the block's
(70_reset_and_hazards.md R350), and the words the spec writes out, each read back from its encoding (30_encoding.md R91, R92). -/

namespace Sys2Proof.Machine

/-- The reset is made in every state, with or without a latched fault (R350). -/
theorem hostMove_reset (s : State) : hostMove .reset s = .next (s.blockReset.observe .reset none) := rfl

/-- Settles O48: the step makes the reset move, and the block's reset keeps HEAPMAX, the moves still to make and the trace. -/
theorem resetFromAnyState : Obligations.ResetFromAnyState := by
  intro s rest hhost
  rw [step_of_host hhost, hostMove_reset]
  simp only [State.observe, State.blockReset, State.reset]

end Sys2Proof.Machine

namespace Sys2Proof

/-- The form of `decode_encode` for a word written out as a number. -/
theorem decode_of_encode_eq {w : CmdWord} {i : Instr} (hi : i.wellFormed = true) (hw : encode i = w) : decode w = .ok i :=
  hw ▸ decode_encode i hi

/-- Settles O52: each word is its command's encoding, and the decoder reads every encoding back. -/
theorem exampleWordsDecode : Obligations.ExampleWordsDecode := by
  and_intros <;> exact decode_of_encode_eq rfl rfl

end Sys2Proof
end
